-- ==== Sys2Proof/Word.lean ====
section
/-! DEFINITION. The word types of the machine and the plainest arithmetic on them. -/

namespace Sys2Proof

/-- A 32-bit element: a lane of a row, a k register, a memory word (R55). -/
abbrev Word := BitVec 32

/-- A 64-bit value: an address, a system register, a register pair (R88, R107). -/
abbrev DWord := BitVec 64

/-- A byte of memory, of scratchpad or of a Beryl store. -/
abbrev Byte := BitVec 8

/-- A mask over the 32 lanes of a warp, or over the 32 warps of a workgroup. -/
abbrev Mask := BitVec 32

namespace Mask

/-- All lanes. -/
abbrev all : Mask := BitVec.ofNat 32 0xffffffff

/-- Bit `l` of the mask. -/
abbrev has (m : Mask) (l : Nat) : Bool := m.getLsbD l

/-- The mask with exactly bit `l` set. -/
abbrev one (l : Nat) : Mask := BitVec.ofNat 32 (2 ^ l)

end Mask

end Sys2Proof
end

