-- ==== Sys2Proof/Machine/Tab.lean ====
section
/-! DEFINITION. Sparse tables in one canonical form, and lists over the 32 lanes of a warp. A table lists
(key, value) pairs with keys strictly rising and never lists the value that an unlisted key reads as, so equal
tables are equal lists. -/

namespace Sys2Proof.Machine

/-- A sparse table from natural keys. -/
abbrev Tab (α : Type) := List (Nat × α)

/-- The value of key `k`; `d` is what an unlisted key reads as. -/
def Tab.get {α : Type} (d : α) : Tab α → Nat → α
  | [], _ => d
  | (i, v) :: t, k => if i = k then v else Tab.get d t k

/-- Removes key `k`. -/
def Tab.del {α : Type} : Tab α → Nat → Tab α
  | [], _ => []
  | (i, v) :: t, k => if i = k then Tab.del t k else (i, v) :: Tab.del t k

/-- Lists `(k, v)` in its place, whatever `v` is. -/
def Tab.ins {α : Type} : Tab α → Nat → α → Tab α
  | [], k, v => [(k, v)]
  | (i, u) :: t, k, v =>
    if i < k then (i, u) :: Tab.ins t k v else if i = k then (k, v) :: t else (k, v) :: (i, u) :: t

/-- Writes `v` at key `k`, keeping the canonical form for the default `d`. -/
def Tab.put {α : Type} [DecidableEq α] (d : α) (t : Tab α) (k : Nat) (v : α) : Tab α :=
  if v = d then t.del k else t.ins k v

/-- Applies `f` to the value at key `k`. -/
def Tab.upd {α : Type} [DecidableEq α] (d : α) (t : Tab α) (k : Nat) (f : α → α) : Tab α :=
  t.put d k (f (t.get d k))

/-- Keys strictly rise and stand above `lo`. -/
def Tab.rising {α : Type} : Nat → Tab α → Bool
  | _, [] => true
  | lo, (i, _) :: t => decide (lo ≤ i) && Tab.rising (i + 1) t

/-- The canonical form: keys strictly rising, no listed default. -/
def Tab.wf {α : Type} [DecidableEq α] (d : α) (t : Tab α) : Bool :=
  Tab.rising 0 t && t.all fun e => decide (e.2 ≠ d)

/-- The keys listed. -/
def Tab.keys {α : Type} (t : Tab α) : List Nat := t.map (·.1)

/-! ### Lanes -/

/-- A list with an element for each of the 32 lanes. -/
def Lanes.build {α : Type} (f : Nat → α) : List α := (List.range 32).map f

/-- Lane `l` of a list of lanes. -/
def Lanes.at {α : Type} (d : α) (xs : List α) (l : Nat) : α := xs.getD l d

/-- The mask of the lanes for which `f` holds. -/
def Lanes.mask (f : Nat → Bool) : Mask :=
  BitVec.ofBoolListLE (Lanes.build f) |>.setWidth 32

/-- The lanes of a mask in ascending order. -/
def Lanes.list (m : Mask) : List Nat := (List.range 32).filter (Mask.has m)

/-- The lowest lane of a mask. -/
def Lanes.low (m : Mask) : Option Nat := (Lanes.list m).head?

/-! ### Lists by position -/

/-- Replaces element `i`, if there is one. -/
def setAt {α : Type} (xs : List α) (i : Nat) (x : α) : List α := xs.set i x

/-- The association of a key in a list of pairs. -/
def assoc? {α β : Type} [DecidableEq α] (xs : List (α × β)) (k : α) : Option β :=
  (xs.find? fun e => decide (e.1 = k)).map (·.2)

/-- Replaces or adds the association of a key. -/
def assocPut {α β : Type} [DecidableEq α] : List (α × β) → α → β → List (α × β)
  | [], k, v => [(k, v)]
  | (i, u) :: t, k, v => if i = k then (k, v) :: t else (i, u) :: assocPut t k v

/-- Drops the association of a key. -/
def assocDel {α β : Type} [DecidableEq α] (xs : List (α × β)) (k : α) : List (α × β) :=
  xs.filter fun e => decide (e.1 ≠ k)

end Sys2Proof.Machine
end

