-- ==== Sys2Proof/Syntax.lean ====
section
/-! DEFINITION. The instructions of the machine as syntax: one constructor of `Instr` for each row of the
table of operations and events. Farale instructions carry the fields of their word (R164 to R175), Beryl
instructions the fields of theirs (R319), and events name the agent or the operation that they concern. -/

namespace Sys2Proof

/-- The fields every Farale word has beside OP and BODY (R164). -/
structure Head where
  neg  : Bool
  pidx : BitVec 3
  flag : BitVec 4
  lk   : BitVec 4
  deriving DecidableEq, Repr

/-- A 10-bit operand field (R174): bits 9:8 give the kind, bits 7:0 the rest. -/
inductive Opnd where
  | v   (n : BitVec 8)
  | u   (n : BitVec 8)
  | imm (x : BitVec 8)
  | sp  (i : BitVec 8)
  deriving DecidableEq, Repr

/-- Format A (R169). An unused operand field is `.v 0`, the field of ten zero bits. -/
structure BodyA where
  dst : Opnd
  sa  : Opnd
  sb  : Opnd
  sc  : Opnd
  mod : BitVec 3
  deriving DecidableEq, Repr

/-- Format I (R169, R213): `wide` is bit 0, the MOD of MOVI. -/
structure BodyI where
  dst  : Opnd
  imm  : BitVec 32
  wide : Bool
  deriving DecidableEq, Repr

/-- Format M (R169, R171). In the atomic opcodes `cache` and `mod` together are AOP (R240). -/
structure BodyM where
  data  : Opnd
  areg  : BitVec 4
  mode  : BitVec 3
  off   : BitVec 16
  sz    : BitVec 3
  scope : BitVec 3
  cache : BitVec 2
  mod   : BitVec 2
  deriving DecidableEq, Repr

/-- Format J (R169, R170): TGT and the parts of COND, its reserved bits 3:0 left out. -/
structure BodyJ where
  tgt  : BitVec 32
  kind : BitVec 2
  cneg : Bool
  cidx : BitVec 4
  deriving DecidableEq, Repr

/-- Format S (R169). -/
structure BodyS where
  dst  : Opnd
  sa   : Opnd
  sreg : BitVec 12
  deriving DecidableEq, Repr

/-- The E layout of MMA and MMAC (R300 and its table). -/
structure BodyMma where
  conv  : BitVec 3
  acc   : BitVec 4
  areg1 : BitVec 4
  areg2 : BitVec 4
  fs1   : BitVec 3
  fs2   : BitVec 3
  kf    : BitVec 6
  kop   : BitVec 6
  z     : Bool
  deriving DecidableEq, Repr

/-- The E layout of MZERO, ACCLD and ACCST (R306). -/
structure BodyAcc where
  acc  : BitVec 4
  areg : BitVec 4
  ks   : BitVec 6
  deriving DecidableEq, Repr

/-- The E layout of ACCMV (R307). -/
structure BodyAccmv where
  vec : Opnd
  acc : BitVec 4
  idx : Opnd
  put : Bool
  deriving DecidableEq, Repr

/-- The E layout of MEPI (R308). -/
structure BodyMepi where
  int   : Bool
  acc   : BitVec 4
  aregD : BitVec 4
  fs    : BitVec 3
  act   : BitVec 3
  scale : Opnd
  aregB : BitVec 4
  bv    : Bool
  ks    : BitVec 6
  deriving DecidableEq, Repr

/-- The register fields of an R-type Xfar word (R319). -/
structure BodyX where
  rd  : BitVec 5
  rs1 : BitVec 5
  rs2 : BitVec 5
  deriving DecidableEq, Repr

/-! ### RV64IMAC with Zicsr (R13, R317)

The manual names the RISC-V base and extensions and gives none of their encodings: the words below are those
of the RISC-V unprivileged specification (log 18, PRESUMED). -/

/-- Integer register operations of OP and OP-IMM, and their 32-bit forms. -/
inductive RvAlu where
  | add | sub | sll | slt | sltu | xor | srl | sra | or | and
  deriving DecidableEq, Repr

/-- The M extension. -/
inductive RvMul where
  | mul | mulh | mulhsu | mulhu | div | divu | rem | remu
  deriving DecidableEq, Repr

/-- Branch conditions. -/
inductive RvCond where
  | eq | ne | lt | ge | ltu | geu
  deriving DecidableEq, Repr

/-- Read-modify-write operations of the A extension. -/
inductive RvAmo where
  | swap | add | xor | and | or | min | max | minu | maxu
  deriving DecidableEq, Repr

/-- The six forms of a Zicsr instruction, by funct3. -/
inductive RvCsrOp where
  | rw | rs | rc | rwi | rsi | rci
  deriving DecidableEq, Repr

/-- An ordinary RISC-V instruction. Immediates are kept as the word holds them. -/
inductive Rv where
  | lui    (rd : BitVec 5) (imm : BitVec 20)
  | auipc  (rd : BitVec 5) (imm : BitVec 20)
  /-- `imm` is bits 20:1 of the offset -/
  | jal    (rd : BitVec 5) (imm : BitVec 20)
  | jalr   (rd rs1 : BitVec 5) (imm : BitVec 12)
  /-- `imm` is bits 12:1 of the offset -/
  | branch (c : RvCond) (rs1 rs2 : BitVec 5) (imm : BitVec 12)
  /-- `w` is log2 of the bytes; `uns` zero-extends -/
  | load   (w : BitVec 2) (uns : Bool) (rd rs1 : BitVec 5) (imm : BitVec 12)
  | store  (w : BitVec 2) (rs1 rs2 : BitVec 5) (imm : BitVec 12)
  /-- add, slt, sltu, xor, or, and with a 12-bit immediate -/
  | opImm  (f : RvAlu) (rd rs1 : BitVec 5) (imm : BitVec 12)
  /-- sll, srl, sra by a 6-bit amount -/
  | shImm  (f : RvAlu) (rd rs1 : BitVec 5) (sh : BitVec 6)
  | op     (f : RvAlu) (rd rs1 rs2 : BitVec 5)
  | addiw  (rd rs1 : BitVec 5) (imm : BitVec 12)
  /-- sllw, srlw, sraw by a 5-bit amount -/
  | shImmW (f : RvAlu) (rd rs1 : BitVec 5) (sh : BitVec 5)
  /-- add, sub, sll, srl, sra on 32 bits -/
  | opW    (f : RvAlu) (rd rs1 rs2 : BitVec 5)
  | mulDiv (f : RvMul) (rd rs1 rs2 : BitVec 5)
  /-- mul, div, divu, rem, remu on 32 bits -/
  | mulDivW (f : RvMul) (rd rs1 rs2 : BitVec 5)
  | fence  (fm pred succ : BitVec 4) (rd rs1 : BitVec 5)
  | ecall
  | ebreak
  | csr    (f : RvCsrOp) (rd src : BitVec 5) (csr : BitVec 12)
  /-- `d`: 64-bit -/
  | lr     (d aq rl : Bool) (rd rs1 : BitVec 5)
  | sc     (d aq rl : Bool) (rd rs1 rs2 : BitVec 5)
  | amo    (f : RvAmo) (d aq rl : Bool) (rd rs1 rs2 : BitVec 5)
  deriving DecidableEq, Repr

/-! ### The parties and operations that events name -/

/-- A warp of the machine: a warp of a resident workgroup, named by its INSTANCE (R277) and warp index, or the
supervisor warp of a core (R336). -/
inductive WRef where
  | user (inst w : Nat)
  | sup  (core : Nat)
  deriving DecidableEq, Repr

/-- The zones of a core (R421). -/
inductive Zone where
  | quarter (q : Nat)
  | matrix
  | beryl
  /-- slice `n` of the shared level: 0 to 15 on the west die, 16 to 31 on the east die -/
  | slice (n : Nat)
  deriving DecidableEq, Repr

/-- What a host access asks for (R418). -/
inductive HostReq where
  /-- BAR0: `off` in the BAR, `val` for a write -/
  | bar0Read  (off : Nat)
  | bar0Write (off : Nat) (val : DWord)
  /-- BAR2 (and CXL.mem): offset in the window, 8 bytes -/
  | bar2Read  (off : Nat)
  | bar2Write (off : Nat) (val : DWord)
  deriving DecidableEq, Repr

/-- What a peer access asks for, and the scope with which it acquires or releases, 0 for none (R145, R416). -/
inductive PeerReq where
  | read (scope : BitVec 3)
  | write (scope : BitVec 3) (data : List Byte)
  /-- the operands of a request of atomics or reductions, in order (R147), AOP as R259 -/
  | atomic (scope : BitVec 3) (aop : BitVec 4) (wide : Bool) (vs : List DWord)
  /-- the compare and new values of a request of CAS -/
  | cas (scope : BitVec 3) (wide : Bool) (vs : List (DWord × DWord))
  deriving DecidableEq, Repr

/-- The 32-byte fabric message (R277). -/
structure Message where
  payload : BitVec 128
  rsvd    : BitVec 14
  acct    : BitVec 18
  grains  : Word
  target  : DWord
  deriving DecidableEq, Repr

/-- The header of a packet of gang traffic (R405). -/
structure PktHead where
  gang  : BitVec 16
  gen   : BitVec 16
  stamp : BitVec 24
  deriving DecidableEq, Repr

/-- A packet that arrives at a Dranel port (R406): a fabric message, with the sender's member number and the
identity that the sender gave the send, a peer access to offset `off` of this member's aperture, or the reply to a peer access of this
member, with data unless it was refused. -/
inductive Packet where
  | message (h : PktHead) (m : Message) (from_ : BitVec 8) (sendId : Nat)
  | access  (h : PktHead) (from_ : BitVec 8) (off : Nat) (bytes : Nat) (r : PeerReq)
  | reply   (h : PktHead) (from_ : BitVec 8) (data : Option (List Byte))
  deriving DecidableEq, Repr

/-- Inputs of one power interval of a cluster (R432). -/
structure PowerIn where
  tcap  : BitVec 7
  icap  : BitVec 7
  boost : Bool
  btgt  : BitVec 7
  ig    : BitVec 3
  pg    : BitVec 3
  temp  : BitVec 10
  deriving DecidableEq, Repr

/-- The counts of an account (R289). -/
inductive AcctField where
  | issued | returned | lost
  deriving DecidableEq, Repr

/-- One workgroup of a loss notice (R412). -/
structure LostWg where
  ctx  : BitVec 12
  inst : BitVec 32
  gen  : BitVec 16
  deriving DecidableEq, Repr

/-- A signed image as the controller reads it (R437): its header, and whether both signatures verify under keys that chain to
the digests of the ROM. -/
structure Image where
  header : BitVec 256
  signed : Bool
  deriving DecidableEq, Repr

/-- What bring-up finds (R437, R438): the four images, the floors of SVN, and what the images and the memories fix. -/
structure BootIn where
  firmware    : Image
  config      : Image
  identity    : Image
  attestation : Image
  /-- floors of the ROM, and of the configuration image -/
  romFloor : BitVec 32
  floor    : BitVec 32
  /-- training and tests passed -/
  trained : Bool
  /-- time of day that the management controller holds, ns (R399) -/
  timeOfDay : Option DWord
  /-- populated second-tier frames (R377) -/
  tierFrames : BitVec 32
  /-- access-table reset value of every context, by target code (R391) -/
  access    : List DWord
  /-- code of the hottest diode, as TEMP of pwrstat (R436) -/
  hottest   : BitVec 10
  deriving DecidableEq, Repr

/-- The operations and events of the machine, one constructor a row of the table. Those without a field stand at
the end; the agent that such an event concerns is named by `State.cur`. -/
inductive Instr where
  -- control flow, meeting and map (08)
  | bra (h : Head) (b : BodyJ)
  | brc (h : Head) (b : BodyJ)
  | call (h : Head) (b : BodyJ)
  | brx (h : Head) (b : BodyA)
  | callx (h : Head) (b : BodyA)
  | ret (h : Head) (b : BodyA)
  | exit (h : Head)
  | nop (h : Head)
  | yield (h : Head)
  | sleep (h : Head) (n : BitVec 20)
  | setmPush (h : Head) (tgt : BitVec 32)
  | popm (h : Head)
  /-- `clr` is MOD 1, the form GETM.clr -/
  | getm (h : Head) (vd : Opnd) (clr : Bool)
  | setmRestore (h : Head) (vs : Opnd)
  | trap (h : Head) (n : BitVec 20)
  | bkpt (h : Head) (n : BitVec 20)
  | map (h : Head) (b : BodyA)
  | unmap (h : Head) (b : BodyA)
  | aliasName (h : Head) (b : BodyA)
  | give (h : Head) (b : BodyA)
  | giveRowPark (core op : Nat)
  | take (h : Head) (b : BodyA)
  | swapn (h : Head) (b : BodyA)
  | mapq (h : Head) (b : BodyA)
  -- lane operations (09)
  | lxch (h : Head) (b : BodyA)
  | pagr (h : Head) (b : BodyA)
  | pmsk (h : Head) (b : BodyA)
  | leqm (h : Head) (b : BodyA)
  | lred (h : Head) (b : BodyA)
  | rfal (h : Head) (b : BodyA)
  -- integer (09)
  | iadd (h : Head) (b : BodyA)
  | isub (h : Head) (b : BodyA)
  | imul (h : Head) (b : BodyA)
  | imulh (h : Head) (b : BodyA)
  | imad (h : Head) (b : BodyA)
  | idiv (h : Head) (b : BodyA)
  | irem (h : Head) (b : BodyA)
  | imin (h : Head) (b : BodyA)
  | imax (h : Head) (b : BodyA)
  | iabs (h : Head) (b : BodyA)
  | ltab (h : Head) (b : BodyA)
  | shl (h : Head) (b : BodyA)
  | shr (h : Head) (b : BodyA)
  | sar (h : Head) (b : BodyA)
  | catsh (h : Head) (b : BodyA)
  | popc (h : Head) (b : BodyA)
  | clz (h : Head) (b : BodyA)
  | brev (h : Head) (b : BodyA)
  | bfe (h : Head) (b : BodyA)
  | bfi (h : Head) (b : BodyA)
  | bytep (h : Head) (b : BodyA)
  | iset (h : Head) (b : BodyA)
  | sel (h : Head) (b : BodyA)
  | mov (h : Head) (b : BodyA)
  | movi (h : Head) (b : BodyI)
  | rds (h : Head) (b : BodyA)
  -- floating point and conversion (10)
  | fadd (h : Head) (b : BodyA)
  | fmul (h : Head) (b : BodyA)
  | ffma (h : Head) (b : BodyA)
  | fmin (h : Head) (b : BodyA)
  | fmax (h : Head) (b : BodyA)
  | fset (h : Head) (b : BodyA)
  | dset (h : Head) (b : BodyA)
  | frnd (h : Head) (b : BodyA)
  | fclass (h : Head) (b : BodyA)
  | phadd (h : Head) (b : BodyA)
  | phmul (h : Head) (b : BodyA)
  | phfma (h : Head) (b : BodyA)
  | pbfma (h : Head) (b : BodyA)
  | dadd (h : Head) (b : BodyA)
  | dmul (h : Head) (b : BodyA)
  | dfma (h : Head) (b : BodyA)
  | frcp (h : Head) (b : BodyA)
  | frsq (h : Head) (b : BodyA)
  | fsqrt (h : Head) (b : BodyA)
  | fex2 (h : Head) (b : BodyA)
  | flg2 (h : Head) (b : BodyA)
  | fsin (h : Head) (b : BodyA)
  | fcos (h : Head) (b : BodyA)
  | ftanh (h : Head) (b : BodyA)
  | cvt (h : Head) (b : BodyA)
  | cvtw (h : Head) (b : BodyA)
  | cvts (h : Head) (b : BodyA)
  | cvtn (h : Head) (b : BodyA)
  | bscale (h : Head) (b : BodyA)
  | plsplit (h : Head) (b : BodyA)
  | pljoin (h : Head) (b : BodyA)
  -- memory, address registers and atomics (11)
  | ld (h : Head) (b : BodyM)
  | ldFill (h : Head) (b : BodyM)
  | st (h : Head) (b : BodyM)
  | stSpill (h : Head) (b : BodyM)
  | lds (h : Head) (b : BodyM)
  | sts (h : Head) (b : BodyM)
  | ldt (h : Head) (b : BodyM)
  | stt (h : Head) (b : BodyM)
  | ldc (h : Head) (b : BodyM)
  | prf (h : Head) (b : BodyM)
  | ainit (h : Head) (b : BodyA)
  | aset (h : Head) (b : BodyA)
  | aadv (h : Head) (b : BodyA)
  | aget (h : Head) (b : BodyA)
  | atom (h : Head) (b : BodyM)
  | atoms (h : Head) (b : BodyM)
  | red (h : Head) (b : BodyM)
  | cas (h : Head) (b : BodyM)
  | redv (h : Head) (b : BodyM)
  | fence (h : Head) (scope : BitVec 3)
  | fenceb (h : Head) (scope : BitVec 3)
  | fenceConditionsMet (core op : Nat)
  -- barriers, queues, handles, tasks and time (12)
  | bars (h : Head) (b : BodyA)
  | bara (h : Head) (b : BodyA)
  | barw (h : Head) (b : BodyA)
  | tbara (h : Head) (b : BodyA)
  | tbarw (h : Head) (b : BodyA)
  | tbarx (h : Head) (b : BodyA)
  | barrierArrivalRegister (core op : Nat)
  | barrierWaiterRelease (inst w : Nat)
  | acq (h : Head)
  | qbind (h : Head) (b : BodyA)
  | qsend (h : Head) (b : BodyA)
  | qrecv (h : Head) (b : BodyA)
  | qtry (h : Head) (b : BodyA)
  | qstat (h : Head) (b : BodyA)
  | queueEntryLand (core op : Nat)
  | poll (h : Head) (b : BodyA)
  | pollRetry (w : WRef)
  | hget (h : Head) (b : BodyA)
  | hfree (h : Head) (b : BodyA)
  | hwait (h : Head) (b : BodyA)
  | hset (h : Head) (b : BodyA)
  | wptr (h : Head) (b : BodyA)
  | wwait (h : Head) (b : BodyA)
  | cpy (h : Head) (kgrp : BitVec 3)
  | cpyt (h : Head) (kgrp : BitVec 3) (dlk : BitVec 5)
  | copyCompletionPost (inst chan : Nat)
  | wgsend (h : Head) (b : BodyA)
  | recordArriveBin (core op : Nat)
  | binTimerExpire (grid cluster node : Nat)
  | qsplit (h : Head) (b : BodyA)
  | qret (h : Head) (b : BodyA)
  | qborrow (h : Head) (b : BodyA)
  | waitq (h : Head) (b : BodyA)
  | accountUpdate (acct : Nat) (f : AcctField) (g : DWord)
  | waitqWake (w : WRef)
  | tapef (h : Head) (b : BodyA)
  | depinc (h : Head) (b : BodyA)
  | time (h : Head) (b : BodyA)
  | waitt (h : Head) (b : BodyA)
  | waittWake (w : WRef)
  | sleepWake (w : WRef)
  | launch (h : Head) (b : BodyA)
  -- matrix and bank engines (13)
  | mma (h : Head) (b : BodyMma)
  | mmac (h : Head) (b : BodyMma)
  | msign (h : Head) (conv : BitVec 3) (src : Opnd)
  | mzero (h : Head) (acc : BitVec 4)
  | accld (h : Head) (b : BodyAcc)
  | accst (h : Head) (b : BodyAcc)
  | accmv (h : Head) (b : BodyAccmv)
  | mepi (h : Head) (b : BodyMepi)
  | mrpq (h : Head) (kd : BitVec 6) (acc : BitVec 4)
  | matrixBlockComplete (core slot : Nat)
  | bmv (h : Head) (kgrp : BitVec 3)
  | bmva (h : Head) (kgrp : BitVec 3)
  | bred (h : Head) (kgrp : BitVec 3)
  | bstat (h : Head) (kd : BitVec 6)
  -- system (19)
  | rdsr (h : Head) (b : BodyS)
  | wrsr (h : Head) (b : BodyS)
  | eret (h : Head) (b : BodyS)
  | savewg (h : Head) (b : BodyS)
  | restwg (h : Head) (b : BodyS)
  | tlbi (h : Head) (b : BodyS)
  | flushs (h : Head) (b : BodyS)
  | halt (h : Head) (b : BodyS)
  -- clause boundaries and issue
  | clauseBoundary (w : WRef) (lane : Nat)
  | clauseWaitPass (w : WRef) (lane : Nat)
  | groupWaitPromote (w : WRef) (lane : Nat)
  | warpStarvationPromote (w : WRef)
  | resultWriteback (w : WRef) (id : Nat)
  | releaseBufferLeave (core quarter : Nat)
  | storePerformed (core op k : Nat)
  | loadComplete (core op : Nat)
  | atomicRequestApply (core op k : Nat)
  | redvElementApply (core op k : Nat)
  | sysregWrite (core : Nat) (sreg : BitVec 12) (val : DWord)
  | atvalWrite (core : Nat) (val : DWord)
  | tapeownBind (core : Nat) (val : DWord)
  | tapeownUnbind (core : Nat) (val : DWord)
  | lqtailWrite (q : Nat) (val : DWord)
  -- dispatcher and distributor (20)
  | launchEntryTake (q : Nat)
  | timedStartReached (grid : Nat)
  | workgroupAdmit (cluster : Nat)
  | teamAdmit (cluster : Nat)
  | nodeWorkgroupAdmit (grid cluster node : Nat)
  | headGridReserve (grid : Nat)
  | gridComplete (grid : Nat)
  -- gate unit (17)
  | gateTokenArrive (token : BitVec 16) (x : List Word)
  -- translation (21)
  | pageWalkComplete (core : Nat) (ctx : BitVec 12) (va : DWord)
  -- gang, time and links (22)
  | swqWrite (core : Nat) (addr : DWord)
  | faultNoticeReceive (outCtx inCtx : BitVec 12) (both : Bool)
  | handshakeReady (member : BitVec 8) (gen : BitVec 16)
  | handshakeCommit (member : BitVec 8) (gen : BitVec 16)
  | gangcfgWrite (val : DWord)
  | gfaultClear (ctx : BitVec 12)
  | gangPacketArrive (p : Packet)
  | fabricMessageDeliver (i : Nat)
  | refusalReturn (i : Nat)
  | dropNoticeReceive (sendId : Nat)
  | peerAccessArrive (i : Nat)
  | lossNoticeReceive (gang : BitVec 16) (lost : List LostWg)
  | ptpSyncMessage (offset : BitVec 32)
  | hostInboundAccess (r : HostReq)
  -- reliability, power and bring-up (23)
  | powerInterval (cluster : Nat) (p : PowerIn)
  | railDroop (core quarter : Nat) (g : BitVec 3)
  | thermalTrip (cluster : BitVec 5) (sensor : BitVec 2) (temp : BitVec 10)
  | strikeReport (core : Nat) (z : Zone)
  | timingNearMiss (core : Nat) (z : Zone)
  | patrolScrub (sector : Nat) (uncorrectable : Bool)
  | screenCopyAdmit (i : Nat)
  | keygen (index : BitVec 12) (owner : BitVec 12)
  | keyclr (index : BitVec 12)
  | triprd (reply : DWord)
  | boostreq (cluster : BitVec 5) (target : BitVec 7)
  | bringUp (b : BootIn)
  -- Beryl (13)
  | fqbindWrite (f : RvCsrOp) (rd src : BitVec 5) (port : BitVec 4)
  /-- `c` is the halfword of a compressed form, `none` for a 32-bit word -/
  | berylInstruction (i : Rv) (c : Option (BitVec 16))
  | fqSend (b : BodyX)
  | fqSendTry (b : BodyX)
  | fqRecv (b : BodyX)
  | fqRecvTry (b : BodyX)
  | fhGet (b : BodyX)
  | fhWait (b : BodyX)
  | fcpIssue (b : BodyX)
  | fcpIssueT (b : BodyX)
  | fwpRead (b : BodyX)
  | fwpReadWait (b : BodyX)
  | ftime (b : BodyX)
  | ftimeWait (b : BodyX)
  | fpollEq (b : BodyX)
  | fpollNe (b : BodyX)
  | fpollLt (b : BodyX)
  | fpollLe (b : BodyX)
  | fpollGt (b : BodyX)
  | fpollGe (b : BodyX)
  -- events of the core that `State.cur` names
  | acqGrant
  | copyBurst
  | matrixOpStart
  | supervisorWake
  | ectlResume
  | ectlAbandon
  | acqWaitReserve
  | machineError
  | coreRestart
  | trapRecordAged
  -- events of the workgroup that `State.cur` names
  | copyCommandTake
  | bankCommandTake
  | bankRowBlock
  | bankResultPost
  | workgroupAtRest
  | workgroupRetire
  | blockedTimeLimit
  | screenCopyEnd
  | fabricSendDepart
  -- events of the module
  | gateTapeEntryWrite
  | shootdownTimeout
  | switchPrestage
  | switchSaveStart
  | switchAdvance
  | switchReleased
  | gangStraggler
  | switchFaultTimeout
  | ppsEdge
  | syncLossTimeout
  | holdoverTimeout
  deriving DecidableEq, Repr

end Sys2Proof
end

