-- ==== Sys2Proof/Machine/State.lean ====
section
/-! DEFINITION. The state of one Plovfen 930 module, as plain data. Each field cites the rule that gives it; the
inventory lists the reset values. Sparse tables list only what differs from the value named beside them. -/

namespace Sys2Proof.Machine

/-! ### Parties and clocks (R135, R138) -/

/-- Who makes an access. `eng` is the key under which the progress of one engine operation is recorded: its
accesses belong to the party that issued it. -/
inductive Party where
  | warp (inst w : Nat)
  | sup (core : Nat)
  | beryl (inst which : Nat)
  | host
  | gang (member : Nat)
  | gate
  | eng (id : Nat)
  deriving DecidableEq, Repr

/-- How much of each party's past is ordered before a point (R138). -/
abbrev Clock := List (Party × Nat)

/-- One access in a race history (R142). -/
structure Acc where
  owner : Party
  key   : Party
  epoch : Nat
  atomic : Bool
  /-- the number that an operation issuing with the access takes: if the operation fails, the entry goes again (R244, R446) -/
  stamp : Nat
  deriving DecidableEq, Repr

/-- The history of a location: the last write and the reads since (R142). -/
structure Hist where
  write : Option Acc
  reads : List Acc
  deriving DecidableEq, Repr

/-- A location with a history: a 4-byte word of physical memory, of a workgroup's scratchpad, or a lane element of
a physical row. -/
inductive Loc where
  | word (cell : Nat)
  | scratch (inst word : Nat)
  | row (core row lane : Nat)
  deriving DecidableEq, Repr

/-- A release held in a word (R138), with the bytes of the word whose value it wrote or led to. -/
structure Rel where
  party : Party
  scope : Nat
  clk   : Clock
  bytes : Nat
  deriving DecidableEq, Repr

/-! ### Threads and warps -/

/-- What wakes a sleeping thread (R47). -/
inductive Wake where
  /-- core cycle at or after which a SLEEP ends (R192) -/
  | cycle (c : Nat)
  /-- POLL back-off; `s` is the next interval (R279) -/
  | poll (c s : Nat)
  /-- gang clock of WAITT -/
  | time (t : Nat)
  /-- WAITQ on an account -/
  | account (a : Nat)
  deriving DecidableEq, Repr

/-- How a thread ended (R32, R343, R354). -/
inductive ExitStatus where
  | normal | poison | fault
  deriving DecidableEq, Repr

/-- The thread states of R47. Threads blocked by one issue carry one ticket. `flagWait` is the clause WAIT. -/
inductive ThreadSt where
  | ready
  | held
  | flagWait
  | blocked (ticket : Nat)
  | asleep (wake : Wake)
  /-- to be killed for a use once the operation `op` has passed its checks (R245) -/
  | doomed (op use : Nat)
  | exited (how : ExitStatus)
  deriving DecidableEq, Repr

/-- A thread (R28, R55). `clause` is the clause it stands in (header address, header), none at a boundary. -/
structure Thread where
  pc     : DWord
  clause : Option (DWord × DWord)
  m      : Option DWord
  stack  : List (Option DWord)
  st     : ThreadSt
  since  : Nat
  promoted : Bool
  /-- the first cycle of those in which its group has been ready without a break (R30) -/
  readyAt : Nat
  /-- the cycle in which it came to its PC, met there or woke there: threads that came in different cycles are different groups (R29, R192) -/
  arrived : Nat
  deriving DecidableEq, Repr

/-- An address register (R124) with its poison mark (R245). -/
structure AReg where
  ptr : DWord
  base : DWord
  limit : DWord
  modlen : Word
  step : BitVec 16
  r : Bool
  w : Bool
  a : Bool
  e : Bool
  mark : Bool
  deriving DecidableEq, Repr

/-- An address register that permits nothing (R55). -/
def AReg.zero : AReg := ⟨0, 0, 0, 0, 0, false, false, false, false, false⟩

/-- The binding of a queue port (R273). -/
structure Port where
  kind : Nat
  recv : Bool
  qidx : Nat
  deriving DecidableEq, Repr

/-- A parked operation that a cause names, in the fields of teng (R345). -/
structure Parked where
  /-- identity of the operation -/
  id : Nat
  tag : Nat
  progress : Nat
  kind : Nat
  unit : Nat
  tile : Nat
  deriving DecidableEq, Repr

/-- What a cause logs (R340). -/
structure Detail where
  code : Nat
  value : Word
  index : Nat
  field : Nat
  addr : DWord
  /-- first failing lane -/
  lane : Option Nat
  /-- the party that made the earlier access (R142), the KIND of the operation that holds a lock (R149) -/
  other : Option Party
  opKind : Option Nat
  deriving DecidableEq, Repr

/-- A group that waits, in the order in which it blocked (R74, R268, R274): its party, the lanes of the group (zero
for a Beryl core), the cycle, and what the wait needs. -/
structure Wait where
  party : Party
  group : Mask
  cycle : Nat
  arg : Nat
  deriving DecidableEq, Repr

/-- One entry of a flag's error queue (R166, R345): `op` is the operation that failed. -/
structure ErrRec where
  op : Nat
  cause : Detail
  lanes : Mask
  parked : Option Parked
  deriving DecidableEq, Repr

/-- A cause that waits for its party to stop (R444, R446). -/
structure Deferred where
  src : Nat
  cause : Detail
  lanes : Mask
  /-- logged PC and word: those of the failed instruction for SRC 5 -/
  pc : DWord
  word : DWord
  parked : Option Parked
  /-- the operation whose result a later instruction may wait for -/
  op : Nat
  deriving DecidableEq, Repr

/-- A trap record (R338 to R345) and the cycle in which it was filled (R425). -/
structure TrapRec where
  cause : DWord
  pc : DWord
  resume : DWord
  word : DWord
  addr : DWord
  info : DWord
  lanes : DWord
  eng : DWord
  /-- the resume point as recorded (R343) -/
  resume0 : DWord
  /-- the threads of the trapping group -/
  group : Mask
  parked : Option Parked
  ectlWritten : Bool
  cycle : Nat
  aged : Bool
  /-- the other party of a race (R152): no register of R340 shows it (log 22) -/
  other : Option Party
  deriving DecidableEq, Repr

/-- A register that an instruction in flight writes (R167). -/
inductive Reg where
  | v (n : Nat)
  | k (n : Nat)
  | p (n : Nat)
  | kp (n : Nat)
  | a (n : Nat)
  deriving DecidableEq, Repr

/-- An instruction whose result is not yet written (R162, R167). -/
structure InFlight where
  id : Nat
  /-- flag index 1–12, 0 for none -/
  flag : Nat
  /-- without a flag, the instructions of its window still to issue (R167); none with a flag -/
  window : Option Nat
  dests : List Reg
  /-- cycle in which a result of known latency is written; none for a memory or engine result -/
  readyAt : Option Nat
  /-- a result that holds the instruction after the window -/
  holds : Bool
  /-- the operation failed: an instruction that waits for its result traps (R446) -/
  failed : Bool
  deriving DecidableEq, Repr

/-- A warp. Unlisted: k and kp zero, address registers permit nothing, ports unbound, flags zero, names unmapped. -/
structure Warp where
  threads : List Thread
  /-- p0–p6, a bit a lane -/
  p     : Tab Mask
  pMark : Tab Mask
  k     : Tab Word
  kMark : Tab Bool
  kp     : Tab Bool
  kpMark : Tab Bool
  a     : Tab AReg
  q     : Tab (Option Port)
  /-- name to row; none is V = 0 (R61) -/
  map   : Tab (Option Nat)
  cf    : Tab Nat
  /-- what the completions counted on each flag order before its clause WAIT (R138) -/
  flagClk : Tab Clock
  errq  : Tab (List ErrRec)
  slot  : Nat
  stage : Nat
  launchPrio : Nat
  prio  : Nat
  inflight : List InFlight
  deferred : List Deferred
  /-- cycle of the last issue (R162) and since when the warp is ready (R370) -/
  lastIssue : Nat
  /-- instructions issued since the launch -/
  issues : Nat
  readySince : Nat
  /-- the order of issues that R370 compares: twice the cycle of the last, and one more after a YIELD (R160) -/
  recency : Nat
  /-- lanes whose group has executed YIELD in its clause (R191); cycle whose issue the warp skips (R160) -/
  yielding : Mask
  skipCycle : Option Nat
  starved : Bool
  /-- lanes of the group whose clause is in progress (R158) -/
  running : Mask
  trap  : Option TrapRec
  /-- a record that a replay has withdrawn, which re-execution makes anew (R425) -/
  again : Option TrapRec
  /-- widest scope of a FENCE issued, and releases read since (R138) -/
  fenced : Nat
  seen  : List Rel
  clk   : Clock
  /-- SAVEWG stops it at its next boundary (R372) -/
  stopping : Bool
  /-- the supervisor warp's run between wake and ERET (R336) -/
  awake : Bool
  deriving DecidableEq, Repr

/-! ### Rows and arrays -/

/-- A physical row (R63): lane elements, poison bits, owner tag, references. -/
structure Row where
  lanes : List Word
  poison : Mask
  owner : Nat
  ref : Nat
  deriving DecidableEq, Repr

/-- A row as bring-up leaves it (R438). -/
def Row.zero : Row := ⟨List.replicate 32 0, 0, 0, 0⟩

/-- An accumulator tile (R300): 4096 words and their marks, owner tag. -/
structure Tile where
  words : Tab Word
  marks : Tab Bool
  owner : Nat
  deriving DecidableEq, Repr

def Tile.zero : Tile := ⟨[], [], 0⟩

/-- A buffer-table entry (R127). -/
structure Handle where
  state : Nat
  gen : Nat
  offset : Nat
  length : Nat
  /-- what the last change of the state released (R138) -/
  clk : Clock
  deriving DecidableEq, Repr

def Handle.zero : Handle := ⟨0, 0, 0, 0, []⟩

/-! ### Accesses in flight -/

/-- Where one piece of an access lies, once translated. -/
inductive Place where
  | pa (a : Nat)
  | scratch (inst off : Nat)
  | tape (core off : Nat)
  | records (inst off : Nat)
  /-- a byte of the backing region of a grid's node (R292): its reads are free values -/
  | region (grid node : Nat)
  deriving DecidableEq, Repr

/-- Contiguous bytes of one lane's access. -/
structure Piece where
  place : Place
  bytes : Nat
  /-- RACE-TRACKED page (R142) -/
  tracked : Bool
  /-- KEY of the leaf (R393) -/
  key : Nat
  layout : Nat
  deriving DecidableEq, Repr

/-- What one lane of a memory instruction accesses. -/
structure LaneAcc where
  lane : Nat
  addr : DWord
  pieces : List Piece
  /-- data of a store, operand of an atomic; compare value and new value of a CAS -/
  data : List Byte
  /-- a lane that poison kills once the checks have passed (R245, R353): it is checked and accesses nothing -/
  ghost : Bool
  deriving DecidableEq, Repr

/-- A copy command (R282) with its deadline, none for CPY. -/
structure CopyCmd where
  raw : BitVec 256
  deadline : Option Nat
  deriving DecidableEq, Repr

/-- A bank command (R311) with its operation: 0 BMV, 1 BMVA, 2 BRED. -/
structure BankCmd where
  raw : BitVec 256
  opk : Nat
  deriving DecidableEq, Repr

/-- The effect that an operation in flight will have. -/
inductive Eff where
  | load (dst : Opnd) (size : Nat) (signed : Bool) (scope : Nat)
  | fill (dst : Opnd)
  | store (scope : Nat)
  | spill
  /-- `aop` of R259; `wide` for 64 bits; `dst` receives the old values -/
  | atomic (aop : Nat) (wide : Bool) (dst : Option Opnd) (scope : Nat)
  | cas (wide : Bool) (dst : Opnd) (scope : Nat)
  | redv (aop : Nat) (size : Nat)
  | fence (scope : Nat) (bank : Bool)
  /-- an entry on its way to an endpoint (R274, R276) -/
  | entry (port : Port) (stage : Nat) (data : List Word)
  | copy (cmd : CopyCmd)
  | bank (cmd : BankCmd)
  | record (node : Nat) (data : List Byte) (marks : List Bool) (grains : Nat)
  | give (slot row : Nat)
  /-- an arrival that joined phase `phase` (R268) -/
  | arrive (team : Bool) (bar : Nat) (phase : Nat)
  | hset (h : Nat) (state : Nat)
  | depinc (ctr n : Nat)
  | qret (acct : Nat) (member : Nat) (g : Nat)
  /-- an instruction that a fence holds (R264), with the registers that it read at issue -/
  | held (i : Instr) (k : Tab Word) (kMark kp kpMark : Tab Bool) (a : Tab AReg) (p pMark : Tab Mask)
    (again : Option (Nat × Nat))
  deriving DecidableEq, Repr

/-- An operation that has issued and is not complete. `done` lists the lanes already performed, `got` what a load or
atomic has read in each lane. -/
structure MemOp where
  id : Nat
  party : Party
  quarter : Nat
  born : Nat
  left : Bool
  eff : Eff
  lanes : List LaneAcc
  done : List Nat
  /-- lane, bytes, and a mark a word -/
  got : List (Nat × List Byte × List Bool)
  /-- the rows that its destination names select at issue (R71) -/
  rows : List Nat
  flag : Nat
  clk : Clock
  /-- widest FENCE before it (R138) -/
  fenced : Nat
  checked : Bool
  uniform : Bool
  /-- the issuing context and master class (R390) -/
  ctx : Nat
  pc : DWord
  word : DWord
  /-- the lanes that issued it, with their clause, and the warp's count of issues after it (R446) -/
  group : Mask
  /-- those of them whose predicate held (R340) -/
  active : Mask
  hdrAddr : DWord
  hdr : DWord
  serial : Nat
  /-- the histories of the shared rows that it entered at issue, as they were before (R446) -/
  undo : List (Loc × Hist)
  deriving DecidableEq, Repr

/-- A range lock (R148): generic addresses in a context, within one workgroup for the own window. A copy's destination shrinks as its bytes
are delivered (R130). -/
structure RangeLock where
  op : Nat
  ctx : Nat
  inst : Nat
  base : Nat
  len : Nat
  dest : Bool
  deriving DecidableEq, Repr

/-! ### Engines -/

/-- A value of a byte that has left its slice for the stack: the byte as its owner wrote it, the tag of its key (R394), the mark of its
word, the cycle of its die from which it may get there (R423), and whether a store to a bank-tiled page has sent it. -/
structure InWay where
  byte : Byte
  tag : Nat
  mark : Bool
  due : Nat
  tiled : Bool
  deriving DecidableEq, Repr

/-- What the stack arrays hold of a byte whose latest store has not reached them (R116), the values on their way there, in order, and the
newest value, which memory holds: none while it waits for the eviction of its line, else the cycle from which it may get there, and
whether a store to a bank-tiled page has sent it. -/
structure Stale where
  byte : Byte
  tag : Nat
  mark : Bool
  way : List InWay
  newest : Option (Nat × Bool)
  deriving DecidableEq, Repr

/-- A line that a slice of the shared level holds (R116): its number, the tag of the key of the access that filled it (R394), and whether
it is retained in preference to others (R171). -/
structure Line where
  no : Nat
  tag : Nat
  keep : Bool
  deriving DecidableEq, Repr

/-- A cached translation (R385): the page's first address, whether it is large, the leaf, and how many TLBIs had issued when it was
read (R388). -/
structure TlbEntry where
  ctx : Nat
  page : Nat
  large : Bool
  entry : DWord
  seq : Nat
  deriving DecidableEq, Repr

/-- A pointer entry that the walker of a die keeps (R385): the level of its table, the address bits above that level's region, and the
frame of the next table. -/
structure PtrEntry where
  ctx : Nat
  level : Nat
  region : Nat
  table : Nat
  deriving DecidableEq, Repr

/-- A walk at a die's walker (R386): the page, the levels that remain, and the table of the first of them; the cores whose misses have
joined it and have not been answered; and the leaf with which it answers them, once it has found it. -/
structure Walk where
  die : Nat
  ctx : Nat
  va : DWord
  level : Nat
  table : Nat
  joined : List Nat
  leaf : Option DWord
  deriving DecidableEq, Repr

/-- A command of a copy channel (R129, R284). -/
structure CopyOp where
  id : Nat
  cmd : CopyCmd
  party : Party
  flag : Nat
  /-- the lanes that issued it (R340) -/
  active : Mask
  sent : Nat
  /-- sender of a command that came from a port (R444) -/
  fromPort : Bool
  parked : Bool
  /-- taken and being performed, complete and waiting for its entry, cancelled -/
  status : Nat
  posting : Bool
  /-- translations that it holds (R386, R388) -/
  holds : List TlbEntry
  clk : Clock
  issued : Nat
  deriving DecidableEq, Repr

/-- A copy channel (R129). -/
structure Channel where
  wp : Nat
  ops : List CopyOp
  clk : Clock
  deriving DecidableEq, Repr

def Channel.zero : Channel := ⟨0, [], []⟩

/-- A bank operation (R312, R313). -/
structure BankOp where
  id : Nat
  cmd : BankCmd
  party : Party
  flag : Nat
  /-- the lanes that issued it (R340) -/
  active : Mask
  progress : Nat
  fromPort : Bool
  parked : Bool
  posting : Bool
  abandoned : Bool
  /-- while its workgroup is brought to rest: the block in progress is still to end (R372) -/
  owed : Bool
  holds : List TlbEntry
  clk : Clock
  deriving DecidableEq, Repr

/-- The kinds of R310. -/
inductive MatKind where
  | mma | mmac | accld | accst | accmv | mepi | mzero
  deriving DecidableEq, Repr

/-- A matrix-engine operation (R299, R303). -/
structure MatOp where
  id : Nat
  kind : MatKind
  inst : Nat
  /-- the party that issued it, and every warp that counted its flag -/
  party : Party
  flags : List (Nat × Nat)
  /-- the lanes that issued it, or signed last (R340) -/
  active : Mask
  /-- tile as named and as bound -/
  acc : Nat
  tile : Nat
  aA : AReg
  aB : AReg
  fsA : DWord
  fsB : DWord
  block : BitVec 256
  kk : Nat
  z : Bool
  /-- MEPI: integer, activation, bias; ACCMV: row, index, direction -/
  int : Bool
  act : Nat
  bv : Bool
  scale : DWord
  row : Nat
  put : Bool
  slot : Option Nat
  progress : Nat
  parked : Bool
  /-- while its workgroup is brought to rest: the block in progress is still to end (R372) -/
  owed : Bool
  complete : Bool
  /-- its ranges, and whether they are in the lock table (R299) -/
  ranges : List RangeLock
  locked : Bool
  /-- rows of B as block 0 read them, with their scale bytes and marks (R304) -/
  bRows : List (List (Byte × Bool) × List (Byte × Bool))
  /-- MEPI: destination and bias as committed; what MEPI read from its tile, or ACCMV from its name -/
  pieces : List Piece
  bias : List Piece
  staged : Tile
  holds : List TlbEntry
  clk : Clock
  deriving DecidableEq, Repr

/-- A convergence register (R35 to R37). -/
structure Conv where
  mask : Mask
  signed : Tab Mask
  isOpen : Bool
  word : DWord
  /-- operand values of the last signer, and the flags counted -/
  last : Option MatOp
  flags : List (Nat × Nat)
  deriving DecidableEq, Repr

def Conv.zero : Conv := ⟨0, [], false, 0, none, []⟩

/-! ### Barriers and queues -/

/-- A member of a barrier phase: team rank (0 for a named barrier) and warp. -/
abbrev Member := Nat × Nat

/-- One phase of a barrier (R267): EXPECT, joined and registered warps, releases joined. -/
structure Phase where
  expect : Nat
  joined : List Member
  reg : List Member
  clk : Clock
  deriving DecidableEq, Repr

def Phase.zero : Phase := ⟨0, [], [], []⟩

/-- A group that waits for a phase of a barrier. -/
structure BarWait where
  rank : Nat
  warp : Nat
  group : Mask
  phase : Nat
  deriving DecidableEq, Repr

/-- A barrier (R267). `arrivers` are blocked arrivals in order; `past` is what the arrivals of each completed phase
ordered, by phase number; `wake` are the waiters of completed phases, with the cycle from which they are released
(R268, R271). -/
structure Barrier where
  phase : Nat
  cur : Phase
  next : Phase
  tx : Int
  waiters : List BarWait
  arrivers : List Wait
  past : Tab Clock
  wake : List (BarWait × Nat)
  deriving DecidableEq, Repr

def Barrier.zero : Barrier := ⟨0, .zero, .zero, 0, [], [], [], []⟩

/-- A hand-off slot (R73). -/
inductive SlotSt where
  | empty
  | reserved
  | occupied (row : Nat) (clk : Clock)
  deriving DecidableEq, Repr

/-- A hand-off slot with the operations blocked on it, in order (R74): a giver's row, `arg`, has left its name. -/
structure HandOff where
  st : SlotSt
  givers : List Wait
  takers : List Wait
  deriving DecidableEq, Repr

def HandOff.zero : HandOff := ⟨.empty, [], []⟩

/-- An entry of an endpoint: value, sending stage, the sender's release, and the cycle in which it landed (R274,
R138). -/
structure QEntry where
  data : List Word
  stage : Nat
  party : Party
  clk : Clock
  landed : Nat
  /-- the lanes that sent it (R340) -/
  lanes : Mask
  deriving DecidableEq, Repr

/-- A named queue (R274): limits and outstanding counts by stage (0–7, 8 loader, 9 storer), waiting parties. -/
structure Queue where
  entries : List QEntry
  reserved : Nat
  limit : Tab Nat
  out : Tab Nat
  senders : List Wait
  receivers : List Wait
  deriving DecidableEq, Repr

def Queue.zero : Queue := ⟨[], 0, [], [], [], []⟩

/-- A command buffer of 16 entries (R443): reservations not yet filled, then the filled entries. -/
structure CmdBuf where
  reserved : Nat
  filled : List (QEntry × Nat)
  senders : List Wait
  deriving DecidableEq, Repr

def CmdBuf.zero : CmdBuf := ⟨0, [], []⟩

/-! ### Workgroups, teams, grids -/

/-- Resources of a core (R40): rows, near and far blocks, tiles, buffer-table entries. -/
structure Alloc where
  rows : List Nat
  near : List (Nat × Nat)
  far : List (Nat × Nat)
  tiles : List Nat
  hents : List Nat
  deriving DecidableEq, Repr

/-- ACQ state (R42). -/
inductive AcqSt where
  | none | waiting | granted
  deriving DecidableEq, Repr

/-- A workgroup, resident or saved (R25 to R50, R373). -/
structure Wg where
  gen : Nat
  ctx : Nat
  grid : Nat
  wgid : Nat
  node : Option Nat
  team : Nat
  rank : Nat
  core : Nat
  slot : Nat
  warps : List Warp
  acq : AcqSt
  /-- waiting in ACQ since, reserved its core (R368) -/
  acqSince : Nat
  acqReserved : Bool
  pool : List Nat
  /-- physical (core, block) of each 4 KiB block of the near and the far window range -/
  near : List (Nat × Nat)
  far : List (Nat × Nat)
  tiles : List Nat
  /-- physical buffer-table entries by index (R127) -/
  hents : List Nat
  /-- the full allotment that a team member's ACQ takes (R43) -/
  reserve : Option Alloc
  /-- order of admission (R42) -/
  aseq : Nat
  conv : Tab Conv
  nb : Tab Barrier
  slots : Tab HandOff
  queues : Tab Queue
  copyBuf : CmdBuf
  bankBuf : CmdBuf
  fabBuf : CmdBuf
  copyDone : List QEntry
  bankDone : List QEntry
  inbox : List QEntry
  chans : Tab Channel
  bankOps : List BankOp
  records : List Byte
  recMarks : List Bool
  /-- records of the window that lie in the backing region -/
  recBacked : Nat
  recSize : Nat
  recCount : Nat
  /-- what the completed engine operations of the workgroup have done (R138) -/
  engClk : Clock
  cycles : Nat
  faulted : Bool
  stuckSince : Option Nat
  candidate : Bool
  /-- being brought to rest, and the save area when a SAVEWG saves it (R372) -/
  resting : Bool
  saveTo : Option DWord
  /-- a member of a team brought to rest, or restored before its team, issues nothing (R346, R371) -/
  frozen : Bool
  beryl : Bool
  /-- screening (R428 to R430): signature, screened, copy of -/
  signature : DWord
  screened : Bool
  copyOf : Option Nat
  /-- a trap or a kill has ended the copy (R429) -/
  copyFault : Bool
  deriving DecidableEq, Repr

/-- The supervisor warps' own state of barriers, queues, channels and the like is kept under numbers that no INSTANCE has (R335; log 21). -/
def supBase : Nat := 2 ^ 64

/-- A supervisor warp's state as bring-up leaves it: context 0, no allotment, no grid. -/
def Wg.blank (core : Nat) : Wg :=
  { gen := 0, ctx := 0, grid := supBase, wgid := 0, node := none, team := supBase + core, rank := 0, core := core, slot := 0, warps := [],
    acq := .none, acqSince := 0, acqReserved := false, pool := [], near := [], far := [], tiles := [], hents := [], reserve := none,
    aseq := 0, conv := [], nb := [], slots := [], queues := [], copyBuf := .zero, bankBuf := .zero, fabBuf := .zero, copyDone := [],
    bankDone := [], inbox := [], chans := [], bankOps := [], records := [], recMarks := [], recBacked := 0, recSize := 0, recCount := 0,
    engClk := [], cycles := 0, faulted := false, stuckSince := none, candidate := false, resting := false, saveTo := none, frozen := false,
    beryl := false, signature := 0, screened := false, copyOf := none, copyFault := false }

/-- A team (R24, R267). -/
structure Team where
  grid : Nat
  members : List Nat
  /-- the members as admitted (R139) -/
  all : List Nat
  /-- members lost with their core, and their ranks (R412) -/
  lost : List (Nat × Nat)
  /-- warps of the team as admitted -/
  warps : Nat
  tb : Tab Barrier
  deriving DecidableEq, Repr

/-- A supervisor warp as a team of its own. -/
def Team.blank (t : Nat) : Team := ⟨supBase, [t], [t], [], 1, []⟩

/-- A record in a bin or backing region (R291, R292). -/
structure BinRec where
  data : List Byte
  /-- a mark a word -/
  marks : List Bool
  grains : Nat
  /-- gang time of arrival, ns -/
  arrived : Nat
  /-- it lies in the backing region -/
  back : Bool
  party : Party
  clk : Clock
  deriving DecidableEq, Repr

/-- A bin of a cluster and node (R292): closed batches, then the open one. -/
structure Bin where
  cluster : Nat
  node : Nat
  closed : List (List BinRec)
  batch : List BinRec
  deriving DecidableEq, Repr

/-- A node-table entry as taken (R360). -/
abbrev NodeEnt := BitVec 256

/-- The admission state of a grid (R358, R363). -/
inductive GridSt where
  | queued | admitting | complete
  deriving DecidableEq, Repr

/-- A grid (R359 to R365). -/
structure Grid where
  queue : Nat
  ctx : Nat
  launch : BitVec 2048
  sections : List (DWord × DWord)
  nodes : List NodeEnt
  st : GridSt
  nextRoot : Nat
  retired : Nat
  /-- resident and saved node workgroups; node indices in use (R332, R363) -/
  nodeLive : List Nat
  nodeUse : List Nat
  /-- root workgroups that retired, and copies that have not ended (R429) -/
  copies : Nat
  faults : Nat
  poison : BitVec 256
  done : Nat
  started : Bool
  /-- the grid of the previous entry (R358) -/
  prev : Option Nat
  headSince : Option Nat
  reserved : Option Nat
  bins : List Bin
  /-- records that the backing region of each node holds, those of resident workgroups included -/
  backing : Tab Nat
  /-- what its launch ordered, and what its workgroups ordered at retirement (R138) -/
  clk : Clock
  rel : Clock
  deriving DecidableEq, Repr

/-- A record that the dispatcher has checked and accepted (R361). -/
structure Accepted where
  launch : BitVec 2048
  sections : List (DWord × DWord)
  nodes : List NodeEnt
  clk : Clock
  deriving DecidableEq, Repr

/-- A launch queue (R357). `chain` holds submitted record addresses ahead of the ring (R365) and the number of flow
records followed. -/
structure LQueue where
  base : DWord
  ctl : DWord
  head : Nat
  tail : Nat
  chain : List (DWord × Nat)
  grids : List Nat
  /-- what LAUNCH accepted, by the count and the address of its entry; the last grid taken; what completed grids ordered -/
  pre : List (Nat × Nat × Accepted)
  last : Option Nat
  clk : Clock
  deriving DecidableEq, Repr

def LQueue.zero : LQueue := ⟨0, 0, 0, 0, [], [], [], none, []⟩

/-- An account (R289). -/
structure Account where
  ctx : Option Nat
  issued : Nat
  returned : Nat
  lost : Nat
  clk : Clock
  deriving DecidableEq, Repr

def Account.zero : Account := ⟨none, 0, 0, 0, []⟩

/-! ### Beryl -/

/-- A Beryl core (R317 to R320). `st`: 0 idle, 1 running, 2 ended, 3 trapped. `sleep`: FTIME.wait and FPOLL. -/
structure Beryl where
  st : Nat
  inst : Nat
  pc : DWord
  x : Tab DWord
  ports : Tab (Option Port)
  /-- ALLOW of each fqbind register (R318) -/
  allow : Tab Nat
  istore : Tab Byte
  dstore : Tab Byte
  reservation : Option (Nat × Nat)
  blocked : Bool
  sleep : Option Wake
  trap : Option TrapRec
  /-- a record that a replay has withdrawn, which re-execution makes anew (R425) -/
  again : Option TrapRec
  deferred : List Deferred
  clk : Clock
  deriving DecidableEq, Repr

def Beryl.zero : Beryl := ⟨0, 0, 0, [], [], [], [], [], none, false, none, none, none, [], []⟩

/-! ### Cores -/

/-- A tape (R293, R447). Slots not written since the last unbinding read as zero. -/
structure Tape where
  ring : Tab (BitVec 256)
  head : Nat
  tail : Nat
  ctr : Tab Nat
  owner : Option Nat
  waiters : List Wait
  ctrClk : Tab Clock
  /-- for each slot, the count of the gate unit's tokens with its entry (R294) -/
  gateAt : Tab Nat
  deriving DecidableEq, Repr

def Tape.zero : Tape := ⟨[], 0, 0, [], none, [], [], []⟩

/-- A blocking system instruction of the supervisor warp: the group that waits in it, its kind (1 SAVEWG, 2 TLBI, 3 FLUSHS), and the
workgroup, the shootdown or the cycle of which it waits for the end. -/
structure SupWait where
  group : Mask
  kind : Nat
  arg : Nat
  deriving DecidableEq, Repr

/-- A core: arrays, engines, supervisor warp, system registers (R12, R13, R336, R338). -/
structure Core where
  rows : Tab Row
  scratch : Tab Byte
  smarks : Tab Bool
  sowner : Tab Nat
  tiles : Tab Tile
  buftab : Tab Handle
  /-- parties that wait at the issue of an engine operation, in order (R148) -/
  engWait : List Wait
  locks : List RangeLock
  mats : List MatOp
  ops : List MemOp
  tlb : List TlbEntry
  tape : Tape
  loader : Beryl
  storer : Beryl
  sup : Warp
  supRows : Tab Row
  /-- what the supervisor's blocking system instruction waits for -/
  supWait : Option SupWait
  acqQ : List Nat
  acqReserved : Bool
  tvec : DWord
  tsel : DWord
  wgsel : Nat
  ctxsel : Nat
  lqsel : Nat
  atsel : DWord
  keysel : Nat
  pwrsel : Nat
  gfsel : Nat
  pcand : Nat
  relcnt : DWord
  cycle : Nat
  halted : Bool
  offline : Bool
  /-- strike reports of the last 256 cycles and the end of a stall, by zone (R422 to R424) -/
  reports : List (Zone × Nat)
  stallTo : Tab Nat
  /-- the channel whose burst was the last in round-robin order: slot and number (R285) -/
  lastChan : Nat
  /-- the issue slot of each quarter: cycle and instructions issued in it (R162, R370) -/
  slotUse : Tab (Nat × Nat)
  /-- grants of a quarter while the rail limiter lowers them (R433); none otherwise -/
  rail : Tab (Option Nat)
  deriving DecidableEq, Repr

/-- The supervisor thread at bring-up: idle. -/
def Thread.init : Thread := ⟨0, none, none, [], .ready, 0, false, 0, 0⟩

/-- A warp as a launch finds it (R55): threads at `pc`. -/
def Warp.init : Warp :=
  { threads := List.replicate 32 Thread.init, p := [], pMark := [], k := [], kMark := [], kp := [], kpMark := [],
    a := [], q := [], map := [], cf := [], flagClk := [], errq := [], slot := 0, stage := 0, launchPrio := 0, prio := 0,
    inflight := [], deferred := [], lastIssue := 0, issues := 0, readySince := 0, recency := 0, yielding := 0,
    skipCycle := none, starved := false, running := 0, trap := none, again := none, fenced := 0, seen := [], clk := [], stopping := false,
    awake := false }

/-- A core after bring-up (R438). -/
def Core.zero : Core :=
  { rows := [], scratch := [], smarks := [], sowner := [], tiles := [], buftab := [], engWait := [], locks := [],
    mats := [], ops := [], tlb := [], tape := .zero, loader := .zero, storer := .zero, sup := .init, supRows := [],
    supWait := none, acqQ := [], acqReserved := false, tvec := 0, tsel := 0, wgsel := 0, ctxsel := 0, lqsel := 0,
    atsel := 0, keysel := 0, pwrsel := 0, gfsel := 0, pcand := 0, relcnt := 0, cycle := 0, halted := false,
    offline := false, reports := [], stallTo := [], lastChan := 0, slotUse := [], rail := [] }

/-! ### The module -/

/-- Bytes by cell, addresses strictly rising, none equal to what an unlisted address reads as. -/
abbrev Memory := List Host.Cell

/-- A cluster's power state (R434) and the cluster of the distributor's scan. -/
structure Power where
  tcap : Nat
  icap : Nat
  boost : Bool
  btgt : Nat
  grant : Nat
  freq : Nat
  limit : Nat
  temp : Nat
  deriving DecidableEq, Repr

def Power.reset : Power := ⟨116, 116, false, 100, 4, 100, 0, 0⟩

/-- Per-context settings (R369, R382, R428). -/
structure CtxRegs where
  root : DWord
  blklim : Nat
  fillbud : DWord
  scrctl : DWord
  deriving DecidableEq, Repr

def CtxRegs.zero : CtxRegs := ⟨0, 0, 0, 0⟩

/-- A queued or running switch (R402 to R411). `phase`: 0 queued, 1 pre-staged, 2 saving, 3 advanced, restoring. -/
structure Switch where
  /-- the record (R402) -/
  record : BitVec 512
  /-- save areas not yet used, and saved areas not yet restored -/
  outTab : List DWord
  inTab : List DWord
  phase : Nat
  /-- INTAB as read at pre-stage (R404, R410) -/
  tab : List DWord
  /-- it has logged that it is late (R408); its areas are too few (R404) -/
  straggler : Bool
  short : Bool
  deriving DecidableEq, Repr

/-- The gate unit's set-up for a bound layer (R329): context, core of the tape, each expert's weights and the fields of its
entry, how many it chooses, the page of a token's vector; entries of tokens that wait for room. -/
structure Gate where
  bound : Bool
  ctx : Nat
  core : Nat
  /-- the workgroup to which that tape is bound: the entries follow it (R375) -/
  owner : Option Nat
  experts : List (List Word × BitVec 256)
  choose : Nat
  addr1 : DWord
  stride1 : DWord
  pending : List (List (BitVec 256))
  /-- a write of the layer has failed, and it does nothing more (R392) -/
  stopped : Bool
  /-- tokens that have come since bring-up -/
  tokens : Nat
  deriving DecidableEq, Repr

def Gate.zero : Gate := ⟨false, 0, 0, none, [], 0, 0, 0, [], false, 0⟩

/-- A fabric message in flight (R277, R278) or a packet at a port (R406). `sender`: the flag that awaits the outcome. -/
structure Flight where
  msg : Message
  from_ : Nat
  sender : Option (Party × Nat)
  sendId : Nat
  /-- the member that it goes to, and a refusal on its way back -/
  toMember : Nat
  refused : Bool
  clk : Clock
  deriving DecidableEq, Repr

/-- What this module sends to other members of its gang and to the host (log 10). -/
inductive Out where
  /-- a message, and an access to an offset of a member's aperture (R405) -/
  | message (member : Nat) (m : Message) (sendId : Nat)
  | access (member off bytes : Nat) (r : PeerReq)
  /-- an update of an account that another member holds (R289) -/
  | account (acct : BitVec 18) (f : AcctField) (grains : Nat)
  /-- straggler notice (R408), fault notice (R409), READY and COMMIT (R411) -/
  | straggler (ctx gen : Nat)
  | faultNotice (outCtx inCtx gen : Nat)
  | ready (gen : Nat)
  | commit (gen : Nat)
  /-- a refusal (R278), a drop notice (R406), an acceptance, to a member, for its send -/
  | refusal (member sendId : Nat)
  | dropped (member sendId : Nat)
  | accepted (member sendId : Nat)
  /-- the destination of a message is lost (R413) -/
  | gone (member sendId : Nat)
  /-- reply to a peer access: none when it was refused (R416) -/
  | reply (member : Nat) (data : Option (List Byte))
  /-- a loss notice (R412) -/
  | loss (gang member core : Nat) (lost : List LostWg)
  /-- the completion of a host read: none for Unsupported Request (R418) -/
  | host (data : Option (List Byte))
  deriving DecidableEq, Repr

/-- What has been sent, with the header of a packet (R405); a completion for the host has none. -/
structure Sent where
  head : Option PktHead
  out : Out
  deriving DecidableEq, Repr

/-- A packet held until this member reaches its generation, or delivered and waiting (R406, R416). -/
structure Held where
  pkt : Packet
  gen : Nat
  ready : Bool
  deriving DecidableEq, Repr

/-- A saved workgroup (R373): the workgroup with the contents of its rows, scratchpad, tiles, table entries, locks,
engine operations, tape and Beryl pair. -/
structure Saved where
  inst : Nat
  wg : Wg
  rows : List Row
  scratch : List (Nat × Byte)
  smarks : List Nat
  tiles : List Tile
  handles : List Handle
  locks : List RangeLock
  mats : List MatOp
  /-- operations held behind a FENCEB (R264) -/
  ops : List MemOp
  /-- its parties that wait at the issue of an engine operation, in order (R148) -/
  engWait : List Wait
  tape : Option Tape
  loader : Beryl
  storer : Beryl
  shape : Nat
  nearN : Nat
  farN : Nat
  /-- the core and its cycle at the save -/
  core : Nat
  cycle : Nat
  deriving DecidableEq, Repr

/-- A screened copy (R429). -/
structure Screen where
  grid : Nat
  wgid : Nat
  inst : Nat
  cluster : Nat
  copy : Option Nat
  signature : DWord
  deriving DecidableEq, Repr

/-- A TLBI that is not complete (R347, R387, R388): what it covers, since when, the identity below which operations had
issued, and how many TLBIs issued before it. -/
structure Shoot where
  core : Nat
  kind : Nat
  ctx : Nat
  va : DWord
  since : Nat
  before : Nat
  seq : Nat
  deriving DecidableEq, Repr

/-- The party in whose name `exec` acts (the model's own field, log 1). -/
inductive Cur where
  | idle
  /-- a group of a warp at the instruction of a clause -/
  | warp (w : WRef) (group : Mask) (hdrAddr hdr word : DWord)
  | beryl (core which : Nat)
  | core (n : Nat)
  | wg (inst : Nat)
  deriving DecidableEq, Repr

/-- What the environment of the module changes, other than by an event of the table. -/
inductive Env where
  /-- supervisor software creates, assigns and resets an account (R289) -/
  | account (n : Nat) (a : Account)
  /-- the gate unit's configuration (R327) -/
  | gate (g : Gate)
  | bar2 (base : DWord) (ctx : Nat)
  /-- the host or a device writes host memory -/
  | hostMem (a : Nat) (b : Byte)
  /-- another member has accepted a message, or has lost its destination (R278, R413) -/
  | sent (sendId : Nat) (lost : Bool)
  /-- the one step of the gang clock to the grandmaster's time, when lock is acquired (R399) -/
  | clockStep
  /-- this module becomes, or is no more, the grandmaster of its gang (R399) -/
  | grandmaster (b : Bool)
  /-- the management controller obtains a time of day, or holds none any more (R399) -/
  | timeOfDay (b : Bool)
  /-- the management controller clears the trip record (R435) -/
  | tripClear
  /-- the link to a member applies back-pressure, or no more (R408) -/
  | stall (member : Nat) (b : Bool)
  /-- a correctable error of a core, or of slice n as 512 + n (R427) -/
  | corrected (unit : Nat)
  deriving DecidableEq, Repr

/-- What carries a poison mark (R352): a word of memory by its cell, a lane of a row, a word of a scratchpad or of a tile, a register of
a warp. -/
inductive Granule where
  | cell (a : Nat)
  | row (core row lane : Nat)
  | supRow (core row lane : Nat)
  | scratch (core word : Nat)
  | tile (core tile word : Nat)
  | k (w : WRef) (n : Nat)
  | kp (w : WRef) (n : Nat)
  | p (w : WRef) (n lane : Nat)
  | areg (w : WRef) (n : Nat)
  deriving DecidableEq, Repr

/-- One turn of the module: which agent moves next. -/
inductive Turn where
  | issue (core quarter : Nat)
  | beryl (core which : Nat)
  | event (at_ : Cur) (i : Instr)
  /-- lane `k` of a load reads its word -/
  | loadPerform (core op k : Nat)
  /-- a word that has left its slice reaches the stack arrays, or else its line leaves the shared level (R116) -/
  | writeBack (cell : Nat)
  /-- the caches of translations of a core, its cluster and its die lose what they hold (R385) -/
  | tlbDrop (core : Nat)
  /-- the walker of a core's die begins the walk of a page, or reads the next entry of its walk `i` (R386) -/
  | walkBegin (core ctx : Nat) (va : DWord)
  | walkStep (i : Nat)
  | tick (core n : Nat)
  | clock (ns : Nat)
  /-- an uncorrectable read marks what it fills (R352) -/
  | uncorrectable (g : Granule)
  /-- an increment of a dependence counter registers (R146, R294) -/
  | register (core op : Nat)
  /-- an instruction that a fence held is performed (R264) -/
  | heldPerform (core op : Nat)
  | env (e : Env)
  deriving DecidableEq, Repr

/-- The state of the module. -/
structure State where
  cores : Tab Core
  wgs : Tab (Option Wg)
  /-- what the supervisor warp of each core has used (R335) -/
  supWgs : Tab (Option Wg)
  teams : Tab (Option Team)
  grids : Tab (Option Grid)
  /-- mode of each quad by number (die, cluster, quad): 0 none, 1 + heat class (R45) -/
  quads : Tab Nat
  power : Tab Power
  mem : Memory
  poison : Tab Bool
  sectorKey : Tab Nat
  /-- bytes whose latest store is not yet in the stack arrays: what the arrays hold (R116) -/
  arrays : Tab (Option Stale)
  /-- the lines that each slice of the shared level holds, and each core's L1, last used first (R12, R116, R120) -/
  lines : Tab (List Line)
  l1 : Tab (List Nat)
  spillFmt : Tab Nat
  hist : List (Loc × Hist)
  rels : List (Nat × List Rel)
  scratchRels : List ((Nat × Nat) × List Rel)
  ctxs : Tab CtxRegs
  tagbase : DWord
  /-- access-table entries that have been written, by 4096 × target + context; what the others hold, by target (R391) -/
  access : Tab (Option DWord)
  accessReset : List DWord
  keys : Tab (Option Nat)
  /-- how often each key has been cleared: data written under a cleared key stay unreadable (R393) -/
  keyGens : Tab Nat
  tiercap : Nat
  lqs : Tab LQueue
  accounts : Tab Account
  gens : Tab Nat
  /-- timed-fill bytes of each context: 10 µs window and bytes moved in it (R285) -/
  fillUse : Tab (Nat × Nat)
  freeInst : List Nat
  nextInst : Nat
  saved : List (DWord × Saved)
  shoots : List Shoot
  /-- TLBIs that have issued -/
  shootSeq : Nat
  /-- the TLBs of the clusters, the pointers that each die's walker keeps, and the walks in progress (R385, R386) -/
  tlb2 : Tab (List TlbEntry)
  walkCache : Tab (List PtrEntry)
  walks : List Walk
  gangcfg : DWord
  gangOffset : Int
  clockState : Nat
  gen : Nat
  gangCtx : Nat
  switches : List Switch
  /-- T, GEN and INCTX of the last switch done, and its INTAB (R403, R410) -/
  lastSwitch : Option (Nat × Nat × Nat)
  lastTab : List DWord
  swStatus : Nat
  /-- contexts that admit nothing between pre-staging and their next slice (R404) -/
  heldCtxs : List Nat
  /-- members whose READY and COMMIT have come, as member + 256 × GEN (R411) -/
  readySet : List Nat
  commitSet : List Nat
  gdrop : DWord
  gfaulted : List Nat
  paptbase : DWord
  gloss : Nat
  flights : List Flight
  held : List Held
  outbox : List Sent
  /-- members whose link applies back-pressure (R408) -/
  slowLinks : List Nat
  /-- the headers of messages between the release buffer and the port, by send (R405) -/
  sendHeads : List (Nat × PktHead)
  /-- what the host has made ordered, and what each member has been sent (R138, R417) -/
  hostClk : Clock
  memberClk : Tab Clock
  /-- INSTANCE and GEN of the workgroups lost here and, by the notices, elsewhere (R412) -/
  lostInst : List (Nat × Nat)
  clockNs : Nat
  stepped : Bool
  /-- an offset has been measured since bring-up; this module is the grandmaster of a gang of several (R399) -/
  measured : Bool
  grandmaster : Bool
  /-- the management controller holds a time of day (R399) -/
  timeKnown : Bool
  syncCount : Nat
  lastSync : Nat
  holdoverAt : Nat
  gate : Gate
  evbase : DWord
  evhead : Nat
  evtail : Nat
  evlost : Nat
  /-- events that wait for the log to be enabled (R436) -/
  eventHold : List Nat
  /-- corrections counted by unit (R427) -/
  corrections : Tab Nat
  mbxstat : Nat
  mbxCmd : BitVec 512
  trip : BitVec 128
  /-- a trip has cut the rails, which stay off until bring-up (R436) -/
  railsOff : Bool
  bar2base : DWord
  bar2ctx : Nat
  reports : List (Nat × Nat)
  /-- cores reported halted (R349) -/
  haltReports : List Nat
  /-- reports for slices, and until when each replays, in cycles of its die (R421 to R424) -/
  sliceReports : List (Nat × Nat)
  sliceStall : Tab Nat
  screens : List Screen
  lastCluster : Option Nat
  /-- the cycle after that of its last admission, by cluster (R366) -/
  lastAdmit : Tab Nat
  lastQueue : Nat
  up : Bool
  agenda : List Turn
  cur : Cur
  fresh : Nat
  nextId : Nat
  deriving DecidableEq, Repr

/-- Why the machine stops. -/
inductive Fault where
  /-- Raised by `exec` when it is asked to run an instruction for a party that does not exist (`State.cur` names no
  warp or Beryl core that could issue it); no step from a state of the machine does that. Safe: the hardware has no
  such situation. -/
  | noParty
  deriving DecidableEq, Repr

/-- Why the model refuses an instruction. -/
inductive Refusal where
  /-- Raised by the arm of an instruction that has no meaning yet. Safe: nothing is claimed of it. -/
  | notModelled (mnemonic : String)
  deriving DecidableEq, Repr

/-- The module right after bring-up (R438). Values that the manual does not give are named in logs 1, 2, 3, 12 to
15, 17 and 58. -/
def State.reset : State :=
  { cores := [], wgs := [], supWgs := [], teams := [], grids := [], quads := [], power := [], mem := [], poison := [],
    sectorKey := [], arrays := [], lines := [], l1 := [], spillFmt := [], hist := [], rels := [], scratchRels := [], ctxs := [],
    tagbase := 0, access := [], accessReset := List.replicate 6 0x0fffffffffff, keys := [(0, some 0)], keyGens := [],
    tiercap := 15625000, lqs := [], accounts := [], gens := [], fillUse := [], freeInst := [], nextInst := 0, saved := [],
    shoots := [], shootSeq := 0, tlb2 := [], walkCache := [], walks := [], gangcfg := 0, gangOffset := 0, clockState := 3,
    gen := 0, gangCtx := 0, switches := [], lastSwitch := none, lastTab := [], swStatus := 0, heldCtxs := [], readySet := [],
    commitSet := [], gdrop := 0, gfaulted := [], paptbase := 0, gloss := 0, flights := [], held := [], outbox := [],
    slowLinks := [], sendHeads := [], hostClk := [], memberClk := [], lostInst := [], clockNs := 0, stepped := false,
    measured := false, grandmaster := false, timeKnown := false, syncCount := 0, lastSync := 0, holdoverAt := 0, gate := .zero, evbase := 0,
    evhead := 0, evtail := 0, evlost := 0, eventHold := [], corrections := [], mbxstat := 0, mbxCmd := 0, trip := 0, railsOff := false, bar2base := 0,
    bar2ctx := 0, reports := [], haltReports := [], sliceReports := [], sliceStall := [], screens := [], lastCluster := none,
    lastAdmit := [], lastQueue := 0, up := true, agenda := [], cur := .idle, fresh := 0, nextId := 0 }

end Sys2Proof.Machine
end

