-- ==== Sys2Proof/Machine/Clock.lean ====
section
/-! DEFINITION. Happens-before by clocks (R138), the scopes that enclose two parties (R139), and race histories
(R142). -/

namespace Sys2Proof.Machine

namespace Clock

/-- How much of `p` a clock covers. -/
def get (c : Clock) (p : Party) : Nat := (assoc? c p).getD 0

/-- Covers everything that either clock covers. -/
def join (c d : Clock) : Clock :=
  d.foldl (fun acc e => if acc.get e.1 < e.2 then assocPut acc e.1 e.2 else acc) c

/-- The epoch of an access that `p` makes now: it is covered once `p` has released after it. -/
def epoch (c : Clock) (p : Party) : Nat := c.get p + 1

/-- The clock after `p` releases: everything it has done is covered by the published clock. -/
def release (c : Clock) (p : Party) : Clock := assocPut c p (c.epoch p)

end Clock

/-- An access is ordered before a point whose clock is `c`, for party `me`. -/
def Acc.before (a : Acc) (me : Party) (c : Clock) : Bool := a.owner == me || decide (a.epoch ≤ c.get a.key)

/-- Two accesses conflict (R137). -/
def Acc.conflicts (a : Acc) (aWrites : Bool) (me : Party) (writes atomic : Bool) : Bool :=
  a.owner != me && (aWrites || writes) && !(a.atomic && atomic)

def Hist.empty : Hist := ⟨none, []⟩

/-- The earlier access with which an access of `me` races, if there is one (R142). -/
def Hist.race (h : Hist) (me : Party) (c : Clock) (writes atomic : Bool) : Option Party :=
  match h.write.bind fun a => if a.conflicts true me writes atomic && !a.before me c then some a.owner else none with
  | some p => some p
  | none =>
    if writes then
      (h.reads.find? fun a => a.conflicts false me writes atomic && !a.before me c).map (·.owner)
    else none

/-- The history after an access that does not trap. -/
def Hist.add (h : Hist) (a : Acc) (writes : Bool) : Hist :=
  if writes then ⟨some a, []⟩ else ⟨h.write, a :: h.reads.filter fun b => b.key != a.key⟩

/-- A history without what an operation entered as it issued; `old` is the history before it (R446). -/
def Hist.undo (h old : Hist) (stamp : Nat) : Hist :=
  let reads := h.reads.flatMap fun r => if r.stamp = stamp then old.reads.filter fun b => b.key == r.key else [r]
  if h.write.any fun a => a.stamp == stamp then
    ⟨old.write, reads ++ old.reads.filter fun b => !reads.any fun r => r.key == b.key⟩
  else ⟨h.write, reads⟩

/-! ### Histories of locations -/

/-- The physical address of the tag region, by tagbase (R389). -/
def State.tagAddr (s : State) : Nat := (s.tagbase.extractLsb' 16 32).toNat * 65536

/-- The key under which the history of a location is kept. That of a word of memory lies in the tag region, four words a byte, and so
under another tagbase the word has another history (R389; log 77). -/
def State.histKey (s : State) (l : Loc) : Loc :=
  match l with
  | .word k => .word (4 * s.tagAddr + k)
  | l => l

def State.histAt (s : State) (l : Loc) : Hist := (assoc? s.hist (s.histKey l)).getD .empty

def State.setHist (s : State) (l : Loc) (h : Hist) : State := { s with hist := assocPut s.hist (s.histKey l) h }

/-- The histories in which two states differ, as the first has them. -/
def State.histsBefore (s t : State) : List (Loc × Hist) :=
  if s.hist = t.hist then []
  else t.hist.filterMap fun e =>
    let h := (assoc? s.hist e.1).getD .empty
    if h = e.2 then none else some (e.1, h)

/-- Takes back what an operation that issued as `stamp` entered in some histories (R244, R446). -/
def State.undoHists (s : State) (stamp : Nat) (old : List (Loc × Hist)) : State :=
  { s with hist := old.foldl (fun hs e =>
      let h := ((assoc? hs e.1).getD .empty).undo e.2 stamp
      if h = .empty then assocDel hs e.1 else assocPut hs e.1 h) s.hist }

/-- Forgets the histories of locations for which `f` holds. -/
def State.dropHist (s : State) (f : Loc → Bool) : State := { s with hist := s.hist.filter fun e => !f e.1 }

end Sys2Proof.Machine
end

