-- ==== Sys2Proof/Config.lean ====
section
/-! DEFINITION. What the manual leaves to the implementation or leaves open. Every constant here is opaque: no
proof can see a value, and a statement that mentions one holds whatever it is. -/

namespace Sys2Proof.Config

/-- A free byte: what an access returns where the manual calls the bytes undefined (log 2). The argument is the
counter `State.fresh`, which the step advances, so two uses need not agree. -/
opaque freeByte : Nat → Byte

/-- What a sector byte written under one key reads as under another (R394): the decryption under the reader's own
key. Arguments: key of the data, key of the reader, physical address, the byte as its owner wrote it (log 8). -/
opaque otherKey : Nat → Nat → Nat → Byte → Byte

/-- What a load of another module's memory gives (log 10). Arguments: the physical address and `State.fresh`. -/
opaque peerByte : Nat → Nat → Byte

/-- What a bank engine reads of the backing region of a grid (R292): the manual calls the bytes undefined (log 2). Arguments as for
`peerByte`. -/
opaque regionByte : Nat → Nat → Byte

/-- The DETAIL of a screen mismatch (R430): the manual names what the event is logged with, more than the 16 bytes hold as they stand, and
no layout of it (log 25). Arguments: %wgid, the clusters of the workgroup and of its copy, the two signatures. -/
opaque screenDetail : Nat → Nat → Nat → BitVec 64 → BitVec 64 → BitVec 128

/-- The moment-to-moment choice of the boost policy of the management controller (R439). -/
opaque boostPolicy : Nat → Bool

/-- What the supervisor warp reads from a read-only value that belongs to a workgroup (R176): the manual gives
none (log 2). The argument is the index of the value. -/
opaque supervisorValue : Nat → BitVec 32

end Sys2Proof.Config
end

