-- ==== Sys2Proof/Machine/Mem.lean ====
section
/-! DEFINITION. The module's memory: bytes by cell, poison marks by word, keys by sector. A cell is the place that
the piece layout of R121 gives a byte of a Vrelith frame; other frames are laid out by address. An unwritten byte
reads as zero (log 3). -/

namespace Sys2Proof.Machine

/-! ### The canonical list of bytes -/

/-- What an unlisted address reads as (log 3: DESIGN CHOICE). -/
def Memory.blank : Byte := 0

def Memory.read (m : Memory) (a : Nat) : Byte := Tab.get Memory.blank m a

/-- Writes one byte and keeps the canonical form. -/
def Memory.write (m : Memory) (a : Nat) (b : Byte) : Memory := Tab.put Memory.blank m a b

/-- The canonical form: addresses strictly rising, no byte that an unlisted address reads as. -/
def Memory.wf (m : Memory) : Bool := Tab.wf Memory.blank m

/-! ### Little-endian words (R4) -/

/-- The value of bytes, lowest address first. -/
def leNat : List Byte → Nat
  | [] => 0
  | b :: bs => b.toNat + 256 * leNat bs

/-- The low `n` bytes of a value, lowest address first. -/
def leBytes : Nat → Nat → List Byte
  | 0, _ => []
  | n + 1, x => BitVec.ofNat 8 x :: leBytes n (x / 256)

/-! ### Physical addresses (R377, R121) -/

/-- Frames of Vrelith. -/
def vrelithFrames : Nat := 7812500

/-- What a frame holds. -/
inductive FrameKind where
  | vrelith | tier | peer | host | none
  deriving DecidableEq, Repr

/-- The physical map by frame number; `tierCap` populated second-tier frames (R377). -/
def frameKind (tierCap frame : Nat) : FrameKind :=
  if frame < vrelithFrames then .vrelith
  else if 0x1000000 ≤ frame ∧ frame < 0x1000000 + tierCap then .tier
  else if 0x40000000 ≤ frame ∧ frame ≤ 0x7fffffff then .peer
  else if 0x80000000 ≤ frame ∧ frame ≤ 0xffffffff then .host
  else .none

/-- The piece and piece offset of a page offset (R121). -/
def pieceOf (layout o : Nat) : Nat × Nat :=
  if layout = 0 then ((o / 256) % 32, (o / 8192) * 256 + o % 256) else (o / 2048, o % 2048)

/-- The cell of a physical address under a LAYOUT: within a Vrelith frame, piece p and offset q lie at 2048p + q. -/
def cellOf (layout pa : Nat) : Nat :=
  if pa / 65536 < vrelithFrames then
    let pq := pieceOf layout (pa % 65536)
    pa / 65536 * 65536 + pq.1 * 2048 + pq.2
  else pa

/-! ### Where a cell lies (R16, R116 to R120) -/

/-- The place of a byte of a Vrelith frame: the slice that caches it, the compute die of that slice, the channel, the stack and the bank
that hold it, and its offset there. -/
structure Home where
  slice : Nat
  die : Nat
  channel : Nat
  stack : Nat
  bank : Nat
  off : Nat
  deriving DecidableEq, Repr

/-- G of a frame (R119). -/
def frameGroup (frame : Nat) : Nat := (frame ^^^ (frame / 64) ^^^ (frame / 4096)) % 64

/-- The home of a cell of Vrelith: piece p of its frame at piece offset q. -/
def homeOf (cell : Nat) : Home :=
  let frame := cell / 65536
  let p := cell % 65536 / 2048
  let ch := 64 * p + frameGroup frame
  ⟨p % 16, p / 16, ch, ch / 256, frame / 64 % 32, frame / 64 / 32 * 2048 + cell % 2048⟩

/-- A slice by its number on the module: 0 to 15 on the west die, 16 to 31 on the east die. -/
def Home.sliceNo (h : Home) : Nat := 16 * h.die + h.slice

/-- Lines of 128 bytes: those of a slice of 3 MiB, and those of an L1 of 64 KiB (R12, R15). -/
def sliceLines : Nat := 24576
def l1Lines : Nat := 512

/-- The line of a cell. -/
def lineOf (cell : Nat) : Nat := cell / 128

/-- The cell is cached in the shared level: second-tier, peer and host addresses are not (R116). -/
def cached (cell : Nat) : Bool := decide (cell / 65536 < vrelithFrames)

/-! ### Bytes of a frame -/

/-- The next free byte (log 2). -/
def State.free (s : State) : Byte × State := (Config.freeByte s.fresh, { s with fresh := s.fresh + 1 })

/-- Physical addresses of host memory start here (R377); host frames are not encrypted (R393). -/
def hostBase : Nat := 0x800000000000

/-- What tags a sector written under a key index: the index with the number of keys it has held. -/
def State.keyTag (s : State) (key : Nat) : Nat := key + 4096 * s.keyGens.get 0 key

/-- The frame of a physical address is on another member (R415). -/
def State.isPeer (s : State) (pa : Nat) : Bool := frameKind s.tiercap (pa / 65536) == .peer

/-- The member and the offset of a physical address of a peer window (R415). -/
def peerAddr (pa : Nat) : Nat × Nat := (pa / 2 ^ 38 % 256, pa % 2 ^ 38)

/-- A byte as an access under key `key` reads it: a sector written under another key reads as its decryption under
the reader's (R394); another module's byte is not held here (log 10). -/
def State.readCell (s : State) (key cell : Nat) : Byte :=
  let k := s.sectorKey.get 0 (cell / 32)
  let b := s.mem.read cell
  if s.isPeer cell then Config.peerByte cell s.fresh
  else if hostBase ≤ cell || k = s.keyTag key then b else Config.otherKey k (s.keyTag key) cell b

/-- Whether the word of a cell is marked (R352). -/
def State.cellMark (s : State) (cell : Nat) : Bool := s.poison.get false (cell / 4)

/-- A sector takes the key of the access that writes it: its other bytes become what that key reads (R394). -/
def State.rekey (s : State) (key cell : Nat) : State :=
  let k := s.sectorKey.get 0 (cell / 32)
  if hostBase ≤ cell || k = s.keyTag key then s
  else
    let base := cell / 32 * 32
    let m := (List.range 32).foldl (fun m i => m.write (base + i) (s.readCell key (base + i))) s.mem
    { s with mem := m, sectorKey := s.sectorKey.put 0 (cell / 32) (s.keyTag key) }

/-- Writes one byte under a key; a byte of another module leaves this one. -/
def State.writeCell (s : State) (key cell : Nat) (b : Byte) : State :=
  if s.isPeer cell then s
  else
    let s := s.rekey key cell
    { s with mem := s.mem.write cell b }

/-- Sets or clears the mark of the word of a cell. -/
def State.markCell (s : State) (cell : Nat) (m : Bool) : State :=
  { s with poison := s.poison.put false (cell / 4) m }

/-- Reads `n` bytes at a physical address. -/
def State.readPa (s : State) (layout key pa n : Nat) : List Byte :=
  (List.range n).map fun i => s.readCell key (cellOf layout (pa + i))

/-- Whether a word of `n` bytes at a physical address is marked. -/
def State.paMark (s : State) (layout pa n : Nat) : Bool :=
  (List.range n).any fun i => s.cellMark (cellOf layout (pa + i))

/-- Writes bytes at a physical address. -/
def State.writePa (s : State) (layout key : Nat) : Nat → List Byte → State
  | _, [] => s
  | pa, b :: bs => State.writePa (s.writeCell key (cellOf layout pa) b) layout key (pa + 1) bs

/-! ### The stack arrays (R116, R150) -/

/-- What the stack arrays hold of a cell, as an engine that reads there under a key finds it (R394). -/
def State.arrayCell (s : State) (key cell : Nat) : Byte :=
  match s.arrays.get none cell with
  | some b => if b.tag = s.keyTag key then b.byte else Config.otherKey b.tag (s.keyTag key) cell b.byte
  | none => s.readCell key cell

/-- The mark that the arrays hold of the word of a cell. -/
def State.arrayMark (s : State) (cell : Nat) : Bool :=
  match (List.range 4).findSome? fun i => s.arrays.get none (cell / 4 * 4 + i) with
  | some b => b.mark
  | none => s.cellMark cell

/-- The cycles of the die of the slice that serves a cell, by its first core. -/
def State.sliceCycle (s : State) (cell : Nat) : Nat := (s.cores.get Core.zero (256 * (homeOf cell).die)).cycle

/-- The slice that serves a cell replays (R422, R424). -/
def State.sliceBusy (s : State) (cell : Nat) : Bool :=
  cached cell && decide (s.sliceCycle cell < s.sliceStall.get 0 (homeOf cell).sliceNo)

/-- The cycle from which what leaves the slice of a cell now may reach the stack (R423). -/
def State.leaveDue (s : State) (cell : Nat) : Nat := s.sliceCycle cell + 64

/-- What memory holds of a cell now, as a value on its way. -/
def State.inWay (s : State) (cell due : Nat) (tiled : Bool) : InWay :=
  ⟨s.mem.read cell, s.sectorKey.get 0 (cell / 32), s.cellMark cell, due, tiled⟩

/-- The newest values of the cells for which `f` holds leave for the stack, if they have waited for the eviction of their line. -/
def State.sendDirty (s : State) (f : Nat → Bool) : State :=
  { s with arrays := s.arrays.map fun e =>
      (e.1, e.2.map fun x => if f e.1 && x.newest.isNone then { x with newest := some (s.leaveDue e.1, false) } else x) }

/-- Makes room for a new value of a cell that a store brings to its slice: the arrays keep what they hold, and a value that has left for
the stack goes on. `tiled`: the store is to a bank-tiled page, and is written through; else it is written back on eviction. -/
def State.lagCell (s : State) (tiled : Bool) (cell : Nat) : State :=
  if !cached cell then s
  else
    let x : Stale := match s.arrays.get none cell with
      | some x => { x with way := match x.newest with | some (d, k) => x.way ++ [s.inWay cell d k] | none => x.way }
      | none => ⟨s.mem.read cell, s.sectorKey.get 0 (cell / 32), s.arrayMark cell, [], none⟩
    { s with arrays := s.arrays.put none cell (some { x with newest := if tiled then some (s.leaveDue cell, true) else none }) }

/-- The same for the cells that a store under a key changes: a sector of another key is rewritten whole. After a store to a bank-tiled
page its whole line is clean. -/
def State.lagStore (s : State) (tiled : Bool) (key cell : Nat) : State :=
  let s := if s.sectorKey.get 0 (cell / 32) = s.keyTag key then s.lagCell tiled cell
    else (List.range 32).foldl (fun s i => s.lagCell tiled (cell / 32 * 32 + i)) s
  if tiled then s.sendDirty fun c => lineOf c == lineOf cell else s

/-- The stack arrays hold the newest value of every cell for which `f` holds. -/
def State.settleCells (s : State) (f : Nat → Bool) : State :=
  { s with arrays := s.arrays.filter fun e => !f e.1 }

/-! ### Lines in the caches (R12, R15, R116, R117) -/

/-- The lines without the one that leaves a full cache: of those that are not kept, the one used longest ago, else of all (log 80). -/
def dropOldest (ls : List Line) : List Line :=
  match (ls.reverse.find? fun l => !l.keep).orElse fun _ => ls.getLast? with
  | some v => ls.filter fun l => l.no != v.no
  | none => ls

/-- Uses a line of a slice with a CACHE hint (R171): 1 makes it the first to leave, 3 keeps it in preference to others; else it goes
first (log 80). -/
def useLine (cache tag line : Nat) (ls : List Line) : List Line :=
  let kept := ls.any fun l => l.no == line && l.keep
  let rest := ls.filter fun l => l.no != line
  let rest := if rest.length < sliceLines then rest else dropOldest rest
  let l : Line := ⟨line, tag, cache == 3 || (kept && cache != 1)⟩
  if cache = 1 then rest ++ [l] else l :: rest

/-- Some lines leave the shared level: what waited for their eviction goes to the stack. -/
def State.evict (s : State) (f : Line → Bool) : State :=
  let gone := s.lines.flatMap fun e => (e.2.filter f).map Line.no
  let s := s.sendDirty fun c => gone.contains (lineOf c)
  { s with lines := s.lines.filterMap fun e =>
      let ls := e.2.filter fun l => !f l
      if ls.isEmpty then none else some (e.1, ls) }

/-- An access under a key brings its line into the slice that serves it. A line that is there under another key is written back first
(R394). -/
def State.useSlice (s : State) (cache key cell : Nat) : State :=
  if !cached cell then s
  else
    let n := (homeOf cell).sliceNo
    let tag := s.keyTag key
    let s := s.evict fun l => l.no == lineOf cell && l.tag != tag
    let old := s.lines.get [] n
    let ls := useLine cache tag (lineOf cell) old
    let s := match old.find? fun l => !ls.any fun m => m.no == l.no with
      | some v => s.sendDirty fun c => lineOf c == v.no
      | none => s
    { s with lines := s.lines.put [] n ls }

/-- A load of a core brings its line into that core's L1, a streaming one as the first to leave. The L1 of the model holds lines of
Vrelith alone: whether it also holds lines of second-tier, peer and host addresses the manual does not say (log 80: DESIGN CHOICE). -/
def State.useL1 (s : State) (core : Nat) (stream : Bool) (cell : Nat) : State :=
  if !cached cell then s
  else { s with l1 := s.l1.upd [] core fun ls =>
    let rest := ls.filter (· != lineOf cell)
    if stream then rest.take (l1Lines - 1) ++ [lineOf cell] else (lineOf cell :: rest).take l1Lines }

/-- What is written or operated on at its slice is in no core's L1. -/
def State.leaveL1 (s : State) (cell : Nat) : State :=
  { s with l1 := s.l1.filterMap fun e =>
      let ls := e.2.filter (· != lineOf cell)
      if ls.isEmpty then none else some (e.1, ls) }

/-- The next value of a byte on its way to the stack gets there, if it may by cycle `d`. -/
def Stale.arrive (x : Stale) (d : Nat) : Option Stale :=
  match x.way, x.newest with
  | v :: vs, _ => some (if v.due ≤ d then { x with byte := v.byte, tag := v.tag, mark := v.mark, way := vs } else x)
  | [], some (c, _) => if c ≤ d then none else some x
  | [], none => some x

/-- The cycle from which the next value of a byte may get there. -/
def Stale.nextDue (x : Stale) : Option Nat :=
  match x.way with
  | v :: _ => some v.due
  | [] => x.newest.map (·.1)

/-- A word on its way to the stack gets there whole (R144), no sooner than 64 cycles after it left (R423) and not while its slice
replays. Where nothing of the word is on its way, its line leaves the shared level, for which any moment may be chosen (log 80). -/
def State.drainCell (s : State) (cell : Nat) : State :=
  let word := (List.range 4).map fun i => cell / 4 * 4 + i
  match (word.filterMap fun c => (s.arrays.get none c).bind Stale.nextDue).min? with
  | none => if s.sliceBusy cell then s else (s.sendDirty fun c => lineOf c == lineOf cell).evict fun l => l.no == lineOf cell
  | some d =>
    if s.sliceBusy cell || decide (s.sliceCycle cell < d) then s
    else { s with arrays := word.foldl (fun a c => a.upd none c fun x => x.bind fun x => x.arrive d) s.arrays }

end Sys2Proof.Machine
end

