-- ==== Sys2Proof/Machine/Ops.lean ====
section
/-! DEFINITION. The named operations over cores, workgroups, warps, threads, rows and registers, taking a trap and
returning from one, and the frame in which every meaning of a Farale instruction runs. -/

namespace Sys2Proof

/-! ### Warps by name -/

/-- The quarter of a warp (R25, R336). -/
def WRef.quarter : WRef → Nat
  | .user _ w => w % 4
  | .sup _ => 0

/-- The party of a warp (R135). -/
def WRef.party : WRef → Machine.Party
  | .user inst w => .warp inst w
  | .sup n => .sup n

def WRef.isSup : WRef → Bool
  | .sup _ => true
  | .user .. => false

/-- The INSTANCE of a user warp. -/
def WRef.inst : WRef → Nat
  | .user inst _ => inst
  | .sup _ => 0

def WRef.index : WRef → Nat
  | .user _ w => w
  | .sup _ => 0

end Sys2Proof

namespace Sys2Proof.Machine

/-! ### Cores, workgroups, warps -/

/-- The cluster of a core (R10). -/
def clusterOf (core : Nat) : Nat := core / 16

/-- The compute die of a core (R10). -/
def dieOf (core : Nat) : Nat := core / 256

def State.core (s : State) (n : Nat) : Core := s.cores.get Core.zero n

def State.setCore (s : State) (n : Nat) (c : Core) : State := { s with cores := s.cores.put Core.zero n c }

def State.modCore (s : State) (n : Nat) (f : Core → Core) : State := s.setCore n (f (s.core n))

/-- A resident workgroup; under a number of a supervisor warp, what that warp uses. -/
def State.wg? (s : State) (inst : Nat) : Option Wg :=
  if inst < supBase then s.wgs.get none inst
  else some { (s.supWgs.get none (inst - supBase)).getD (.blank (inst - supBase)) with warps := [(s.core (inst - supBase)).sup] }

/-- The workgroup has a party that issues: it is not stuck (R48). -/
def Wg.runs (g : Wg) : Wg := { g with stuckSince := none }

def State.setWg (s : State) (inst : Nat) (g : Wg) : State :=
  { s with wgs := if inst < supBase then s.wgs.put none inst (some g) else s.wgs
           supWgs := if inst < supBase then s.supWgs else s.supWgs.put none (inst - supBase) (some { g with warps := [] }) }

/-- The number of a supervisor warp's state. -/
def supInst (core : Nat) : Nat := supBase + core

/-- Warp `w` of a workgroup, or the supervisor warp. -/
def wref (inst w : Nat) : WRef := if inst < supBase then .user inst w else .sup (inst - supBase)

/-- The resident workgroups, and what the supervisor warps use, by number. -/
def State.allWgs (s : State) : List (Nat × Wg) :=
  (s.wgs.filterMap fun e => e.2.map fun g => (e.1, g)) ++
  s.supWgs.filterMap fun e => (s.wg? (supInst e.1)).map fun g => (supInst e.1, g)

/-- The workgroups resident on a core. -/
def State.residents (s : State) (core : Nat) : List (Nat × Wg) :=
  s.wgs.filterMap fun e => match e.2 with | some g => if g.core = core then some (e.1, g) else none | none => none

/-- The set bits of a list of numbers. -/
def bitsOf (xs : List Nat) : Nat := xs.foldl (fun m x => m ||| 2 ^ x) 0

/-- The numbers below `n` that a list does not hold, in ascending order. -/
def freeBelow (n : Nat) (xs : List Nat) : List Nat := let m := bitsOf xs; (List.range n).filter fun i => !m.testBit i

/-- The accumulator tiles of a core that no workgroup has been granted. -/
def State.unboundTiles (s : State) (core : Nat) : List Nat := freeBelow 16 ((s.residents core).flatMap fun e => e.2.tiles)

/-- Applies `f` to a resident workgroup. -/
def State.modWg (s : State) (inst : Nat) (f : Wg → Wg) : State :=
  match s.wg? inst with
  | some g => s.setWg inst (f g)
  | none => s

/-- A party of a workgroup issues (R48). -/
def State.runs (s : State) (inst : Nat) : State := s.modWg inst Wg.runs

/-- A warp, if it exists. Every core of the module has a supervisor warp (R336). -/
def State.warp? (s : State) (w : WRef) : Option Warp :=
  match w with
  | .user inst i => if inst < supBase then (s.wg? inst).bind fun g => g.warps[i]? else none
  | .sup n => some (s.core n).sup

/-- A warp of a party that exists. -/
def State.warp (s : State) (w : WRef) : Warp := (s.warp? w).getD Warp.init

def State.setWarp (s : State) (w : WRef) (x : Warp) : State :=
  match w with
  | .user inst i => s.modWg inst fun g => { g with warps := g.warps.set i x }
  | .sup n => s.modCore n fun c => { c with sup := x }

def State.modWarp (s : State) (w : WRef) (f : Warp → Warp) : State := s.setWarp w (f (s.warp w))

/-- The core on which a warp runs. -/
def State.coreOf (s : State) (w : WRef) : Nat :=
  match w with
  | .user inst _ => match s.wg? inst with | some g => g.core | none => 0
  | .sup n => n

/-- The context of a warp; the supervisor warp runs in context 0 (R335). -/
def State.ctxOf (s : State) (w : WRef) : Nat :=
  match w with
  | .user inst _ => match s.wg? inst with | some g => g.ctx | none => 0
  | .sup _ => 0

def State.cycleOf (s : State) (w : WRef) : Nat := (s.core (s.coreOf w)).cycle

/-- A fresh identity for an operation. -/
def State.newId (s : State) : Nat × State := (s.nextId, { s with nextId := s.nextId + 1 })

/-! ### Threads -/

def Thread.exited (t : Thread) : Bool :=
  match t.st with
  | .exited _ => true
  | _ => false

/-- It is to be killed once its instruction has passed its checks (R245). -/
def Thread.doomed (t : Thread) : Bool :=
  match t.st with
  | .doomed .. => true
  | _ => false

def Thread.asleep (t : Thread) : Bool :=
  match t.st with
  | .asleep _ => true
  | _ => false

def Warp.thread (w : Warp) (l : Nat) : Thread := w.threads.getD l Thread.init

/-- Applies `f` to the threads of the lanes of `m`. -/
def Warp.modThreads (w : Warp) (m : Mask) (f : Nat → Thread → Thread) : Warp :=
  { w with threads := Lanes.build fun l => if m.has l then f l (w.thread l) else w.thread l }

/-- The lanes for whose threads `f` holds. -/
def Warp.lanesWhere (w : Warp) (f : Thread → Bool) : Mask := Lanes.mask fun l => f (w.thread l)

/-- The lanes whose threads have not exited. -/
def Warp.live (w : Warp) : Mask := w.lanesWhere fun t => !t.exited

/-- A warp has exited when all its threads have (R49). -/
def Warp.exited (w : Warp) : Bool := w.live == 0

/-- p of a lane; p7 is always true (R55). -/
def Warp.pred (w : Warp) (n l : Nat) : Bool := if n = 7 then true else (w.p.get 0 n).has l

def Warp.predMark (w : Warp) (n l : Nat) : Bool := if n = 7 then false else (w.pMark.get 0 n).has l

/-! ### The instruction that runs -/

/-- The group that issues and its instruction. -/
structure Ctx where
  ref : WRef
  group : Mask
  hdrAddr : DWord
  hdr : DWord
  word : DWord
  pc : DWord
  core : Nat
  ctx : Nat
  deriving DecidableEq, Repr

/-- Why an instruction does not complete now: a trap, or a wait on state. -/
inductive Stop where
  | trap (d : Detail)
  /-- the group blocks; the state holds what the wait registered -/
  | block (s : State)
  /-- the same while checks of the instruction are still to come -/
  | early (s : State)
  /-- a trap of an instruction that had waited: the state is without what the wait registered -/
  | drop (s : State) (d : Detail)
  deriving DecidableEq, Repr

abbrev M (α : Type) := Except Stop α

/-- A cause with nothing else logged. -/
def Detail.code_ (code : Nat) : Detail := ⟨code, 0, 0, 7, 0, none, none, none⟩

/-- Ends an instruction with a trap of a cause. -/
def trapWith {α : Type} (d : Detail) : M α := .error (.trap d)

def trapCode {α : Type} (code : Nat) : M α := trapWith (.code_ code)

/-- Traps unless a condition holds. -/
def need (ok : Bool) (d : Detail) : M Unit := if ok then .ok () else trapWith d

/-- The group named by `State.cur`, if its warp exists. -/
def State.ctx? (s : State) : Option Ctx :=
  match s.cur with
  | .warp w g ha h word =>
    match s.warp? w with
    | none => none
    | some x =>
      let pc := match Lanes.low g with | some l => (x.thread l).pc | none => 0
      some ⟨w, g, ha, h, word, pc, s.coreOf w, s.ctxOf w⟩
  | _ => none

namespace Ctx

/-- The lanes of the group whose predicate holds (R165): the active lanes. -/
def active (c : Ctx) (s : State) (h : Head) : Mask :=
  let w := s.warp c.ref
  Lanes.mask fun l => c.group.has l && (w.pred h.pidx.toNat l != h.neg)

/-- The lanes whose predicate holds, by the fields of the word that issues (R164, R340). -/
def held (c : Ctx) (s : State) : Mask :=
  let w := s.warp c.ref
  Lanes.mask fun l => c.group.has l && (w.pred (c.word.extractLsb' 51 3).toNat l != c.word.getLsbD 54)

/-- The lanes of the group whose guard predicate is poisoned (R353). -/
def guardMarks (c : Ctx) (s : State) (h : Head) : Mask :=
  let w := s.warp c.ref
  Lanes.mask fun l => c.group.has l && w.predMark h.pidx.toNat l

/-- An instruction on per-warp state executes under p7, or when the predicate holds in a thread of the group
(R59). -/
def executes (c : Ctx) (s : State) (h : Head) : Bool := h.pidx == 7 || c.active s h != 0

/-- The number of the instruction in its clause (R155). -/
def index (c : Ctx) : Nat := (c.pc - c.hdrAddr).toNat / 8 - 1

/-- COUNT of the clause (R156). -/
def count (c : Ctx) : Nat := (c.hdr.extractLsb' 56 4).toNat

/-- The fall-through header (R155). -/
def fallThrough (c : Ctx) : DWord := c.hdrAddr + BitVec.ofNat 64 (8 * (c.count + 2))

def isLast (c : Ctx) : Bool := c.index == c.count

/-- The PC after the instruction: the next word, or the fall-through header. -/
def nextPc (c : Ctx) : DWord := if c.isLast then c.fallThrough else c.pc + 8

/-- YIELD and END of the header (R156). -/
def yieldBit (c : Ctx) : Bool := c.hdr.getLsbD 11
def endBit (c : Ctx) : Bool := c.hdr.getLsbD 10

def party (c : Ctx) : Party := c.ref.party

end Ctx

/-! ### Taking a trap (R341) and returning from one (R343) -/

/-- tcause (R339). -/
def causeWord (ctx wgslot warp src code : Nat) : DWord :=
  BitVec.ofNat 64 (ctx % 4096 * 2 ^ 32 + wgslot % 16 * 2 ^ 22 + warp % 32 * 2 ^ 17 + src % 8 * 2 ^ 12 + code % 512)

/-- tinfo (R340). -/
def infoWord (d : Detail) : DWord :=
  BitVec.ofNat 64 (d.value.toNat * 2 ^ 32 + d.index % 256 * 2 ^ 16 + d.field % 8 * 2 ^ 8)

/-- tlanes (R340). -/
def lanesWord (lanes : Mask) (first : Option Nat) : DWord :=
  match first with
  | none => lanes.setWidth 64
  | some l => BitVec.ofNat 64 (lanes.toNat + l % 32 * 2 ^ 32 + 2 ^ 37)

/-- teng (R345): `flag` is the flag index, 15 for a command of a port. -/
def engWord (p : Parked) (flag : Nat) : DWord :=
  BitVec.ofNat 64 (p.tag % 65536 * 2 ^ 48 + p.progress % 65536 * 2 ^ 32 + p.kind % 16 * 2 ^ 24 + p.unit % 4 * 2 ^ 20 +
    p.tile % 16 * 2 ^ 16 + 16 + flag % 16)

/-- What a trap of a warp is made of. -/
structure TrapReq where
  src : Nat
  cause : Detail
  lanes : Mask
  group : Mask
  pc : DWord
  resume : DWord
  word : DWord
  parked : Option Parked
  flag : Nat
  deriving DecidableEq, Repr

/-- SRC (R339): the gang causes of a user party come with 4, unless a flag wait delivers them (R419). -/
def TrapReq.srcOf (r : TrapReq) : Nat := if (r.cause.code = 0x1c1 || r.cause.code = 0x1c7) && r.src != 2 then 4 else r.src

/-- The record of a trap. -/
def TrapReq.record (r : TrapReq) (ctx wgslot warp cycle : Nat) : TrapRec :=
  { cause := causeWord ctx wgslot warp r.srcOf r.cause.code
    pc := r.pc
    resume := r.resume
    word := r.word
    addr := r.cause.addr
    info := infoWord r.cause
    lanes := lanesWord r.lanes r.cause.lane
    eng := match r.parked with
      | some p => engWord p r.flag
      | none => BitVec.ofNat 64 ((r.cause.opKind.getD 0) % 16 * 2 ^ 24 + (if r.src = 2 then r.flag % 16 else 0))
    resume0 := r.resume
    group := r.group
    parked := r.parked
    ectlWritten := false
    cycle := cycle
    aged := false
    other := r.cause.other }

/-- A screen copy raises no trap: it ends (R429). -/
def State.copyFails (s : State) (inst : Nat) : State := s.modWg inst fun g => { g with copyFault := true, frozen := true }

/-- The workgroup is a screen copy (R429). -/
def State.copyWg (s : State) (inst : Nat) : Bool := match s.wg? inst with | some g => g.copyOf.isSome | none => false

/-- A trap of the supervisor warp halts its core and goes to the management controller as 0x1e2 (R350). -/
def State.supStops (s : State) (n : Nat) : State :=
  let s := s.modCore n fun c => { c with halted := true }
  { s with reports := s.reports ++ [(n, 0x1e2)], haltReports := s.haltReports ++ [n] }

/-- Takes a trap of a warp (R341): the threads of the trapping group stand at the logged PC, the record is filled,
and the warp issues nothing until ERET. -/
def State.takeTrap (s : State) (w : WRef) (r : TrapReq) (clause : Option (DWord × DWord)) : State :=
  let x := s.warp w
  let n := s.coreOf w
  let cyc := (s.core n).cycle
  let slot := match w with | .user inst _ => (match s.wg? inst with | some g => g.slot | none => 0) | .sup _ => 0
  let rec_ := r.record (s.ctxOf w) slot w.index cyc
  let x := { x.modThreads r.group fun _ t => { t with pc := r.pc, clause := clause } with trap := some rec_ }
  let s := s.setWarp w x
  match w with
  | .user inst _ => if s.copyWg inst then (s.modWarp w fun x => { x with trap := none }).copyFails inst else s
  | .sup n => s.supStops n

/-- The threads of a trapped warp resume (R343, mode 0): those of the trapping group at tresume. When the handler
has moved the resume point, the PC is a clause boundary there, and a YIELD of the clause that it leaves is void (R191). A group whose
resume point is the header behind its clause stands there with neither the END nor the YIELD of that clause applied (R196; log 81). -/
def Warp.resume (w : Warp) (r : TrapRec) (cycle : Nat) : Warp :=
  let moved := r.resume != r.resume0
  let w := w.modThreads r.group fun _ t =>
    if t.exited then t
    else if moved then { t with pc := r.resume, clause := none, st := .ready, since := cycle, arrived := cycle }
    else if r.resume = r.pc then t
    else
      -- the resume point is the next instruction of the clause, or a boundary
      match t.clause with
      | some (ha, hdr) =>
        let last := ha + BitVec.ofNat 64 (8 * ((hdr.extractLsb' 56 4).toNat + 2))
        { t with pc := r.resume, clause := if r.resume = last then none else t.clause, since := cycle, arrived := cycle }
      | none => { t with pc := r.resume, since := cycle, arrived := cycle }
  { w with trap := none, yielding := if moved then w.yielding &&& ~~~r.group else w.yielding }

/-! ### The end of an instruction -/

/-- The trap of the current instruction with SRC 0 (R182, R341). -/
def State.trapAt (s : State) (c : Ctx) (h : Head) (d : Detail) : State :=
  let x := s.warp c.ref
  let clause := match Lanes.low c.group with | some l => (x.thread l).clause | none => none
  s.takeTrap c.ref ⟨0, d, c.active s h, c.group, c.pc, c.pc, c.word, none, 0⟩ clause

/-- What the warp does when a group completes a clause with YIELD (R160): it does not issue in the next cycle, and
counts as the warp that issued most recently. -/
def State.yieldAfter (s : State) (c : Ctx) : State :=
  let x := s.warp c.ref
  if c.yieldBit || x.yielding &&& c.group != 0 then
    let cyc := s.cycleOf c.ref
    s.setWarp c.ref { x with yielding := x.yielding &&& ~~~c.group, skipCycle := some (cyc + 1), recency := 2 * (cyc + 1) + 1 }
  else s

/-- Moves the lanes of `m` past the instruction: to the next word, or at the end of the clause to the target that
`jump` gives the lane, else to the fall-through header. In a clause with END, the lanes that took no transfer trap
0x002 at the boundary (R160). -/
def State.advance (s : State) (c : Ctx) (m : Mask) (jump : List (Nat × DWord)) : State :=
  let cyc := s.cycleOf c.ref
  let s := s.modWarp c.ref fun x => x.modThreads m fun l t =>
    if t.exited || t.doomed then t
    else if c.isLast then { t with pc := (assoc? jump l).getD c.fallThrough, clause := none, since := cyc, arrived := cyc, promoted := false }
    else { t with pc := c.pc + 8, since := cyc, arrived := cyc }
  if c.isLast then
    let s := s.yieldAfter c
    let x := s.warp c.ref
    let stuck := Lanes.mask fun l => m.has l && !(x.thread l).exited && !(x.thread l).doomed && (assoc? jump l).isNone
    if c.endBit && stuck != 0 then
      s.takeTrap c.ref ⟨1, .code_ 0x002, stuck, stuck, c.hdrAddr, c.fallThrough, c.hdr, none, 0⟩ none
    else s
  else s

/-- Threads of the lanes of `m` block at the instruction under one ticket (R47). Threads already blocked keep
theirs. -/
def State.blockAt (s : State) (c : Ctx) (m : Mask) : State :=
  let x := s.warp c.ref
  let already := match Lanes.low m with
    | some l => (match (x.thread l).st with | .blocked _ => true | _ => false)
    | none => true
  if already then s
  else
    let (id, s) := s.newId
    s.modWarp c.ref fun x => x.modThreads m fun _ t => if t.exited then t else { t with st := .blocked id }

/-- Threads that were blocked at the instruction run again. -/
def Warp.unblock (w : Warp) (m : Mask) : Warp :=
  w.modThreads m fun _ t => match t.st with | .blocked _ => { t with st := .ready } | _ => t

/-- Runs the meaning of a Farale instruction whose group moves to the next instruction when it completes. A trap
changes nothing but the trap's own effects (R182); a wait leaves the group blocked at the instruction. -/
def runOp (s : State) (h : Head) (body : Ctx → M State) : Host.Outcome State Fault Refusal :=
  match s.ctx? with
  | none => .fault .noParty
  | some c =>
    match body c with
    | .ok s' => .next ((s'.modWarp c.ref fun x => x.unblock c.group).advance c c.group [])
    | .error (.trap d) => .next (s.trapAt c h d)
    | .error (.drop s' d) => .next (s'.trapAt c h d)
    | .error (.block s') => .next (s'.blockAt c c.group)
    | .error (.early s') => .next (s'.blockAt c c.group)

/-- The same for a meaning that places the threads of its group itself. -/
def runNav (s : State) (h : Head) (body : Ctx → M State) : Host.Outcome State Fault Refusal :=
  match s.ctx? with
  | none => .fault .noParty
  | some c =>
    match body c with
    | .ok s' => .next s'
    | .error (.trap d) => .next (s.trapAt c h d)
    | .error (.drop s' d) => .next (s'.trapAt c h d)
    | .error (.block s') => .next (s'.blockAt c c.group)
    | .error (.early s') => .next (s'.blockAt c c.group)

/-- An event that is not enabled does not occur: the state stays. -/
def event (s : State) (r : Option State) : Host.Outcome State Fault Refusal :=
  match r with
  | some s' => .next s'
  | none => .next s

/-! ### What leaves the module (R405) -/

/-- The header of a packet that leaves now: gang id, generation, gang time in µs (R405). -/
def State.pktHead (s : State) : PktHead :=
  ⟨s.gangcfg.extractLsb' 0 16, BitVec.ofNat 16 s.gen, BitVec.ofNat 24 (s.clockNs / 1000)⟩

/-- Sends something to another member. -/
def State.emit (s : State) (o : Out) : State := { s with outbox := s.outbox ++ [⟨some s.pktHead, o⟩] }

/-- A completion for the host. -/
def State.answer (s : State) (data : Option (List Byte)) : State := { s with outbox := s.outbox ++ [⟨none, .host data⟩] }

/-! ### Waiting in order -/

/-- Enters a list of waiters: after those that blocked earlier, and in one cycle by warp index (R74). -/
def waitEnter (w : Wait) : List Wait → List Wait
  | [] => [w]
  | x :: xs =>
    let before := match w.party, x.party with
      | .warp _ a, .warp _ b => w.cycle == x.cycle && decide (a < b)
      | _, _ => false
    if before then w :: x :: xs else x :: waitEnter w xs

/-- The waiter that a group left, if it waits. -/
def waitFind (p : Party) (g : Mask) (ws : List Wait) : Option Wait := ws.find? fun w => w.party == p && w.group == g

/-- Without a group's wait. -/
def waitDrop (p : Party) (g : Mask) (ws : List Wait) : List Wait := ws.filter fun w => !(w.party == p && w.group == g)

/-- Whether the group is the first of those that wait, or nobody waits. -/
def waitFirst (p : Party) (g : Mask) (ws : List Wait) : Bool :=
  match ws with
  | [] => true
  | w :: _ => w.party == p && w.group == g

/-- Registers a group's wait once. -/
def waitAdd (p : Party) (g : Mask) (cycle arg : Nat) (ws : List Wait) : List Wait :=
  if (waitFind p g ws).isSome then ws else waitEnter ⟨p, g, cycle, arg⟩ ws

/-! ### k, kp, p, a and cf -/

def Warp.kGet (w : Warp) (n : Nat) : Word := w.k.get 0 n

/-- A pair k2n:k2n+1, low half in the even register (R55). -/
def Warp.kPair (w : Warp) (n : Nat) : DWord := (w.kGet (n + 1) ++ w.kGet n : BitVec 64)

def Warp.kMarked (w : Warp) (n : Nat) : Bool := w.kMark.get false n

def Warp.kSet (w : Warp) (n : Nat) (x : Word) (mark : Bool) : Warp :=
  { w with k := w.k.put 0 n x, kMark := w.kMark.put false n mark }

def Warp.kSetPair (w : Warp) (n : Nat) (x : DWord) (mark : Bool) : Warp :=
  (w.kSet n (x.setWidth 32) mark).kSet (n + 1) (x.extractLsb' 32 32) mark

/-- Writes consecutive k registers. -/
def Warp.kSetList (w : Warp) : Nat → List Word → Warp
  | _, [] => w
  | n, x :: xs => (w.kSet n x false).kSetList (n + 1) xs

def Warp.kpGet (w : Warp) (n : Nat) : Bool := w.kp.get false n

def Warp.kpSet (w : Warp) (n : Nat) (b mark : Bool) : Warp :=
  { w with kp := w.kp.put false n b, kpMark := w.kpMark.put false n mark }

/-- Writes p of the lanes of `m`, p0 to p6. -/
def Warp.pSet (w : Warp) (n : Nat) (m vals marks : Mask) : Warp :=
  { w with p := w.p.put 0 n ((w.p.get 0 n &&& ~~~m) ||| (vals &&& m)),
           pMark := w.pMark.put 0 n ((w.pMark.get 0 n &&& ~~~m) ||| (marks &&& m)) }

def Warp.aGet (w : Warp) (n : Nat) : AReg := w.a.get AReg.zero n

def Warp.aSet (w : Warp) (n : Nat) (x : AReg) : Warp := { w with a := w.a.put AReg.zero n x }

/-- FLAG n counts cf(n−1) (R166). -/
def Warp.flagUp (w : Warp) (f : Nat) : Warp :=
  if f = 0 then w else { w with cf := w.cf.put 0 (f - 1) (w.cf.get 0 (f - 1) + 1) }

def Warp.flagDown (w : Warp) (f : Nat) : Warp :=
  if f = 0 then w else { w with cf := w.cf.put 0 (f - 1) (w.cf.get 0 (f - 1) - 1) }

/-- A cause enters the error queue of a flag (R166). -/
def Warp.flagError (w : Warp) (f : Nat) (e : ErrRec) : Warp :=
  { w with errq := w.errq.put [] (f - 1) (w.errq.get [] (f - 1) ++ [e]) }

/-- Writes the clock of a party that is a warp or a Beryl core; other parties carry none. -/
def State.joinClock (s : State) (p : Party) (c : Clock) : State :=
  match p with
  | .warp inst w => s.modWarp (.user inst w) fun x => { x with clk := x.clk.join c }
  | .sup n => s.modWarp (.sup n) fun x => { x with clk := x.clk.join c }
  | .beryl inst which =>
    match s.wg? inst with
    | some g => s.modCore g.core fun c' =>
        if which = 0 then { c' with loader := { c'.loader with clk := c'.loader.clk.join c } }
        else { c' with storer := { c'.storer with clk := c'.storer.clk.join c } }
    | none => s
  | _ => s

def State.clockOf (s : State) (p : Party) : Clock :=
  match p with
  | .warp inst w => (s.warp (.user inst w)).clk
  | .sup n => (s.warp (.sup n)).clk
  | .beryl inst which =>
    match s.wg? inst with
    | some g => if which = 0 then (s.core g.core).loader.clk else (s.core g.core).storer.clk
    | none => []
  | _ => []

/-- A release of a party (R138): its clock is published. -/
def State.releaseClock (s : State) (p : Party) : Clock × State :=
  let c := (s.clockOf p).release p
  (c, s.joinClock p c)

/-! ### Scopes (R139, R140) -/

/-- The INSTANCE of the workgroup of a party. -/
def Party.inst? : Party → Option Nat
  | .warp i _ => some i
  | .beryl i _ => some i
  | .sup n => some (supInst n)
  | _ => none

/-- The INSTANCE and the index of a warp that is a party. -/
def Party.warp? : Party → Option (Nat × Nat)
  | .warp i w => some (i, w)
  | .sup n => some (supInst n, 0)
  | _ => none

/-- Whether the party runs on this module. -/
def Party.local_ : Party → Bool
  | .host => false
  | .gang _ => false
  | _ => true

/-- A scope encloses two parties (R139): 1 workgroup, 2 team, 3 device, 4 gang. -/
def State.encloses (s : State) (scope : Nat) (p q : Party) : Bool :=
  if p = q then true
  else
    match scope with
    | 0 => false
    | 1 => p.inst?.isSome && p.inst? == q.inst?
    | 2 =>
      match p.inst?, q.inst? with
      | some i, some j =>
        i == j || s.teams.any fun e => match e.2 with | some t => t.all.contains i && t.all.contains j | none => false
      | _, _ => false
    | 3 => p.local_ && q.local_
    | _ => true

/-! ### Rows (R46, R62, R63, R78) -/

/-- A row of a core's register file, or of a supervisor warp's private file (R336). -/
inductive RowId where
  | phys (core row : Nat)
  | sup (core row : Nat)
  deriving DecidableEq, Repr

/-- The position of a core in its quad (R10). -/
def corePos (core : Nat) : Nat := core % 4

/-- The core of the quad whose arrays hold part `j` of what a core sees, part 0 its own (R46). -/
def lender (core j : Nat) : Nat :=
  if j = 0 then core
  else if corePos core = 0 then core + j
  else core - 1

/-- The physical row of a row index as seen by a core. -/
def rowHome (core r : Nat) : RowId := .phys (lender core (r / 3072)) (r % 3072)

/-- The row that a warp's map selects by an index. -/
def State.rowId (s : State) (w : WRef) (r : Nat) : RowId :=
  match w with
  | .user .. => rowHome (s.coreOf w) r
  | .sup n => .sup n r

def State.getRow (s : State) : RowId → Row
  | .phys c r => (s.core c).rows.get Row.zero r
  | .sup c r => (s.core c).supRows.get Row.zero r

def State.setRow (s : State) (i : RowId) (x : Row) : State :=
  match i with
  | .phys c r => s.modCore c fun k => { k with rows := k.rows.put Row.zero r x }
  | .sup c r => s.modCore c fun k => { k with supRows := k.supRows.put Row.zero r x }

/-- A row's place among those of its core, as an operation in flight names it (R71). -/
def State.rowOf (s : State) (w : WRef) (name : Nat) : Nat := (((s.warp w).map.get none name).getD 0)

/-- The location of a lane element for race detection (R142). -/
def RowId.loc (i : RowId) (lane : Nat) : Loc :=
  match i with
  | .phys c r => .row c r lane
  | .sup c r => .row (c + 1000000) r lane

/-- A row as context `ctx` meets it: another owner's contents are zeroed first (R78). -/
def Row.seenBy (x : Row) (ctx : Nat) : Row :=
  if x.owner = ctx then x else { x with lanes := List.replicate 32 0, poison := 0, owner := ctx }

/-- An access of a context to a row scrubs it when its tag names another (R78). -/
def State.touchRow (s : State) (i : RowId) (ctx : Nat) : State := s.setRow i ((s.getRow i).seenBy ctx)

def Row.lane (x : Row) (l : Nat) : Word := x.lanes.getD l 0

/-- Writes lane elements: those for which `f` gives a value and a mark. -/
def Row.write (x : Row) (f : Nat → Option (Word × Bool)) : Row :=
  { x with
    lanes := Lanes.build fun l => match f l with | some (v, _) => v | none => x.lane l
    poison := Lanes.mask fun l => match f l with | some (_, m) => m | none => x.poison.has l }

/-! ### Names (R61, R65) -/

/-- The row index that a name selects. -/
def Warp.nameRow (w : Warp) (n : Nat) : Option Nat := w.map.get none n

/-- The number of valid entries of a warp that name a row. -/
def Warp.nameCount (w : Warp) (r : Nat) : Nat := (w.map.filter fun e => e.2 == some r).length

/-- A row has references beside the names of a warp: other warps name it, it is parked, or it is on its way to a slot. -/
def State.referred (s : State) (w : WRef) (r : Nat) : Bool :=
  decide ((s.warp w).nameCount r < (s.getRow (s.rowId w r)).ref)

/-- The row is named by another warp too, or parked in a slot (R70). -/
def State.shared (s : State) (w : WRef) (r : Nat) : Bool :=
  match w with
  | .sup _ => false
  | .user inst i =>
    match s.wg? inst with
    | none => false
    | some g =>
      (List.range g.warps.length).any (fun j => j != i && (s.warp (.user inst j)).nameCount r != 0) ||
      g.slots.any fun e => match e.2.st with | .occupied row _ => row == r | _ => false

/-- Accesses to a lane element are checked and recorded: the row has other references, or another warp's access may not be ordered
(R82). -/
def State.watched (s : State) (w : WRef) (r l : Nat) : Bool :=
  s.referred w r || s.histAt ((s.rowId w r).loc l) != .empty

/-- unmapped name, with the name and the operand field (R65, R83). -/
def unmapped (n field : Nat) : Detail := ⟨0x040, 0, n, field, 0, none, none, none⟩

/-- Every name of a list is mapped; the first that is not, in the order of the list, is logged (log 82). -/
def checkNames (w : Warp) : List (Nat × Nat) → M Unit
  | [] => .ok ()
  | (n, f) :: t => if (w.nameRow n).isSome then checkNames w t else trapWith (unmapped n f)

/-! ### Events in the supervisor's log are in Machine/Events.lean; time -/

/-- The gang clock (R19), 64 bits. -/
def State.now (s : State) : DWord := BitVec.ofNat 64 s.clockNs

end Sys2Proof.Machine
end

