-- ==== Sys2Proof/Machine/Record.lean ====
section
/-! DEFINITION. The fields of a launch record (R359), of a node-table entry (R360) and of a format-slot
descriptor (R94). -/

namespace Sys2Proof.Machine

/-- A launch record of 256 bytes (R359). -/
abbrev LaunchRec := BitVec 2048

/-- Bits lo to lo + w − 1 as a number. -/
def recField (r : LaunchRec) (lo w : Nat) : Nat := (r.extractLsb' lo w).toNat

namespace LaunchRec

def dword (r : LaunchRec) (lo : Nat) : DWord := r.extractLsb' lo 64
def wimg (r : LaunchRec) : DWord := r.extractLsb' 0 64
def limg (r : LaunchRec) : DWord := r.extractLsb' 64 64
def simg (r : LaunchRec) : DWord := r.extractLsb' 128 64
def param (r : LaunchRec) : DWord := r.extractLsb' 192 64
def priv (r : LaunchRec) : DWord := r.extractLsb' 256 64
def sect (r : LaunchRec) : DWord := r.extractLsb' 320 64
def status (r : LaunchRec) : DWord := r.extractLsb' 384 64
def graph (r : LaunchRec) : DWord := r.extractLsb' 448 64
def gridSize (r : LaunchRec) : Nat := recField r 512 32
def parsz (r : LaunchRec) : Nat := recField r 544 17
def nodes (r : LaunchRec) : Nat := recField r 561 9
def ntx (r : LaunchRec) : Nat := recField r 576 10
def nty (r : LaunchRec) : Nat := recField r 586 10
def ntz (r : LaunchRec) : Nat := recField r 596 10
def warps (r : LaunchRec) : Nat := recField r 606 6
def team (r : LaunchRec) : Nat := recField r 612 5
def heat (r : LaunchRec) : Nat := recField r 617 2
def prio (r : LaunchRec) : Nat := recField r 619 3
def timed (r : LaunchRec) : Bool := r.getLsbD 622
def scrn (r : LaunchRec) : Bool := r.getLsbD 623
def screen (r : LaunchRec) : Nat := recField r 624 5
def order (r : LaunchRec) : Bool := r.getLsbD 629
def stage (r : LaunchRec) (w : Nat) : Nat := recField r (640 + 3 * w) 3
def acct (r : LaunchRec) : Nat := recField r 736 18
def accv (r : LaunchRec) : Bool := r.getLsbD 767
def prowsRaw (r : LaunchRec) : Nat := recField r 768 14
def pblkRaw (r : LaunchRec) : Nat := recField r 782 10
def frowsRaw (r : LaunchRec) : Nat := recField r 832 14
def fblkRaw (r : LaunchRec) : Nat := recField r 846 10
def ftiles (r : LaunchRec) : Nat := recField r 856 5
def fhnd (r : LaunchRec) : Nat := recField r 861 11
def privsz (r : LaunchRec) : Nat := recField r 896 32
def start (r : LaunchRec) : Nat := recField r 960 64
def fs (r : LaunchRec) (n : Nat) : DWord := r.extractLsb' (1024 + 64 * n) 64
def next (r : LaunchRec) : DWord := r.extractLsb' 1536 64
def cond (r : LaunchRec) : DWord := r.extractLsb' 1600 64
def alt (r : LaunchRec) : DWord := r.extractLsb' 1664 64

/-- The prologue (R40): 16 rows a warp and 16 KiB when the record gives none. -/
def prows (r : LaunchRec) : Nat := if r.prowsRaw = 0 ∧ r.pblkRaw = 0 then 16 * r.warps else r.prowsRaw
def pblk (r : LaunchRec) : Nat := if r.prowsRaw = 0 ∧ r.pblkRaw = 0 then 4 else r.pblkRaw

/-- The bytes of the private areas of a launch: of a work graph, those of its 8192 node workgroups too (R111, R332). -/
def privLen (r : LaunchRec) : Nat := (r.gridSize + if r.graph = 0 then 0 else 8192) * r.warps * 32 * r.privsz

/-- A full allotment of zero in all four resources declares no enlargement (R40). -/
def noFull (r : LaunchRec) : Bool := r.frowsRaw == 0 && r.fblkRaw == 0 && r.ftiles == 0 && r.fhnd == 0
def frows (r : LaunchRec) : Nat := if r.noFull then r.prows else r.frowsRaw
def fblk (r : LaunchRec) : Nat := if r.noFull then r.pblk else r.fblkRaw

end LaunchRec

namespace NodeEnt

def entry (e : NodeEnt) : DWord := e.extractLsb' 0 64
def back (e : NodeEnt) : DWord := e.extractLsb' 64 64
def backrec (e : NodeEnt) : Nat := (e.extractLsb' 128 32).toNat
def timer (e : NodeEnt) : Nat := ((e.extractLsb' 160 16).toNat + 1) * 64
def count (e : NodeEnt) : Nat := (e.extractLsb' 176 9).toNat
def size (e : NodeEnt) : Nat := ((e.extractLsb' 185 4).toNat + 1) * 16

end NodeEnt

/-! ### Format slots (R94) -/

/-- A format-slot descriptor. -/
abbrev Slot := BitVec 64

namespace Slot

def elem (f : Slot) : Nat := (f.extractLsb' 0 6).toNat
def scale (f : Slot) : Nat := (f.extractLsb' 6 3).toNat
def block (f : Slot) : Nat := (f.extractLsb' 9 2).toNat
def round (f : Slot) : Nat := (f.extractLsb' 11 3).toNat
def sat (f : Slot) : Bool := f.getLsbD 14
def split (f : Slot) : Bool := f.getLsbD 15
def inf (f : Slot) : Bool := f.getLsbD 16

end Slot

def State.grid? (s : State) (g : Nat) : Option Grid := s.grids.get none g

/-- The launch record of a grid; zero when there is none. -/
def State.launchOf (s : State) (g : Nat) : LaunchRec := match s.grid? g with | some x => x.launch | none => 0

end Sys2Proof.Machine
end

