-- ==== Sys2Proof/Machine/Translate.lean ====
section
/-! DEFINITION. Address translation: page tables (R378 to R380), permissions (R381), cached translations (R385),
access tables (R390, R391), and the faults that a translation raises (R383). -/

namespace Sys2Proof.Machine

/-- The access kinds of R381, numbered by its rows. -/
inductive AccKind where
  | load | store | atomic | engineSrc | engineDst | fetch | gate
  deriving DecidableEq, Repr

def AccKind.num : AccKind → Nat
  | .load => 0 | .store => 1 | .atomic => 2 | .engineSrc => 3 | .engineDst => 4 | .fetch => 5 | .gate => 6

/-- A page-table entry (R379). -/
abbrev Pte := DWord

namespace Pte

def frame (e : Pte) : Nat := (e.extractLsb' 32 32).toNat
def key (e : Pte) : Nat := (e.extractLsb' 13 12).toNat
def rt (e : Pte) : Bool := e.getLsbD 12
def pinned (e : Pte) : Bool := e.getLsbD 11
def layout (e : Pte) : Nat := (e.extractLsb' 8 3).toNat
def leaf (e : Pte) : Bool := e.getLsbD 1
def valid (e : Pte) : Bool := e.getLsbD 0

/-- The permissions of an access kind (R381). -/
def permits (e : Pte) : AccKind → Bool
  | .load => e.getLsbD 2
  | .store => e.getLsbD 3
  | .atomic => e.getLsbD 2 && e.getLsbD 3 && e.getLsbD 5
  | .engineSrc => e.getLsbD 2 && e.getLsbD 6
  | .engineDst => e.getLsbD 3 && e.getLsbD 6
  | .fetch => e.getLsbD 4
  | .gate => e.getLsbD 3 && e.getLsbD 6

end Pte

/-- What the frame of an entry holds; for a large page its 8192 frames must hold one kind. -/
def State.pteKind (s : State) (e : Pte) (large : Bool) : FrameKind :=
  let a := frameKind s.tiercap e.frame
  if large then (if frameKind s.tiercap (e.frame + 8191) = a then a else .none) else a

/-- The entry is malformed at its level (R380). -/
def State.malformed (s : State) (e : Pte) (level : Nat) : Bool :=
  if e.leaf then
    level == 2 || e.extractLsb' 25 7 != 0 || e.getLsbD 7 || (level == 1 && e.frame % 8192 != 0) ||
    s.pteKind e (level == 1) == .none ||
    (e.rt && (s.pteKind e (level == 1) == .host || s.pteKind e (level == 1) == .peer))
  else level == 0 || e.extractLsb' 2 30 != 0 || frameKind s.tiercap e.frame == .none

/-- The tag region of a tracked frame is disabled or is no frame; a large page has the blocks of its 8192 frames (R389). -/
def State.tagInvalid (s : State) (e : Pte) (large : Bool) : Bool :=
  let first := ((s.tagbase.extractLsb' 16 32).toNat * 65536 + 4096 * e.frame) / 65536
  !s.tagbase.getLsbD 0 || (List.range (if large then 512 else 1)).any fun i => frameKind s.tiercap (first + i) == .none

/-- A translation cause with its VALUE (R383). -/
def pageFault (code level kind : Nat) (va : DWord) : Detail :=
  ⟨code, BitVec.ofNat 32 (level * 16 + kind), 0, 7, va, none, none, none⟩

/-- The index of a virtual address into the table of a level (R378). -/
def vaIndex (va level : Nat) : Nat :=
  match level with
  | 2 => va / 2 ^ 41 % 8192
  | 1 => va / 2 ^ 29 % 4096
  | _ => va / 2 ^ 16 % 8192

/-- Reads an entry whole, under key 0; none when the read is uncorrectable. -/
def State.readEntry (s : State) (table index : Nat) : Option Pte :=
  let pa := table * 65536 + 8 * index
  if s.paMark 0 pa 8 then none else some (BitVec.ofNat 64 (leNat (s.readPa 0 0 pa 8)))

/-- The checks of a leaf after its form (R380); a leaf on a peer frame uses no key (R415). -/
def State.leafCheck (s : State) (e : Pte) (large : Bool) (va : DWord) : Except Detail Unit :=
  if e.layout ≥ 6 ∨ (e.layout ≠ 0 ∧ s.pteKind e large ≠ .vrelith) then
    .error ⟨0x0a3, BitVec.ofNat 32 e.layout, 0, 7, va, none, none, none⟩
  else if s.pteKind e large ≠ .peer ∧ (s.keys.get none e.key).isNone then .error ⟨0x0a8, BitVec.ofNat 32 e.key, 0, 7, va, none, none, none⟩
  else if e.rt ∧ s.tagInvalid e large then .error ⟨0x0a9, 0, 0, 7, va, none, none, none⟩
  else .ok ()

/-- The entry of a target's access table for a context (R391; log 15). -/
def State.accessEntry (s : State) (target ctx : Nat) : DWord :=
  (s.access.get none (target * 4096 + ctx)).getD (s.accessReset.getD target 0)

/-- The bits that an access needs of its class (R391). -/
def AccKind.needs : AccKind → Nat
  | .load => 1 | .store => 2 | .atomic => 4 | .engineSrc => 1 | .engineDst => 2 | .fetch => 1 | .gate => 2

/-- A class may make an access at a target in a context (R391). -/
def State.mayAccess (s : State) (target ctx cls need : Nat) : Bool :=
  ((s.accessEntry target ctx).toNat / 2 ^ (4 * cls)) % 16 &&& need == need

/-- The first target that an access to a frame reaches (R377): its code, none for a Dranel port. Bank engines
reach the stacks through the memory controllers (R390). -/
def targetOf (k : FrameKind) (cls : Nat) : Option Nat :=
  match k with
  | .vrelith => if cls = 5 then some 0 else some 2
  | .tier => some 0
  | .host => some 3
  | _ => none

/-- The read of an entry of a table, as the walker of a context may make it: a master of class 6 at the target of the table's
frame (R390; log 78). -/
def State.walkerMay (s : State) (ctx table : Nat) : Except Nat Unit :=
  match targetOf (frameKind s.tiercap table) 6 with
  | some t => if s.mayAccess t ctx 6 1 then .ok () else .error t
  | none => .ok ()

/-! ### Walks (R380, R385, R386) -/

/-- The address bits above the region that one entry of a level covers. -/
def vaRegion (va level : Nat) : Nat :=
  match level with
  | 2 => va / 2 ^ 41
  | 1 => va / 2 ^ 29
  | _ => va / 2 ^ 16

/-- access table denied, at a target for a class (R383). -/
def denied (target cls : Nat) (va : DWord) : Detail := ⟨0x0a4, BitVec.ofNat 32 (target * 16 + cls), 0, 7, va, none, none, none⟩

/-- The entry of a level of a walk, if it can be read (R380). -/
def State.walkEntry (s : State) (ctx : Nat) (va : DWord) (table level : Nat) : Except Detail Pte :=
  match s.walkerMay ctx table with
  | .error t => .error (denied t 6 va)
  | .ok _ =>
    match s.readEntry table (vaIndex va.toNat level) with
    | none => .error (pageFault 0x0a7 level 0 va)
    | some e => .ok e

/-- What an entry that ends a walk gives: a leaf and whether its page is large, or a fault (R380). -/
def State.leafOf (s : State) (kind : AccKind) (va : DWord) (level : Nat) (e : Pte) : Except Detail (Pte × Bool) :=
  if !e.valid then .error (pageFault 0x0a0 level kind.num va)
  else if s.malformed e level then .error (pageFault 0x0a2 level 0 va)
  else (s.leafCheck e (level == 1) va).map fun _ => (e, level == 1)

/-- An entry names the next table. -/
def State.isPointer (s : State) (e : Pte) (level : Nat) : Bool := e.valid && !s.malformed e level && !e.leaf

/-- The walk from the table of a level; `fuel` levels remain. A pointer that the walker keeps is not read again. Gives the leaf,
whether its page is large, and the pointers read. -/
def State.walkFrom (s : State) (cache : List PtrEntry) (ctx : Nat) (kind : AccKind) (va : DWord) (table : Nat) :
    Nat → Except Detail (Pte × Bool × List PtrEntry)
  | 0 => .error (pageFault 0x0a2 0 0 va)
  | level + 1 =>
    match cache.find? fun p => p.ctx == ctx && p.level == level && p.region == vaRegion va.toNat level with
    | some p => s.walkFrom cache ctx kind va p.table level
    | none =>
      match s.walkEntry ctx va table level with
      | .error d => .error d
      | .ok e =>
        if s.isPointer e level then
          match s.walkFrom cache ctx kind va e.frame level with
          | .ok (leaf, large, ps) => .ok (leaf, large, ⟨ctx, level, vaRegion va.toNat level, e.frame⟩ :: ps)
          | .error d => .error d
        else (s.leafOf kind va level e).map fun x => (x.1, x.2, [])

/-- The frame of a context's root table. -/
def State.rootTable (s : State) (ctx : Nat) : Nat := ((s.ctxs.get CtxRegs.zero ctx).root.extractLsb' 16 32).toNat

/-- A walk of a context's tables: the entry of the root is read before V is tested (R380). A root outside every frame is malformed
(log 19). -/
def State.walkWith (s : State) (cache : List PtrEntry) (ctx : Nat) (kind : AccKind) (va : DWord) :
    Except Detail (Pte × Bool × List PtrEntry) :=
  let t := s.rootTable ctx
  let valid := (s.ctxs.get CtxRegs.zero ctx).root.getLsbD 0
  let invalid := Except.error ⟨0x0aa, BitVec.ofNat 32 ctx, 0, 7, va, none, none, none⟩
  if frameKind s.tiercap t == .none then (if valid then .error (pageFault 0x0a2 2 0 va) else invalid)
  else
    match s.walkEntry ctx va t 2 with
    | .error d => .error d
    | .ok _ => if valid then s.walkFrom cache ctx kind va t 3 else invalid

/-- A walk that uses and leaves nothing in a walker. -/
def State.walk (s : State) (ctx : Nat) (kind : AccKind) (va : DWord) : Except Detail (Pte × Bool) :=
  match s.walkWith [] ctx kind va with
  | .ok (e, large, _) => .ok (e, large)
  | .error d => .error d

/-- A walk is for the page of an address of a context. -/
def Walk.isFor (w : Walk) (die ctx : Nat) (va : DWord) : Bool :=
  w.die == die && w.ctx == ctx && w.va.toNat / 65536 == va.toNat / 65536

/-- The walk that a miss of a core joins, or that has answered it (R386). -/
def State.walkOf (s : State) (core ctx : Nat) (va : DWord) : Option Walk :=
  s.walks.find? fun w => w.isFor (dieOf core) ctx va && (w.leaf.isNone || w.joined.contains core)

/-- Where a walk ends: the level and table of its last entry, and that entry if it can be read. -/
def State.walkOn (s : State) (cache : List PtrEntry) (ctx : Nat) (va : DWord) (table : Nat) : Nat → Nat × Nat × Option Pte
  | 0 => (0, table, none)
  | level + 1 =>
    match cache.find? fun p => p.ctx == ctx && p.level == level && p.region == vaRegion va.toNat level with
    | some p => s.walkOn cache ctx va p.table level
    | none =>
      match s.walkEntry ctx va table level with
      | .error _ => (level + 1, table, none)
      | .ok e => if s.isPointer e level then s.walkOn cache ctx va e.frame level else (level + 1, table, some e)

/-- A walk with its leaf found, to answer those who joined it; none where it ends in a fault, which is not kept (R385). -/
def State.endWalk (s : State) (w : Walk) : Option Walk :=
  match w.leaf, s.walkOn (s.walkCache.get [] w.die) w.ctx w.va w.table w.level with
  | some _, _ => some w
  | none, (level, table, some e) =>
    match s.leafOf .load w.va (level - 1) e with
    | .ok _ => some { w with level := level, table := table, leaf := some e }
    | .error _ => none
  | none, (_, _, none) => none

/-- The first `n` walks that run at a die come to their end. -/
def State.endWalks (s : State) (die n : Nat) : State :=
  { s with walks := (s.walks.foldl (fun (acc : List Walk × Nat) w =>
      if acc.2 = 0 || w.die != die || w.leaf.isSome then (acc.1 ++ [w], acc.2) else (acc.1 ++ (s.endWalk w).toList, acc.2 - 1)) ([], n)).1 }

/-- The walks that run at a die among some. -/
def runningAt (die : Nat) (ws : List Walk) : Nat := (ws.filter fun w => w.die == die && w.leaf.isNone).length

/-- The leaf for a miss of a core: from the walk that it has joined, or by a walk of its own (R386). The walks that stand 64 or more ahead
of it at the walker end first. The other cores that have joined the walk get the same entry. What the walk has found stays in the
walker. -/
def State.walkFor (s : State) (core ctx : Nat) (kind : AccKind) (va : DWord) : Except Detail (Pte × Bool × State) :=
  let die := dieOf core
  let w? := s.walkOf core ctx va
  let ahead := match w? with
    | some w => if w.leaf.isSome then 0 else runningAt die (s.walks.takeWhile fun x => x != w)
    | none => runningAt die s.walks
  let s := s.endWalks die (ahead - 63)
  let cache := s.walkCache.get [] die
  let r := match w? with
    | some w =>
      match w.leaf with
      | some e => (s.leafOf kind va (w.level - 1) e).map fun (x : Pte × Bool) => (x.1, x.2, ([] : List PtrEntry))
      | none => s.walkFrom cache ctx kind va w.table w.level
    | none => s.walkWith cache ctx kind va
  match r with
  | .error d => .error d
  | .ok (e, large, ps) =>
    let answered := fun (w : Walk) => (s.endWalk w).bind fun x =>
      let rest := x.joined.filter (· != core)
      if rest.isEmpty then none else some { x with joined := rest }
    .ok (e, large, { s with
      walkCache := s.walkCache.upd [] die fun c => ps ++ c
      walks := s.walks.filterMap fun w => if some w = w? then answered w else some w })

/-- A walk begins for a miss of a core; one of the page that runs is joined. -/
def State.walkBegin (s : State) (core ctx : Nat) (va : DWord) : State :=
  let root := (s.ctxs.get CtxRegs.zero ctx).root
  match s.walkOf core ctx va with
  | some w => { s with walks := s.walks.map fun x => if x = w && !x.joined.contains core then { x with joined := x.joined ++ [core] } else x }
  | none =>
    if !root.getLsbD 0 || frameKind s.tiercap (s.rootTable ctx) == .none then s
    else { s with walks := s.walks ++ [⟨dieOf core, ctx, va, 3, s.rootTable ctx, [core], none⟩] }

/-- A walk reads its next pointer, if it is one of the 64 that its walker runs (R386). A leaf, and what does not go on, is read when the
walk ends. -/
def State.walkStep (s : State) (i : Nat) : State :=
  match s.walks[i]? with
  | none => s
  | some w =>
    match w.level with
    | 0 => s
    | level + 1 =>
      if w.leaf.isSome || decide (64 ≤ runningAt w.die (s.walks.take i)) then s
      else match s.walkEntry w.ctx w.va w.table level with
      | .ok e => if s.isPointer e level then { s with walks := s.walks.set i { w with level := level, table := e.frame } } else s
      | .error _ => s

/-- The first address of the page that holds an address. -/
def pageBase (va : Nat) (large : Bool) : Nat := if large then va / 2 ^ 29 * 2 ^ 29 else va / 65536 * 65536

/-- A translated address: physical address and the attributes of its leaf. -/
structure Leaf where
  pa : Nat
  pte : Pte
  large : Bool
  deriving DecidableEq, Repr

/-- The physical address under a leaf. -/
def leafPa (e : Pte) (large : Bool) (va : Nat) : Nat :=
  if large then e.frame * 65536 + va % 2 ^ 29 else e.frame * 65536 + va % 65536

/-- A cached entry for a context's page, if there is one (R385). -/
def tlbFind (ts : List TlbEntry) (ctx va : Nat) : Option TlbEntry := ts.find? fun t => t.ctx == ctx && t.page == pageBase va t.large

/-- Caches an entry in the TLB of a core, 64 entries at most, and in that of its cluster, 2048 at most (R385). -/
def State.tlbAdd (s : State) (core : Nat) (t : TlbEntry) : State :=
  let keep := fun (n : Nat) (ts : List TlbEntry) => (t :: ts.filter (· != t)).take n
  let s := s.modCore core fun c => { c with tlb := keep 64 c.tlb }
  { s with tlb2 := s.tlb2.upd [] (clusterOf core) (keep 2048) }

/-- The entry for an address of a context: from the core's TLB, from its cluster's, or by a walk (R385, R386). -/
def State.lookup (s : State) (core ctx : Nat) (kind : AccKind) (va : DWord) : Except Detail (TlbEntry × State) :=
  match tlbFind (s.core core).tlb ctx va.toNat with
  | some t => .ok (t, s)
  | none =>
    match tlbFind (s.tlb2.get [] (clusterOf core)) ctx va.toNat with
    | some t => .ok (t, s.tlbAdd core t)
    | none =>
      match s.walkFor core ctx kind va with
      | .ok (e, large, s') =>
        let t : TlbEntry := ⟨ctx, pageBase va.toNat large, large, e, s.shootSeq⟩
        .ok (t, s'.tlbAdd core t)
      | .error d => .error d

/-- This module's member number (R398). -/
def State.member (s : State) : Nat := (s.gangcfg.extractLsb' 16 8).toNat

/-! ### The peer aperture (R415, R416) -/

/-- The permission bits of an aperture entry that a kind needs: R, W and A. -/
def AccKind.aperture : AccKind → Nat
  | .load | .engineSrc | .fetch => 1
  | .store | .engineDst | .gate => 2
  | .atomic => 4

/-- peer access refused. -/
def peerRefused (va : DWord) : Detail := ⟨0x1c7, 0, 0, 7, va, none, none, none⟩

/-- The entry of this member's aperture table for an offset, if its checks pass: V, the permission, the access table of class 9.
An entry that names another kind of frame refuses the access too. -/
def State.aperture (s : State) (off : Nat) (kind : AccKind) : Option (Nat × Nat) :=
  let table := (s.paptbase.extractLsb' 16 32).toNat * 65536
  let e : DWord := BitVec.ofNat 64 (leNat (s.readPa 0 0 (table + off / 65536 * 8) 8))
  let frame := (e.extractLsb' 32 32).toNat
  let fk := frameKind s.tiercap frame
  if s.paptbase.getLsbD 0 && e.getLsbD 0 && (e.extractLsb' 2 3).toNat &&& kind.aperture != 0 && (fk == .vrelith || fk == .tier) &&
      (match targetOf fk 9 with | some t => s.mayAccess t (e.extractLsb' 20 12).toNat 9 kind.needs | none => false) then
    some (frame * 65536 + off % 65536, (e.extractLsb' 8 12).toNat)
  else none

/-- A leaf on a peer frame. This member's own aperture leads to the exported frame; whether another member grants or refuses the
access is its choice (log 10). -/
def State.peerLeaf (s : State) (l : Leaf) (kind : AccKind) (va : DWord) : Except Detail (Leaf × State) :=
  if l.pa / 2 ^ 38 % 256 = s.member then
    match s.aperture (l.pa % 2 ^ 38) kind with
    | none => .error (peerRefused va)
    | some (pa, key) =>
      let e : Pte := BitVec.ofNat 64 (pa / 65536 * 2 ^ 32 + key * 2 ^ 13 + l.pte.toNat % 256 + (if l.pte.pinned then 2048 else 0))
      .ok (⟨pa, e, false⟩, s)
  else
    let (b, s) := s.free
    if b.getLsbD 0 then .ok (l, s) else .error (peerRefused va)

/-- What is checked at each use of a leaf: the permission, and the access table of the target (R381, R390, R392). -/
def State.useLeaf (s : State) (ctx cls : Nat) (kind : AccKind) (t : TlbEntry) (va : DWord) : Except Detail (Leaf × State) :=
  let l : Leaf := ⟨leafPa t.entry t.large va.toNat, t.entry, t.large⟩
  if !l.pte.permits kind then .error (pageFault 0x0a1 0 kind.num va)
  else
    match targetOf (s.pteKind t.entry t.large) cls with
    | some n => if s.mayAccess n ctx cls kind.needs then .ok (l, s) else .error (denied n cls va)
    | none => s.peerLeaf l kind va

/-- Translates an address for an access of a class and kind (check 7 of R243). -/
def State.translate (s : State) (core ctx cls : Nat) (kind : AccKind) (va : DWord) : Except Detail (Leaf × State) :=
  match s.lookup core ctx kind va with
  | .error d => .error d
  | .ok (t, s) => s.useLeaf ctx cls kind t va

/-- The same with the entries that an instruction or an engine operation has got: it looks each page up once, and holds the entry from then
on (R386); what a use of the page needs is checked at every use (R381, R392). -/
def State.translateHeld (s : State) (core ctx cls : Nat) (kind : AccKind) (holds : List TlbEntry) (va : DWord) :
    Except Detail (Leaf × List TlbEntry × State) :=
  match tlbFind holds ctx va.toNat with
  | some t => (s.useLeaf ctx cls kind t va).map fun x => (x.1, holds, x.2)
  | none =>
    match s.lookup core ctx kind va with
    | .error d => .error d
    | .ok (t, s) => (s.useLeaf ctx cls kind t va).map fun x => (x.1, holds ++ [t], x.2)

/-! ### Backing regions (R292) -/

/-- The leaf for an access of a kind in a context, by a walk (R357). -/
def State.ctxLeaf (s : State) (ctx : Nat) (kind : AccKind) (va : Nat) : Except Detail Leaf :=
  if decide (2 ^ 54 ≤ va) then .error ⟨0x080, 0, 0, 7, BitVec.ofNat 64 va, none, none, none⟩
  else
    match s.walk ctx kind (BitVec.ofNat 64 va) with
    | .error d => .error d
    | .ok (e, large) =>
      if e.permits kind then .ok ⟨leafPa e large va, e, large⟩ else .error (pageFault 0x0a1 0 kind.num (BitVec.ofNat 64 va))

/-- The parts of [va, va + n) that lie in one page each: address and length. -/
def pageParts (va n : Nat) : List (Nat × Nat) :=
  (List.range (n / 65536 + 2)).filterMap fun i =>
    let a := if i = 0 then va else (va / 65536 + i) * 65536
    let m := if va + n - a < 65536 - a % 65536 then va + n - a else 65536 - a % 65536
    if a < va + n then some (a, m) else none

/-- Bytes of the backing region of a node. -/
def NodeEnt.backBytes (e : NodeEnt) : Nat := e.backrec * e.size

/-- The grid and node in whose backing region a physical address lies, while the region belongs to the device. -/
def State.backingAt (s : State) (pa : Nat) : Option (Nat × Nat) :=
  s.grids.findSome? fun e =>
    match e.2 with
    | none => none
    | some g =>
      (List.range g.nodes.length).findSome? fun i =>
        let n := g.nodes.getD i 0
        if (pageParts (NodeEnt.back n).toNat (NodeEnt.backBytes n)).any fun p =>
            match s.ctxLeaf g.ctx .load p.1 with
            | .ok l => decide (l.pa ≤ pa) && decide (pa < l.pa + p.2)
            | .error _ => false
        then some (e.1, i) else none

/-- The place of a physical address: a byte of a backing region has no value of its own. -/
def State.placeOfPa (s : State) (pa : Nat) : Place :=
  match s.backingAt pa with
  | some (g, n) => .region g n
  | none => .pa pa

/-- The master class of a warp (R390). -/
def warpClass : WRef → Nat
  | .user .. => 0
  | .sup _ => 2

/-- Reads `n` bytes at a virtual address for a hardware agent, byte by byte, with no history; none where a
translation fails. -/
def State.readVa (s : State) (core ctx cls : Nat) (kind : AccKind) : Nat → Nat → Except Detail (List Byte × State)
  | _, 0 => .ok ([], s)
  | va, n + 1 =>
    match s.translate core ctx cls kind (BitVec.ofNat 64 va) with
    | .error d => .error d
    | .ok (l, s) =>
      match State.readVa s core ctx cls kind (va + 1) n with
      | .error d => .error d
      | .ok (bs, s) => .ok (s.readCell l.pte.key (cellOf l.pte.layout l.pa) :: bs, s)

/-- An address is canonical (R107). -/
def canonical (a : DWord) : Bool := a.extractLsb' 55 9 == (if a.getLsbD 54 then 0x1ff#9 else 0#9)

/-- Fetches a code word (R155, R384): 8 bytes at a virtual address with X permission. -/
def State.fetch (s : State) (core ctx cls : Nat) (pc : DWord) : Except Detail (DWord × State) :=
  if !canonical pc then .error ⟨0x080, 0, 0, 7, pc, none, none, none⟩
  else if pc.getLsbD 54 then
    let w := (pc.extractLsb' 50 4).toNat
    if 6 ≤ w then .error ⟨0x081, 0, 0, 7, pc, none, none, none⟩ else .error ⟨0x083, 5, w, 7, 0, none, none, none⟩
  else
    match s.translate core ctx cls .fetch pc with
    | .error d => .error d
    | .ok (l, s) => .ok (BitVec.ofNat 64 (leNat (s.readPa l.pte.layout l.pte.key l.pa 8)), s)

end Sys2Proof.Machine
end

