-- ==== Sys2Proof/Machine/Place.lean ====
section
/-! DEFINITION. Where `State.withFetchWord` places an instruction so that the next step runs it (log 1): a clause of one
instruction for the supervisor warp of core 0, on page tables of context 0, or the instruction store of the loader of
core 0. -/

namespace Sys2Proof.Machine

/-- The header of a clause of one instruction: the mixed class, or for the system group the control class (R161). -/
def oneHeader (word : DWord) : DWord :=
  let op := (word.extractLsb' 55 9).toNat
  if 0x170 ≤ op ∧ op ≤ 0x177 then 0x40000000000000a5 else 0x50000000000000a5

/-- A table entry that names the next table (R379). -/
def tableEntry (frame : Nat) : Nat := frame * 2 ^ 32 + 1

/-- Bytes of 64-bit values, lowest address first. -/
def dwordsBytes (xs : List Nat) : List Byte := xs.flatMap (leBytes 8)

/-- Places a Farale word at address 8 of context 0, behind a header at 0, with tables in frames 16 to 18 and code in
frame 19, and the supervisor warp of core 0 at it. -/
def State.placeFarale (s : State) (word : DWord) : State :=
  let hdr := oneHeader word
  let s := s.writePa 0 0 (16 * 65536) (leBytes 8 (tableEntry 17))
  let s := s.writePa 0 0 (17 * 65536) (leBytes 8 (tableEntry 18))
  -- valid, leaf, R, W, X
  let s := s.writePa 0 0 (18 * 65536) (leBytes 8 (19 * 2 ^ 32 + 0x1f))
  let s := s.writePa 0 0 (19 * 65536) (leBytes 8 hdr.toNat ++ leBytes 8 word.toNat)
  let s := { s with ctxs := s.ctxs.upd CtxRegs.zero 0 fun c => { c with root := 16 * 65536 + 1 } }
  let s := s.modCore 0 fun k =>
    { k with
      tlb := k.tlb.filter fun t => t.ctx != 0
      sup := { k.sup with
        threads := List.replicate 32 ⟨8, some (0, hdr), none, [], .ready, 0, false, 0, 0⟩
        running := Mask.all
        awake := true
        trap := none } }
  { s with agenda := [], cur := .warp (.sup 0) Mask.all 0 hdr word }

/-- Places bytes at address 0 of the loader's instruction store, with the loader of core 0 running there. -/
def State.placeBeryl (s : State) (bytes : List Byte) : State :=
  let s := s.modCore 0 fun k =>
    { k with loader := { k.loader with
        st := 1
        pc := 0
        blocked := false
        sleep := none
        trap := none
        istore := (List.range bytes.length).foldl (fun t i => t.put 0 i (bytes.getD i 0)) k.loader.istore } }
  { s with agenda := [], cur := .beryl 0 0 }

/-- The instruction of `nbits` bits as bytes, placed for the next step. -/
def State.placeWord (s : State) (nbits w : Nat) : State :=
  if nbits = 64 then s.placeFarale (BitVec.ofNat 64 w) else s.placeBeryl (leBytes (if nbits = 16 then 2 else 4) w)

end Sys2Proof.Machine
end

