-- ==== Sys2Proof/Machine/Compressed.lean ====
section
/-! DEFINITION. The compressed RISC-V instructions of a Beryl core (R13: RV64IMAC). Each halfword stands for
one 32-bit instruction. The words are those of the RISC-V unprivileged specification (log 18, PRESUMED). -/

namespace Sys2Proof.Rvc

/-- Register x8 to x15 of a 3-bit field. -/
def low (r : BitVec 3) : BitVec 5 := (0b01#2 ++ r)

/-- A sign-extended 12-bit immediate of a 6-bit one. -/
def imm6 (x : BitVec 6) : BitVec 12 := x.signExtend 12

/-- The sign-extended shift amount or immediate field of quadrants 1 and 2: bits 12 and 6:2. -/
def ci (c : BitVec 16) : BitVec 6 := c.extractLsb' 12 1 ++ c.extractLsb' 2 5

/-- Word offset of C.LW and C.SW: offset[5:3] in 12:10, offset[2] in 6, offset[6] in 5. -/
def offW (c : BitVec 16) : BitVec 12 :=
  (0#5 ++ (c.extractLsb' 5 1 ++ c.extractLsb' 10 3 ++ c.extractLsb' 6 1 ++ 0#2) : BitVec 12)

/-- Doubleword offset of C.LD and C.SD: offset[5:3] in 12:10, offset[7:6] in 6:5. -/
def offD (c : BitVec 16) : BitVec 12 :=
  (0#4 ++ (c.extractLsb' 5 2 ++ c.extractLsb' 10 3 ++ 0#3) : BitVec 12)

/-- Quadrant 0. -/
def quadrant0 (c : BitVec 16) : Option Rv :=
  let rdL := low (c.extractLsb' 2 3)
  let rsL := low (c.extractLsb' 7 3)
  match (c.extractLsb' 13 3).toNat with
  | 0 => -- C.ADDI4SPN: nzuimm[5:4|9:6|2|3]
    let u : BitVec 10 := c.extractLsb' 7 4 ++ c.extractLsb' 11 2 ++ c.extractLsb' 5 1 ++ c.extractLsb' 6 1 ++ 0#2
    if u = 0 then none else some (.opImm .add rdL 2 (u.setWidth 12))
  | 2 => some (.load 2 false rdL rsL (offW c))
  | 3 => some (.load 3 false rdL rsL (offD c))
  | 6 => some (.store 2 rsL rdL (offW c))
  | 7 => some (.store 3 rsL rdL (offD c))
  | _ => none

/-- The arithmetic forms of quadrant 1, funct3 100. -/
def arith1 (c : BitVec 16) : Option Rv :=
  let rd := low (c.extractLsb' 7 3)
  let rs := low (c.extractLsb' 2 3)
  match (c.extractLsb' 10 2).toNat with
  | 0 => some (.shImm .srl rd rd (ci c))
  | 1 => some (.shImm .sra rd rd (ci c))
  | 2 => some (.opImm .and rd rd (imm6 (ci c)))
  | _ => match (c.extractLsb' 12 1 ++ c.extractLsb' 5 2).toNat with
    | 0 => some (.op .sub rd rd rs)
    | 1 => some (.op .xor rd rd rs)
    | 2 => some (.op .or rd rd rs)
    | 3 => some (.op .and rd rd rs)
    | 4 => some (.opW .sub rd rd rs)
    | 5 => some (.opW .add rd rd rs)
    | _ => none

/-- Bits 20:1 of the offset of C.J. -/
def offJ (c : BitVec 16) : BitVec 20 :=
  (c.extractLsb' 12 1 ++ c.extractLsb' 8 1 ++ c.extractLsb' 9 2 ++ c.extractLsb' 6 1 ++ c.extractLsb' 7 1
    ++ c.extractLsb' 2 1 ++ c.extractLsb' 11 1 ++ c.extractLsb' 3 3 : BitVec 11).signExtend 20

/-- Bits 12:1 of the offset of C.BEQZ and C.BNEZ. -/
def offB (c : BitVec 16) : BitVec 12 :=
  (c.extractLsb' 12 1 ++ c.extractLsb' 5 2 ++ c.extractLsb' 2 1 ++ c.extractLsb' 10 2 ++ c.extractLsb' 3 2
    : BitVec 8).signExtend 12

/-- Quadrant 1. -/
def quadrant1 (c : BitVec 16) : Option Rv :=
  let rd := c.extractLsb' 7 5
  let rsL := low (c.extractLsb' 7 3)
  match (c.extractLsb' 13 3).toNat with
  | 0 => some (.opImm .add rd rd (imm6 (ci c)))                       -- C.ADDI, C.NOP
  | 1 => if rd = 0 then none else some (.addiw rd rd (imm6 (ci c)))   -- C.ADDIW
  | 2 => some (.opImm .add rd 0 (imm6 (ci c)))                        -- C.LI
  | 3 =>
    if ci c = 0 then none
    else if rd = 2 then -- C.ADDI16SP: nzimm[9] in 12, [4|6|8:7|5] in 6:2
      let x : BitVec 10 := c.extractLsb' 12 1 ++ c.extractLsb' 3 2 ++ c.extractLsb' 5 1 ++ c.extractLsb' 2 1
        ++ c.extractLsb' 6 1 ++ 0#4
      some (.opImm .add 2 2 (x.signExtend 12))
    else some (.lui rd ((ci c).signExtend 20))                        -- C.LUI
  | 4 => arith1 c
  | 5 => some (.jal 0 (offJ c))
  | 6 => some (.branch .eq rsL 0 (offB c))
  | _ => some (.branch .ne rsL 0 (offB c))

/-- Quadrant 2. -/
def quadrant2 (c : BitVec 16) : Option Rv :=
  let rd := c.extractLsb' 7 5
  let rs2 := c.extractLsb' 2 5
  match (c.extractLsb' 13 3).toNat with
  | 0 => some (.shImm .sll rd rd (ci c))
  | 2 => if rd = 0 then none else -- C.LWSP: offset[5] in 12, [4:2|7:6] in 6:2
    some (.load 2 false rd 2
      (0#4 ++ (c.extractLsb' 2 2 ++ c.extractLsb' 12 1 ++ c.extractLsb' 4 3 ++ 0#2) : BitVec 12))
  | 3 => if rd = 0 then none else -- C.LDSP: offset[5] in 12, [4:3|8:6] in 6:2
    some (.load 3 false rd 2
      (0#3 ++ (c.extractLsb' 2 3 ++ c.extractLsb' 12 1 ++ c.extractLsb' 5 2 ++ 0#3) : BitVec 12))
  | 4 =>
    if c.getLsbD 12 then
      if rs2 = 0 then (if rd = 0 then some .ebreak else some (.jalr 1 rd 0))
      else some (.op .add rd rd rs2)
    else
      if rs2 = 0 then (if rd = 0 then none else some (.jalr 0 rd 0))
      else some (.op .add rd 0 rs2)
  | 6 => -- C.SWSP: offset[5:2|7:6] in 12:7
    some (.store 2 2 rs2 (0#4 ++ (c.extractLsb' 7 2 ++ c.extractLsb' 9 4 ++ 0#2) : BitVec 12))
  | 7 => -- C.SDSP: offset[5:3|8:6] in 12:7
    some (.store 3 2 rs2 (0#3 ++ (c.extractLsb' 7 3 ++ c.extractLsb' 10 3 ++ 0#3) : BitVec 12))
  | _ => none

/-- The instruction that a compressed halfword stands for; none where it is reserved or of an absent
extension. -/
def expand (c : BitVec 16) : Option Rv :=
  match (c.extractLsb' 0 2).toNat with
  | 0 => quadrant0 c
  | 1 => quadrant1 c
  | 2 => quadrant2 c
  | _ => none

end Sys2Proof.Rvc
end

