-- ==== Sys2Proof/WellFormed.lean ====
section
/-! DEFINITION. Which instructions are legal: the field limits, operand kinds, MOD values and FLAG and LK
combinations that each entry of the manual gives. A word that decodes to an instruction that is not well-formed
raises the illegal-instruction trap 0x000 (R173, R178, R181). -/

namespace Sys2Proof

/-- The Wait column of the opcode map (R168, R180). -/
inductive WaitCol where
  /-- admits neither FLAG nor LK -/
  | no
  /-- admits them -/
  | l
  /-- requires FLAG -/
  | f
  deriving DecidableEq, Repr

/-- R165 (NEG with p7) and R168. -/
def Head.ok (c : WaitCol) (h : Head) : Bool :=
  !(h.neg && h.pidx == 7) && decide (h.flag.toNat ≤ 12) &&
  match c with
  | .no => h.flag == 0 && h.lk == 0
  | .l  => h.flag == 0 || h.lk == 15
  | .f  => h.flag != 0 && h.lk == 15

namespace Opnd

/-- The ten zero bits of an unused operand field (R173). -/
def zero : Opnd → Bool
  | .v n => n == 0
  | _ => false

/-- A vector name. -/
def isV : Opnd → Bool
  | .v _ => true
  | _ => false

/-- A uniform register: bits 7:6 of its index are zero (R174). -/
def isU : Opnd → Bool
  | .u n => decide (n.toNat < 64)
  | _ => false

def isImm : Opnd → Bool
  | .imm _ => true
  | _ => false

/-- The index of the operand is a multiple of `n`, for the names and uniform registers. -/
def mult (n : Nat) : Opnd → Bool
  | .v i => i.toNat % n == 0
  | .u i => i.toNat % n == 0
  | _ => true

/-- An index of the special space in a range (R175). -/
def isSp (lo hi : Nat) : Opnd → Bool
  | .sp i => decide (lo ≤ i.toNat ∧ i.toNat ≤ hi)
  | _ => false

/-- Read-only values (R176). -/
def isRo (o : Opnd) : Bool := o.isSp 0xc0 0xce

/-- Read-only values that are uniform by definition (R176): all but %lane and %tid. -/
def isUniformRo (o : Opnd) : Bool := o.isSp 0xc1 0xc4 || o.isSp 0xc8 0xce

def isA (o : Opnd) : Bool := o.isSp 0x00 0x0f
def isQ (o : Opnd) : Bool := o.isSp 0x10 0x1f
def isFs (o : Opnd) : Bool := o.isSp 0x28 0x2f
def isNb (o : Opnd) : Bool := o.isSp 0x30 0x3f
def isTb (o : Opnd) : Bool := o.isSp 0x40 0x47
def isP (o : Opnd) : Bool := o.isSp 0x58 0x5f
/-- A predicate that can be written: p7 is not (R56). -/
def isPDst (o : Opnd) : Bool := o.isSp 0x58 0x5e
def isKp (o : Opnd) : Bool := o.isSp 0x60 0x63
def isH (o : Opnd) : Bool := o.isSp 0x80 0xbf

/-- An immediate whose bits lie in a range, read as unsigned. -/
def immIn (lo hi : Nat) : Opnd → Bool
  | .imm x => decide (lo ≤ x.toNat ∧ x.toNat ≤ hi)
  | _ => false

/-- An even pair where `wide`. -/
def pairIf (wide : Bool) (o : Opnd) : Bool := !wide || o.mult 2

/-- A uniform register or an immediate. -/
def uOrImm (o : Opnd) : Bool := o.isU || o.isImm

/-- An even k pair. -/
def pairU (o : Opnd) : Bool := o.isU && o.mult 2

/-- An even name pair. -/
def pairV (o : Opnd) : Bool := o.isV && o.mult 2

/-- A vector name, uniform register or immediate. -/
def vui (o : Opnd) : Bool := o.isV || o.isU || o.isImm

/-- A source of the integer instructions (R199, R200): with a uniform destination every source is uniform. -/
def intSrc (uniform : Bool) (o : Opnd) : Bool :=
  o.isU || o.isImm || (if uniform then o.isUniformRo else o.isV || o.isRo)

/-- A shift count or bit-field limit of the integer instructions: no read-only value. -/
def intCount (uniform : Bool) (o : Opnd) : Bool := o.isU || o.isImm || (!uniform && o.isV)

/-- A destination of the integer instructions. -/
def intDst (o : Opnd) : Bool := o.isV || o.isU

end Opnd

/-- The width in bits of an integer type (R179). -/
def intWidth (m : BitVec 3) : Nat :=
  match m.toNat with
  | 0 | 1 => 32
  | 2 | 3 => 64
  | 4 | 5 => 16
  | _ => 8

/-- Signed types are the even codes (R179). -/
def intSigned (m : BitVec 3) : Bool := !m.getLsbD 0

/-- A 64-bit type: MOD 2 and 3 (R179). -/
def intWide (m : BitVec 3) : Bool := m == 2 || m == 3

namespace BodyA

/-- The four operand fields meet their kinds, and MOD is one of a list. -/
def ok (b : BodyA) (dst sa sb sc : Opnd → Bool) (mods : List Nat) : Bool :=
  dst b.dst && sa b.sa && sb b.sb && sc b.sc && mods.contains b.mod.toNat

/-- Two integer sources (R202). -/
def int2 (b : BodyA) : Bool :=
  let w := intWide b.mod; let u := b.dst.isU
  b.ok (fun o => o.intDst && o.pairIf w) (fun o => o.intSrc u && o.pairIf w)
    (fun o => o.intSrc u && o.pairIf w) Opnd.zero [0, 1, 2, 3, 4, 5, 6, 7]

/-- Three integer sources (R203). -/
def int3 (b : BodyA) : Bool :=
  let w := intWide b.mod; let u := b.dst.isU
  b.ok (fun o => o.intDst && o.pairIf w) (fun o => o.intSrc u && o.pairIf w)
    (fun o => o.intSrc u && o.pairIf w) (fun o => o.intSrc u && o.pairIf w) [0, 1, 2, 3, 4, 5, 6, 7]

/-- One integer source (R205); `narrow` for a 32-bit result of a 64-bit source. -/
def int1 (b : BodyA) (narrow : Bool) (mods : List Nat) : Bool :=
  let w := intWide b.mod; let u := b.dst.isU
  b.ok (fun o => o.intDst && o.pairIf (w && !narrow)) (fun o => o.intSrc u && o.pairIf w) Opnd.zero Opnd.zero mods

/-- A shift (R207). -/
def shift (b : BodyA) (mods : List Nat) : Bool :=
  let w := intWide b.mod; let u := b.dst.isU
  b.ok (fun o => o.intDst && o.pairIf w) (fun o => o.intSrc u && o.pairIf w) (Opnd.intCount u) Opnd.zero mods

/-- A bit field (R209). -/
def field (b : BodyA) (mods : List Nat) : Bool :=
  let w := intWide b.mod; let u := b.dst.isU
  b.ok (fun o => o.intDst && o.pairIf w) (fun o => o.intSrc u && o.pairIf w) (Opnd.intCount u) (Opnd.intCount u) mods

/-- ISET (R211). -/
def iset (b : BodyA) : Bool :=
  let w := intWide b.mod; let u := b.dst.isU || b.dst.isKp
  b.ok (fun o => o.intDst || o.isPDst || o.isKp) (fun o => o.intSrc u && o.pairIf w)
    (fun o => o.intSrc u && o.pairIf w) (Opnd.immIn 0 5) [0, 1, 2, 3, 4, 5, 6, 7]

/-- SEL (R212). -/
def sel (b : BodyA) : Bool :=
  let w := intWide b.mod; let u := b.dst.isU
  b.ok (fun o => o.intDst && o.pairIf w) (fun o => o.intSrc u && o.pairIf w) (fun o => o.intSrc u && o.pairIf w)
    (fun o => o.isKp || (!u && o.isP)) [1, 3]

/-- RDS (R214). -/
def rds (b : BodyA) : Bool :=
  b.ok (fun o => o.intDst && o.pairIf (b.mod == 3)) Opnd.zero (Opnd.immIn 0 7) Opnd.zero [1, 3] &&
  ((b.mod == 3) == (match b.sb with | .imm x => x == 0 | _ => false))

/-- A lane operation with SB and SC zero (R215). -/
def lane (b : BodyA) (dst sa : Opnd → Bool) (mods : List Nat) : Bool := b.ok dst sa Opnd.zero Opnd.zero mods

/-- LRED (R219): SB is zero, or the immediate 1 with a vector destination. -/
def lred (b : BodyA) : Bool :=
  b.ok (fun o => o.isV || o.isU) Opnd.isV (fun o => o.zero || (b.dst.isV && o.immIn 1 1)) Opnd.zero
    [0, 1, 2, 3, 4, 5, 6, 7]

/-- One, two and three floating-point sources of 32 bits into a vector name (R222). -/
def fp1 (b : BodyA) (mods : List Nat) : Bool := b.ok Opnd.isV Opnd.vui Opnd.zero Opnd.zero mods
def fp2 (b : BodyA) (mods : List Nat) : Bool := b.ok Opnd.isV Opnd.vui Opnd.vui Opnd.zero mods
def fp3 (b : BodyA) (mods : List Nat) : Bool := b.ok Opnd.isV Opnd.vui Opnd.vui Opnd.vui mods

/-- A 64-bit floating-point source. -/
def dsrc (o : Opnd) : Bool := o.vui && o.mult 2

/-- CVT (R232): type codes up to 11 and even pairs for the 64-bit types. -/
def cvt (b : BodyA) : Bool :=
  match b.sb with
  | .imm x =>
    let t := (x.extractLsb' 4 4).toNat
    let s := (x.extractLsb' 0 4).toNat
    let wide := fun c => c == 3 || c == 10 || c == 11
    decide (t ≤ 11) && decide (s ≤ 11) &&
    b.ok (fun o => o.isV && o.pairIf (wide t)) (fun o => o.vui && o.pairIf (wide s)) Opnd.isImm Opnd.zero [0, 1, 2, 3, 5]
  | _ => false

/-- ASET (R253). -/
def aset (b : BodyA) : Bool :=
  b.ok Opnd.isA (fun o => match b.sb with
    | .imm x => match x.toNat with
      | 0 | 1 | 2 => o.pairU
      | 3 | 4 | 5 => o.uOrImm
      | 7 => o.isA
      | _ => false
    | _ => false) Opnd.isImm Opnd.zero [0]

/-- AGET (R255). -/
def aget (b : BodyA) : Bool :=
  b.ok (fun o => match b.sb with
    | .imm x => if x.toNat ≤ 2 then o.pairU else if x.toNat ≤ 5 then o.isU else false
    | _ => false) Opnd.isA Opnd.isImm Opnd.zero [0]

end BodyA

namespace BodyM

/-- The kinds and alignment of DATA (R241). `imm` where the entry accepts an immediate. -/
def dataOk (b : BodyM) (imm : Bool) : Bool :=
  match b.sz.toNat with
  | 0 | 1 | 2 => b.data.isV || b.data.isU || (imm && b.data.isImm)
  | 3 => (b.data.isV || b.data.isU) && b.data.mult 2
  | 4 => (b.data.isV || b.data.isU) && b.data.mult 4
  | _ => false

/-- The limits of the mould of R246 for a plain load or store. -/
def plain (b : BodyM) (imm cached scopeOk signx : Bool) : Bool :=
  b.dataOk imm && decide (b.mode.toNat ≤ 4) && decide (b.scope.toNat ≤ 4) &&
  (cached || b.cache == 0) && (scopeOk || b.scope == 0) &&
  !b.mod.getLsbD 1 && (!b.mod.getLsbD 0 || (signx && decide (b.sz.toNat ≤ 1)))

/-- Spill and fill (R256). -/
def spill (b : BodyM) : Bool :=
  b.data.isV && b.sz == 2 && (b.mode == 0 || b.mode == 1 || b.mode == 3) && b.mod == 2 && b.scope == 0 && b.cache == 0

/-- AOP (R240). -/
def aop (b : BodyM) : Nat := (b.cache ++ b.mod).toNat

/-- ATOM, ATOMS and RED (R259, R260). -/
def atomic (b : BodyM) (red : Bool) : Bool :=
  (b.sz == 2 || b.sz == 3) && b.dataOk false && decide (b.mode.toNat ≤ 4) && decide (b.scope.toNat ≤ 4) &&
  decide (b.aop ≤ 13) && (!red || (b.scope == 0 && b.aop != 8))

/-- CAS (R262). -/
def cas (b : BodyM) : Bool :=
  ((b.sz == 2 && b.data.mult 2) || (b.sz == 3 && b.data.mult 4)) && (b.data.isV || b.data.isU) &&
  decide (b.mode.toNat ≤ 4) && decide (b.scope.toNat ≤ 4) && b.aop == 0

/-- REDV (R263). -/
def redv (b : BodyM) : Bool :=
  decide (b.mode.toNat ≤ 3) && b.scope == 0 && b.dataOk false &&
  ((b.sz == 2 || b.sz == 3 || b.sz == 4) &&
    (decide (b.aop ≤ 7) || b.aop == 11 || b.aop == 12 || b.aop == 13 ||
      ((b.aop == 14 || b.aop == 15) && b.sz != 3)))

/-- PRF (R258): a prefetch takes the size of SZ for its lane term. -/
def prf (b : BodyM) : Bool :=
  b.data.zero && (b.mode == 0 || b.mode == 4) && decide (b.sz.toNat ≤ 4) && b.scope == 0 && decide (b.mod.toNat ≤ 1)

end BodyM

/-- COND is zero (R188). -/
def BodyJ.plain (b : BodyJ) : Bool := b.kind == 0 && !b.cneg && b.cidx == 0

/-- COND of BRC: KIND 1 names p0–p7, KIND 2 names kp0–kp3 (R170). -/
def BodyJ.cond (b : BodyJ) : Bool :=
  (b.kind == 1 && decide (b.cidx.toNat ≤ 7)) || (b.kind == 2 && decide (b.cidx.toNat ≤ 3))

/-- An E-format uniform or immediate operand field. -/
def Opnd.eSrc (o : Opnd) : Bool := o.uOrImm

namespace Rv

/-- The forms that RV64IMAC has (log 18). -/
def ok : Rv → Bool
  | .load w uns _ _ _ => !(uns && w == 3)
  | .opImm f _ _ _ => f != .sll && f != .srl && f != .sra && f != .sub
  | .shImm f _ _ _ => f == .sll || f == .srl || f == .sra
  | .shImmW f _ _ _ => f == .sll || f == .srl || f == .sra
  | .opW f _ _ _ => f == .add || f == .sub || f == .sll || f == .srl || f == .sra
  | .mulDivW f _ _ _ => f == .mul || f == .div || f == .divu || f == .rem || f == .remu
  | .csr _ _ _ c => !(decide (0x800 ≤ c.toNat ∧ c.toNat ≤ 0x80f))
  | _ => true

end Rv

/-- The instruction is one that the entry of the manual accepts. An event has no word and no limits here. -/
def Instr.wf : Instr → Bool
  | .bra h b | .call h b => h.ok .no && b.plain
  | .brc h b => h.ok .no && b.cond
  | .brx h b | .ret h b => h.ok .no && b.ok Opnd.zero (fun o => o.pairV || o.pairU) Opnd.zero Opnd.zero [0]
  | .callx h b => h.ok .no && b.ok Opnd.pairV (fun o => o.pairV || o.pairU) Opnd.zero Opnd.zero [0]
  | .exit h | .nop h | .yield h | .popm h | .acq h => h.ok .no
  | .sleep h _ | .trap h _ | .bkpt h _ => h.ok .no
  | .setmPush h _ => h.ok .no
  | .getm h vd _ => h.ok .no && vd.pairV && (match vd with | .v n => decide (n.toNat ≤ 246) | _ => false)
  | .setmRestore h vs => h.ok .no && vs.pairV && (match vs with | .v n => decide (n.toNat ≤ 246) | _ => false)
  | .map h b | .unmap h b => h.ok .no && b.ok Opnd.isV Opnd.zero Opnd.zero Opnd.zero [0]
  | .aliasName h b | .swapn h b => h.ok .no && b.ok Opnd.isV Opnd.isV Opnd.zero Opnd.zero [0]
  | .give h b => h.ok .no && b.ok Opnd.zero Opnd.isV Opnd.isH Opnd.zero [0]
  | .take h b => h.ok .no && b.ok Opnd.isV Opnd.zero Opnd.isH Opnd.zero [0]
  | .mapq h b => h.ok .no && b.ok Opnd.isU Opnd.isV Opnd.zero Opnd.zero [0]
  | .lxch h b => h.ok .no && b.ok Opnd.isV Opnd.isV Opnd.vui Opnd.zero [0, 1, 2, 3]
  | .pagr h b => h.ok .no && b.lane (fun o => o.isPDst || o.isKp) (fun o => o.isP || o.isKp) [0, 1, 2]
  | .pmsk h b => h.ok .no && b.lane Opnd.intDst (fun o => o.isP || o.isKp) [0]
  | .leqm h b => h.ok .no && b.lane Opnd.isV (fun o => o.isV && o.pairIf (intWide b.mod)) [1, 3]
  | .lred h b => h.ok .no && b.lred
  | .rfal h b => h.ok .no && b.lane (fun o => o.isU && o.pairIf (intWide b.mod)) (fun o => o.isV && o.pairIf (intWide b.mod)) [1, 3]
  | .iadd h b | .isub h b | .imul h b | .imulh h b | .imin h b | .imax h b => h.ok .no && b.int2
  | .imad h b => h.ok .no && b.int3
  | .idiv h b | .irem h b => h.ok .l && b.int2
  | .iabs h b => h.ok .no && b.int1 false [0, 2, 4, 6]
  | .popc h b | .clz h b => h.ok .no && b.int1 true [1, 3]
  | .brev h b | .mov h b => h.ok .no && b.int1 false [1, 3]
  | .ltab h b =>
    let w := intWide b.mod; let u := b.dst.isU
    h.ok .no && b.ok (fun o => o.intDst && o.pairIf w) (fun o => o.intSrc u && o.pairIf w) (fun o => o.intSrc u && o.pairIf w)
      Opnd.isImm [1, 3]
  | .shl h b | .shr h b => h.ok .no && b.shift [1, 3]
  | .sar h b => h.ok .no && b.shift [0, 2]
  | .catsh h b =>
    let u := b.dst.isU
    h.ok .no && b.ok Opnd.intDst (Opnd.intSrc u) (Opnd.intSrc u) (Opnd.intCount u) [0, 1, 2, 3, 4, 5, 6, 7]
  | .bfe h b => h.ok .no && b.field [0, 1, 2, 3]
  | .bfi h b => h.ok .no && b.field [1, 3]
  | .bytep h b =>
    let u := b.dst.isU
    h.ok .no && b.ok Opnd.intDst (Opnd.intSrc u) (Opnd.intSrc u) (Opnd.intCount u) [1]
  | .iset h b => h.ok .no && b.iset
  | .sel h b => h.ok .no && b.sel
  | .movi h b => h.ok .no && b.dst.intDst && b.dst.pairIf b.wide
  | .rds h b => h.ok .no && b.rds
  | .fadd h b | .fmul h b => h.ok .no && b.fp2 [0, 1, 2, 3]
  | .ffma h b => h.ok .no && b.fp3 [0, 1, 2, 3]
  | .fmin h b | .fmax h b => h.ok .no && b.fp2 [0, 1]
  | .fset h b => h.ok .no && b.ok (fun o => o.isPDst || o.isV) Opnd.vui Opnd.vui (Opnd.immIn 0 7) [0]
  | .dset h b => h.ok .no && b.ok (fun o => o.isPDst || o.isV) BodyA.dsrc BodyA.dsrc (Opnd.immIn 0 7) [0]
  | .frnd h b => h.ok .no && b.fp1 [0, 1, 2, 3]
  | .fclass h b => h.ok .no && b.ok Opnd.isV (fun o => o.vui && o.pairIf (b.mod == 1)) Opnd.zero Opnd.zero [0, 1, 2, 3]
  | .phadd h b | .phmul h b => h.ok .no && b.fp2 [0, 1, 2, 3]
  | .phfma h b | .pbfma h b => h.ok .no && b.fp3 [0, 1, 2, 3]
  | .dadd h b | .dmul h b => h.ok .no && b.ok Opnd.pairV BodyA.dsrc BodyA.dsrc Opnd.zero [0, 1, 2, 3]
  | .dfma h b => h.ok .no && b.ok Opnd.pairV BodyA.dsrc BodyA.dsrc BodyA.dsrc [0, 1, 2, 3]
  | .frcp h b | .frsq h b | .fsqrt h b | .fex2 h b | .flg2 h b | .fsin h b | .fcos h b | .ftanh h b =>
    h.ok .l && b.fp1 [0]
  | .cvt h b => h.ok .no && b.cvt
  | .cvtw h b => h.ok .no && b.fp2 [0, 1, 2, 3, 4, 5, 6, 7]
  | .cvts h b => h.ok .no && b.ok Opnd.isV (fun o => o.isV || o.isU) Opnd.isFs Opnd.zero [0, 1]
  | .cvtn h b => h.ok .no && b.ok Opnd.isV Opnd.isV Opnd.isFs Opnd.isImm [0, 1]
  | .bscale h b => h.ok .no && b.ok Opnd.isV Opnd.vui Opnd.vui Opnd.isFs [0, 1]
  | .plsplit h b | .pljoin h b => h.ok .no && b.ok Opnd.isV Opnd.isV Opnd.isV (Opnd.immIn 0 3) [0]
  | .ld h b => h.ok .l && b.plain false true true true
  | .ldFill h b | .stSpill h b => h.ok .l && b.spill
  | .st h b => h.ok .l && b.plain true true true false
  | .lds h b | .ldt h b => h.ok .l && b.plain false false true true
  | .sts h b | .stt h b => h.ok .l && b.plain true false true false
  | .ldc h b => h.ok .l && b.plain false false false true
  | .prf h b => h.ok .no && b.prf
  | .ainit h b => h.ok .no && b.ok Opnd.isA Opnd.pairU (fun o => o.pairU || o.isImm) (Opnd.immIn 0 15) [0]
  | .aset h b => h.ok .no && b.aset
  | .aadv h b =>
    h.ok .no && b.ok Opnd.isA (fun o => if b.mod.getLsbD 1 then o.pairU else o.uOrImm) Opnd.zero Opnd.zero [0, 1, 2, 3]
  | .aget h b => h.ok .no && b.aget
  | .atom h b | .atoms h b => h.ok .l && b.atomic false
  | .red h b => h.ok .l && b.atomic true
  | .cas h b => h.ok .l && b.cas
  | .redv h b => h.ok .l && b.redv
  | .fence h s | .fenceb h s => h.ok .no && decide (1 ≤ s.toNat ∧ s.toNat ≤ 4)
  | .bars h b => h.ok .no && b.ok Opnd.zero Opnd.isNb Opnd.uOrImm Opnd.zero [0]
  | .bara h b => h.ok .no && b.ok Opnd.isU Opnd.isNb Opnd.uOrImm Opnd.zero [0]
  | .barw h b => h.ok .no && b.ok Opnd.zero Opnd.isNb Opnd.isU Opnd.zero [0]
  | .tbara h b => h.ok .no && b.ok Opnd.isU Opnd.isTb Opnd.uOrImm Opnd.zero [0]
  | .tbarw h b => h.ok .no && b.ok Opnd.zero Opnd.isTb Opnd.isU Opnd.zero [0]
  | .tbarx h b => h.ok .no && b.ok Opnd.zero Opnd.isTb Opnd.uOrImm Opnd.zero [0]
  | .qbind h b => h.ok .no && b.ok Opnd.isQ Opnd.uOrImm Opnd.isImm Opnd.zero [0, 1]
  | .qsend h b => h.ok .l && b.ok Opnd.zero Opnd.isQ Opnd.isU Opnd.zero [0]
  | .qrecv h b => h.ok .no && b.ok Opnd.isU Opnd.isQ Opnd.zero Opnd.zero [0]
  | .qtry h b => h.ok .no && b.ok Opnd.isKp Opnd.isQ Opnd.isU Opnd.zero [0]
  | .qstat h b =>
    h.ok .no && (b.ok Opnd.isU Opnd.isQ Opnd.zero Opnd.zero [0] || b.ok Opnd.pairU Opnd.zero Opnd.zero Opnd.zero [1])
  | .poll h b => h.ok .no && b.ok Opnd.isU Opnd.isA Opnd.uOrImm (Opnd.immIn 0 5) [0, 1, 2, 3, 4]
  | .hget h b => h.ok .no && b.ok Opnd.isU Opnd.uOrImm Opnd.uOrImm Opnd.zero [0]
  | .hfree h b => h.ok .no && b.ok Opnd.zero Opnd.isU Opnd.zero Opnd.zero [0]
  | .hwait h b => h.ok .no && b.ok Opnd.zero Opnd.isU (Opnd.immIn 0 3) Opnd.zero [0]
  | .hset h b => h.ok .no && b.ok Opnd.zero Opnd.isU (Opnd.immIn 2 3) Opnd.zero [0]
  | .wptr h b => h.ok .no && b.ok Opnd.pairU Opnd.zero (Opnd.immIn 0 3) Opnd.zero [0]
  | .wwait h b => h.ok .no && b.ok Opnd.zero Opnd.pairU (Opnd.immIn 0 3) Opnd.zero [0]
  | .cpy h _ => h.ok .f
  | .cpyt h _ _ => h.ok .f
  | .wgsend h b => h.ok .l && b.ok Opnd.zero Opnd.isA Opnd.uOrImm Opnd.isU [0]
  | .qsplit h b => h.ok .no && b.ok Opnd.isU Opnd.uOrImm Opnd.zero Opnd.zero [0]
  | .qret h b =>
    h.ok .no && (b.ok Opnd.zero Opnd.uOrImm Opnd.zero Opnd.zero [0] || b.ok Opnd.zero Opnd.zero Opnd.zero Opnd.zero [1])
  | .qborrow h b => h.ok .no && b.ok Opnd.zero Opnd.zero Opnd.zero Opnd.zero [0]
  | .waitq h b => h.ok .no && b.ok Opnd.isU Opnd.uOrImm Opnd.zero Opnd.zero [0]
  | .tapef h b => h.ok .no && b.ok (fun o => o.isU && o.mult 8) Opnd.zero Opnd.zero Opnd.zero [0]
  | .depinc h b => h.ok .no && b.ok Opnd.zero Opnd.uOrImm Opnd.uOrImm Opnd.zero [0]
  | .time h b =>
    h.ok .no && (b.ok Opnd.pairU Opnd.zero Opnd.zero Opnd.zero [0] || b.ok Opnd.isU Opnd.zero Opnd.zero Opnd.zero [1])
  | .waitt h b => h.ok .no && b.ok Opnd.zero Opnd.pairU Opnd.zero Opnd.zero [0]
  | .launch h b => h.ok .no && b.ok Opnd.isU Opnd.isA (fun o => o.isU || o.immIn 0 63) Opnd.zero [0]
  | .mma h b | .mmac h b => h.ok .f && b.kop.toNat % 8 == 0
  | .msign h _ o => h.ok .no && o.eSrc
  | .mzero h _ => h.ok .no
  | .accld h _ | .accst h _ => h.ok .f
  | .accmv h b => h.ok .f && b.vec.isV && b.idx.eSrc
  | .mepi h b => h.ok .f && b.scale.eSrc && decide (b.act.toNat ≤ 3) && (b.bv || b.aregB == 0)
  | .mrpq h _ _ => h.ok .no
  | .bmv h _ | .bmva h _ | .bred h _ => h.ok .f
  | .bstat h kd => h.ok .no && kd.toNat % 2 == 0
  | .rdsr h b => h.ok .no && b.dst.pairU && b.sa.zero
  | .wrsr h b => h.ok .no && b.dst.zero && (b.sa.pairU || b.sa.isImm)
  | .eret h b => h.ok .no && b.dst.zero && b.sa.immIn 0 1 && b.sreg == 0
  | .savewg h b | .restwg h b => h.ok .no && b.dst.isU && b.sa.pairU && b.sreg == 0
  | .tlbi h b | .flushs h b => h.ok .no && b.dst.zero && b.sa.pairU && b.sreg == 0
  | .halt h b => h.ok .no && b.dst.zero && b.sa.zero && b.sreg == 0
  | .fwpRead b => b.rs2 == 0
  | .ftime b => b.rs1 == 0 && b.rs2 == 0
  | .berylInstruction i c => i.ok && (match c with | none => true | some w => Rvc.expand w == some i)
  | .giveRowPark .. | .fenceConditionsMet .. | .barrierArrivalRegister .. | .barrierWaiterRelease .. | .acqGrant
  | .queueEntryLand .. | .pollRetry .. | .copyCommandTake | .copyBurst | .copyCompletionPost ..
  | .recordArriveBin .. | .binTimerExpire .. | .accountUpdate .. | .waitqWake .. | .waittWake .. | .sleepWake ..
  | .matrixOpStart | .matrixBlockComplete .. | .bankCommandTake | .bankRowBlock | .bankResultPost
  | .workgroupAtRest | .clauseBoundary .. | .clauseWaitPass .. | .groupWaitPromote .. | .warpStarvationPromote ..
  | .resultWriteback .. | .releaseBufferLeave .. | .storePerformed .. | .loadComplete .. | .atomicRequestApply ..
  | .redvElementApply .. | .supervisorWake | .ectlResume | .ectlAbandon | .sysregWrite .. | .atvalWrite ..
  | .tapeownBind .. | .tapeownUnbind .. | .lqtailWrite .. | .launchEntryTake .. | .timedStartReached ..
  | .workgroupAdmit .. | .teamAdmit .. | .nodeWorkgroupAdmit .. | .headGridReserve .. | .acqWaitReserve
  | .workgroupRetire | .gridComplete .. | .blockedTimeLimit | .gateTokenArrive .. | .gateTapeEntryWrite
  | .pageWalkComplete .. | .shootdownTimeout | .swqWrite .. | .switchPrestage | .switchSaveStart | .switchAdvance
  | .switchReleased | .gangStraggler | .switchFaultTimeout | .faultNoticeReceive .. | .handshakeReady ..
  | .handshakeCommit .. | .gangcfgWrite .. | .gfaultClear .. | .gangPacketArrive .. | .fabricMessageDeliver ..
  | .refusalReturn .. | .dropNoticeReceive .. | .peerAccessArrive .. | .lossNoticeReceive .. | .ptpSyncMessage ..
  | .ppsEdge | .syncLossTimeout | .holdoverTimeout | .hostInboundAccess .. | .powerInterval .. | .railDroop ..
  | .thermalTrip .. | .strikeReport .. | .timingNearMiss .. | .machineError | .patrolScrub .. | .screenCopyAdmit ..
  | .screenCopyEnd | .keygen .. | .keyclr .. | .triprd .. | .boostreq .. | .bringUp .. | .coreRestart
  | .fqbindWrite .. | .fqSend .. | .fqSendTry .. | .fqRecv .. | .fqRecvTry .. | .fhGet .. | .fhWait .. | .fcpIssue ..
  | .fcpIssueT .. | .fwpReadWait .. | .ftimeWait .. | .fpollEq .. | .fpollNe .. | .fpollLt .. | .fpollLe ..
  | .fpollGt .. | .fpollGe .. | .fabricSendDepart | .trapRecordAged => true

end Sys2Proof
end

