-- ==== Sys2Proof/Machine/Footprint.lean ====
section
/-! DEFINITION. What the opcode map says of each Farale instruction beside its fields (R180): the clause classes
that admit it, its FLAG and LK, whether it is a control transfer or a map instruction; and the names and k registers
that it reads or writes (R167). -/

namespace Sys2Proof

/-- Clause classes by code (R156). -/
inductive ClauseClass where
  | alu | sfu | mem | eng | ctl | mix
  deriving DecidableEq, Repr

def ClauseClass.of (code : Nat) : Option ClauseClass :=
  match code with
  | 0 => some .alu | 1 => some .sfu | 2 => some .mem | 3 => some .eng | 4 => some .ctl | 5 => some .mix
  | _ => none

/-- The head of a Farale instruction; none for a Beryl instruction or an event. -/
def Instr.head? : Instr → Option Head
  | .bra h _ | .brc h _ | .call h _ | .brx h _ | .callx h _ | .ret h _ | .exit h | .nop h | .yield h | .sleep h _
  | .setmPush h _ | .popm h | .getm h _ _ | .setmRestore h _ | .trap h _ | .bkpt h _ | .map h _ | .unmap h _
  | .aliasName h _ | .give h _ | .take h _ | .swapn h _ | .mapq h _ | .lxch h _ | .pagr h _ | .pmsk h _ | .leqm h _
  | .lred h _ | .rfal h _ | .iadd h _ | .isub h _ | .imul h _ | .imulh h _ | .imad h _ | .idiv h _ | .irem h _
  | .imin h _ | .imax h _ | .iabs h _ | .ltab h _ | .shl h _ | .shr h _ | .sar h _ | .catsh h _ | .popc h _
  | .clz h _ | .brev h _ | .bfe h _ | .bfi h _ | .bytep h _ | .iset h _ | .sel h _ | .mov h _ | .movi h _
  | .rds h _ | .fadd h _ | .fmul h _ | .ffma h _ | .fmin h _ | .fmax h _ | .fset h _ | .dset h _ | .frnd h _
  | .fclass h _ | .phadd h _ | .phmul h _ | .phfma h _ | .pbfma h _ | .dadd h _ | .dmul h _ | .dfma h _ | .frcp h _
  | .frsq h _ | .fsqrt h _ | .fex2 h _ | .flg2 h _ | .fsin h _ | .fcos h _ | .ftanh h _ | .cvt h _ | .cvtw h _
  | .cvts h _ | .cvtn h _ | .bscale h _ | .plsplit h _ | .pljoin h _ | .ld h _ | .ldFill h _ | .st h _
  | .stSpill h _ | .lds h _ | .sts h _ | .ldt h _ | .stt h _ | .ldc h _ | .prf h _ | .ainit h _ | .aset h _
  | .aadv h _ | .aget h _ | .atom h _ | .atoms h _ | .red h _ | .cas h _ | .redv h _ | .fence h _ | .fenceb h _
  | .bars h _ | .bara h _ | .barw h _ | .tbara h _ | .tbarw h _ | .tbarx h _ | .acq h | .qbind h _ | .qsend h _
  | .qrecv h _ | .qtry h _ | .qstat h _ | .poll h _ | .hget h _ | .hfree h _ | .hwait h _ | .hset h _ | .wptr h _
  | .wwait h _ | .cpy h _ | .cpyt h _ _ | .wgsend h _ | .qsplit h _ | .qret h _ | .qborrow h _ | .waitq h _
  | .tapef h _ | .depinc h _ | .time h _ | .waitt h _ | .launch h _ | .mma h _ | .mmac h _ | .msign h _ _
  | .mzero h _ | .accld h _ | .accst h _ | .accmv h _ | .mepi h _ | .mrpq h _ _ | .bmv h _ | .bmva h _ | .bred h _
  | .bstat h _ | .rdsr h _ | .wrsr h _ | .eret h _ | .savewg h _ | .restwg h _ | .tlbi h _ | .flushs h _
  | .halt h _ => some h
  | .giveRowPark .. | .fenceConditionsMet .. | .barrierArrivalRegister .. | .barrierWaiterRelease ..
  | .queueEntryLand .. | .pollRetry .. | .copyCompletionPost .. | .recordArriveBin .. | .binTimerExpire ..
  | .accountUpdate .. | .waitqWake .. | .waittWake .. | .sleepWake .. | .matrixBlockComplete ..
  | .clauseBoundary .. | .clauseWaitPass .. | .groupWaitPromote .. | .warpStarvationPromote ..
  | .resultWriteback .. | .releaseBufferLeave .. | .storePerformed .. | .loadComplete .. | .atomicRequestApply ..
  | .redvElementApply .. | .sysregWrite .. | .atvalWrite .. | .tapeownBind .. | .tapeownUnbind .. | .lqtailWrite ..
  | .launchEntryTake .. | .timedStartReached .. | .workgroupAdmit .. | .teamAdmit .. | .nodeWorkgroupAdmit ..
  | .headGridReserve .. | .gridComplete .. | .gateTokenArrive .. | .pageWalkComplete .. | .swqWrite ..
  | .faultNoticeReceive .. | .handshakeReady .. | .handshakeCommit .. | .gangcfgWrite .. | .gfaultClear ..
  | .gangPacketArrive .. | .fabricMessageDeliver .. | .refusalReturn .. | .dropNoticeReceive ..
  | .peerAccessArrive .. | .lossNoticeReceive .. | .ptpSyncMessage .. | .hostInboundAccess .. | .powerInterval ..
  | .railDroop .. | .thermalTrip .. | .strikeReport .. | .timingNearMiss .. | .patrolScrub .. | .screenCopyAdmit ..
  | .keygen .. | .keyclr .. | .triprd .. | .boostreq .. | .bringUp .. | .fqbindWrite .. | .berylInstruction ..
  | .fqSend .. | .fqSendTry .. | .fqRecv .. | .fqRecvTry .. | .fhGet .. | .fhWait .. | .fcpIssue .. | .fcpIssueT ..
  | .fwpRead .. | .fwpReadWait .. | .ftime .. | .ftimeWait .. | .fpollEq .. | .fpollNe .. | .fpollLt ..
  | .fpollLe .. | .fpollGt .. | .fpollGe .. | .acqGrant | .copyBurst | .matrixOpStart | .supervisorWake
  | .ectlResume | .ectlAbandon | .acqWaitReserve | .machineError | .coreRestart | .trapRecordAged
  | .copyCommandTake | .bankCommandTake | .bankRowBlock | .bankResultPost | .workgroupAtRest | .workgroupRetire
  | .blockedTimeLimit | .screenCopyEnd | .fabricSendDepart | .gateTapeEntryWrite | .shootdownTimeout
  | .switchPrestage | .switchSaveStart | .switchAdvance | .switchReleased | .gangStraggler | .switchFaultTimeout
  | .ppsEdge | .syncLossTimeout | .holdoverTimeout => none

/-- The clause classes that admit an instruction (R161, R180). -/
def Instr.admitted : Instr → List ClauseClass
  | .exit .. | .nop .. => [.alu, .sfu, .mem, .eng, .ctl, .mix]
  | .bra .. | .brc .. | .call .. | .brx .. | .callx .. | .ret .. | .yield .. | .sleep .. | .setmPush .. | .popm ..
  | .getm .. | .setmRestore .. | .trap .. | .bkpt .. | .bars .. | .bara .. | .barw .. | .tbara .. | .tbarw ..
  | .tbarx .. | .acq .. | .qbind .. | .qsend .. | .qrecv .. | .qtry .. | .qstat .. | .poll .. | .hget ..
  | .hfree .. | .hwait .. | .hset .. | .wptr .. | .wwait .. | .wgsend .. | .qsplit .. | .qret .. | .qborrow ..
  | .waitq .. | .tapef .. | .depinc .. | .time .. | .waitt .. | .launch .. => [.ctl, .mix]
  | .map .. | .unmap .. | .aliasName .. | .give .. | .take .. | .swapn .. | .mapq .. | .movi .. => [.alu, .ctl, .mix]
  | .lxch .. | .pagr .. | .pmsk .. | .leqm .. | .lred .. | .rfal .. | .iadd .. | .isub .. | .imul .. | .imulh ..
  | .imad .. | .idiv .. | .irem .. | .imin .. | .imax .. | .iabs .. | .ltab .. | .shl .. | .shr .. | .sar ..
  | .catsh .. | .popc .. | .clz .. | .brev .. | .bfe .. | .bfi .. | .bytep .. | .iset .. | .sel .. | .mov ..
  | .rds .. | .fadd .. | .fmul .. | .ffma .. | .fmin .. | .fmax .. | .fset .. | .dset .. | .frnd .. | .fclass ..
  | .phadd .. | .phmul .. | .phfma .. | .pbfma .. | .dadd .. | .dmul .. | .dfma .. | .cvt .. | .cvtw .. | .cvts ..
  | .cvtn .. | .bscale .. | .plsplit .. | .pljoin .. => [.alu, .mix]
  | .frcp .. | .frsq .. | .fsqrt .. | .fex2 .. | .flg2 .. | .fsin .. | .fcos .. | .ftanh .. => [.sfu, .mix]
  | .ld .. | .ldFill .. | .st .. | .stSpill .. | .lds .. | .sts .. | .ldt .. | .stt .. | .ldc .. | .prf ..
  | .atom .. | .atoms .. | .red .. | .cas .. | .redv .. => [.mem, .mix]
  | .ainit .. | .aset .. | .aadv .. | .aget .. | .fence .. | .fenceb .. => [.mem, .ctl, .mix]
  | .cpy .. | .cpyt .. => [.eng, .ctl, .mix]
  | .mma .. | .mmac .. | .msign .. | .mzero .. | .accld .. | .accst .. | .accmv .. | .mepi .. | .mrpq .. | .bmv ..
  | .bmva .. | .bred .. | .bstat .. => [.eng, .mix]
  | .rdsr .. | .wrsr .. | .eret .. | .savewg .. | .restwg .. | .tlbi .. | .flushs .. | .halt .. => [.ctl]
  | .giveRowPark .. | .fenceConditionsMet .. | .barrierArrivalRegister .. | .barrierWaiterRelease ..
  | .queueEntryLand .. | .pollRetry .. | .copyCompletionPost .. | .recordArriveBin .. | .binTimerExpire ..
  | .accountUpdate .. | .waitqWake .. | .waittWake .. | .sleepWake .. | .matrixBlockComplete ..
  | .clauseBoundary .. | .clauseWaitPass .. | .groupWaitPromote .. | .warpStarvationPromote ..
  | .resultWriteback .. | .releaseBufferLeave .. | .storePerformed .. | .loadComplete .. | .atomicRequestApply ..
  | .redvElementApply .. | .sysregWrite .. | .atvalWrite .. | .tapeownBind .. | .tapeownUnbind .. | .lqtailWrite ..
  | .launchEntryTake .. | .timedStartReached .. | .workgroupAdmit .. | .teamAdmit .. | .nodeWorkgroupAdmit ..
  | .headGridReserve .. | .gridComplete .. | .gateTokenArrive .. | .pageWalkComplete .. | .swqWrite ..
  | .faultNoticeReceive .. | .handshakeReady .. | .handshakeCommit .. | .gangcfgWrite .. | .gfaultClear ..
  | .gangPacketArrive .. | .fabricMessageDeliver .. | .refusalReturn .. | .dropNoticeReceive ..
  | .peerAccessArrive .. | .lossNoticeReceive .. | .ptpSyncMessage .. | .hostInboundAccess .. | .powerInterval ..
  | .railDroop .. | .thermalTrip .. | .strikeReport .. | .timingNearMiss .. | .patrolScrub .. | .screenCopyAdmit ..
  | .keygen .. | .keyclr .. | .triprd .. | .boostreq .. | .bringUp .. | .fqbindWrite .. | .berylInstruction ..
  | .fqSend .. | .fqSendTry .. | .fqRecv .. | .fqRecvTry .. | .fhGet .. | .fhWait .. | .fcpIssue .. | .fcpIssueT ..
  | .fwpRead .. | .fwpReadWait .. | .ftime .. | .ftimeWait .. | .fpollEq .. | .fpollNe .. | .fpollLt ..
  | .fpollLe .. | .fpollGt .. | .fpollGe .. | .acqGrant | .copyBurst | .matrixOpStart | .supervisorWake
  | .ectlResume | .ectlAbandon | .acqWaitReserve | .machineError | .coreRestart | .trapRecordAged
  | .copyCommandTake | .bankCommandTake | .bankRowBlock | .bankResultPost | .workgroupAtRest | .workgroupRetire
  | .blockedTimeLimit | .screenCopyEnd | .fabricSendDepart | .gateTapeEntryWrite | .shootdownTimeout
  | .switchPrestage | .switchSaveStart | .switchAdvance | .switchReleased | .gangStraggler | .switchFaultTimeout
  | .ppsEdge | .syncLossTimeout | .holdoverTimeout => []
/-- The control transfers, which must stand last in their clause (R159). -/
def Instr.isTransfer : Instr → Bool
  | .bra .. | .brc .. | .brx .. | .call .. | .callx .. | .ret .. => true
  | _ => false

/-- ERET must stand last in its clause too (R343). -/
def Instr.isEret : Instr → Bool
  | .eret .. => true
  | _ => false

/-- The map instructions wait for an operation in flight instead of trapping (R71). -/
def Instr.isMap : Instr → Bool
  | .map .. | .unmap .. | .aliasName .. | .give .. | .take .. | .swapn .. | .mapq .. => true
  | _ => false

/-- The registers of an operand that covers `n` consecutive names or k registers. -/
def Opnd.regs (n : Nat) : Opnd → List (Bool × Nat)
  | .v i => (List.range n).map fun k => (true, i.toNat + k)
  | .u i => (List.range n).map fun k => (false, i.toNat + k)
  | _ => []

/-- k registers by number. -/
def kRegs (first n : Nat) : List (Bool × Nat) := (List.range n).map fun k => (false, first + k)

/-- The operands of a format A body, each of `n` registers. -/
def BodyA.regs (b : BodyA) (d a b' c : Nat) : List (Bool × Nat) :=
  b.dst.regs d ++ b.sa.regs a ++ b.sb.regs b' ++ b.sc.regs c

/-- The number of registers of DATA (R241). -/
def BodyM.dataRegs (b : BodyM) : Nat := if b.sz == 3 then 2 else if b.sz == 4 then 4 else 1

/-- The number of registers of DATA of CAS (R262). -/
def BodyM.casRegs (b : BodyM) : Nat := if b.sz == 3 then 4 else 2

/-- Two registers for a 64-bit type. -/
def wideN (wide : Bool) : Nat := if wide then 2 else 1

/-- The vector names (true) and k registers (false) that a Farale instruction reads or writes. An unused field is
not counted: it holds v0's ten zero bits. -/
def Instr.regs : Instr → List (Bool × Nat)
  | .brx _ b | .ret _ b => b.sa.regs 2
  | .callx _ b => b.dst.regs 2 ++ b.sa.regs 2
  | .call .. => [(true, 254), (true, 255)]
  | .getm _ d _ => d.regs 10
  | .setmRestore _ o => o.regs 10
  | .map _ b | .unmap _ b => b.dst.regs 1
  | .take _ b => b.dst.regs 1
  | .give _ b => b.sa.regs 1
  | .aliasName _ b | .swapn _ b | .mapq _ b => b.dst.regs 1 ++ b.sa.regs 1
  | .lxch _ b => b.regs 1 1 1 0
  | .pmsk _ b => b.dst.regs 1
  | .leqm _ b => b.regs 1 (wideN (intWide b.mod)) 0 0
  | .lred _ b => b.regs 1 1 0 0
  | .rfal _ b => b.regs (wideN (intWide b.mod)) (wideN (intWide b.mod)) 0 0
  | .iadd _ b | .isub _ b | .imul _ b | .imulh _ b | .imin _ b | .imax _ b | .idiv _ b | .irem _ b =>
    let n := wideN (intWide b.mod); b.regs n n n 0
  | .imad _ b => let n := wideN (intWide b.mod); b.regs n n n n
  | .iabs _ b | .brev _ b | .mov _ b => let n := wideN (intWide b.mod); b.regs n n 0 0
  | .popc _ b | .clz _ b => b.regs 1 (wideN (intWide b.mod)) 0 0
  | .ltab _ b => let n := wideN (intWide b.mod); b.regs n n n 0
  | .shl _ b | .shr _ b | .sar _ b => let n := wideN (intWide b.mod); b.regs n n 1 0
  | .catsh _ b | .bytep _ b => b.regs 1 1 1 1
  | .bfe _ b | .bfi _ b => let n := wideN (intWide b.mod); b.regs n n 1 1
  | .iset _ b => let n := wideN (intWide b.mod); b.regs 1 n n 0
  | .sel _ b => let n := wideN (intWide b.mod); b.regs n n n 0
  | .movi _ b => b.dst.regs (wideN b.wide)
  | .rds _ b => b.dst.regs (wideN (b.mod == 3))
  | .fadd _ b | .fmul _ b | .fmin _ b | .fmax _ b | .phadd _ b | .phmul _ b | .fset _ b | .cvtw _ b => b.regs 1 1 1 0
  | .ffma _ b | .phfma _ b | .pbfma _ b => b.regs 1 1 1 1
  | .dset _ b => b.regs 1 2 2 0
  | .dadd _ b | .dmul _ b => b.regs 2 2 2 0
  | .dfma _ b => b.regs 2 2 2 2
  | .frnd _ b | .frcp _ b | .frsq _ b | .fsqrt _ b | .fex2 _ b | .flg2 _ b | .fsin _ b | .fcos _ b | .ftanh _ b
  | .cvts _ b | .cvtn _ b => b.regs 1 1 0 0
  | .fclass _ b => b.regs 1 (wideN (b.mod == 1)) 0 0
  | .cvt _ b =>
    match b.sb with
    | .imm x =>
      let wide := fun (c : Nat) => c == 3 || c == 10 || c == 11
      b.regs (wideN (wide (x.extractLsb' 4 4).toNat)) (wideN (wide (x.extractLsb' 0 4).toNat)) 0 0
    | _ => []
  | .bscale _ b => b.regs 1 1 1 0
  | .plsplit _ b | .pljoin _ b => b.regs 1 1 1 0
  | .ld _ b | .ldFill _ b | .st _ b | .stSpill _ b | .lds _ b | .sts _ b | .ldt _ b | .stt _ b | .ldc _ b | .atom _ b
  | .atoms _ b | .red _ b | .redv _ b => b.data.regs b.dataRegs
  | .cas _ b => b.data.regs b.casRegs
  | .ainit _ b => b.sa.regs 2 ++ b.sb.regs 2
  | .aset _ b => b.sa.regs (wideN (match b.sb with | .imm x => decide (x.toNat ≤ 2) | _ => false))
  | .aadv _ b => b.sa.regs (wideN (b.mod.getLsbD 1))
  | .aget _ b => b.dst.regs (wideN (match b.sb with | .imm x => decide (x.toNat ≤ 2) | _ => false))
  | .bars _ b | .barw _ b | .tbarw _ b | .tbarx _ b => b.sb.regs 1
  | .bara _ b | .tbara _ b => b.dst.regs 1 ++ b.sb.regs 1
  | .qbind _ b => b.sa.regs 1
  | .qsend _ b | .qtry _ b => b.sb.regs 1
  | .qrecv _ b => b.dst.regs 1
  | .qstat _ b => b.dst.regs (wideN (b.mod == 1))
  | .poll _ b => b.dst.regs 1 ++ b.sb.regs 1
  | .hget _ b => b.dst.regs 1 ++ b.sa.regs 1 ++ b.sb.regs 1
  | .hfree _ b | .hwait _ b | .hset _ b => b.sa.regs 1
  | .wptr _ b => b.dst.regs 2
  | .wwait _ b => b.sa.regs 2
  | .cpy _ g => kRegs (8 * g.toNat) 8
  | .cpyt _ g d => kRegs (8 * g.toNat) 8 ++ kRegs (2 * d.toNat) 2
  | .wgsend _ b => b.sb.regs 1 ++ b.sc.regs 1 ++ kRegs 63 1
  | .qsplit _ b => b.dst.regs 1 ++ b.sa.regs 1 ++ kRegs 62 1
  | .qret _ b => (if b.mod == 1 then [] else b.sa.regs 1) ++ kRegs 62 2
  | .qborrow .. => kRegs 62 2
  | .waitq _ b => b.dst.regs 1 ++ b.sa.regs 1
  | .tapef _ b => b.dst.regs 8
  | .depinc _ b => b.sa.regs 1 ++ b.sb.regs 1
  | .time _ b => b.dst.regs (wideN (b.mod == 0))
  | .waitt _ b => b.sa.regs 2
  | .launch _ b => b.dst.regs 1 ++ b.sb.regs 1
  | .mma _ b | .mmac _ b => kRegs b.kop.toNat 8
  | .msign _ _ o => o.regs 1
  | .accld _ b | .accst _ b => kRegs b.ks.toNat 1
  | .accmv _ b => b.vec.regs 1 ++ b.idx.regs 1
  | .mepi _ b => b.scale.regs 1 ++ kRegs b.ks.toNat 1
  | .mrpq _ k _ => kRegs k.toNat 1
  | .bmv _ g | .bmva _ g | .bred _ g => kRegs (8 * g.toNat) 8
  | .bstat _ k => kRegs k.toNat 2
  | .rdsr _ b => b.dst.regs 2
  | .wrsr _ b => b.sa.regs 2
  | .savewg _ b | .restwg _ b => b.dst.regs 1 ++ b.sa.regs 2
  | .tlbi _ b | .flushs _ b => b.sa.regs 2
  | _ => []

/-! ### Registers of every kind (R162) -/

/-- The format A body of an instruction that has one. -/
def Instr.bodyA? : Instr → Option BodyA
  | .brx _ b | .callx _ b | .ret _ b | .map _ b | .unmap _ b | .aliasName _ b | .give _ b | .take _ b | .swapn _ b
  | .mapq _ b | .lxch _ b | .pagr _ b | .pmsk _ b | .leqm _ b | .lred _ b | .rfal _ b | .iadd _ b | .isub _ b
  | .imul _ b | .imulh _ b | .imad _ b | .idiv _ b | .irem _ b | .imin _ b | .imax _ b | .iabs _ b | .ltab _ b
  | .shl _ b | .shr _ b | .sar _ b | .catsh _ b | .popc _ b | .clz _ b | .brev _ b | .bfe _ b | .bfi _ b | .bytep _ b
  | .iset _ b | .sel _ b | .mov _ b | .rds _ b | .fadd _ b | .fmul _ b | .ffma _ b | .fmin _ b | .fmax _ b
  | .fset _ b | .dset _ b | .frnd _ b | .fclass _ b | .phadd _ b | .phmul _ b | .phfma _ b | .pbfma _ b | .dadd _ b
  | .dmul _ b | .dfma _ b | .frcp _ b | .frsq _ b | .fsqrt _ b | .fex2 _ b | .flg2 _ b | .fsin _ b | .fcos _ b
  | .ftanh _ b | .cvt _ b | .cvtw _ b | .cvts _ b | .cvtn _ b | .bscale _ b | .plsplit _ b | .pljoin _ b | .ainit _ b
  | .aset _ b | .aadv _ b | .aget _ b | .bars _ b | .bara _ b | .barw _ b | .tbara _ b | .tbarw _ b | .tbarx _ b
  | .qbind _ b | .qsend _ b | .qrecv _ b | .qtry _ b | .qstat _ b | .poll _ b | .hget _ b | .hfree _ b | .hwait _ b
  | .hset _ b | .wptr _ b | .wwait _ b | .wgsend _ b | .qsplit _ b | .qret _ b | .qborrow _ b | .waitq _ b
  | .tapef _ b | .depinc _ b | .time _ b | .waitt _ b | .launch _ b => some b
  | _ => none

/-- The predicate or address register that a special operand names. -/
def Opnd.special : Opnd → List Machine.Reg
  | .sp i =>
    if i.toNat < 0x10 then [.a i.toNat]
    else if 0x58 ≤ i.toNat ∧ i.toNat < 0x60 then [.p (i.toNat - 0x58)]
    else if 0x60 ≤ i.toNat ∧ i.toNat < 0x64 then [.kp (i.toNat - 0x60)]
    else []
  | _ => []

/-- The predicates and address registers that an instruction reads or writes, its guard among them. -/
def Instr.specials (i : Instr) : List Machine.Reg :=
  (match i.head? with | some h => [Machine.Reg.p h.pidx.toNat] | none => []) ++
  (match i.bodyA? with | some b => b.dst.special ++ b.sa.special ++ b.sb.special ++ b.sc.special | none => []) ++
  match i with
  | .brc _ b => [if b.kind = 2 then .kp b.cidx.toNat else .p b.cidx.toNat]
  | .ld _ b | .ldFill _ b | .st _ b | .stSpill _ b | .lds _ b | .sts _ b | .ldt _ b | .stt _ b | .ldc _ b | .prf _ b | .atom _ b
  | .atoms _ b | .red _ b | .redv _ b | .cas _ b => [.a b.areg.toNat]
  | .mma _ b | .mmac _ b => [.a b.areg1.toNat, .a b.areg2.toNat]
  | .accld _ b | .accst _ b => [.a b.areg.toNat]
  | .mepi _ b => [.a b.aregD.toNat, .a b.aregB.toNat]
  | _ => []

/-- A name or k register as a register of any kind. -/
def regOf (r : Bool × Nat) : Machine.Reg := if r.1 then .v r.2 else .k r.2

/-- Every register that an instruction reads or writes; the k registers of a queue entry come beside them. -/
def Instr.touched (i : Instr) : List Machine.Reg := i.regs.map regOf ++ i.specials

/-- The width of DST in registers. -/
def Instr.dstWidth : Instr → Nat
  | .callx .. | .dadd .. | .dmul .. | .dfma .. | .wptr .. | .rdsr .. => 2
  | .getm .. => 10
  | .tapef .. => 8
  | .rfal _ b | .iadd _ b | .isub _ b | .imul _ b | .imulh _ b | .imin _ b | .imax _ b | .idiv _ b | .irem _ b | .imad _ b
  | .iabs _ b | .brev _ b | .mov _ b | .ltab _ b | .shl _ b | .shr _ b | .sar _ b | .bfe _ b | .bfi _ b | .sel _ b =>
    wideN (intWide b.mod)
  | .rds _ b => wideN (b.mod == 3)
  | .cvt _ b =>
    match b.sb with
    | .imm x => wideN ((x.extractLsb' 4 4).toNat == 3 || (x.extractLsb' 4 4).toNat == 10 || (x.extractLsb' 4 4).toNat == 11)
    | _ => 1
  | .aget _ b => wideN (match b.sb with | .imm x => decide (x.toNat ≤ 2) | _ => false)
  | .qstat _ b => wideN (b.mod == 1)
  | .time _ b => wideN (b.mod == 0)
  | _ => 1

/-- The registers that an instruction writes; those of a queue entry come beside them. -/
def Instr.writes (i : Instr) : List Machine.Reg :=
  let dst := fun (o : Opnd) => (o.regs i.dstWidth).map regOf ++ o.special
  match i with
  | .aliasName _ b | .mapq _ b | .take _ b => dst b.dst
  | .give _ b => dst b.sa
  | .swapn _ b => dst b.dst ++ dst b.sa
  | .bars .. | .barw .. | .tbarw .. | .tbarx .. | .qbind .. | .qsend .. | .hfree .. | .hwait .. | .hset .. | .wwait .. | .wgsend ..
  | .depinc .. | .waitt .. | .brx .. | .ret .. => []
  | .call .. => [.v 254, .v 255]
  | .getm _ d _ => dst d
  | .movi _ b => (b.dst.regs (wideN b.wide)).map regOf
  | .ld _ b | .ldFill _ b | .lds _ b | .ldt _ b | .ldc _ b | .atom _ b | .atoms _ b =>
    (b.data.regs b.dataRegs).map regOf ++ (if b.mode = 0 ∨ b.mode = 4 then [] else [.a b.areg.toNat])
  | .cas _ b => (b.data.regs (b.casRegs / 2)).map regOf ++ (if b.mode = 0 ∨ b.mode = 4 then [] else [.a b.areg.toNat])
  | .st _ b | .stSpill _ b | .sts _ b | .stt _ b | .red _ b | .redv _ b =>
    if b.mode = 0 ∨ b.mode = 4 then [] else [.a b.areg.toNat]
  | .qsplit _ b => dst b.dst ++ [.k 62]
  | .qret .. | .qborrow .. => [.k 62]
  | .accmv _ b => if b.put then [] else (b.vec.regs 1).map regOf
  | .mrpq _ k _ => [.k k.toNat]
  | .bstat _ k => [.k k.toNat, .k (k.toNat + 1)]
  | .rdsr _ b | .savewg _ b | .restwg _ b => dst b.dst
  | _ => (match i.bodyA? with | some b => dst b.dst | none => [])

end Sys2Proof
end

