-- ==== Sys2Proof/Machine/Operands.lean ====
section
/-! DEFINITION. Operand forms (R174 to R178): reading an operand in a lane, the names that must be mapped, race
checks on shared rows (R82), and the shared execution of instructions that compute a value per lane or once on the
uniform datapath (R59, R67, R201). -/

namespace Sys2Proof

/-- Bits 7:0 of an immediate operand. -/
def Opnd.immNat : Opnd → Nat
  | .imm x => x.toNat
  | _ => 0

/-- The index of an operand: a name, a k register or a special index. -/
def Opnd.idx : Opnd → Nat
  | .v n => n.toNat
  | .u n => n.toNat
  | .imm x => x.toNat
  | .sp i => i.toNat

end Sys2Proof

namespace Sys2Proof.Machine

/-! ### Read-only values (R176, R177) -/

/-- A read-only value in a lane; the supervisor warp belongs to no workgroup (log 2). -/
def State.readOnly (s : State) (c : Ctx) (i l : Nat) : DWord :=
  match i with
  | 0xc0 => BitVec.ofNat 64 l
  | 0xcc => s.now
  | 0xce => BitVec.ofNat 64 c.core
  | _ =>
    match c.ref with
    | .sup _ => (Config.supervisorValue i).setWidth 64
    | .user inst w =>
      match s.wg? inst with
      | none => 0
      | some g =>
        let r := s.launchOf g.grid
        let t := 32 * w + l
        BitVec.ofNat 64 (match i with
          | 0xc1 => w
          | 0xc2 => g.wgid
          | 0xc3 => g.rank
          | 0xc4 => (s.warp c.ref).stage
          | 0xc5 => t % r.ntx
          | 0xc6 => t / r.ntx % r.nty
          | 0xc7 => t / (r.ntx * r.nty)
          | 0xc8 => r.ntx
          | 0xc9 => r.nty
          | 0xca => r.ntz
          | 0xcb => r.gridSize
          | 0xcd => if g.node.isSome then 1 else r.team
          | _ => 0)

/-! ### Reading an operand -/

/-- The row that a name of the current warp selects. -/
def State.nameId (s : State) (c : Ctx) (n : Nat) : Option RowId := ((s.warp c.ref).nameRow n).map (s.rowId c.ref)

/-- The lane element of a name, with its poison mark. -/
def State.laneVal (s : State) (c : Ctx) (n l : Nat) : Word × Bool :=
  match s.nameId c n with
  | some i => let r := (s.getRow i).seenBy c.ctx; (r.lane l, r.poison.has l)
  | none => (0, false)

/-- The value of an operand in a lane, as a 32-bit value zero-extended or as a 64-bit pair, and its mark. An
immediate is sign-extended; a predicate is 1 or 0 (R174, R154). A pair has one mark, that of either half (log 82). -/
def State.opnd (s : State) (c : Ctx) (o : Opnd) (wide : Bool) (l : Nat) : DWord × Bool :=
  let w := s.warp c.ref
  match o with
  | .v n =>
    let lo := s.laneVal c n.toNat l
    if wide then
      let hi := s.laneVal c (n.toNat + 1) l
      ((hi.1 ++ lo.1 : BitVec 64), lo.2 || hi.2)
    else (lo.1.setWidth 64, lo.2)
  | .u n =>
    if wide then (w.kPair n.toNat, w.kMarked n.toNat || w.kMarked (n.toNat + 1))
    else ((w.kGet n.toNat).setWidth 64, w.kMarked n.toNat)
  | .imm x => (x.signExtend 64, false)
  | .sp i =>
    let i := i.toNat
    if 0x58 ≤ i ∧ i ≤ 0x5f then (BitVec.ofNat 64 (w.pred (i - 0x58) l).toNat, w.predMark (i - 0x58) l)
    else if 0x60 ≤ i ∧ i ≤ 0x63 then (BitVec.ofNat 64 (w.kpGet (i - 0x60)).toNat, w.kpMark.get false (i - 0x60))
    else
      let x := s.readOnly c i l
      (if wide then x else (x.setWidth 32).setWidth 64, false)

/-- A uniform or immediate operand of 32 bits. -/
def State.uni (s : State) (c : Ctx) (o : Opnd) : Word := (s.opnd c o false 0).1.setWidth 32

/-- A uniform operand of 64 bits: an even k pair, or a sign-extended immediate. -/
def State.uni64 (s : State) (c : Ctx) (o : Opnd) : DWord := (s.opnd c o true 0).1

/-- The mark of a uniform operand. -/
def State.uniMark (s : State) (c : Ctx) (o : Opnd) (wide : Bool) : Bool := (s.opnd c o wide 0).2

/-! ### Names -/

/-- The names that an operand of `n` consecutive registers covers, with its field (0 DST, 1 SA, 2 SB, 3 SC, 4 DATA). -/
def namesOf (o : Opnd) (n field : Nat) : List (Nat × Nat) :=
  match o with
  | .v i => (List.range n).map fun k => (i.toNat + k, field)
  | _ => []

/-- Race check and history of one lane element of a row that is or was shared (R82, R142). -/
def State.rowTouch (s : State) (c : Ctx) (name field l : Nat) (write : Bool) : M State :=
  match (s.warp c.ref).nameRow name with
  | none => .ok s
  | some r =>
    if s.watched c.ref r l then
      let loc := (s.rowId c.ref r).loc l
      let h := s.histAt loc
      let clk := (s.warp c.ref).clk
      match h.race c.party clk write false with
      | some p => trapWith ⟨0x090, BitVec.ofNat 32 r, name, field, 0, some l, some p, none⟩
      | none => .ok (s.setHist loc (h.add ⟨c.party, c.party, clk.epoch c.party, false, s.nextId⟩ write))
    else .ok s

/-- The same for every lane of a mask, in ascending order. -/
def State.rowTouchLanes (s : State) (c : Ctx) (name field : Nat) (write : Bool) : List Nat → M State
  | [] => .ok s
  | l :: ls => do
    let s ← s.rowTouch c name field l write
    s.rowTouchLanes c name field write ls

/-- Accesses the lane elements of several names: their rows are scrubbed first (R78), then checked (R82). -/
def State.rowAccess (s : State) (c : Ctx) (lanes : Mask) (write : Bool) : List (Nat × Nat) → M State
  | [] => .ok s
  | (n, f) :: t => do
    let s := match s.nameId c n with | some i => if lanes = 0 then s else s.touchRow i c.ctx | none => s
    let s ← s.rowTouchLanes c n f write (Lanes.list lanes)
    s.rowAccess c lanes write t

/-- Writes elements of the row of a name: where `f` gives a value. -/
def State.writeName (s : State) (c : Ctx) (n : Nat) (f : Nat → Option (Word × Bool)) : State :=
  match s.nameId c n with
  | some i => s.setRow i (((s.getRow i).seenBy c.ctx).write f)
  | none => s

/-- Marks elements of the row of a name (R353). -/
def State.markName (s : State) (c : Ctx) (n : Nat) (m : Mask) : State :=
  if m = 0 then s
  else match s.nameId c n with
    | some i => let r := (s.getRow i).seenBy c.ctx; s.setRow i { r with poison := r.poison ||| m }
    | none => s

/-! ### Writing a destination -/

/-- Writes the value of each lane of `m` into a vector destination of one name or a pair; lanes whose guard is
poisoned are marked, written or kept (R67, R201, R353). -/
def State.writeV (s : State) (c : Ctx) (n : Nat) (wide : Bool) (m guard : Mask) (f : Nat → DWord × Bool) : State :=
  let s1 := s.writeName c n fun l => if m.has l then let x := f l; some (x.1.setWidth 32, x.2) else none
  let s1 := s1.markName c n guard
  if wide then
    let s2 := s1.writeName c (n + 1) fun l => if m.has l then let x := f l; some (x.1.extractLsb' 32 32, x.2) else none
    s2.markName c (n + 1) guard
  else s1

/-- Writes a k register or pair. -/
def State.writeU (s : State) (c : Ctx) (n : Nat) (wide : Bool) (x : DWord) (mark : Bool) : State :=
  s.modWarp c.ref fun w => if wide then w.kSetPair n x mark else w.kSet n (x.setWidth 32) mark

/-- A k register or pair that a false poisoned guard keeps is marked (R353). -/
def State.keepU (s : State) (c : Ctx) (n : Nat) (wide mark : Bool) : State :=
  if mark then
    s.modWarp c.ref fun w => if wide then w.kSetPair n (w.kPair n) true else w.kSet n (w.kGet n) true
  else s

/-- Writes a per-thread predicate in the lanes of `m`. -/
def State.writeP (s : State) (c : Ctx) (n : Nat) (m guard : Mask) (f : Nat → DWord × Bool) : State :=
  s.modWarp c.ref fun w =>
    let vals := Lanes.mask fun l => m.has l && (f l).1 != 0
    let marks := Lanes.mask fun l => (m.has l && (f l).2) || guard.has l
    let w1 := w.pSet n m vals marks
    { w1 with pMark := w1.pMark.put 0 n (w1.pMark.get 0 n ||| guard) }

/-- Writes a kp register. -/
def State.writeKp (s : State) (c : Ctx) (n : Nat) (x : DWord × Bool) : State :=
  s.modWarp c.ref fun w => w.kpSet n (x.1 != 0) x.2

/-- The same for a kp register. -/
def State.keepKp (s : State) (c : Ctx) (n : Nat) (mark : Bool) : State :=
  if mark then s.modWarp c.ref fun w => w.kpSet n (w.kpGet n) true else s

/-! ### Execution of an instruction with a destination in DST -/

/-- Runs `f` once for each active lane, or once on the uniform datapath (R59, R67). `reads` are the source operands
with the number of names each covers and its field; `wide` is the width of the destination; `f` gives the value and
its mark in a lane. Every source is read before the destination is written (R222). The names are checked with no lane active too, DST
first; a poisoned guard marks the element of its lane, and no other lane's (R353; log 82). -/
def alu (s : State) (c : Ctx) (h : Head) (dst : Opnd) (wide : Bool) (reads : List (Opnd × Nat × Nat))
    (f : State → Nat → DWord × Bool) : M State := do
  let names := reads.flatMap fun r => namesOf r.1 r.2.1 r.2.2
  let dnames := namesOf dst (if wide then 2 else 1) 0
  checkNames (s.warp c.ref) (dnames ++ names)
  let act := c.active s h
  let guard := c.guardMarks s h
  let s1 ← s.rowAccess c act false names
  match dst with
  | .v n =>
    let s2 ← s1.rowAccess c act true dnames
    .ok (s2.writeV c n.toNat wide act guard (f s1))
  | .u n =>
    if c.executes s h then
      let x := f s1 0
      .ok (s1.writeU c n.toNat wide x.1 (x.2 || guard != 0))
    else .ok (s1.keepU c n.toNat wide (guard != 0))
  | .sp i =>
    if i.toNat < 0x60 then .ok (s1.writeP c (i.toNat - 0x58) act guard (f s1))
    else if c.executes s h then
      let x := f s1 0
      .ok (s1.writeKp c (i.toNat - 0x60) (x.1, x.2 || guard != 0))
    else .ok (s1.keepKp c (i.toNat - 0x60) (guard != 0))
  | .imm _ => .ok s1

end Sys2Proof.Machine
end

