-- ==== Sys2Proof/Machine/Flags.lean ====
section
/-! DEFINITION. Completion flags (R166), instructions in flight and their lookahead windows (R167). -/

namespace Sys2Proof

/-- The vector names that a destination covers. -/
def Opnd.destRegs (o : Opnd) (n : Nat) : List Machine.Reg :=
  match o with
  | .v i => (List.range n).map fun k => .v (i.toNat + k)
  | .u i => (List.range n).map fun k => .k (i.toNat + k)
  | _ => []

end Sys2Proof

namespace Sys2Proof.Machine

/-- The operation of a flag completes: the flag falls, and what the operation ordered is joined to what a clause
WAIT on the flag acquires (R138). `f` is the flag index, 0 for none. -/
def Warp.flagDone (w : Warp) (f : Nat) (clk : Clock) : Warp :=
  if f = 0 then w
  else { w.flagDown f with flagClk := w.flagClk.put [] (f - 1) (Clock.join (w.flagClk.get [] (f - 1)) clk) }

/-- Completes an operation of a warp on its flag; other parties count on no flag. -/
def State.flagDone (s : State) (p : Party) (f : Nat) (clk : Clock) : State :=
  match p with
  | .warp inst w => s.modWarp (.user inst w) fun x => x.flagDone f clk
  | .sup n => s.modWarp (.sup n) fun x => x.flagDone f clk
  | _ => s

/-- An operation ends in a fault or a refusal: its flag falls and its cause enters the flag's error queue (R166). -/
def State.flagFail (s : State) (p : Party) (f : Nat) (clk : Clock) (e : ErrRec) : State :=
  match p with
  | .warp inst w => s.modWarp (.user inst w) fun x => if f = 0 then x else (x.flagDone f clk).flagError f e
  | .sup n => s.modWarp (.sup n) fun x => if f = 0 then x else (x.flagDone f clk).flagError f e
  | _ => s

/-- The instruction that issues enters flight as operation `id`: its flag rises, and without a flag its LK opens
the window (R166, R167). `at_` is the cycle of a result of known latency. -/
def State.launchFlight (s : State) (c : Ctx) (h : Head) (id : Nat) (dests : List Reg) (at_ : Option Nat) : State :=
  s.modWarp c.ref fun w =>
    { w.flagUp h.flag.toNat with
      inflight := w.inflight ++
        [{ id := id, flag := h.flag.toNat, window := if h.flag = 0 then some h.lk.toNat else none, dests := dests,
           readyAt := at_, holds := !dests.isEmpty, failed := false }] }

/-- A result written `cycles` after issue (R442), under a fresh identity. -/
def State.longResult (s : State) (c : Ctx) (h : Head) (dests : List Reg) (cycles : Nat) : State :=
  let (id, s) := s.newId
  s.launchFlight c h id dests (some ((s.core c.core).cycle + cycles))

/-- RESULT_WRITEBACK (R442, R167): a result of known latency is written in its cycle or later; the instruction
leaves flight and its flag falls. -/
def execResultWriteback (w : WRef) (id : Nat) (s : State) : Host.Outcome State Fault Refusal :=
  event s (do
    let x ← s.warp? w
    let f ← x.inflight.find? fun f => f.id == id
    let at_ ← f.readyAt
    if at_ ≤ s.cycleOf w then
      some (s.setWarp w ({ x with inflight := x.inflight.filter fun g => g.id != id }.flagDone f.flag []))
    else none)

/-- An operation that gives its result leaves flight. -/
def Warp.land (w : Warp) (id : Nat) : Warp := { w with inflight := w.inflight.filter fun g => g.id != id }

def State.land (s : State) (p : Party) (id : Nat) : State :=
  match p with
  | .warp inst w => s.modWarp (.user inst w) fun x => x.land id
  | .sup n => s.modWarp (.sup n) fun x => x.land id
  | _ => s

end Sys2Proof.Machine
end

