-- ==== Sys2Proof/Machine/Integer.lean ====
section
/-! DEFINITION. Integer and uniform instructions (R199 to R214). -/

namespace Sys2Proof.Machine

/-! ### Values at a width (R199) -/

/-- A value of `w` bits as an integer, signed or unsigned. -/
def intOf (signed : Bool) (w : Nat) (x : DWord) : Int :=
  let n := x.toNat % 2 ^ w
  if signed && decide (2 ^ (w - 1) ≤ n) then (n : Int) - 2 ^ w else n

/-- A source at the width of a type (R199). -/
def valW (m : BitVec 3) (x : DWord) : Int := intOf (intSigned m) (intWidth m) x

/-- A result modulo 2^w, extended to its element (R199). -/
def extendW (m : BitVec 3) (r : Int) : DWord :=
  let w := intWidth m
  let n := (r % 2 ^ w).toNat
  if w < 32 && intSigned m && decide (2 ^ (w - 1) ≤ n) then BitVec.ofNat 64 (n + 2 ^ 32 - 2 ^ w) else BitVec.ofNat 64 n

/-! ### Moulds -/

/-- One source, whose width `sw` and result width `dw` may differ. -/
def int1 (s : State) (c : Ctx) (h : Head) (b : BodyA) (dw sw : Bool) (f : DWord → DWord) : M State :=
  alu s c h b.dst dw [(b.sa, wideN sw, 1)] fun s l => let x := s.opnd c b.sa sw l; (f x.1, x.2)

/-- Two sources of the type of MOD. -/
def int2 (s : State) (c : Ctx) (h : Head) (b : BodyA) (f : Int → Int → Int) : M State :=
  let w := intWide b.mod
  alu s c h b.dst w [(b.sa, wideN w, 1), (b.sb, wideN w, 2)] fun s l =>
    let x := s.opnd c b.sa w l
    let y := s.opnd c b.sb w l
    (extendW b.mod (f (valW b.mod x.1) (valW b.mod y.1)), x.2 || y.2)

/-- A source of 32 or 64 bits and a 32-bit count. -/
def intShift (s : State) (c : Ctx) (h : Head) (b : BodyA) (f : DWord → Nat → DWord) : M State :=
  let w := intWide b.mod
  alu s c h b.dst w [(b.sa, wideN w, 1), (b.sb, 1, 2)] fun s l =>
    let x := s.opnd c b.sa w l
    let n := s.opnd c b.sb false l
    (f x.1 (n.1.setWidth 32).toNat, x.2 || n.2)

/-! ### Arithmetic (R202 to R204) -/

def execIadd (h : Head) (b : BodyA) (s : State) : Host.Outcome State Fault Refusal :=
  runOp s h fun c => int2 s c h b fun x y => x + y

def execIsub (h : Head) (b : BodyA) (s : State) : Host.Outcome State Fault Refusal :=
  runOp s h fun c => int2 s c h b fun x y => x - y

def execImul (h : Head) (b : BodyA) (s : State) : Host.Outcome State Fault Refusal :=
  runOp s h fun c => int2 s c h b fun x y => x * y

def execImulh (h : Head) (b : BodyA) (s : State) : Host.Outcome State Fault Refusal :=
  runOp s h fun c => int2 s c h b fun x y => x * y / 2 ^ intWidth b.mod

def execImin (h : Head) (b : BodyA) (s : State) : Host.Outcome State Fault Refusal :=
  runOp s h fun c => int2 s c h b fun x y => if x ≤ y then x else y

def execImax (h : Head) (b : BodyA) (s : State) : Host.Outcome State Fault Refusal :=
  runOp s h fun c => int2 s c h b fun x y => if x ≤ y then y else x

/-- IMAD (R203). -/
def execImad (h : Head) (b : BodyA) (s : State) : Host.Outcome State Fault Refusal :=
  runOp s h fun c =>
    let w := intWide b.mod
    alu s c h b.dst w [(b.sa, wideN w, 1), (b.sb, wideN w, 2), (b.sc, wideN w, 3)] fun s l =>
      let x := s.opnd c b.sa w l
      let y := s.opnd c b.sb w l
      let z := s.opnd c b.sc w l
      (extendW b.mod (valW b.mod x.1 * valW b.mod y.1 + valW b.mod z.1), x.2 || y.2 || z.2)

/-- The quotient truncated toward zero, all ones for a divisor of zero (R204). -/
def quotient (x y : Int) : Int := if y = 0 then -1 else x.tdiv y

/-- The remainder, the dividend for a divisor of zero (R204). -/
def remainder (x y : Int) : Int := if y = 0 then x else x.tmod y

/-- The latency of a division (R442). -/
def divCycles (m : BitVec 3) : Nat := if intWide m then 36 else 20

/-- IDIV (R204): the result is in flight for its latency. -/
def execIdiv (h : Head) (b : BodyA) (s : State) : Host.Outcome State Fault Refusal :=
  runOp s h fun c => do
    let s ← int2 s c h b quotient
    .ok (s.longResult c h (b.dst.destRegs (wideN (intWide b.mod))) (divCycles b.mod))

/-- IREM (R204). -/
def execIrem (h : Head) (b : BodyA) (s : State) : Host.Outcome State Fault Refusal :=
  runOp s h fun c => do
    let s ← int2 s c h b remainder
    .ok (s.longResult c h (b.dst.destRegs (wideN (intWide b.mod))) (divCycles b.mod))

/-! ### One source (R205) -/

/-- The low 32 or 64 bits. -/
def lowBits (wide : Bool) (x : DWord) : DWord := if wide then x else (x.setWidth 32).setWidth 64

def execIabs (h : Head) (b : BodyA) (s : State) : Host.Outcome State Fault Refusal :=
  runOp s h fun c =>
    int1 s c h b (intWide b.mod) (intWide b.mod) fun x => extendW b.mod (Int.ofNat (valW b.mod x).natAbs)

/-- The number of ones among the low `w` bits. -/
def onesIn (w : Nat) (x : DWord) : Nat := ((List.range w).filter x.getLsbD).length

/-- The number of zero bits above the highest one among the low `w` bits. -/
def zerosAbove (x : DWord) : Nat → Nat
  | 0 => 0
  | w + 1 => if x.getLsbD w then 0 else zerosAbove x w + 1

/-- The low `w` bits in reverse order. -/
def reverseBits (w : Nat) (x : DWord) : DWord :=
  (BitVec.ofBoolListBE ((List.range w).map x.getLsbD)).setWidth 64

def execPopc (h : Head) (b : BodyA) (s : State) : Host.Outcome State Fault Refusal :=
  runOp s h fun c => int1 s c h b false (intWide b.mod) fun x => BitVec.ofNat 64 (onesIn (intWidth b.mod) x)

def execClz (h : Head) (b : BodyA) (s : State) : Host.Outcome State Fault Refusal :=
  runOp s h fun c => int1 s c h b false (intWide b.mod) fun x => BitVec.ofNat 64 (zerosAbove x (intWidth b.mod))

def execBrev (h : Head) (b : BodyA) (s : State) : Host.Outcome State Fault Refusal :=
  runOp s h fun c => int1 s c h b (intWide b.mod) (intWide b.mod) (reverseBits (intWidth b.mod))

def execMov (h : Head) (b : BodyA) (s : State) : Host.Outcome State Fault Refusal :=
  runOp s h fun c => int1 s c h b (intWide b.mod) (intWide b.mod) (lowBits (intWide b.mod))

/-! ### Logic, shifts and fields (R206 to R210) -/

/-- Each result bit from three bits through a table of eight (R206). -/
def tableBits (tbl : BitVec 8) (a b d : DWord) : DWord :=
  (BitVec.ofBoolListLE ((List.range 64).map fun i =>
    tbl.getLsbD ((a.getLsbD i).toNat + 2 * (b.getLsbD i).toNat + 4 * (d.getLsbD i).toNat))).setWidth 64

def execLtab (h : Head) (b : BodyA) (s : State) : Host.Outcome State Fault Refusal :=
  runOp s h fun c =>
    let w := intWide b.mod
    alu s c h b.dst w [(b.dst, wideN w, 0), (b.sa, wideN w, 1), (b.sb, wideN w, 2)] fun s l =>
      let d := s.opnd c b.dst w l
      let x := s.opnd c b.sa w l
      let y := s.opnd c b.sb w l
      (lowBits w (tableBits (BitVec.ofNat 8 b.sc.immNat) x.1 y.1 d.1), d.2 || x.2 || y.2)

def execShl (h : Head) (b : BodyA) (s : State) : Host.Outcome State Fault Refusal :=
  runOp s h fun c => intShift s c h b fun x n =>
    if n ≥ intWidth b.mod then 0 else lowBits (intWide b.mod) (x <<< n)

def execShr (h : Head) (b : BodyA) (s : State) : Host.Outcome State Fault Refusal :=
  runOp s h fun c => intShift s c h b fun x n =>
    if n ≥ intWidth b.mod then 0 else lowBits (intWide b.mod) x >>> n

/-- SAR: a count of w or more leaves copies of the sign bit. -/
def execSar (h : Head) (b : BodyA) (s : State) : Host.Outcome State Fault Refusal :=
  runOp s h fun c => intShift s c h b fun x n =>
    extendW b.mod (valW b.mod x / 2 ^ (if n < intWidth b.mod then n else intWidth b.mod))

/-- CATSH (R208): `m` are its MOD bits. -/
def catShift (m : BitVec 3) (lo hi : Word) (n : Nat) : Word :=
  let x : DWord := hi ++ lo
  let k := if m.getLsbD 2 then (if n < 64 then n else 64) else n % 64
  let y :=
    match m.getLsbD 1, m.getLsbD 0 with
    | false, false => if k = 64 then 0 else x <<< k
    | false, true => if k = 64 then 0 else x >>> k
    | true, false => x.rotateLeft (k % 64)
    | true, true => x.rotateRight (k % 64)
  if m.getLsbD 0 then y.setWidth 32 else y.extractLsb' 32 32

def execCatsh (h : Head) (b : BodyA) (s : State) : Host.Outcome State Fault Refusal :=
  runOp s h fun c =>
    alu s c h b.dst false [(b.sa, 1, 1), (b.sb, 1, 2), (b.sc, 1, 3)] fun s l =>
      let lo := s.opnd c b.sa false l
      let hi := s.opnd c b.sb false l
      let n := s.opnd c b.sc false l
      ((catShift b.mod (lo.1.setWidth 32) (hi.1.setWidth 32) (n.1.setWidth 32).toNat).setWidth 64, lo.2 || hi.2 || n.2)

/-- BFE at width `w` (R209): bits at or above w are zero or copies of the sign bit of the source. -/
def extractField (signed : Bool) (w : Nat) (x : DWord) (pos len : Nat) : Int :=
  let n := if len < w then len else w
  let v := (intOf signed w x / 2 ^ pos) % 2 ^ n
  if signed && n != 0 && decide (2 ^ (n - 1) ≤ v) then v - 2 ^ n else v

/-- A mask of `n` ones from bit `pos` up, within 64 bits. -/
def onesAt (n pos : Nat) : DWord := BitVec.ofNat 64 ((2 ^ (if n < 64 then n else 64) - 1) * 2 ^ pos)

/-- BFI at width 64 (R209). -/
def insertField (base x : DWord) (pos len : Nat) : DWord :=
  let m := onesAt len pos
  (base &&& ~~~m) ||| (BitVec.ofNat 64 (x.toNat * 2 ^ pos) &&& m)

/-- A value's bits 7:0. -/
def low8 (x : DWord) : Nat := x.toNat % 256

def execBfe (h : Head) (b : BodyA) (s : State) : Host.Outcome State Fault Refusal :=
  runOp s h fun c =>
    let w := intWide b.mod
    alu s c h b.dst w [(b.sa, wideN w, 1), (b.sb, 1, 2), (b.sc, 1, 3)] fun s l =>
      let x := s.opnd c b.sa w l
      let p := s.opnd c b.sb false l
      let n := s.opnd c b.sc false l
      (extendW b.mod (extractField (intSigned b.mod) (intWidth b.mod) x.1 (low8 p.1) (low8 n.1)), x.2 || p.2 || n.2)

def execBfi (h : Head) (b : BodyA) (s : State) : Host.Outcome State Fault Refusal :=
  runOp s h fun c =>
    let w := intWide b.mod
    alu s c h b.dst w [(b.dst, wideN w, 0), (b.sa, wideN w, 1), (b.sb, 1, 2), (b.sc, 1, 3)] fun s l =>
      let d := s.opnd c b.dst w l
      let x := s.opnd c b.sa w l
      let p := s.opnd c b.sb false l
      let n := s.opnd c b.sc false l
      (lowBits w (insertField d.1 x.1 (low8 p.1) (low8 n.1)), d.2 || x.2 || p.2 || n.2)

/-- Byte `i` of BYTEP's result (R210). -/
def pickByte (a b sel : Word) (i : Nat) : Byte :=
  let k := (sel.extractLsb' (3 * i) 3).toNat
  let x := (b ++ a : BitVec 64).extractLsb' (8 * k) 8
  if sel.getLsbD (12 + i) then (if x.getLsbD 7 then 0xff else 0) else x

def bytePermute (a b sel : Word) : Word :=
  pickByte a b sel 3 ++ pickByte a b sel 2 ++ pickByte a b sel 1 ++ pickByte a b sel 0

def execBytep (h : Head) (b : BodyA) (s : State) : Host.Outcome State Fault Refusal :=
  runOp s h fun c =>
    alu s c h b.dst false [(b.sa, 1, 1), (b.sb, 1, 2), (b.sc, 1, 3)] fun s l =>
      let x := s.opnd c b.sa false l
      let y := s.opnd c b.sb false l
      let q := s.opnd c b.sc false l
      ((bytePermute (x.1.setWidth 32) (y.1.setWidth 32) (q.1.setWidth 32)).setWidth 64, x.2 || y.2 || q.2)

/-! ### Compare, select, constants and per-warp state (R211 to R214) -/

/-- The comparisons eq, ne, lt, le, gt, ge by code. -/
def compareInt (code : Nat) (x y : Int) : Bool :=
  match code with
  | 0 => decide (x = y)
  | 1 => decide (x ≠ y)
  | 2 => decide (x < y)
  | 3 => decide (x ≤ y)
  | 4 => decide (y < x)
  | _ => decide (y ≤ x)

/-- A truth value as written to a register or predicate (R211). -/
def truth (b : Bool) : DWord := if b then 0xffffffff else 0

def execIset (h : Head) (b : BodyA) (s : State) : Host.Outcome State Fault Refusal :=
  runOp s h fun c =>
    let w := intWide b.mod
    alu s c h b.dst false [(b.sa, wideN w, 1), (b.sb, wideN w, 2)] fun s l =>
      let x := s.opnd c b.sa w l
      let y := s.opnd c b.sb w l
      (truth (compareInt b.sc.immNat (valW b.mod x.1) (valW b.mod y.1)), x.2 || y.2)

def execSel (h : Head) (b : BodyA) (s : State) : Host.Outcome State Fault Refusal :=
  runOp s h fun c =>
    let w := intWide b.mod
    alu s c h b.dst w [(b.sa, wideN w, 1), (b.sb, wideN w, 2)] fun s l =>
      let x := s.opnd c b.sa w l
      let y := s.opnd c b.sb w l
      let p := s.opnd c b.sc false l
      (lowBits w (if p.1 = 0 then y.1 else x.1), x.2 || y.2 || p.2)

def execMovi (h : Head) (b : BodyI) (s : State) : Host.Outcome State Fault Refusal :=
  runOp s h fun c => alu s c h b.dst b.wide [] fun _ _ => (b.imm.signExtend 64, false)

/-- The flag state of RDS (R214). -/
def Warp.flagState (w : Warp) : Nat :=
  (List.range 12).foldl (fun n i =>
    n + (if (w.errq.get [] i).isEmpty then 0 else 2 ^ (16 + i)) + (if w.cf.get 0 i = 0 then 0 else 2 ^ i)) 0

/-- A workgroup's free pool rows (R64): those that no reference holds. -/
def State.freeRows (s : State) (g : Wg) : List Nat :=
  g.pool.filter fun r => (s.getRow (rowHome g.core r)).ref == 0

/-- The value of an RDS selector (R214); the supervisor warp belongs to no workgroup, and its priority reads as its own field holds it
(log 2). -/
def State.rds (s : State) (c : Ctx) (sel : Nat) : DWord :=
  let w := s.warp c.ref
  let ofGroup : (Wg → Nat) → DWord := fun f =>
    match c.ref with
    | .sup _ => (Config.supervisorValue (256 + sel)).setWidth 64
    | .user inst _ => match s.wg? inst with | some g => BitVec.ofNat 64 (f g) | none => 0
  match sel with
  | 0 => ofGroup fun g => g.cycles
  | 1 => BitVec.ofNat 64 w.flagState
  | 2 => match c.ref with
    -- no launch gives the supervisor warp a priority (log 2)
    | .sup _ => (Config.supervisorValue (256 + sel) &&& 0x77).setWidth 64
    | .user .. => BitVec.ofNat 64 (w.launchPrio % 8 * 16 + w.prio % 8)
  | 3 => ofGroup fun g => (s.freeRows g).length
  | 4 => ofGroup fun g => g.pool.length
  | 5 => c.group.setWidth 64
  | 6 => (~~~w.live).setWidth 64
  | _ => BitVec.ofNat 64 (s.power.get Power.reset (clusterOf c.core)).freq

def execRds (h : Head) (b : BodyA) (s : State) : Host.Outcome State Fault Refusal :=
  runOp s h fun c => alu s c h b.dst (b.mod == 3) [] fun s _ => (s.rds c b.sb.immNat, false)

end Sys2Proof.Machine
end

