-- ==== Sys2Proof/Machine/Num.lean ====
section
/-! DEFINITION. Number formats as exact values (R86 to R106): reading a code, exact arithmetic, rounding into a format,
block scales and stochastic rounding bits. -/

namespace Sys2Proof.Machine

/-- The value of a code: NaN, an infinity, or (−1)^neg × m × 2^e; zeros keep their sign. -/
inductive Num where
  | nan
  | inf (neg : Bool)
  | fin (neg : Bool) (m : Nat) (e : Int)
  deriving DecidableEq, Repr

/-- Rounding modes (R97); `stoch` carries the hash (R101). -/
inductive Rnd where
  | rne | rz | rd | ru | odd
  | stoch (h : Nat)
  deriving DecidableEq, Repr

/-- The direction of a MOD field (R223), with 5 for round-to-odd (R232). -/
def Rnd.ofMod (m : Nat) : Rnd :=
  match m with
  | 0 => .rne | 1 => .rz | 2 => .rd | 3 => .ru | _ => .odd

namespace Num

def zero : Num := .fin false 0 0

def isNan : Num → Bool
  | .nan => true
  | _ => false

def isZero : Num → Bool
  | .fin _ 0 _ => true
  | _ => false

def neg : Num → Num
  | .nan => .nan
  | .inf s => .inf (!s)
  | .fin s m e => .fin (!s) m e

def sign : Num → Bool
  | .nan => false
  | .inf s => s
  | .fin s _ _ => s

/-- An integer as a value. -/
def ofInt (x : Int) : Num := .fin (decide (x < 0)) x.natAbs 0

/-- A non-negative power of two. -/
def pow2 (k : Int) : Nat := 2 ^ k.toNat

/-- The significand with its sign over the exponent `e0`, which is at most the value's exponent. -/
def scaled (s : Bool) (m : Nat) (e e0 : Int) : Int :=
  let v : Int := m * pow2 (e - e0)
  if s then -v else v

/-- A signed multiple of 2^e as a value; `zneg` is the sign of a zero. -/
def ofScaled (v e : Int) (zneg : Bool) : Num :=
  if v = 0 then .fin zneg 0 0 else .fin (decide (v < 0)) v.natAbs e

/-- Exact product; NaN for 0 × ∞ (R103). -/
def mul : Num → Num → Num
  | .nan, _ => .nan
  | _, .nan => .nan
  | .inf s, .inf t => .inf (s != t)
  | .inf s, .fin t m _ => if m = 0 then .nan else .inf (s != t)
  | .fin t m _, .inf s => if m = 0 then .nan else .inf (s != t)
  | .fin s m e, .fin t n f => .fin (s != t) (m * n) (e + f)

/-- Exact sum; `rd` selects the sign of an exact zero sum of opposite signs (R222). -/
def add (rd : Bool) : Num → Num → Num
  | .nan, _ => .nan
  | _, .nan => .nan
  | .inf s, .inf t => if s = t then .inf s else .nan
  | .inf s, .fin .. => .inf s
  | .fin .., .inf s => .inf s
  | .fin s m e, .fin t n f =>
    let e0 := if e ≤ f then e else f
    ofScaled (scaled s m e e0 + scaled t n f e0) e0 (if s = t then s else rd)

/-- Compares two values that are not NaN: −0 equals +0. -/
def lt : Num → Num → Bool
  | .nan, _ => false
  | _, .nan => false
  | .inf s, .inf t => s && !t
  | .inf s, .fin .. => s
  | .fin .., .inf t => !t
  | .fin s m e, .fin t n f =>
    let e0 := if e ≤ f then e else f
    decide (scaled s m e e0 < scaled t n f e0)

def eq (x y : Num) : Bool := !x.isNan && !y.isNan && !x.lt y && !y.lt x

/-- The quotient to `bits` significant bits with a sticky bit below them (R237). -/
def div (bits : Nat) : Num → Num → Num
  | .nan, _ => .nan
  | _, .nan => .nan
  | .inf _, .inf _ => .nan
  | .inf s, .fin t _ _ => .inf (s != t)
  | .fin s _ _, .inf t => .fin (s != t) 0 0
  | .fin s m e, .fin t n f =>
    if n = 0 then (if m = 0 then .nan else .inf (s != t))
    else
      let k := bits + (Nat.log2 n + 1)
      let q := m * 2 ^ k / n
      let sticky := if m * 2 ^ k % n = 0 then 0 else 1
      .fin (s != t) (2 * q + sticky) (e - f - k - 1)

end Num

/-! ### Formats -/

/-- A floating-point format by its magnitude codes: `t` trailing significand bits, the exponent of the smallest
spacing, the largest finite magnitude code, the codes of infinity and NaN and the sign bit, if there are any. -/
structure FloatFmt where
  t : Nat
  emin : Int
  maxCode : Nat
  /-- magnitude code of infinity -/
  infCode : Option Nat
  nanCode : Nat
  /-- weight of the sign bit, none for an unsigned format -/
  signBit : Option Nat
  /-- zeros keep their sign -/
  ieee : Bool
  width : Nat
  deriving DecidableEq, Repr

/-- An IEEE format of `e` exponent and `t` fraction bits (R86). -/
def ieeeFmt (e t : Nat) : FloatFmt :=
  { t := t, emin := 2 - 2 ^ (e - 1) - t, maxCode := (2 ^ e - 1) * 2 ^ t - 1, infCode := some ((2 ^ e - 1) * 2 ^ t),
    nanCode := (2 ^ e - 1) * 2 ^ t + 2 ^ (t - 1), signBit := some (2 ^ (e + t)), ieee := true, width := e + t + 1 }

def fp64 : FloatFmt := ieeeFmt 11 52
def fp32 : FloatFmt := ieeeFmt 8 23
def fp16 : FloatFmt := ieeeFmt 5 10
def bf16 : FloatFmt := ieeeFmt 8 7

/-- binaryKpP (R89, R90). -/
def p3109 (k p : Nat) (unsigned_ extended : Bool) : FloatFmt :=
  let e := if unsigned_ then k - p + 1 else k - p
  let top := if unsigned_ then 2 ^ k - 2 else 2 ^ (k - 1) - 1
  { t := p - 1, emin := 1 - 2 ^ (e - 1) - (p - 1 : Nat), maxCode := if extended then top - 1 else top,
    infCode := if extended then some top else none,
    nanCode := if unsigned_ then 2 ^ k - 1 else 2 ^ (k - 1), signBit := if unsigned_ then none else some (2 ^ (k - 1)),
    ieee := false, width := k }

/-- The value of a code. Bits of a container above the code are ignored (R236; log 82). -/
def FloatFmt.value (f : FloatFmt) (code : Nat) : Num :=
  let c := code % 2 ^ f.width
  let s := match f.signBit with | some w => decide (w ≤ c) | none => false
  let mag := match f.signBit with | some w => c % w | none => c
  if !f.ieee && c == f.nanCode then .nan
  else if f.infCode == some mag then .inf s
  else if f.ieee && decide (f.maxCode < mag) then .nan
  else if mag < 2 ^ f.t then .fin s mag f.emin
  else .fin s (2 ^ f.t + mag % 2 ^ f.t) (f.emin + (mag / 2 ^ f.t - 1 : Nat))

/-- The spacing exponent at a magnitude m × 2^e, m not zero: that of the precision, or the subnormal one (R97, R99). -/
def FloatFmt.spacing (f : FloatFmt) (m : Nat) (e : Int) : Int :=
  let u := e + (Nat.log2 m : Int) - f.t
  if u < f.emin then f.emin else u

/-- Rounds m × 2^e to a multiple of 2^u under a mode, given the sign; the multiple. -/
def roundAt (r : Rnd) (neg : Bool) (m : Nat) (e u : Int) : Nat :=
  if u ≤ e then m * Num.pow2 (e - u)
  else
    let d := Num.pow2 (u - e)
    let q := m / d
    let x := m % d
    let up := match r with
      | .rne => decide (d < 2 * x) || (decide (2 * x = d) && q % 2 == 1)
      | .rz => false
      | .rd => neg && x != 0
      | .ru => !neg && x != 0
      | .odd => x != 0 && q % 2 == 0
      | .stoch h => decide (65536 ≤ x * 65536 / d + h)
    if up then q + 1 else q

/-- The sixteen discarded bits of a value rounded to multiples of 2^u (R99). -/
def discarded (m : Nat) (e u : Int) : Nat :=
  if u ≤ e then 0 else let d := Num.pow2 (u - e); m % d * 65536 / d

namespace FloatFmt

def withSign (f : FloatFmt) (neg : Bool) (mag : Nat) : Nat :=
  match f.signBit with
  | some w => if neg && (f.ieee || mag != 0) then w + mag else mag
  | none => mag

/-- What replaces a magnitude that has overflowed (R97). -/
def overflow (f : FloatFmt) (r : Rnd) (sat neg : Bool) : Nat :=
  let toInf := match r with
    | .rz => false
    | .rd => neg
    | .ru => !neg
    | _ => true
  if toInf && !sat then (match f.infCode with | some c => f.withSign neg c | none => f.nanCode) else f.withSign neg f.maxCode

/-- The code of a value in the format (R97, R98). -/
def round (f : FloatFmt) (r : Rnd) (sat : Bool) (x : Num) : Nat :=
  match x with
  | .nan => f.nanCode
  | .inf s =>
    if s && f.signBit.isNone then (if sat then 0 else f.nanCode)
    else match f.infCode with
      | some c => f.withSign s c
      | none => if sat then f.withSign s f.maxCode else f.nanCode
  | .fin s m e =>
    if m = 0 then f.withSign s 0
    else
      let u := f.spacing m e
      let q := roundAt r s m e u
      let code := (u - f.emin).toNat * 2 ^ f.t + q
      if s && f.signBit.isNone then (if q = 0 then 0 else if sat then 0 else f.nanCode)
      else if q = 0 then f.withSign s 0
      else if f.maxCode < code then f.overflow r sat s
      else f.withSign s code

/-- The discarded bits of a value in the format (R99). -/
def discard (f : FloatFmt) : Num → Nat
  | .fin _ m e => if m = 0 then 0 else discarded m e (f.spacing m e)
  | _ => 0

end FloatFmt

/-- Rounds a value to an integer under a mode (R98): round-to-odd sets bit 0 of an inexact magnitude. -/
def roundInt (r : Rnd) (neg : Bool) (m : Nat) (e : Int) : Int :=
  let q : Int := roundAt r neg m e 0
  if neg then -q else q

/-- The integer of a value, clamped to a range; NaN gives 0 (R98). -/
def Num.toIntClamped (r : Rnd) (lo hi : Int) : Num → Int
  | .nan => 0
  | .inf s => if s then lo else hi
  | .fin s m e =>
    let v := roundInt r s m e
    if v < lo then lo else if hi < v then hi else v

/-! ### Format slots (R94 to R96) -/

/-- The element formats of R95. -/
inductive Elem where
  | float (f : FloatFmt)
  | int (signed : Bool)
  deriving DecidableEq, Repr

/-- The format of an ELEM code; none for a reserved code. -/
def Slot.format (f : Slot) : Option Elem :=
  let p := f.elem % 8
  let un := f.elem / 8 % 2 == 1
  match f.elem / 16 with
  | 0 =>
    match f.elem with
    | 0 => some (.float fp32) | 1 => some (.float fp16) | 2 => some (.float bf16) | 3 => some (.float fp64)
    | 4 => some (.int true) | 5 => some (.int false) | _ => none
  | 1 => if p = 0 then none else some (.float (p3109 8 p un f.inf))
  | 2 => if p = 0 ∨ p > 5 then none else some (.float (p3109 6 p un f.inf))
  | _ => if p = 0 ∨ p > 3 then none else some (.float (p3109 4 p un f.inf))

/-- Whether ELEM is a P3109 code. -/
def Slot.isP3109 (f : Slot) : Bool := decide (16 ≤ f.elem)

/-- The width of an element in bits. -/
def Slot.bits (f : Slot) : Nat :=
  match f.elem / 16 with
  | 0 => (match f.elem with | 0 => 32 | 1 => 16 | 2 => 16 | 3 => 64 | _ => 8)
  | 1 => 8
  | 2 => 6
  | _ => 4

/-- A valid descriptor (R96). -/
def Slot.valid (f : Slot) : Bool :=
  f.format.isSome && decide (f.round ≤ 5) && decide (f.block ≤ 2) && decide (f.scale ≤ 2) &&
  ((f.scale == 0) == (f.block == 0)) && (f.scale == 0 || f.isP3109) && (f.split == (f.elem / 16 == 2)) &&
  (!f.inf || f.isP3109) && f.extractLsb' 17 47 == 0

/-- The rounding mode of a slot, given the hash (R94). -/
def Slot.mode (f : Slot) (h : Nat) : Rnd :=
  match f.round with
  | 0 => .rne | 1 => .rz | 2 => .rd | 3 => .ru | 4 => .stoch h | _ => .odd

/-- The value of an element code. -/
def Slot.value (f : Slot) (code : Nat) : Num :=
  match f.format with
  | some (.float x) => x.value code
  | some (.int true) => .ofInt (BitVec.ofNat 8 code).toInt
  | some (.int false) => .ofInt (code % 256)
  | none => .nan

/-- The discarded bits of a value in the slot's format (R99). -/
def Slot.discard (f : Slot) (x : Num) : Nat :=
  match f.format, x with
  | some (.float g), _ => g.discard x
  | some (.int _), .fin _ m e => discarded m e 0
  | _, _ => 0

/-- The code of a value under the slot's ROUND, SAT and INF, with the hash of its element (R97, R98, R101). -/
def Slot.convert (f : Slot) (h : Nat) (x : Num) : Nat :=
  match f.format with
  | some (.float g) => g.round (f.mode h) f.sat x
  | some (.int true) => (x.toIntClamped (f.mode h) (-128) 127 % 256).toNat
  | some (.int false) => (x.toIntClamped (f.mode h) 0 255).toNat
  | none => 0

/-- The hash of R101. -/
def mix16 (a b i : Nat) : Nat :=
  let x := a ^^^ (b * 128 % 65536 + b / 512) ^^^ (i % 65536) ^^^ (i / 65536 % 65536)
  let x := x * 0x6d2b % 65536
  let x := x ^^^ (x / 128)
  let x := x * 0x9e3b % 65536
  x ^^^ (x / 512)

/-- The hash of element `i`, from the discarded bits of its group neighbours (R100); `d` gives 0 for an element that
the operation does not write. -/
def slotHash (d : Nat → Nat) (i : Nat) : Nat :=
  let g := i / 8 * 8
  mix16 (d (if i = g then g + 7 else i - 1)) (d (if i = g + 7 then g else i + 1)) i

/-- Whether a mark of a neighbour reaches element `i`: under stochastic rounding its discarded bits take part (R100, R201), also where the
element's own value leaves the hash nothing to decide: R201 does not say whether that matters (log 82: DESIGN CHOICE). -/
def slotHashMark (f : Slot) (mark : Nat → Bool) (i : Nat) : Bool :=
  let g := i / 8 * 8
  f.round == 4 && (mark (if i = g then g + 7 else i - 1) || mark (if i = g + 7 then g else i + 1))

/-! ### Block scales (R93) -/

/-- The value of a scale code in scale format 1 or 2. -/
def scaleValue (fmt code : Nat) : Num :=
  if fmt = 1 then (if code = 255 then .nan else .fin false 1 ((code : Int) - 127))
  else (p3109 8 4 false false).value code

/-- An element times its block scale: NaN for a NaN scale; a zero scale gives zero for every element but NaN. -/
def scaleElem (x sc : Num) : Num :=
  match x, sc with
  | .nan, _ => .nan
  | _, .nan => .nan
  | x, sc => if sc.isZero then .zero else x.mul sc

/-! ### FP32 and FP64 values as bits -/

def f32 (x : Word) : Num := fp32.value x.toNat
def f64 (x : DWord) : Num := fp64.value x.toNat

def round32 (r : Rnd) (x : Num) : Word := BitVec.ofNat 32 (fp32.round r false x)
def round64 (r : Rnd) (x : Num) : DWord := BitVec.ofNat 64 (fp64.round r false x)

/-- The sum rule for FP32 accumulation of groups (R102, R103): exact sum of the products of one group. -/
def groupSum (xs : List Num) : Num :=
  match xs.foldl (Num.add false) .zero with
  | .fin s m e => if m = 0 then .zero else .fin s m e
  | x => x

/-- Adds groups of 16 products to an FP32 accumulator in order; each group sum and each addition rounded RNE. -/
def sumGroups (acc : Word) : Nat → List Num → Word
  | 0, _ => acc
  | n + 1, xs =>
    match xs with
    | [] => acc
    | _ =>
      let g := round32 .rne (groupSum (xs.take 16))
      sumGroups (round32 .rne ((f32 acc).add false (f32 g))) n (xs.drop 16)

end Sys2Proof.Machine
end

