-- ==== Sys2Proof/Machine/Sfu.lean ====
section
/-! DEFINITION. The special functions, exact and rounded once (R230, R231): values in fixed point of 320 fraction bits,
far below the distance of any FP32 argument's result from a rounding boundary. -/

namespace Sys2Proof.Machine

/-- Fraction bits of the fixed-point values. -/
def fixBits : Nat := 320

def fixOne : Int := 2 ^ fixBits

/-- A finite value in fixed point, truncated. -/
def fixOf (neg : Bool) (m : Nat) (e : Int) : Int :=
  let k : Int := e + fixBits
  let v : Int := if 0 ≤ k then m * Num.pow2 k else m / Num.pow2 (-k)
  if neg then -v else v

def fixMul (a b : Int) : Int := a * b / fixOne

/-- ln 2 as the sum of 1 / (k 2^k). -/
def fixLn2 : Int := (List.range 340).foldl (fun s k => s + fixOne / ((k + 1 : Nat) * 2 ^ (k + 1) : Nat)) 0

/-- arctan (1 / n) by its series. -/
def fixAtanInv (n : Nat) : Int :=
  ((List.range 160).foldl (fun (st : Int × Int) k =>
    let term := st.2 / (2 * k + 1 : Nat)
    (if k % 2 = 0 then st.1 + term else st.1 - term, st.2 / (n * n : Nat))) (0, fixOne / n)).1

/-- π by Machin's formula. -/
def fixPi : Int := 16 * fixAtanInv 5 - 4 * fixAtanInv 239

/-- e^x for a small x by its series. -/
def fixExp (x : Int) : Int :=
  ((List.range 100).foldl (fun (st : Int × Int) k => (st.1 + st.2, fixMul st.2 x / (k + 1 : Nat))) (0, fixOne)).1

/-- 2^f for f in [0, 1). -/
def fixExp2 (f : Int) : Int := fixExp (fixMul f fixLn2)

/-- ln y for y in [1, 2): 2 artanh ((y − 1) / (y + 1)). -/
def fixLn (y : Int) : Int :=
  let z := (y - fixOne) * fixOne / (y + fixOne)
  let z2 := fixMul z z
  2 * ((List.range 110).foldl (fun (st : Int × Int) k => (st.1 + st.2 / (2 * k + 1 : Nat), fixMul st.2 z2)) (0, z)).1

/-- sin x for x in [0, π/2] by its series. -/
def fixSin (x : Int) : Int :=
  let x2 := fixMul x x
  ((List.range 50).foldl (fun (st : Int × Int) k =>
    (if k % 2 = 0 then st.1 + st.2 else st.1 - st.2, fixMul st.2 x2 / ((2 * k + 2) * (2 * k + 3) : Nat))) (0, x)).1

/-- A fixed-point value as a number; the sign of a zero is given. -/
def fixNum (x : Int) (zneg : Bool) : Num := .ofScaled x (-(fixBits : Int)) zneg

/-- The integer square root, bit by bit from 2^n down. -/
def isqrtFrom (x : Nat) : Nat → Nat → Nat
  | 0, r => r
  | n + 1, r => let c := r + 2 ^ n; isqrtFrom x n (if c * c ≤ x then c else r)

def isqrt (x : Nat) : Nat := isqrtFrom x (Nat.log2 x / 2 + 1) 0

/-- √(m × 2^e) to at least 60 bits, with a sticky bit. -/
def sqrtNum (m : Nat) (e : Int) : Num :=
  let odd := e % 2 != 0
  let m := if odd then 2 * m else m
  let e := if odd then e - 1 else e
  let x := m * 2 ^ 160
  let q := isqrt x
  .fin false (2 * q + (if q * q = x then 0 else 1)) (e / 2 - 81)

/-- 1 / √(m × 2^e), the same. -/
def rsqrtNum (m : Nat) (e : Int) : Num :=
  let odd := e % 2 != 0
  let m := if odd then 2 * m else m
  let e := if odd then e - 1 else e
  let x := 2 ^ 200 / m
  let q := isqrt x
  .fin false (2 * q + (if q * q * m = 2 ^ 200 then 0 else 1)) (-(e / 2) - 101)

/-! ### The eight functions on values -/

def recip : Num → Num
  | .nan => .nan
  | .inf s => .fin s 0 0
  | .fin s m e => if m = 0 then .inf s else Num.div 64 (.fin false 1 0) (.fin s m e)

def rsqrt : Num → Num
  | .nan => .nan
  | .inf s => if s then .nan else .zero
  | .fin s m e => if m = 0 then .inf s else if s then .nan else rsqrtNum m e

def sqrt : Num → Num
  | .nan => .nan
  | .inf s => if s then .nan else .inf false
  | .fin s m e => if m = 0 then .fin s 0 0 else if s then .nan else sqrtNum m e

def exp2 : Num → Num
  | .nan => .nan
  | .inf s => if s then .zero else .inf false
  | .fin s m e =>
    if m = 0 then .fin false 1 0
    -- magnitudes of 512 and more lie far outside the range
    else if 9 ≤ (Nat.log2 m : Int) + e then (if s then .zero else .fin false 1 600)
    else
      let x := fixOf s m e
      let n := x / fixOne
      let f := x - n * fixOne
      if f = 0 then .fin false 1 n else .fin false (fixExp2 f).toNat (n - fixBits)

def log2 : Num → Num
  | .nan => .nan
  | .inf s => if s then .nan else .inf false
  | .fin s m e =>
    if m = 0 then .inf true
    else if s then .nan
    else
      let k := Nat.log2 m
      let n : Int := e + k
      if m = 2 ^ k then .ofInt n
      else
        let y : Int := m * 2 ^ (fixBits - k)
        fixNum (n * fixOne + fixLn y * fixOne / fixLn2) false

/-- sin (π r) for r in units of 2^−320 within one turn, −1 to 1. -/
def sinTurn (r : Int) : Int :=
  let a : Int := r.natAbs
  let b := if fixOne < 2 * a then fixOne - a else a
  let v := fixSin (fixMul b fixPi)
  if r < 0 then -v else v

/-- The argument of sin (π a) reduced to −1 … 1; `shift` adds half a turn quarter. -/
def reduceTurn (x : Int) : Int :=
  let r := x % (2 * fixOne)
  if fixOne < r then r - 2 * fixOne else r

def sinPi : Num → Num
  | .nan => .nan
  | .inf _ => .nan
  | .fin s m e =>
    if m = 0 then .fin s 0 0
    else if 0 ≤ e then .fin s 0 0
    else
      let x := fixOf s m e
      let r := reduceTurn x
      if r = 0 ∨ r = fixOne ∨ r = -fixOne then .fin s 0 0
      else if 2 * r = fixOne then .fin false 1 0
      else if 2 * r = -fixOne then .fin true 1 0
      else fixNum (sinTurn r) s

def cosPi : Num → Num
  | .nan => .nan
  | .inf _ => .nan
  | .fin s m e =>
    if m = 0 then .fin false 1 0
    else if 1 ≤ e then .fin false 1 0
    else
      let x := fixOf s m e
      let r := reduceTurn (x + fixOne / 2)
      if r = 0 ∨ r = fixOne ∨ r = -fixOne then .zero
      else if 2 * r = fixOne then .fin false 1 0
      else if 2 * r = -fixOne then .fin true 1 0
      else fixNum (sinTurn r) false

/-- tanh |a| = 1 − 2 / (e^(2|a|) + 1), with 2|a| = n ln 2 + r. -/
def tanh : Num → Num
  | .nan => .nan
  | .inf s => .fin s 1 0
  | .fin s m e =>
    if m = 0 then .fin s 0 0
    else if !(Num.fin false m e).lt (.ofInt 10) then .fin s 1 0
    else
      let x := 2 * fixOf false m e
      let n := x / fixLn2
      let p := fixExp (x - n * fixLn2) * Num.pow2 n
      let v := fixOne - 2 * fixOne * fixOne / (p + fixOne)
      fixNum (if s then -v else v) s

end Sys2Proof.Machine
end

