-- ==== Sys2Proof/Machine/Float.lean ====
section
/-! DEFINITION. Floating-point instructions (R222 to R231). -/

namespace Sys2Proof.Machine

/-! ### Sources (R222) -/

/-- An FP32 source in a lane; an immediate is the integer that it encodes. -/
def State.fp (s : State) (c : Ctx) (o : Opnd) (l : Nat) : Num × Bool :=
  match o with
  | .imm x => (.ofInt x.toInt, false)
  | _ => let x := s.opnd c o false l; (f32 (x.1.setWidth 32), x.2)

/-- An FP64 source in a lane. -/
def State.fpd (s : State) (c : Ctx) (o : Opnd) (l : Nat) : Num × Bool :=
  match o with
  | .imm x => (.ofInt x.toInt, false)
  | _ => let x := s.opnd c o true l; (f64 x.1, x.2)

/-- Half `i` of a packed source in a lane. -/
def State.fph (s : State) (f : FloatFmt) (c : Ctx) (o : Opnd) (l i : Nat) : Num × Bool :=
  match o with
  | .imm x => (.ofInt x.toInt, false)
  | _ => let x := s.opnd c o false l; (f.value (x.1.toNat / 2 ^ (16 * i) % 65536), x.2)

/-! ### Moulds -/

/-- The sum with the zero rule of its direction (R222). -/
def addDir (mod : BitVec 3) (x y : Num) : Num := x.add (mod == 2) y

/-- Two FP32 sources, one rounding in the direction of MOD. -/
def fp2 (s : State) (c : Ctx) (h : Head) (b : BodyA) (f : Num → Num → Num) : M State :=
  alu s c h b.dst false [(b.sa, 1, 1), (b.sb, 1, 2)] fun s l =>
    let x := s.fp c b.sa l
    let y := s.fp c b.sb l
    ((round32 (.ofMod b.mod.toNat) (f x.1 y.1)).setWidth 64, x.2 || y.2)

def execFadd (h : Head) (b : BodyA) (s : State) : Host.Outcome State Fault Refusal :=
  runOp s h fun c => fp2 s c h b (addDir b.mod)

def execFmul (h : Head) (b : BodyA) (s : State) : Host.Outcome State Fault Refusal :=
  runOp s h fun c => fp2 s c h b Num.mul

def execFfma (h : Head) (b : BodyA) (s : State) : Host.Outcome State Fault Refusal :=
  runOp s h fun c =>
    alu s c h b.dst false [(b.sa, 1, 1), (b.sb, 1, 2), (b.sc, 1, 3)] fun s l =>
      let x := s.fp c b.sa l
      let y := s.fp c b.sb l
      let z := s.fp c b.sc l
      ((round32 (.ofMod b.mod.toNat) (addDir b.mod (x.1.mul y.1) z.1)).setWidth 64, x.2 || y.2 || z.2)

/-- FMIN and FMAX (R224): `prop` propagates a NaN; −0 is less than +0. -/
def minMax (max prop : Bool) (x y : Num) : Num :=
  if x.isNan || y.isNan then
    if prop || (x.isNan && y.isNan) then .nan else if x.isNan then y else x
  else
    let less := x.lt y || (x.eq y && x.sign && !y.sign)
    if less != max then x else y

def execFmin (h : Head) (b : BodyA) (s : State) : Host.Outcome State Fault Refusal :=
  runOp s h fun c =>
    alu s c h b.dst false [(b.sa, 1, 1), (b.sb, 1, 2)] fun s l =>
      let x := s.fp c b.sa l
      let y := s.fp c b.sb l
      ((round32 .rne (minMax false (b.mod == 1) x.1 y.1)).setWidth 64, x.2 || y.2)

def execFmax (h : Head) (b : BodyA) (s : State) : Host.Outcome State Fault Refusal :=
  runOp s h fun c =>
    alu s c h b.dst false [(b.sa, 1, 1), (b.sb, 1, 2)] fun s l =>
      let x := s.fp c b.sa l
      let y := s.fp c b.sb l
      ((round32 .rne (minMax true (b.mod == 1) x.1 y.1)).setWidth 64, x.2 || y.2)

/-! ### Comparison, rounding to integral values, classes (R225 to R227) -/

/-- The comparisons of R225 by code. -/
def compareNum (code : Nat) (x y : Num) : Bool :=
  let un := x.isNan || y.isNan
  match code with
  | 0 => !un && x.eq y
  | 1 => un || !x.eq y
  | 2 => !un && x.lt y
  | 3 => !un && !y.lt x
  | 4 => !un && y.lt x
  | 5 => !un && !x.lt y
  | 6 => !un
  | _ => un

def execFset (h : Head) (b : BodyA) (s : State) : Host.Outcome State Fault Refusal :=
  runOp s h fun c =>
    alu s c h b.dst false [(b.sa, 1, 1), (b.sb, 1, 2)] fun s l =>
      let x := s.fp c b.sa l
      let y := s.fp c b.sb l
      (truth (compareNum b.sc.immNat x.1 y.1), x.2 || y.2)

def execDset (h : Head) (b : BodyA) (s : State) : Host.Outcome State Fault Refusal :=
  runOp s h fun c =>
    alu s c h b.dst false [(b.sa, 2, 1), (b.sb, 2, 2)] fun s l =>
      let x := s.fpd c b.sa l
      let y := s.fpd c b.sb l
      (truth (compareNum b.sc.immNat x.1 y.1), x.2 || y.2)

/-- The integral value of a direction; a zero keeps the operand's sign (R226). -/
def integral (r : Rnd) : Num → Num
  | .fin s m e =>
    let q := roundAt r s m e 0
    .fin s q 0
  | x => x

def execFrnd (h : Head) (b : BodyA) (s : State) : Host.Outcome State Fault Refusal :=
  runOp s h fun c =>
    alu s c h b.dst false [(b.sa, 1, 1)] fun s l =>
      let x := s.fp c b.sa l
      ((round32 .rne (integral (.ofMod b.mod.toNat) x.1)).setWidth 64, x.2)

/-- The class bit of a code (R227). -/
def classOf (f : FloatFmt) (code : Nat) : Nat :=
  match f.value code with
  | .nan => if code % 2 ^ f.t / 2 ^ (f.t - 1) = 1 then 9 else 8
  | .inf s => if s then 0 else 7
  | .fin s m _ =>
    if m = 0 then (if s then 3 else 4) else if m < 2 ^ f.t then (if s then 2 else 5) else (if s then 1 else 6)

def execFclass (h : Head) (b : BodyA) (s : State) : Host.Outcome State Fault Refusal :=
  runOp s h fun c =>
    let wide := b.mod == 1
    let f := match b.mod.toNat with | 0 => fp32 | 1 => fp64 | 2 => fp16 | _ => bf16
    alu s c h b.dst false [(b.sa, wideN wide, 1)] fun s l =>
      let x : Nat × Bool := match b.sa with
        | .imm i => (f.round .rne false (.ofInt i.toInt), false)
        | _ => let x := s.opnd c b.sa wide l; (x.1.toNat % 2 ^ f.width, x.2)
      (BitVec.ofNat 64 (2 ^ classOf f x.1), x.2)

/-! ### Packed 16-bit (R228) -/

/-- Runs an operation on the two halves of packed sources. -/
def packed (s : State) (c : Ctx) (h : Head) (b : BodyA) (f : FloatFmt) (three : Bool) (g : Num → Num → Num → Num) :
    M State :=
  alu s c h b.dst false ([(b.sa, 1, 1), (b.sb, 1, 2)] ++ if three then [(b.sc, 1, 3)] else []) fun s l =>
    let half := fun i =>
      let x := s.fph f c b.sa l i
      let y := s.fph f c b.sb l i
      let z := if three then s.fph f c b.sc l i else (.zero, false)
      (f.round (.ofMod b.mod.toNat) false (g x.1 y.1 z.1), x.2 || y.2 || z.2)
    let lo := half 0
    let hi := half 1
    (BitVec.ofNat 64 (hi.1 * 65536 + lo.1), lo.2 || hi.2)

def execPhadd (h : Head) (b : BodyA) (s : State) : Host.Outcome State Fault Refusal :=
  runOp s h fun c => packed s c h b fp16 false fun x y _ => addDir b.mod x y

def execPhmul (h : Head) (b : BodyA) (s : State) : Host.Outcome State Fault Refusal :=
  runOp s h fun c => packed s c h b fp16 false fun x y _ => x.mul y

def execPhfma (h : Head) (b : BodyA) (s : State) : Host.Outcome State Fault Refusal :=
  runOp s h fun c => packed s c h b fp16 true fun x y z => addDir b.mod (x.mul y) z

def execPbfma (h : Head) (b : BodyA) (s : State) : Host.Outcome State Fault Refusal :=
  runOp s h fun c => packed s c h b bf16 true fun x y z => addDir b.mod (x.mul y) z

/-! ### FP64 (R229) -/

/-- Two FP64 sources into a pair. -/
def fpd2 (s : State) (c : Ctx) (h : Head) (b : BodyA) (f : Num → Num → Num) : M State :=
  alu s c h b.dst true [(b.sa, 2, 1), (b.sb, 2, 2)] fun s l =>
    let x := s.fpd c b.sa l
    let y := s.fpd c b.sb l
    (round64 (.ofMod b.mod.toNat) (f x.1 y.1), x.2 || y.2)

def execDadd (h : Head) (b : BodyA) (s : State) : Host.Outcome State Fault Refusal :=
  runOp s h fun c => fpd2 s c h b (addDir b.mod)

def execDmul (h : Head) (b : BodyA) (s : State) : Host.Outcome State Fault Refusal :=
  runOp s h fun c => fpd2 s c h b Num.mul

def execDfma (h : Head) (b : BodyA) (s : State) : Host.Outcome State Fault Refusal :=
  runOp s h fun c =>
    alu s c h b.dst true [(b.sa, 2, 1), (b.sb, 2, 2), (b.sc, 2, 3)] fun s l =>
      let x := s.fpd c b.sa l
      let y := s.fpd c b.sb l
      let z := s.fpd c b.sc l
      (round64 (.ofMod b.mod.toNat) (addDir b.mod (x.1.mul y.1) z.1), x.2 || y.2 || z.2)

/-! ### Special functions (R230, R231) -/

/-- A special function of one FP32 source, in flight for its latency (R442). -/
def special (s : State) (c : Ctx) (h : Head) (b : BodyA) (cycles : Nat) (f : Num → Num) : M State := do
  let s ← alu s c h b.dst false [(b.sa, 1, 1)] fun s l =>
    let x := s.fp c b.sa l
    ((round32 .rne (f x.1)).setWidth 64, x.2)
  .ok (s.longResult c h (b.dst.destRegs 1) cycles)

def execFrcp (h : Head) (b : BodyA) (s : State) : Host.Outcome State Fault Refusal :=
  runOp s h fun c => special s c h b 18 recip

def execFrsq (h : Head) (b : BodyA) (s : State) : Host.Outcome State Fault Refusal :=
  runOp s h fun c => special s c h b 18 rsqrt

def execFsqrt (h : Head) (b : BodyA) (s : State) : Host.Outcome State Fault Refusal :=
  runOp s h fun c => special s c h b 20 sqrt

def execFex2 (h : Head) (b : BodyA) (s : State) : Host.Outcome State Fault Refusal :=
  runOp s h fun c => special s c h b 14 exp2

def execFlg2 (h : Head) (b : BodyA) (s : State) : Host.Outcome State Fault Refusal :=
  runOp s h fun c => special s c h b 14 log2

def execFsin (h : Head) (b : BodyA) (s : State) : Host.Outcome State Fault Refusal :=
  runOp s h fun c => special s c h b 18 sinPi

def execFcos (h : Head) (b : BodyA) (s : State) : Host.Outcome State Fault Refusal :=
  runOp s h fun c => special s c h b 18 cosPi

def execFtanh (h : Head) (b : BodyA) (s : State) : Host.Outcome State Fault Refusal :=
  runOp s h fun c => special s c h b 18 tanh

end Sys2Proof.Machine
end

