-- ==== Sys2Proof/Machine/Pending.lean ====
section
/-! DEFINITION. Operations that have issued and are not complete, in the order in which they issued: the release
buffers (R146), the order among a party's accesses (R136, R145), and the registration of releases. -/

namespace Sys2Proof.Machine

/-! ### What an operation is -/

/-- The scope with which an effect releases (R138): a release store or atomic. -/
def Eff.scopeOf : Eff → Nat
  | .load _ _ _ sc => sc
  | .store sc => sc
  | .atomic _ _ _ sc => sc
  | .cas _ _ sc => sc
  | _ => 0

/-- The external effects (R146): they pass through the release buffer. -/
def Eff.external : Eff → Bool
  | .store _ | .spill | .atomic .. | .cas .. | .redv .. | .entry .. | .copy _ | .bank _ | .record .. => true
  | _ => false

/-- Accesses to memory (R145). -/
def Eff.access : Eff → Bool
  | .load .. | .fill _ | .store _ | .spill | .atomic .. | .cas .. | .redv .. => true
  | _ => false

def Eff.isLoad : Eff → Bool
  | .load .. | .fill _ => true
  | _ => false

def Eff.isStore : Eff → Bool
  | .store _ | .spill => true
  | _ => false

/-- A store whose data later loads of the party receive before it is performed (R146, R247). -/
def Eff.forwards : Eff → Bool
  | .store _ => true
  | _ => false

/-- Atomics (R137). -/
def Eff.isAtomic : Eff → Bool
  | .atomic .. | .cas .. | .redv .. => true
  | _ => false

def Eff.writes (e : Eff) : Bool := e.isStore || e.isAtomic

def Eff.isFence : Eff → Bool
  | .fence .. => true
  | _ => false

/-- An instruction that a fence has held back (R264). -/
def Eff.isHeld : Eff → Bool
  | .held .. => true
  | _ => false

/-- A load or atomic that acquires (R138, R145). -/
def Eff.acquires (e : Eff) : Bool := !e.isStore && e.scopeOf != 0

/-- An operation that releases: a store or atomic with SCOPE, any that writes after a FENCE, or one of the release
operations of R146. -/
def MemOp.releases (o : MemOp) : Bool :=
  match o.eff with
  | .store .. | .spill | .atomic .. | .cas .. | .redv .. => o.eff.scopeOf != 0 || o.fenced != 0
  | .entry .. | .record .. | .give .. | .arrive .. | .hset .. | .depinc .. | .qret .. | .fence .. => true
  | _ => false

/-- The scope of a store's or atomic's release: its own, or that of the FENCE before it when that is wider. -/
def MemOp.releaseScope (o : MemOp) : Nat := if o.eff.scopeOf < o.fenced then o.fenced else o.eff.scopeOf

/-- The epoch of the operation's accesses: a release covers its own access (R138). -/
def MemOp.epoch (o : MemOp) : Nat := if o.releases then o.clk.get o.party else Clock.epoch o.clk o.party

/-! ### The list -/

/-- The core that holds a party's operations. -/
def State.homeOf (s : State) (p : Party) : Nat :=
  match p with
  | .warp inst _ => (match s.wg? inst with | some g => g.core | none => 0)
  | .beryl inst _ => (match s.wg? inst with | some g => g.core | none => 0)
  | .sup n => n
  | _ => 0

def State.op? (s : State) (core id : Nat) : Option MemOp := (s.core core).ops.find? fun o => o.id == id

def State.dropOp (s : State) (core id : Nat) : State :=
  s.modCore core fun c => { c with ops := c.ops.filter fun o => o.id != id }

def State.setOp (s : State) (core : Nat) (o : MemOp) : State :=
  s.modCore core fun c => { c with ops := c.ops.map fun p => if p.id == o.id then o else p }

def State.modOp (s : State) (core id : Nat) (f : MemOp → MemOp) : State :=
  s.modCore core fun c => { c with ops := c.ops.map fun p => if p.id == id then f p else p }

/-- The operations of the same party that issued before one, in issue order. -/
def opsBefore (ops : List MemOp) (o : MemOp) : List MemOp :=
  (ops.takeWhile fun p => p.id != o.id).filter fun p => p.party == o.party

/-- The clock with which an operation issues. A release takes the party's released clock. -/
def State.issueClock (s : State) (p : Party) (releases : Bool) : Clock × State :=
  if releases then s.releaseClock p else (s.clockOf p, s)

/-- The vector names that an effect writes. -/
def Eff.destNames (e : Eff) : List Nat :=
  let run := fun (o : Opnd) (n : Nat) => match o with | .v v => (List.range n).map fun i => v.toNat + i | _ => []
  match e with
  | .load dst size .. => run dst ((size + 3) / 4)
  | .fill dst => run dst 1
  | .atomic _ wide (some dst) _ | .cas wide dst _ => run dst (if wide then 2 else 1)
  | _ => []

/-- Adds an operation that issues now in a warp. Its flag, if it has one, is counted by the caller. -/
def State.addOp (s : State) (c : Ctx) (flag : Nat) (eff : Eff) (lanes : List LaneAcc) (uniform : Bool) : Nat × State :=
  let (id, s) := s.newId
  let w := s.warp c.ref
  let o : MemOp :=
    { id := id, party := c.party, quarter := c.ref.quarter, born := (s.core c.core).cycle, left := !eff.external, eff := eff,
      lanes := lanes, done := [], got := [], rows := eff.destNames.map fun n => (w.nameRow n).getD 0, flag := flag, clk := [],
      fenced := w.fenced, checked := false,
      uniform := uniform, ctx := c.ctx, pc := c.pc, word := c.word, group := c.group, active := c.held s, hdrAddr := c.hdrAddr, hdr := c.hdr,
      serial := w.issues + 1, undo := [] }
  let (clk, s) := s.issueClock c.party o.releases
  (id, s.modCore c.core fun k => { k with ops := k.ops ++ [{ o with clk := clk }] })

/-- Adds an operation of a Beryl core (R320). -/
def State.addBerylOp (s : State) (core inst which : Nat) (eff : Eff) (flagCtx : Nat) : Nat × State :=
  let (id, s) := s.newId
  let p := Party.beryl inst which
  let o : MemOp :=
    { id := id, party := p, quarter := 4 + which, born := (s.core core).cycle, left := !eff.external, eff := eff, lanes := [],
      done := [], got := [], rows := [], flag := 0, clk := [], fenced := 0, checked := true, uniform := true, ctx := flagCtx, pc := 0,
      word := 0, group := 0, active := 0, hdrAddr := 0, hdr := 0, serial := 0, undo := [] }
  let (clk, s) := s.issueClock p o.releases
  (id, s.modCore core fun k => { k with ops := k.ops ++ [{ o with clk := clk }] })

/-! ### The release buffer (R146) -/

/-- A lane of the operation lies on another member. -/
def State.toPeer (s : State) (o : MemOp) : Bool :=
  o.lanes.any fun l => l.pieces.any fun p => match p.place with | .pa a => s.isPeer a | _ => false

/-- RELEASE_BUFFER_LEAVE: the oldest effect of a quarter's buffer leaves it, once 64 cycles old. The Beryl cores have
buffers of their own, numbered 4 and 5 here (R320). A store or an atomic to another member takes its packet's header now (R405). -/
def execReleaseBufferLeave (core quarter : Nat) (s : State) : Host.Outcome State Fault Refusal :=
  event s (do
    let k := s.core core
    let o ← k.ops.find? fun o => o.quarter == quarter && !o.left
    let t := if s.toPeer o then { s with sendHeads := s.sendHeads ++ [(o.id, s.pktHead)] } else s
    if o.born + 64 ≤ k.cycle then some (t.setOp core { o with left := true }) else none)

/-- The packets to other members that an operation has sent since the outbox held `n` carry the header that it took as it left the
release buffer (R405). -/
def State.headed (s : State) (id n : Nat) : State :=
  match assoc? s.sendHeads id with
  | none => s
  | some h => { s with outbox := s.outbox.take n ++ (s.outbox.drop n).map fun x =>
      match x.out with | .access .. => { x with head := some h } | _ => x }

/-- A command to an engine. -/
def Eff.isCommand : Eff → Bool
  | .copy _ | .bank _ => true
  | _ => false

/-- An acquire that has not been performed: nothing later of its party may be (R145). -/
def MemOp.acquiring (o : MemOp) : Bool :=
  o.eff.access && o.eff.acquires && o.lanes.any fun l => !o.done.contains l.lane

/-- It holds what follows it in its party: a fence, an instruction that a fence has held back, or an acquire (R145, R264). -/
def MemOp.holdsBack (o : MemOp) : Bool := o.eff.isFence || o.eff.isHeld || o.acquiring

/-- A command is performed as an external effect once it has reached its engine: it has left the buffer, and no earlier
fence or acquire holds it (R145, R146, R264). -/
def MemOp.handed (o : MemOp) (ops : List MemOp) : Bool :=
  o.eff.isCommand && o.left && !(opsBefore ops o).any MemOp.holdsBack

/-- Some lane of the operation has not been performed yet. -/
def MemOp.unperformed (o : MemOp) : Bool := o.eff.access && o.lanes.any fun l => !o.done.contains l.lane

/-- Every earlier external effect of the operation's party has left the buffer and been performed (R146), and so has every earlier
access, with what a load writes to a row (R72, R141). -/
def drained (ops : List MemOp) (o : MemOp) : Bool :=
  (opsBefore ops o).all fun p => (!p.eff.external || p.handed ops) && !p.eff.access && !p.eff.isHeld

/-! ### Order among the accesses of a party -/

/-- The places of a lane that lie within its operation. -/
def LaneAcc.places (l : LaneAcc) : List Place :=
  l.pieces.flatMap fun p => (List.range p.bytes).map fun i =>
    match p.place with
    | .pa a => .pa (a + i)
    | .scratch inst off => .scratch inst (off + i)
    | .tape core off => .tape core (off + i)
    | .records inst off => .records inst (off + i)
    | .region g n => .region g n

/-- The word in which a byte lies. -/
def Place.word : Place → Place
  | .pa a => .pa (a / 4)
  | .scratch inst off => .scratch inst (off / 4)
  | .tape core off => .tape core (off / 4)
  | .records inst off => .records inst (off / 4)
  | .region g n => .region g n

/-- Two lanes touch a common word (R136). -/
def LaneAcc.meets (a b : LaneAcc) : Bool :=
  let ws := b.places.map Place.word
  a.places.any fun p => ws.contains p.word

/-- Lane `l` of operation `o` has not been performed and touches a word of lane `k`. -/
def MemOp.pendingAt (o : MemOp) (k : LaneAcc) : Bool :=
  o.lanes.any fun l => !o.done.contains l.lane && !l.ghost && l.meets k

/-- An earlier operation of the party that a lane of an access waits for: a fence (R264), an acquire (R145), for a
release every access and external effect (R145, R146), and for the same word every access but, for a load, a store whose data the release
buffer gives (R136, R146, R247). -/
def MemOp.blocks (e o : MemOp) (k : LaneAcc) : Bool :=
  e.holdsBack ||
  (!o.eff.isLoad && o.eff.scopeOf != 0 && (e.eff.access || e.eff.external)) ||
  (e.eff.access && e.pendingAt k && !(o.eff.isLoad && e.eff.forwards))

/-- Whether a lane of an operation may be performed now: it has left the release buffer and no earlier operation of
its party holds it. -/
def canPerform (ops : List MemOp) (o : MemOp) (k : LaneAcc) : Bool :=
  o.left && !o.done.contains k.lane && !(opsBefore ops o).any fun e => !e.handed ops && e.blocks o k

/-- The core whose scratchpad holds a place. -/
def State.scratchCore (s : State) (p : Place) : Option Nat :=
  match p with
  | .scratch inst _ => (s.wg? inst).map (·.core)
  | _ => none

/-- The cores whose scratchpads a lane reaches through their team ports from a core. -/
def State.remotes (s : State) (core : Nat) (l : LaneAcc) : List Nat :=
  (l.pieces.filterMap fun p => s.scratchCore p.place).filter (· != core)

/-- Accesses of one core to one remote scratchpad take effect in the order in which the core sends them (R114): an earlier one that
has left for the port goes first, whichever party issued it. -/
def State.portOrder (s : State) (core : Nat) (o : MemOp) (k : LaneAcc) : Bool :=
  let to_ := s.remotes core k
  to_.isEmpty ||
  ((s.core core).ops.takeWhile fun p => p.id != o.id).all fun e =>
    !e.left || (opsBefore (s.core core).ops e).any MemOp.holdsBack ||
    e.lanes.all fun l => e.done.contains l.lane || (s.remotes core l).all fun n => !to_.contains n

/-- Nothing between the port and the place of a lane holds it: no link that applies back-pressure (R408), no slice that replays. -/
def State.reaches (s : State) (k : LaneAcc) : Bool :=
  k.pieces.all fun p =>
    match p.place with
    | .pa a => if s.isPeer a then !s.slowLinks.contains (peerAddr a).1 else !s.sliceBusy (cellOf p.layout a)
    | _ => true

/-- Whether a lane of an operation of a core may be performed now. -/
def State.mayPerform (s : State) (core : Nat) (o : MemOp) (k : LaneAcc) : Bool :=
  canPerform (s.core core).ops o k && s.portOrder core o k && s.reaches k

/-- A fence of the party whose conditions do not hold yet, issued before operation `id`, or an instruction that one has held and that
is still to be performed (R264). -/
def State.fencePending (s : State) (core : Nat) (p : Party) (id : Nat) : Bool :=
  (s.core core).ops.any fun o => (o.eff.isFence || o.eff.isHeld) && o.party == p && decide (o.id < id)

/-- The same, or an acquire that has not been performed: an engine operation of the party waits behind it (R135, R145, R264). -/
def State.barred (s : State) (core : Nat) (p : Party) (id : Nat) : Bool :=
  (s.core core).ops.any fun o => o.holdsBack && o.party == p && decide (o.id < id)

/-- The core has sent an access to the scratchpad of one of some other cores that has not taken effect: it has left, and nothing earlier of
its party holds it. -/
def State.sentTo (s : State) (core : Nat) (to_ : List Nat) : Bool :=
  (s.core core).ops.any fun e =>
    e.left && !(opsBefore (s.core core).ops e).any MemOp.holdsBack &&
    e.lanes.any fun l => !e.done.contains l.lane && !l.ghost && (s.remotes core l).any fun n => to_.contains n

/-- An engine operation of a core may perform a piece of its access now: every earlier access of its party to a word of the piece has been
performed (R136, R141), and so has what the core has sent before it to the same scratchpad of another core (R114). -/
def State.engMay (s : State) (core : Nat) (p : Party) (id : Nat) (ps : List Piece) : Bool :=
  let k : LaneAcc := ⟨0, 0, ps, [], false⟩
  !((s.core core).ops.any fun e => e.party == p && decide (e.id < id) && e.eff.access && e.pendingAt k) &&
  (let to_ := s.remotes core k
   to_.isEmpty || !s.sentTo core to_)

/-! ### Registering a release (R146) -/

/-- The operation, if it is of the given core and its release can register: every earlier external effect of its party
has been performed, and no earlier fence holds it (R264). -/
def State.registers? (s : State) (core id : Nat) : Option MemOp := do
  let o ← s.op? core id
  let ops := (s.core core).ops
  if o.left && drained ops o && !(o.eff.external && (opsBefore ops o).any fun e => e.eff.isFence || e.eff.isHeld) then some o else none

/-! ### Acquiring -/

/-- What a party acquires orders its engine operations that issued after operation `id`, too. -/
def Wg.acquireEng (g : Wg) (p : Party) (clk : Clock) (id : Nat) : Wg :=
  let copy := fun (o : CopyOp) => if o.party = p ∧ id < o.id then { o with clk := Clock.join o.clk clk } else o
  let bank := fun (o : BankOp) => if o.party = p ∧ id < o.id then { o with clk := Clock.join o.clk clk } else o
  { g with chans := g.chans.map fun e => (e.1, { e.2 with ops := e.2.ops.map copy }), bankOps := g.bankOps.map bank }

/-- What a party acquires is ordered before what it does from now on, and before its later operations in flight. -/
def State.acquire (s : State) (p : Party) (clk : Clock) (after : Option Nat) : State :=
  let s := s.joinClock p clk
  match after with
  | none => s
  | some id =>
    let s := s.modCore (s.homeOf p) fun c =>
      let head := c.ops.takeWhile fun o => o.id != id
      let tail := c.ops.dropWhile fun o => o.id != id
      let mat := fun (m : MatOp) => if m.party = p ∧ id < m.id then { m with clk := Clock.join m.clk clk } else m
      { c with ops := head ++ tail.map fun o => if o.party == p then { o with clk := Clock.join o.clk clk } else o
               mats := c.mats.map mat }
    match p.inst? with
    | some i => s.modWg i fun g => g.acquireEng p clk id
    | none => s

end Sys2Proof.Machine
end

