-- ==== Sys2Proof/Machine/Lock.lean ====
section
/-! DEFINITION. Generic addresses (R108) and the range-lock table (R148). -/

namespace Sys2Proof.Machine

/-- The window of a generic address; none for a virtual address. -/
def windowOf (a : DWord) : Option Nat := if a.getLsbD 54 then some (a.extractLsb' 50 4).toNat else none

/-- Bits 49:0: the window offset. -/
def windowOffset (a : DWord) : Nat := (a.extractLsb' 0 50).toNat

/-- The base of a window. -/
def windowBase (w : Nat) : Nat := 0xffc0000000000000 + w * 2 ^ 50

/-- A team; a supervisor warp is one of its own. -/
def State.team? (s : State) (t : Nat) : Option Team :=
  match s.teams.get none t with
  | some x => some x
  | none => if t < supBase then none else some (.blank t)

/-- The lost workgroup that had a rank of a team (R412). -/
def State.rankLost (s : State) (team rank : Nat) : Bool :=
  match s.team? team with
  | some t => t.lost.any fun e => e.2 == rank
  | none => false

/-- gang member lost: VALUE is the lost rank (R414). -/
def lostRank (rank : Nat) (a : DWord) (lane : Option Nat) : Detail := ⟨0x1c1, BitVec.ofNat 32 rank, 0, 7, a, lane, none, none⟩

/-- The workgroup of a team that holds a rank. -/
def State.rankInst (s : State) (team rank : Nat) : Option Nat := do
  let t ← s.team? team
  t.members.find? fun i => match s.wg? i with | some g => g.rank == rank | none => false

/-! ### Range locks (R148) -/

/-- A generic address as locks compare it: scratchpad by its workgroup and own-window address, others by context. The first
component is the workgroup plus one, zero for a context's address. -/
def State.lockAddr (s : State) (inst : Option Nat) (a : DWord) : Nat × Nat :=
  match windowOf a, inst with
  | some 0, some i => (i + 1, a.toNat)
  | some 1, some i =>
    let o := windowOffset a
    match (s.wg? i).bind fun g => s.rankInst g.team (o / 4194304) with
    | some j => (j + 1, windowBase 0 + o % 4194304)
    | none => (0, a.toNat)
  | _, _ => (0, a.toNat)

/-- A lock covers bytes that an access of `n` bytes touches. -/
def RangeLock.hits (l : RangeLock) (ctx inst base n : Nat) : Bool :=
  l.inst == inst && (inst != 0 || l.ctx == ctx) && decide (base < l.base + l.len) && decide (l.base < base + n)

/-- The locks that an access can meet: those of scratchpad in every table, others in the table of its core. -/
def State.locksFor (s : State) (core inst : Nat) : List RangeLock :=
  if inst = 0 then (s.core core).locks else s.cores.flatMap fun e => e.2.locks.filter fun l => l.inst == inst

/-- A range of generic addresses of an operation. -/
structure Span where
  addr : DWord
  len : Nat
  dest : Bool
  deriving DecidableEq, Repr

/-- A lock in force conflicts with one of a new operation: a destination with any lock, a source with a destination. -/
def State.lockHeld (s : State) (core : Nat) (l : RangeLock) : Bool :=
  (s.locksFor core l.inst).any fun k => k.hits l.ctx l.inst l.base l.len && (l.dest || k.dest)

/-- Too few entries of the table are free. -/
def State.lockFull (s : State) (core n : Nat) : Bool := decide (32 < (s.core core).locks.length + n)

/-- Registers the locks of an operation, if nothing holds it. -/
def State.register (s : State) (core : Nat) (ls : List RangeLock) : Option State :=
  if s.lockFull core ls.length || ls.any (s.lockHeld core) then none
  else some (s.modCore core fun k => { k with locks := k.locks ++ ls })

/-- An engine operation of the party, issued before operation `id`, has its locks still to register: a round that closed, or one that
a fence has held. Later ones of the party wait behind it (R148). -/
def State.unlocked (s : State) (core : Nat) (p : Party) (id : Nat) : Bool :=
  let waits := fun (q : Party) (op : Nat) (ends : Bool) =>
    q == p && decide (op < id) && !ends && !(s.core core).locks.any fun l => l.op == op
  ((s.core core).mats.any fun m => m.party == p && decide (m.id < id) && !m.locked) ||
  s.allWgs.any fun e => e.2.core == core &&
    ((e.2.chans.any fun c => c.2.ops.any fun o => waits o.party o.id (o.fromPort || o.posting)) ||
     e.2.bankOps.any fun o => waits o.party o.id (o.fromPort || o.posting))

end Sys2Proof.Machine
end

