-- ==== Sys2Proof/Machine/Barrier.lean ====
section
/-! DEFINITION. Barriers (R267, R268, R271) and convergence rounds (R35 to R38): what an arrival, a registration, a
signature and an exit do to them. -/

namespace Sys2Proof.Machine

/-! ### Saved workgroups and teams -/

/-- A workgroup of the module, resident or saved. -/
def State.anyWg? (s : State) (inst : Nat) : Option Wg :=
  match s.wg? inst with
  | some g => some g
  | none => (s.saved.find? fun e => e.2.inst == inst).map fun e => e.2.wg

/-- The number of the workgroup that has an INSTANCE: the one that lives, as many have had it as have lived. -/
def State.instKey (s : State) (instance_ : Nat) : Nat :=
  if (s.anyWg? instance_).isSome then instance_
  else
    let keys := s.wgs.filterMap (fun e => e.2.map fun _ => e.1) ++ s.saved.map fun e => e.2.inst
    (keys.find? fun k => k % 2 ^ 32 == instance_).getD instance_

def State.modTeam (s : State) (t : Nat) (f : Team → Team) : State :=
  match s.team? t with
  | some x => { s with teams := s.teams.put none t (some (f x)) }
  | none => s

/-- The warps of a workgroup that have not exited. -/
def Wg.liveWarps (g : Wg) : List Nat := (List.range g.warps.length).filter fun w => !(g.warps.getD w Warp.init).exited

/-! ### Barriers by name -/

/-- A named barrier of a workgroup or a barrier of a team. -/
inductive BarRef where
  | nb (inst n : Nat)
  | tb (team n : Nat)
  deriving DecidableEq, Repr

def State.bar (s : State) : BarRef → Barrier
  | .nb inst n => match s.wg? inst with | some g => g.nb.get Barrier.zero n | none => .zero
  | .tb t n => match s.team? t with | some x => x.tb.get Barrier.zero n | none => .zero

def State.modBar (s : State) (b : BarRef) (f : Barrier → Barrier) : State :=
  match b with
  | .nb inst n => s.modWg inst fun g => { g with nb := g.nb.upd Barrier.zero n f }
  | .tb t n => s.modTeam t fun x => { x with tb := x.tb.upd Barrier.zero n f }

/-- The barrier that an instruction of a workgroup names. -/
def State.barRef (s : State) (inst : Nat) (team : Bool) (n : Nat) : BarRef :=
  if team then .tb (match s.wg? inst with | some g => g.team | none => 0) n else .nb inst n

/-- A warp as a member of a barrier's phases. -/
def State.barMember (s : State) (b : BarRef) (inst w : Nat) : Member :=
  match b with
  | .nb .. => (0, w)
  | .tb .. => ((match s.wg? inst with | some g => g.rank | none => 0), w)

/-- The workgroup of a member. -/
def State.memberInst (s : State) (b : BarRef) (m : Member) : Nat :=
  match b with
  | .nb inst _ => inst
  | .tb t _ =>
    match s.team? t with
    | none => 0
    | some x => (x.members.find? fun i => match s.wg? i with | some g => g.rank == m.1 | none => false).getD 0

/-- The members that have not exited: warps of the workgroup, or of the team. -/
def State.barLive (s : State) (b : BarRef) : List Member :=
  match b with
  | .nb inst _ => (match s.wg? inst with | some g => g.liveWarps.map fun w => (0, w) | none => [])
  | .tb t _ =>
    match s.team? t with
    | none => []
    | some x => x.members.flatMap fun i =>
        match s.anyWg? i with
        | some g => g.liveWarps.map fun w => (g.rank, w)
        | none => []

/-! ### Phases (R268) -/

/-- A phase takes a member's arrival. -/
def Phase.accepts (p : Phase) (m : Member) : Bool :=
  !p.joined.contains m && (p.expect == 0 || decide (p.joined.length < p.expect))

/-- The phase that an arrival joins: false the open one, true the following one. -/
def Barrier.joinable (b : Barrier) (m : Member) : Option Bool :=
  if b.cur.accepts m then some false else if b.next.accepts m then some true else none

/-- A member joins a phase; the first arrival fixes its EXPECT. -/
def Phase.join (p : Phase) (m : Member) (count : Nat) : Phase :=
  { p with expect := if p.expect = 0 then count else p.expect, joined := p.joined ++ [m] }

/-- The arrival of a member registers. -/
def Phase.register (p : Phase) (m : Member) (clk : Clock) : Phase :=
  { p with reg := p.reg ++ [m], clk := Clock.join p.clk clk }

/-- Both conditions of completion hold. -/
def Barrier.complete (b : Barrier) (live : List Member) (team : Bool) : Bool :=
  !b.cur.joined.isEmpty && (b.cur.joined.length == b.cur.expect || live.all b.cur.joined.contains) &&
  b.cur.joined.all b.cur.reg.contains && (!team || decide (b.tx ≤ 0))

def BarRef.isTeam : BarRef → Bool
  | .nb .. => false
  | .tb .. => true

/-- The open phase completes: its waiters are released in the next cycle, those of a team after the way to the
cluster root and back (R271). -/
def State.completePhase (s : State) (r : BarRef) : State :=
  let lag := if r.isTeam then 16 else 1
  let b := s.bar r
  let done := b.waiters.filter fun w => w.phase == b.phase
  let wake := done.map fun w => (w, (s.core (s.homeOf (.warp (s.memberInst r (w.rank, w.warp)) 0))).cycle + lag)
  s.modBar r fun b =>
    { b with phase := b.phase + 1, cur := b.next, next := .zero, tx := 0,
             waiters := b.waiters.filter fun w => w.phase != b.phase,
             past := b.past.put [] b.phase b.cur.clk, wake := b.wake ++ wake }

/-- Counts the open phase again; a completed phase opens the following one, which may be complete too. -/
def State.recount (s : State) (r : BarRef) : State :=
  let once := fun s : State => if (s.bar r).complete (s.barLive r) r.isTeam then s.completePhase r else s
  once (once s)

/-- Counts the barriers of a workgroup and its team after an exit. -/
def State.recountAll (s : State) (inst : Nat) : State :=
  match s.wg? inst with
  | none => s
  | some g =>
    let s := (List.range 16).foldl (fun s n => s.recount (.nb inst n)) s
    (List.range 8).foldl (fun s n => s.recount (.tb g.team n)) s

/-- Adds to the signed 32-bit TX of a team barrier (R270). -/
def Barrier.addTx (b : Barrier) (x : Int) : Barrier := { b with tx := (b.tx + x + 2 ^ 31) % 2 ^ 32 - 2 ^ 31 }

/-- BARRIER_ARRIVAL_REGISTER (R146, R268): an arrival counts once its release registers. -/
def execBarrierArrivalRegister (core op : Nat) (s : State) : Host.Outcome State Fault Refusal :=
  event s (do
    let o ← s.registers? core op
    match o.eff, o.party with
    | .arrive team n ph, p => do
      let (inst, w) ← p.warp?
      let r := s.barRef inst team n
      let m := s.barMember r inst w
      let s := s.modBar r fun b =>
        if ph = b.phase then { b with cur := b.cur.register m o.clk }
        else if ph = b.phase + 1 then { b with next := b.next.register m o.clk }
        else b
      some ((s.dropOp core op).recount r)
    | _, _ => none)

/-! ### Convergence rounds (R36 to R38) -/

def Wg.conv_ (g : Wg) (n : Nat) : Conv := g.conv.get Conv.zero n

def State.modConv (s : State) (inst n : Nat) (f : Conv → Conv) : State :=
  s.modWg inst fun g => { g with conv := g.conv.upd Conv.zero n f }

/-- Every thread of the signing set that has not exited has signed. -/
def Conv.full (c : Conv) (g : Wg) : Bool :=
  (List.range g.warps.length).all fun w => !c.mask.has w || (g.warps.getD w Warp.init).live &&& ~~~c.signed.get 0 w == 0

/-- An operation enters tile order (R299), with its ranges in the lock table if nothing holds them (R148) and no fence or
acquire holds the operation (R145, R264). A complete operation on its tile is the latest no more (R310). -/
def State.enqueueMat (s : State) (core : Nat) (op : MatOp) : State :=
  let (s, locked) := if s.fencePending core op.party op.id || s.unlocked core op.party op.id then (s, false)
    else match s.register core op.ranges with | some s => (s, true) | none => (s, false)
  s.modCore core fun k =>
    { k with mats := (k.mats.filter fun m => !(m.complete && m.inst == op.inst && m.acc == op.acc)) ++ [{ op with locked := locked }] }

/-- A round that is open and full closes: its operation enters tile order, and the register is idle. -/
def State.closeRound (s : State) (inst n : Nat) : State :=
  match s.wg? inst with
  | none => s
  | some g =>
    let c := g.conv_ n
    if c.isOpen && c.full g then
      let s := s.modConv inst n fun c => { c with signed := [], isOpen := false, word := 0, last := none, flags := [] }
      match c.last with
      | some op => s.enqueueMat g.core { op with flags := c.flags }
      | none => s
    else s

/-- Closes the rounds that an exit completes. -/
def State.closeRounds (s : State) (inst : Nat) : State := (List.range 8).foldl (fun s n => s.closeRound inst n) s

end Sys2Proof.Machine
end

