-- ==== Sys2Proof/Machine/Map.lean ====
section
/-! DEFINITION. The map instructions (R68 to R77, R197, R198) and the hand-off slots (R73, R74). -/

namespace Sys2Proof.Machine

/-! ### References and free rows -/

/-- Changes the references of a row (R63). -/
def State.modRef (s : State) (i : RowId) (f : Nat → Nat) : State :=
  let r := s.getRow i
  s.setRow i { r with ref := f r.ref }

/-- A reference is dropped; at zero the row is in the pool again (R69, R77). -/
def State.dropRef (s : State) (i : RowId) : State := s.modRef i (· - 1)

/-- The free rows that MAP may take, near rows first (R64, R336). -/
def State.freeRowsOf (s : State) (w : WRef) : List Nat :=
  match w with
  | .user inst _ => (match s.wg? inst with | some g => s.freeRows g | none => [])
  | .sup n => (List.range 16).filter fun r => ((s.core n).supRows.get Row.zero r).ref == 0

/-- The rows of the pool (R64). -/
def State.poolSize (s : State) (w : WRef) : Nat :=
  match w with
  | .user inst _ => (match s.wg? inst with | some g => g.pool.length | none => 0)
  | .sup _ => 16

/-- The lowest of a list of row indices. -/
def lowest : List Nat → Option Nat
  | [] => none
  | x :: xs => some (xs.foldl (fun a b => if b < a then b else a) x)

def Warp.setName (w : Warp) (n : Nat) (r : Option Nat) : Warp := { w with map := w.map.put none n r }

/-- destination mapped (R83). -/
def destMapped (n : Nat) : Detail := ⟨0x041, 0, n, 0, 0, none, none, none⟩

/-! ### MAP, UNMAP, ALIAS, SWAPN, MAPQ -/

def mapRow (s : State) (c : Ctx) (d : Nat) : M State := do
  need (((s.warp c.ref).nameRow d).isNone) (destMapped d)
  match lowest (s.freeRowsOf c.ref) with
  | none => trapWith ⟨0x042, BitVec.ofNat 32 (s.poolSize c.ref), d, 0, 0, none, none, none⟩
  | some r =>
    -- a row of the pool has no history (R82)
    let s := s.dropHist fun l => (List.range 32).any fun i => l == (s.rowId c.ref r).loc i
    .ok ((s.modRef (s.rowId c.ref r) fun _ => 1).modWarp c.ref fun w => w.setName d (some r))

def execMap (h : Head) (b : BodyA) (s : State) : Host.Outcome State Fault Refusal :=
  runOp s h fun c => if c.executes s h then mapRow s c b.dst.idx else .ok s

def unmapRow (s : State) (c : Ctx) (d : Nat) : M State :=
  match (s.warp c.ref).nameRow d with
  | none => trapWith (unmapped d 0)
  | some r => .ok ((s.modWarp c.ref fun w => w.setName d none).dropRef (s.rowId c.ref r))

def execUnmap (h : Head) (b : BodyA) (s : State) : Host.Outcome State Fault Refusal :=
  runOp s h fun c => if c.executes s h then unmapRow s c b.dst.idx else .ok s

def aliasRow (s : State) (c : Ctx) (d v : Nat) : M State :=
  match (s.warp c.ref).nameRow v with
  | none => trapWith (unmapped v 1)
  | some r => do
    need (((s.warp c.ref).nameRow d).isNone) (destMapped d)
    let i := s.rowId c.ref r
    need ((s.getRow i).ref != 15) ⟨0x043, BitVec.ofNat 32 r, v, 1, 0, none, none, none⟩
    .ok ((s.modRef i (· + 1)).modWarp c.ref fun w => w.setName d (some r))

def execAliasName (h : Head) (b : BodyA) (s : State) : Host.Outcome State Fault Refusal :=
  runOp s h fun c => if c.executes s h then aliasRow s c b.dst.idx b.sa.idx else .ok s

def execSwapn (h : Head) (b : BodyA) (s : State) : Host.Outcome State Fault Refusal :=
  runOp s h fun c =>
    if c.executes s h then
      .ok (s.modWarp c.ref fun w =>
        let d := w.nameRow b.dst.idx
        (w.setName b.dst.idx (w.nameRow b.sa.idx)).setName b.sa.idx d)
    else .ok s

/-- The word of MAPQ (R70). -/
def State.mapWord (s : State) (c : Ctx) (n : Nat) : Word :=
  match (s.warp c.ref).nameRow n with
  | none => 0
  | some r =>
    let ref := (s.getRow (s.rowId c.ref r)).ref
    BitVec.ofNat 32 (2 ^ 31 + (if 3072 ≤ r then 2 ^ 30 else 0) + (if s.shared c.ref r then 2 ^ 29 else 0) +
      ref % 16 * 2 ^ 24 + r % 2 ^ 14)

def execMapq (h : Head) (b : BodyA) (s : State) : Host.Outcome State Fault Refusal :=
  runOp s h fun c =>
    let mark := c.guardMarks s h != 0
    if c.executes s h then .ok (s.writeU c b.dst.idx false ((s.mapWord c b.sa.idx).setWidth 64) mark)
    else .ok (s.keepU c b.dst.idx false mark)

/-! ### GIVE and TAKE -/

def Wg.slot_ (g : Wg) (n : Nat) : HandOff := g.slots.get HandOff.zero n

def State.modSlot (s : State) (inst n : Nat) (f : HandOff → HandOff) : State :=
  s.modWg inst fun g => { g with slots := g.slots.upd HandOff.zero n f }

/-- The hand-off slot of an operand h0 to h63. -/
def slotNo (o : Opnd) : Nat := o.idx - 0x80

/-- GIVE (R69, R73): the name goes at issue, and the group waits for an empty slot in the order of R74; it then
reserves the slot, and the row is parked when the release registers. The supervisor warp has no slots (R336). -/
def giveRow (s : State) (c : Ctx) (v n : Nat) : M State :=
  match c.ref with
  | .sup _ => trapCode 0x000
  | .user inst _ =>
    match s.wg? inst with
    | none => .ok s
    | some g => do
      let sl := g.slot_ n
      let waiting := waitFind c.party c.group sl.givers
      let (row, s) ← (match waiting with
        | some w => .ok (w.arg, s)
        | none =>
          match (s.warp c.ref).nameRow v with
          | none => trapWith (unmapped v 1)
          | some r => .ok (r, s.modWarp c.ref fun w => w.setName v none) : M (Nat × State))
      if sl.st == .empty && waitFirst c.party c.group sl.givers then
        let s := s.modSlot inst n fun sl => { sl with st := .reserved, givers := waitDrop c.party c.group sl.givers }
        .ok (s.addOp c 0 (.give n row) [] true).2
      else
        .error (.block (s.modSlot inst n fun sl =>
          { sl with givers := waitAdd c.party c.group (s.core c.core).cycle row sl.givers }))

def execGive (h : Head) (b : BodyA) (s : State) : Host.Outcome State Fault Refusal :=
  runOp s h fun c => if c.executes s h then giveRow s c b.sa.idx (slotNo b.sb) else .ok s

/-- An ACCMV of the party, issued before operation `id`, has still to write the row that its name selected (R71, R72, R307). -/
def State.getsRow (s : State) (core : Nat) (p : Party) (id : Nat) : Bool :=
  (s.core core).mats.any fun m => m.kind == .accmv && !m.put && !m.complete && m.party == p && decide (m.id < id)

/-- GIVE_ROW_PARK (R73, R146): the release of a GIVE registers and its row is parked in the reserved slot, once every row access that its
warp issued before it is made (R72). -/
def execGiveRowPark (core op : Nat) (s : State) : Host.Outcome State Fault Refusal :=
  event s (do
    let o ← s.registers? core op
    match o.eff, o.party with
    | .give n row, .warp inst _ => if s.getsRow core o.party op then none else some ((s.modSlot inst n fun sl => { sl with st := .occupied row o.clk }).dropOp core op)
    | _, _ => none)

/-- TAKE (R69): waits for an occupied slot in the order of R74, and acquires what the giver released (R72). -/
def takeRow (s : State) (c : Ctx) (d n : Nat) : M State :=
  match c.ref with
  | .sup _ => trapCode 0x000
  | .user inst _ =>
    match s.wg? inst with
    | none => .ok s
    | some g =>
      let sl := g.slot_ n
      let waiting := (waitFind c.party c.group sl.takers).isSome
      let free := s.modSlot inst n fun sl => { sl with takers := waitDrop c.party c.group sl.takers }
      let mapped := ((s.warp c.ref).nameRow d).isSome
      if mapped && !waiting then trapWith (destMapped d)
      else
        match sl.st with
        | .occupied row clk =>
          if waitFirst c.party c.group sl.takers then
            if mapped then .error (.drop free (destMapped d))
            else
              let s := free.modSlot inst n fun sl => { sl with st := .empty }
              .ok ((s.modWarp c.ref fun w => w.setName d (some row)).acquire c.party clk none)
          else .error (.block (s.modSlot inst n fun sl =>
            { sl with takers := waitAdd c.party c.group (s.core c.core).cycle 0 sl.takers }))
        | _ => .error (.block (s.modSlot inst n fun sl =>
            { sl with takers := waitAdd c.party c.group (s.core c.core).cycle 0 sl.takers }))

def execTake (h : Head) (b : BodyA) (s : State) : Host.Outcome State Fault Refusal :=
  runOp s h fun c => if c.executes s h then takeRow s c b.dst.idx (slotNo b.sb) else .ok s

end Sys2Proof.Machine
end

