-- ==== Sys2Proof/Machine/Events.lean ====
section
/-! DEFINITION. The supervisor's event log (R431), reports to the management controller (R350, R351), and the accounts of
quiescence weight (R288, R289). -/

namespace Sys2Proof.Machine

/-! ### The event log (R431) -/

/-- The 32 bytes of an entry. -/
def eventEntry (time : DWord) (code core ctx : Nat) (detail : BitVec 128) : List Byte :=
  leBytes 32 (time.toNat + code % 512 * 2 ^ 64 + ctx % 4096 * 2 ^ 80 + core % 512 * 2 ^ 96 + detail.toNat * 2 ^ 128)

/-- Writes bytes at a virtual address of context 0, as the module itself (R431); bytes that do not translate are lost. -/
def State.writeSup (s : State) (va : Nat) : List Byte → State
  | [] => s
  | b :: bs =>
    let s := match s.walk 0 .store (BitVec.ofNat 64 va) with
      | .ok (e, large) => s.writeCell e.key (cellOf e.layout (leafPa e large va)) b
      | .error _ => s
    s.writeSup (va + 1) bs

/-- Enters an event. While the ring is full, or not enabled, the event is dropped; a full ring counts it. -/
def State.logEvent (s : State) (code core ctx : Nat) (detail : BitVec 128) : State :=
  if !s.evbase.getLsbD 0 then s
  else
    let n := 2 ^ (s.evbase.extractLsb' 1 5).toNat
    if n ≤ (s.evhead + 2 ^ 32 - s.evtail) % 2 ^ 32 then { s with evlost := if s.evlost = 2 ^ 64 - 1 then s.evlost else s.evlost + 1 }
    else
      let base := (s.evbase.extractLsb' 12 36).toNat * 4096
      let s := s.writeSup (base + 32 * (s.evhead % n)) (eventEntry s.now code core ctx detail)
      { s with evhead := (s.evhead + 1) % 2 ^ 32 }

/-- The next `n` free bytes (log 2). -/
def State.freeBytes (s : State) (n : Nat) : List Byte × State :=
  ((List.range n).map fun i => Config.freeByte (s.fresh + i), { s with fresh := s.fresh + n })

/-- Enters an event whose DETAIL the manual does not lay out: its bits are free (log 25). -/
def State.logOpen (s : State) (code core ctx : Nat) : State :=
  let (bs, s) := s.freeBytes 16
  s.logEvent code core ctx (BitVec.ofNat 128 (leNat bs))

/-- Enters an event with the values that a rule has it name: `x` in bits 63:0 of DETAIL and `y` above (log 25). -/
def State.logNamed (s : State) (code core ctx : Nat) (x y : DWord) : State := s.logEvent code core ctx (y ++ x)

/-- Enters the event of a cause with the address that it names, and VALUE above (R384; log 25). -/
def State.logCause (s : State) (core ctx : Nat) (d : Detail) : State := s.logNamed d.code core ctx d.addr (d.value.setWidth 64)

/-- A cause that goes to the management controller (R350, R351). -/
def State.report (s : State) (core code : Nat) : State := { s with reports := s.reports ++ [(core, code)] }

/-! ### Accounts (R289) -/

/-- MEMBER and ACCOUNT of an account word (R288). -/
def acctMember (k : Word) : Nat := (k.extractLsb' 10 8).toNat
def acctIndex (k : Word) : Nat := (k.extractLsb' 0 10).toNat

def State.account (s : State) (n : Nat) : Account := s.accounts.get Account.zero n

def State.modAccount (s : State) (n : Nat) (f : Account → Account) : State :=
  { s with accounts := s.accounts.upd Account.zero n f }

/-- An account word is valid in a context: no reserved bit, and an account assigned to the context (R289). What
another member has assigned is not held here and counts as assigned (log 10). -/
def State.acctValid (s : State) (k : Word) (ctx : Nat) : Bool :=
  k.extractLsb' 18 14 == 0 &&
  (if acctMember k = s.member then (s.account (acctIndex k)).ctx == some ctx
    else s.gangcfg.getLsbD 32 && decide (acctMember k ≤ (s.gangcfg.extractLsb' 24 8).toNat))

/-- Counts grains on an account; another member's account is updated over the links (R289). -/
def State.countGrains (s : State) (k : Word) (f : AcctField) (g : Nat) (clk : Clock) : State :=
  if acctMember k != s.member then s.emit (.account (k.setWidth 18) f g)
  else s.modAccount (acctIndex k) fun a =>
    match f with
    | .issued => { a with issued := (a.issued + g) % 2 ^ 32 }
    | .returned => { a with returned := (a.returned + g) % 2 ^ 64, clk := Clock.join a.clk clk }
    | .lost => { a with lost := (a.lost + g) % 2 ^ 64, clk := Clock.join a.clk clk }

/-- The account is quiescent (R289). -/
def Account.quiescent (a : Account) : Bool := a.returned + a.lost == a.issued * 2 ^ 31

/-- The grains of a warp that has exited count as lost; an invalid k63 makes an event instead (R288). -/
def State.loseGrains (s : State) (core ctx : Nat) (k63 k62 : Word) (clk : Clock) : State :=
  if k62 = 0 then s
  else if s.acctValid k63 ctx then s.countGrains k63 .lost k62.toNat clk
  else s.logEvent 0x10b core ctx ((k62 ++ k63 : BitVec 64).setWidth 128)

end Sys2Proof.Machine
end

