-- ==== Sys2Proof/Machine/Exit.lean ====
section
/-! DEFINITION. Meetings (R31, R32), the end of threads and warps (R32, R49, R75), kills by poison (R353 to R355), and the
frame of the instructions that read only uniform operands (R266). -/

namespace Sys2Proof.Machine

/-! ### Meetings (R31) -/

/-- The thread stands at a header: held there, or arrived and not yet past its boundary. -/
def Thread.standsAt (t : Thread) (a : DWord) : Bool :=
  t.pc == a && t.clause.isNone && (t.st == .held || t.st == .ready)

/-- The meeting at an address is complete. -/
def Warp.meets (w : Warp) (a : DWord) : Bool :=
  w.threads.any (fun t => t.st == .held && t.pc == a) &&
  w.threads.all fun t => t.exited || t.m != some a || t.standsAt a

/-- A thread pops its stack (R28). -/
def Thread.pop (t : Thread) : Thread :=
  match t.stack with
  | [] => { t with m := none }
  | x :: xs => { t with m := x, stack := xs }

/-- Completes the meeting at an address: its threads pop their stacks and are one group there, past the hold. The age of that group
counts from the completion, whether an arrival or an exit completed it (R30; log 81). -/
def Warp.meetAt (w : Warp) (cycle : Nat) (a : DWord) : Warp :=
  if w.meets a then
    { w with threads := w.threads.map fun t =>
        if !t.exited && t.m == some a then { t.pop with st := .flagWait, since := cycle, arrived := cycle, promoted := false } else t }
  else w

/-- Evaluates every meeting of the warp. -/
def Warp.meet (w : Warp) (cycle : Nat) : Warp :=
  (w.threads.filterMap fun t => if t.st == .held then some t.pc else none).foldl (fun w a => w.meetAt cycle a) w

/-! ### What a warp waits for -/

/-- Whether a wait belongs to some of the lanes of a party; a Beryl core waits without lanes. -/
def Wait.of (x : Wait) (p : Party) (m : Mask) : Bool := x.party == p && (x.group == 0 || x.group &&& m != 0)

def withoutWaits (p : Party) (m : Mask) (ws : List Wait) : List Wait := ws.filter fun x => !x.of p m

def Barrier.without (b : Barrier) (p : Party) (mem : Member) (m : Mask) : Barrier :=
  { b with waiters := b.waiters.filter fun x => !(x.rank == mem.1 && x.warp == mem.2 && x.group &&& m != 0),
           wake := b.wake.filter fun x => !(x.1.rank == mem.1 && x.1.warp == mem.2 && x.1.group &&& m != 0),
           arrivers := withoutWaits p m b.arrivers }

/-- Threads that end, or leave the instruction at which they wait, wait for nothing any more; a Beryl core is named with no lanes. A row
that a GIVE has still to park drops its reference: what becomes of it the manual does not say (R75; log 92: DESIGN CHOICE). -/
def State.dropWaits (s : State) (p : Party) (m : Mask) : State :=
  match p.inst?.bind fun inst => (s.wg? inst).map fun g => (inst, g) with
  | none => s
  | some (inst, g) =>
    let w := match p.warp? with | some (_, w) => w | none => 32
    let rows := g.slots.flatMap fun e => (e.2.givers.filter fun x => x.of p m).map (·.arg)
    let s := rows.foldl (fun s r => s.dropRef (rowHome g.core r)) s
    let s := s.modWg inst fun g =>
      { g with
        nb := g.nb.map fun e => (e.1, e.2.without p (0, w) m)
        slots := g.slots.map fun e =>
          (e.1, { e.2 with givers := withoutWaits p m e.2.givers, takers := withoutWaits p m e.2.takers })
        queues := g.queues.map fun e =>
          (e.1, { e.2 with senders := withoutWaits p m e.2.senders, receivers := withoutWaits p m e.2.receivers })
        copyBuf := { g.copyBuf with senders := withoutWaits p m g.copyBuf.senders }
        bankBuf := { g.bankBuf with senders := withoutWaits p m g.bankBuf.senders }
        fabBuf := { g.fabBuf with senders := withoutWaits p m g.fabBuf.senders } }
    let s := s.modTeam g.team fun t => { t with tb := t.tb.map fun e => (e.1, e.2.without p (g.rank, w) m) }
    s.modCore g.core fun c =>
      let waits := fun (o : MemOp) => (match o.eff with | .hset .. => true | _ => false) && o.party == p && o.group &&& m != 0
      { c with engWait := withoutWaits p m c.engWait,
               tape := { c.tape with waiters := withoutWaits p m c.tape.waiters }
               ops := c.ops.filter fun o => !waits o }

/-! ### Causes that wait for a party (R444) -/

/-- The party still runs. -/
def State.running (s : State) (p : Party) : Bool :=
  match p with
  | .warp inst w => (match s.warp? (.user inst w) with | some x => !x.exited | none => false)
  | .sup _ => true
  | .beryl inst which =>
    match s.wg? inst with
    | some g => let b := if which = 0 then (s.core g.core).loader else (s.core g.core).storer
                b.inst == inst && (b.st == 1 || b.st == 3)
    | none => false
  | _ => false

/-- Hands a cause to a party that traps where it next stops. -/
def State.defer (s : State) (p : Party) (d : Deferred) : State :=
  match p with
  | .warp inst w => s.modWarp (.user inst w) fun x => { x with deferred := x.deferred ++ [d] }
  | .sup n => s.modWarp (.sup n) fun x => { x with deferred := x.deferred ++ [d] }
  | .beryl inst which =>
    match s.wg? inst with
    | some g => s.modCore g.core fun k =>
        if which = 0 then { k with loader := { k.loader with deferred := k.loader.deferred ++ [d] } }
        else { k with storer := { k.storer with deferred := k.storer.deferred ++ [d] } }
    | none => s
  | _ => s

/-- The party that takes the cause of a command sent through a port (R444). -/
def State.heir (s : State) (inst : Nat) (p : Party) : Option Party :=
  if s.running p then some p
  else
    match s.wg? inst with
    | none => none
    | some g =>
      match g.liveWarps.head? with
      | some w => some (.warp inst w)
      | none => [Party.beryl inst 0, .beryl inst 1].find? s.running

/-- A party has ended: causes of commands that it has not taken go to the party that R444 names; with nobody left, to the
supervisor's log. -/
def State.passOn (s : State) (inst : Nat) (p : Party) (ds : List Deferred) : State :=
  (ds.filter fun d => d.parked.isSome).foldl (fun s d =>
    match s.heir inst p, s.wg? inst with
    | some q, _ => s.defer q d
    | none, some g => s.logCause g.core g.ctx d.cause
    | none, none => s) s

/-! ### Exits -/

/-- A warp whose threads have all ended: its names are unmapped and its ports unbound, and its grains count as lost
(R49, R75, R288). -/
def State.warpExit (s : State) (w : WRef) : State :=
  let x := s.warp w
  let rows := x.map.filterMap fun e => e.2
  let s := rows.foldl (fun s r => s.dropRef (s.rowId w r)) s
  let s := s.modWarp w fun x => { x with map := [], q := [] }
  match w with
  | .sup _ => s
  | .user inst _ =>
    let s := (s.loseGrains (s.coreOf w) (s.ctxOf w) (x.kGet 63) (x.kGet 62) x.clk).modWarp w fun x =>
      { x.kSet 62 0 (x.kMarked 62) with deferred := [] }
    s.passOn inst w.party x.deferred

/-- Ends the threads of the lanes of `m` (R32): meetings and rounds are evaluated again, and a warp without threads has
exited. -/
def State.exitThreads (s : State) (w : WRef) (m : Mask) (how : ExitStatus) : State :=
  let x := s.warp w
  let m := m &&& x.live
  if m = 0 then s
  else
    let cyc := s.cycleOf w
    let s := s.modWarp w fun x =>
      ({ x.modThreads m fun _ t => { t with st := .exited how } with running := x.running &&& ~~~m, yielding := x.yielding &&& ~~~m }).meet cyc
    let s := match w with | .user .. => s.dropWaits w.party m | .sup _ => s
    let gone := (s.warp w).exited
    let s := if gone then s.warpExit w else s
    match w with
    | .sup _ => s
    | .user inst _ => if gone then (s.closeRounds inst).recountAll inst else s.closeRounds inst

/-! ### Kills (R354, R355) -/

/-- The uses that kill, by their codes in the record (R355). -/
inductive Use where
  | address | branch | storeData | atomic | command | fabric | guard
  deriving DecidableEq, Repr

def Use.code : Use → Nat
  | .address => 1 | .branch => 2 | .storeData => 3 | .atomic => 4 | .command => 5 | .fabric => 6 | .guard => 7

/-- The record of kills (R355) after `n` more of which the first is given. -/
def poisonRecord (old : BitVec 256) (n : Nat) (pc : DWord) (wg warp lane use : Nat) (now : DWord) : BitVec 256 :=
  let count := (old.extractLsb' 192 64).toNat
  let total := if count + n < 2 ^ 64 then count + n else 2 ^ 64 - 1
  if count = 0 then
    BitVec.ofNat 256 (total * 2 ^ 192 + pc.toNat * 2 ^ 128 + wg % 2 ^ 32 * 2 ^ 96 + warp % 256 * 2 ^ 88 + lane % 256 * 2 ^ 80 +
      use * 2 ^ 72 + now.toNat)
  else BitVec.ofNat 256 (total * 2 ^ 192) ||| (old &&& BitVec.ofNat 256 (2 ^ 192 - 1))

/-- Kills the threads of the lanes of `m` at an instruction. -/
def State.kill (s : State) (c : Ctx) (m : Mask) (use : Use) : State :=
  let m := m &&& (s.warp c.ref).live
  match Lanes.low m with
  | none => s
  | some l =>
    let s := match c.ref with
      | .sup _ => s
      | .user inst w =>
        match s.wg? inst with
        | none => s
        | some g =>
          if g.copyOf.isSome then s.copyFails inst else
          match s.grid? g.grid with
          | none => s
          | some gr =>
            let rec_ := poisonRecord gr.poison (Lanes.list m).length c.pc g.wgid w l use.code s.now
            { s with grids := s.grids.put none g.grid (some { gr with poison := rec_ }) }
    s.exitThreads c.ref m .poison

def Use.all : List Use := [.address, .branch, .storeData, .atomic, .command, .fabric, .guard]

/-- Threads are to be killed once an operation has passed its checks (R245): they leave their clause. -/
def Warp.doom (w : Warp) (m : Mask) (op : Nat) (use : Use) : Warp :=
  { w.modThreads m fun _ t => if t.exited || t.doomed then t else { t with st := .doomed op use.code }
    with running := w.running &&& ~~~m }

/-- The threads that an operation may still kill. -/
def Warp.doomedBy (w : Warp) (op : Nat) (f : Nat → Bool) : Mask :=
  w.lanesWhere fun t => match t.st with | .doomed o u => o == op && f u | _ => false

/-- The operation has passed its checks: the threads that it has doomed are killed (R245, R353). -/
def State.killDoomed (s : State) (c : Ctx) (op : Nat) : State :=
  Use.all.foldl (fun s u => s.kill c ((s.warp c.ref).doomedBy op (· == u.code)) u) s

/-- The operation failed after its warp had gone on: it kills no one, and the threads go on behind it (R353, R446). -/
def State.spareDoomed (s : State) (c : Ctx) (op : Nat) : State :=
  let m := (s.warp c.ref).doomedBy op fun _ => true
  if m = 0 then s else (s.modWarp c.ref fun x => x.modThreads m fun _ t => { t with st := .ready }).advance c m []

/-! ### Instructions with uniform operands (R266, R353) -/

/-- Runs the body of an instruction that executes once per issue (R59), for the lanes whose guard is not poisoned. `marked`
says that a uniform operand is poisoned: once the checks pass, every executing thread is killed instead. Lanes with a
poisoned guard are killed too (R353). A wait in the midst of the checks kills no one yet. -/
def uniformOp (s : State) (c : Ctx) (h : Head) (marked : Bool) (use : Use) (body : Ctx → M State) : M State :=
  let g := c.guardMarks s h
  let c' := { c with group := c.group &&& ~~~g }
  let lost := fun s : State => s.kill c g .guard
  if c'.group = 0 || !c'.executes s h then .ok (lost s)
  else
    let dead := c'.active s h
    match body c' with
    | .ok s' => .ok (lost (if marked then s.kill c' dead use else s'))
    | .error (.block s') => if marked then .ok (lost (s.kill c' dead use)) else .error (.block (lost s'))
    | .error (.early s') => .error (.early s')
    | .error (.trap d) => .error (.trap d)
    | .error (.drop s' d) => .error (.drop s' d)

/-! ### Instructions that a fence holds (R264) -/

/-- The instruction counts as issued and waits in the list of operations, with the registers that it has read. Its flag rises; an
instruction that uses its result waits for it. -/
def State.holdOp (s : State) (c : Ctx) (h : Head) (i : Instr) (dests : List Reg) : State :=
  let w := s.warp c.ref
  let (id, s) := s.addOp c h.flag.toNat (.held i w.k w.kMark w.kp w.kpMark w.a w.p w.pMark none) [] true
  s.modWarp c.ref fun w =>
    { w.flagUp h.flag.toNat with
      inflight := w.inflight ++
        [{ id := id, flag := h.flag.toNat, window := none, dests := dests, readyAt := none, holds := !dests.isEmpty, failed := false }] }

/-- Runs an instruction whose checks are made at issue and whose effect a pending fence of its party holds back. -/
def heldBehind (s : State) (c : Ctx) (h : Head) (i : Instr) (dests : List Reg) (run : M State) : M State :=
  match run with
  | .error (.trap d) => .error (.trap d)
  | .error (.drop s' d) => .error (.drop s' d)
  | r => if c.executes s h && s.fencePending c.core c.party s.nextId then .ok (s.holdOp c h i dests) else r

/-- The workgroup of the warp that issues; the supervisor warp has one to itself (R335; log 21). -/
def ownWg (s : State) (c : Ctx) : M (Nat × Nat × Wg) :=
  let (inst, w) := match c.ref with | .sup n => (supInst n, 0) | .user inst w => (inst, w)
  match s.wg? inst with
  | some g => .ok (inst, w, g)
  | none => trapCode 0x000

end Sys2Proof.Machine
end

