-- ==== Sys2Proof/Machine/Access.lean ====
section
/-! DEFINITION. Places in storage: the window map (R107 to R113), bytes and marks of every store behind it (R114, R116,
R257), race histories of an access (R142), range locks (R148), and the releases that words hold (R138). -/

namespace Sys2Proof.Machine

/-! ### Windows (R107 to R109) -/

/-- Far scratchpad starts here (R109). -/
def farBase : Nat := 524288

/-- Offsets [o, o + n) lie in the own-scratchpad window of a workgroup: in its near part, in its far part, or across both where the
near part is full. -/
def Wg.ownRange (g : Wg) (o n : Nat) : Bool :=
  decide (o + n ≤ g.near.length * 4096) ||
  ((decide (farBase ≤ o) || g.near.length * 4096 == farBase) && decide (o + n ≤ farBase + g.far.length * 4096))

/-- window out of range: window, offset and lane. -/
def outOfWindow (w : Nat) (a : DWord) (lane : Option Nat) : Detail := ⟨0x082, 0, w, 7, BitVec.ofNat 64 (windowOffset a), lane, none, none⟩

/-! ### Scratchpad (R112, R113, R78) -/

/-- The physical block of an own-window offset: core and block. -/
def Wg.block (g : Wg) (off : Nat) : Option (Nat × Nat) :=
  if off < farBase then g.near[off / 4096]? else g.far[(off - farBase) / 4096]?

/-- A block that a context touches: another owner's contents are zeroed first (R78). -/
def State.touchBlock (s : State) (core block ctx : Nat) : State :=
  s.modCore core fun c =>
    if c.sowner.get 0 block = ctx then c
    else
      let inBlock := fun (a : Nat) => decide (block * 4096 ≤ a) && decide (a < block * 4096 + 4096)
      { c with scratch := c.scratch.filter fun e => !inBlock e.1
               smarks := c.smarks.filter fun e => !inBlock (4 * e.1)
               sowner := c.sowner.put 0 block ctx }

/-- Where an own-window offset lies, after the scrub of its block. -/
def State.scratchAt (s : State) (inst off : Nat) : Option (Nat × Nat × State) := do
  let g ← s.wg? inst
  let (core, b) ← g.block off
  some (core, b * 4096 + off % 4096, s.touchBlock core b g.ctx)

/-! ### Bytes and marks of a place -/

/-- Reads a byte. A byte that the module does not hold is free (log 2, log 10). -/
def State.readAt (s : State) (p : Place) (key layout : Nat) : Byte × State :=
  match p with
  | .pa a => (s.readCell key (cellOf layout a), if s.isPeer a then { s with fresh := s.fresh + 1 } else s)
  | .scratch inst off =>
    match s.scratchAt inst off with
    | some (core, a, s) => ((s.core core).scratch.get 0 a, s)
    | none => s.free
  | .tape core off => (((s.core core).tape.ring.get 0 (off / 32)).extractLsb' (8 * (off % 32)) 8, s)
  | .records inst off => (match s.wg? inst with | some g => (g.records.getD off 0, s) | none => s.free)
  | .region .. => s.free

/-- Whether the word of a place is marked (R352). -/
def State.markAt (s : State) (p : Place) (layout : Nat) : Bool :=
  match p with
  | .pa a => s.cellMark (cellOf layout a)
  | .scratch inst off =>
    match s.scratchAt inst off with
    | some (core, a, s) => (s.core core).smarks.get false (a / 4)
    | none => false
  | .records inst off => (match s.wg? inst with | some g => g.recMarks.getD (off / 4) false | none => false)
  | _ => false

/-- A store into a backing region leaves records there undefined, and their grains may be lost or counted twice (R292): which, and how,
is free. -/
def BinRec.spoil (r : BinRec) (s : State) : BinRec × State :=
  if !r.back then (r, s)
  else
    let b := Config.freeByte s.fresh
    let data := (List.range r.data.length).map fun i => Config.freeByte (s.fresh + 1 + i)
    let grains := match b.toNat % 8 with | 1 => r.grains | 3 => 0 | 5 => 2 * r.grains | _ => r.grains
    (if b.getLsbD 0 then { r with data := data, grains := grains } else r, { s with fresh := s.fresh + 1 + r.data.length })

def spoilAll (s : State) : List BinRec → List BinRec × State
  | [] => ([], s)
  | r :: rs =>
    let (r, s) := r.spoil s
    let (rs, s) := spoilAll s rs
    (r :: rs, s)

/-- The records of a node's bins, and those of its resident workgroups that lie in the backing region, after a store there. -/
def State.spoil (s : State) (grid node : Nat) : State :=
  match s.grid? grid with
  | none => s
  | some g =>
    let (bins, s) := g.bins.foldl (fun (acc : List Bin × State) b =>
      if b.node != node then (acc.1 ++ [b], acc.2)
      else
        let (cl, s) := b.closed.foldl (fun (a : List (List BinRec) × State) rs => let (rs, s) := spoilAll a.2 rs; (a.1 ++ [rs], s)) ([], acc.2)
        let (ba, s) := spoilAll s b.batch
        (acc.1 ++ [{ b with closed := cl, batch := ba }], s)) ([], s)
    let s := { s with grids := s.grids.put none grid (some { g with bins := bins }) }
    s.wgs.foldl (fun s e =>
      match e.2 with
      | some w =>
        if w.grid = grid && w.node == some node && w.recBacked != 0 && (Config.freeByte s.fresh).getLsbD 0 then
          let data := (List.range w.records.length).map fun i => Config.freeByte (s.fresh + 1 + i)
          { s.setWg e.1 { w with records := data } with fresh := s.fresh + 1 + w.records.length }
        else { s with fresh := s.fresh + 1 }
      | none => s) s

/-- Writes a byte. The store reaches the stack arrays later (R116), and a byte of a slot's first sector makes the slot raw (R133). -/
def State.writeAt (s : State) (p : Place) (key layout : Nat) (b : Byte) : State :=
  match p with
  | .pa a =>
    if s.isPeer a then s
    else
      let cell := cellOf layout a
      let s := (s.lagStore (layout != 0) key cell).writeCell key cell b
      { s with spillFmt := s.spillFmt.del (cell / 32) }
  | .scratch inst off =>
    match s.scratchAt inst off with
    | some (core, a, s) => s.modCore core fun c => { c with scratch := c.scratch.put 0 a b }
    | none => s
  | .region g n => s.spoil g n
  | _ => s

/-- Sets the mark of the word of a place. -/
def State.setMarkAt (s : State) (p : Place) (layout : Nat) (m : Bool) : State :=
  match p with
  | .pa a => s.markCell (cellOf layout a) m
  | .scratch inst off =>
    match s.scratchAt inst off with
    | some (core, a, s) => s.modCore core fun c => { c with smarks := c.smarks.put false (a / 4) m }
    | none => s
  | _ => s

/-- The place `i` bytes on. -/
def Place.plus (p : Place) (i : Nat) : Place :=
  match p with
  | .pa a => .pa (a + i)
  | .scratch inst off => .scratch inst (off + i)
  | .tape core off => .tape core (off + i)
  | .records inst off => .records inst (off + i)
  | .region g n => .region g n

/-- Reads `n` bytes from a place on. -/
def State.readSpan (s : State) (p : Place) (key layout : Nat) : Nat → List Byte × State
  | 0 => ([], s)
  | n + 1 =>
    let (b, s) := s.readAt p key layout
    let (bs, s) := s.readSpan (p.plus 1) key layout n
    (b :: bs, s)

/-- Writes bytes from a place on. -/
def State.writeSpan (s : State) (p : Place) (key layout : Nat) : List Byte → State
  | [] => s
  | b :: bs => (s.writeAt p key layout b).writeSpan (p.plus 1) key layout bs

/-- The cells at which the words of a piece begin. -/
def Piece.cells (p : Piece) : List Nat :=
  match p.place with
  | .pa a => (List.range ((p.bytes + 3) / 4)).map fun i => cellOf p.layout (a + 4 * i)
  | _ => []

/-- An access brings the lines of a piece into their slices, as its CACHE field says (R116, R171). -/
def State.useLines (s : State) (cache : Nat) (p : Piece) : State := p.cells.foldl (fun s c => s.useSlice cache p.key c) s

/-- Sends the access of a piece that lies on another member (R405, R416). -/
def State.askPeer (s : State) (p : Piece) (r : PeerReq) : State :=
  match p.place with
  | .pa a => if s.isPeer a then s.emit (.access (peerAddr a).1 (peerAddr a).2 p.bytes r) else s
  | _ => s

/-- The piece lies on another member. -/
def State.onPeer (s : State) (p : Piece) : Bool := match p.place with | .pa a => s.isPeer a | _ => false

/-- Reads the bytes of a piece, in an access of a scope. -/
def State.readPieceAs (s : State) (scope : Nat) (p : Piece) : List Byte × State :=
  let s := s.askPeer p (.read (BitVec.ofNat 3 scope))
  let (bs, s) := s.readSpan p.place p.key p.layout p.bytes
  (bs, s.useLines 0 p)

def State.readPiece (s : State) (p : Piece) : List Byte × State := s.readPieceAs 0 p

/-- A word of a piece is marked. -/
def State.pieceMark (s : State) (p : Piece) : Bool :=
  (List.range ((p.bytes + 3) / 4)).any fun i => s.markAt (p.place.plus (4 * i)) p.layout

/-- The marks of the words of a piece. -/
def State.pieceMarks (s : State) (p : Piece) : List Bool :=
  (List.range ((p.bytes + 3) / 4)).map fun i => s.markAt (p.place.plus (4 * i)) p.layout

/-- A zero byte stored under key 0 empties the histories that it holds, in the tag region that tagbase names or may come to name (R389;
log 77). -/
def State.zeroTags (s : State) (p : Piece) (bs : List Byte) : State :=
  match p.place with
  | .pa a =>
    if p.key == 0 then
      s.dropHist fun l =>
        match l with
        | .word k => decide (a ≤ k / 4) && bs.getD (k / 4 - a) 1 == 0
        | _ => false
    else s
  | _ => s

/-- Writes the bytes of a piece, in an access that releases at a scope. A word that is written whole takes the mark `m`; a word written in
part keeps its own (R257). No L1 keeps the lines (R117). -/
def State.writePieceAs (s : State) (scope : Nat) (p : Piece) (bs : List Byte) (m : Nat → Bool) : State :=
  let s := s.askPeer p (.write (BitVec.ofNat 3 scope) (bs.take p.bytes))
  let s := (s.zeroTags p (bs.take p.bytes)).writeSpan p.place p.key p.layout (bs.take p.bytes)
  let s := (List.range (p.bytes / 4)).foldl (fun s i => s.setMarkAt (p.place.plus (4 * i)) p.layout (m i)) s
  p.cells.foldl State.leaveL1 (s.useLines 0 p)

def State.writePiece (s : State) (p : Piece) (bs : List Byte) (m : Nat → Bool) : State := s.writePieceAs 0 p bs m

/-- Reads several pieces as one run of bytes. -/
def State.readPieces (s : State) (scope : Nat) : List Piece → List Byte × State
  | [] => ([], s)
  | p :: ps =>
    let (b, s) := s.readPieceAs scope p
    let (bs, s) := s.readPieces scope ps
    (b ++ bs, s)

/-- Writes a run of bytes over several pieces; `m` gives the mark of each word. -/
def State.writePieces (s : State) (scope : Nat) (m : Nat → Bool) : List Piece → List Byte → State
  | [], _ => s
  | p :: ps, bs => (s.writePieceAs scope p bs m).writePieces scope (fun i => m (i + (p.bytes + 3) / 4)) ps (bs.drop p.bytes)

/-! ### Locations and histories (R142) -/

/-- The locations with histories that a piece touches. -/
def Piece.locs (p : Piece) : List Loc :=
  let n := (p.bytes + 3) / 4
  match p.place with
  | .pa a => if p.tracked then (List.range n).map fun i => .word (cellOf p.layout (a + 4 * i) / 4) else []
  | .scratch inst off => (List.range n).map fun i => .scratch inst ((off + 4 * i) / 4)
  | _ => []

/-- The party with which an access to some locations races. -/
def State.raceOf (s : State) (me : Party) (clk : Clock) (writes atomic : Bool) (ls : List Loc) : Option Party :=
  ls.findSome? fun l => (s.histAt l).race me clk writes atomic

/-- Enters an access in the histories of its locations. -/
def State.addHist (s : State) (a : Acc) (writes : Bool) (ls : List Loc) : State :=
  ls.foldl (fun s l => s.setHist l ((s.histAt l).add a writes)) s

/-! ### Releases held by words (R138) -/

/-- The bytes of word `i` of a piece that the piece covers, a bit a byte. -/
def Piece.wordBytes (p : Piece) (i : Nat) : Nat :=
  let a := match p.place with | .pa a => a | .scratch _ off => off | _ => 0
  (List.range 4).foldl (fun m j => if 4 * i + j < p.bytes then m ||| 2 ^ ((a + j) % 4) else m) 0

/-- The releases whose values a read of the piece returns: those that its bytes hold. -/
def State.relsOf (s : State) (p : Piece) : List Rel :=
  (List.range ((p.bytes + 3) / 4)).flatMap fun i =>
    let rs := match p.place with
      | .pa a => (assoc? s.rels (cellOf p.layout (a + 4 * i) / 4)).getD []
      | .scratch inst off => (assoc? s.scratchRels (inst, (off + 4 * i) / 4)).getD []
      | _ => []
    rs.filter fun r => r.bytes &&& p.wordBytes i != 0

/-- What a write of some bytes of a word leaves of its releases, with its own. After an atomic the whole value comes later than each in
the word's order, so that an acquire that reads it reads each release; after a store no read of the bytes that it overwrites does, until
an atomic comes. A release that a later one of its party at its scope covers is dropped once it has no bytes of its own. -/
def nextRels (old own : List Rel) (bytes : Nat) (atomic : Bool) : List Rel :=
  let old := old.map fun r => { r with bytes := if atomic then 15 else r.bytes &&& (15 - bytes) }
  (old.filter fun r => !own.any fun o => o.party == r.party && o.scope == r.scope && (atomic || r.bytes == 0)) ++
  own.map fun r => { r with bytes := if atomic then 15 else bytes }

/-- The releases of the words of a piece after a write of it. -/
def State.setRels (s : State) (p : Piece) (own : List Rel) (atomic : Bool) : State :=
  (List.range ((p.bytes + 3) / 4)).foldl (fun s i =>
    match p.place with
    | .pa a =>
      let k := cellOf p.layout (a + 4 * i) / 4
      let rs := nextRels ((assoc? s.rels k).getD []) own (p.wordBytes i) atomic
      { s with rels := if rs.isEmpty then assocDel s.rels k else assocPut s.rels k rs }
    | .scratch inst off =>
      let k := (inst, (off + 4 * i) / 4)
      let rs := nextRels ((assoc? s.scratchRels k).getD []) own (p.wordBytes i) atomic
      { s with scratchRels := if rs.isEmpty then assocDel s.scratchRels k else assocPut s.scratchRels k rs }
    | _ => s) s

/-- What an acquire of `me` at a scope orders: the releases whose scope and its own enclose both parties. -/
def State.acquired (s : State) (me : Party) (scope : Nat) (rs : List Rel) : Clock :=
  rs.foldl (fun c r => if s.encloses r.scope r.party me && s.encloses scope r.party me then Clock.join c r.clk else c) []

/-! ### Screening (R429, R430) -/

/-- One bit of CRC-64 with the ECMA-182 polynomial. -/
def crcStep (c : DWord) : DWord := if c.getLsbD 63 then (c <<< 1) ^^^ 0x42f0e1eba9ea3693 else c <<< 1

/-- CRC-64 of some bytes, initial value 0. -/
def crc64 (bs : List Byte) : DWord :=
  bs.foldl (fun (c : DWord) (b : Byte) => (List.range 8).foldl (fun c _ => crcStep c) (c ^^^ (BitVec.setWidth 64 b <<< 56))) 0

/-- The record of a global write. -/
def writeRecord (a : DWord) (data : List Byte) : List Byte :=
  leBytes 8 a.toNat ++ [BitVec.ofNat 8 data.length] ++ data ++ List.replicate (16 - data.length) 0

/-- The party runs a screen copy. -/
def State.isCopy (s : State) (p : Party) : Bool :=
  match p.inst?.bind s.wg? with
  | some g => g.copyOf.isSome
  | none => false

def Piece.global (p : Piece) : Bool := match p.place with | .pa _ => true | _ => false

/-- A global write enters the signature of a screened workgroup or of its copy. -/
def State.signWrite (s : State) (p : Party) (a : DWord) (data : List Byte) : State :=
  match p.inst? with
  | none => s
  | some i =>
    match s.wg? i with
    | none => s
    | some g => if g.screened || g.copyOf.isSome then s.setWg i { g with signature := g.signature + crc64 (writeRecord a data) } else s

/-- The effects that a screen copy suppresses on global memory. -/
def Eff.muted : Eff → Bool
  | .store _ | .spill | .redv .. | .atomic _ _ none _ => true
  | _ => false

/-- The operation's global writes are suppressed. -/
def State.mute (s : State) (o : MemOp) : Bool := o.eff.muted && s.isCopy o.party

/-- The locations that a lane of an operation accesses. -/
def State.laneLocs (s : State) (o : MemOp) (l : LaneAcc) : List Loc :=
  (if s.mute o then l.pieces.filter fun p => !p.global else l.pieces).flatMap Piece.locs

/-! ### Range locks (R148) -/

/-- The address in the private region of byte `o` of a lane's private window (R111). -/
def privateVa (r : LaunchRec) (wgid warp lane o : Nat) : Nat :=
  r.priv.toNat + (wgid * r.warps + warp) * 32 * r.privsz + o / 4 * 128 + lane * 4 + o % 4

/-- The ranges of generic addresses that an access of a lane touches, as locks compare them: one of the private window is an access to
the private region, word by word, a spill or a fill to its slot of 128 bytes (R111, R132), one of the parameter window to the parameter
block (R108). -/
def State.lockSpans (s : State) (p : Party) (lane : Nat) (a : DWord) (n : Nat) (slot : Bool) : List (DWord × Nat) :=
  match windowOf a, p.warp?.bind fun x => (s.wg? x.1).map fun g => (g, x.2) with
  | some 4, some (g, _) => [(BitVec.ofNat 64 ((s.launchOf g.grid).param.toNat + windowOffset a), n)]
  | some 5, some (g, w) =>
    let va := fun (l o : Nat) => BitVec.ofNat 64 (privateVa (s.launchOf g.grid) g.wgid w l o)
    let o := windowOffset a
    if slot then [(va 0 (o / 4 * 4), 128)]
    else if n ≤ 4 then [(va lane o, n)]
    else (List.range (n / 4)).map fun i => (va lane (o + 4 * i), 4)
  | _, _ => [(a, n)]

/-- The lock with which a thread's access conflicts. -/
def State.lockConflict (s : State) (core ctx : Nat) (inst : Option Nat) (a : DWord) (n : Nat) (writes : Bool) : Option RangeLock :=
  let (i, base) := s.lockAddr inst a
  (s.locksFor core i).find? fun l => l.hits ctx i base n && (l.dest || writes)

/-- KIND of R310 and R345. -/
def MatKind.code : MatKind → Nat
  | .mma => 0 | .mmac => 1 | .accld => 2 | .accst => 3 | .accmv => 4 | .mepi => 5 | .mzero => 6

/-- The KIND of a copy, CPY or CPYT, and of a bank operation (R345). -/
def CopyCmd.kind (c : CopyCmd) : Nat := if c.deadline.isSome then 9 else 8
def BankCmd.kind (c : BankCmd) : Nat := 10 + c.opk

/-- The flag index that an engine operation counts on, 15 for none (R345), and its kind. It may be another core's, where a lock lies on
a scratchpad. -/
def State.opInfo (s : State) (op : Nat) : Nat × Nat :=
  let index := fun (flag : Nat) => if flag = 0 then 15 else flag - 1
  match s.cores.findSome? fun e => e.2.mats.find? fun m => m.id == op with
  | some m => (match m.flags with | f :: _ => f.2 - 1 | [] => 15, m.kind.code)
  | none =>
    let wgs := s.allWgs.map (·.2)
    match wgs.findSome? fun g => g.chans.findSome? fun c => c.2.ops.find? fun o => o.id == op with
    | some o => (index o.flag, o.cmd.kind)
    | none =>
      match wgs.findSome? fun g => g.bankOps.find? fun o => o.id == op with
      | some o => (index o.flag, o.cmd.kind)
      | none => (15, 0)

/-- range lock conflict: the address, and the operation's flag and kind (R149; log 22). -/
def State.lockDetail (s : State) (l : RangeLock) (a : DWord) (lane : Option Nat) : Detail :=
  let (flag, kind) := s.opInfo l.op
  ⟨0x091, BitVec.ofNat 32 flag, 0, 7, a, lane, none, some kind⟩

end Sys2Proof.Machine
end

