-- ==== Sys2Proof/Machine/Memory.lean ====
section
/-! DEFINITION. Loads, stores, spills and fills (R240 to R258): addresses, checks 2 to 7 at issue, checks 8 and 9 where the
access is performed, and completion (R446). -/

namespace Sys2Proof

/-- Whether DATA makes a uniform access (R241). -/
def Opnd.uniformData : Opnd → Bool
  | .v _ => false
  | _ => true

end Sys2Proof

namespace Sys2Proof.Machine

/-! ### Address registers (R124 to R126) -/

/-- The access size of SZ (R171). -/
def sizeOf (sz : BitVec 3) : Nat := 2 ^ sz.toNat

/-- OFF16, sign-extended and scaled. -/
def scaledOff (b : BodyM) (size : Nat) : DWord := b.off.signExtend 64 * BitVec.ofNat 64 size

/-- The address of lane term l (R125). -/
def AReg.addr (a : AReg) (mode : Nat) (off : DWord) (size l : Nat) : DWord :=
  let step := BitVec.ofNat 64 (l * size)
  match mode with
  | 0 | 3 => a.ptr + off + step
  | 1 | 2 => a.ptr + step
  | _ => a.ptr + off + BitVec.ofNat 64 l * a.step.signExtend 64

/-- PTR − BASE + d, modulo MODLEN, from BASE. -/
def AReg.ring (a : AReg) (d : DWord) : DWord :=
  BitVec.ofInt 64 ((a.base.toNat : Int) + ((a.ptr.toNat : Int) - a.base.toNat + d.toInt) % (a.modlen.toNat : Int))

/-- PTR after the access. -/
def AReg.newPtr (a : AReg) (mode : Nat) (off : DWord) : DWord :=
  match mode with
  | 1 | 3 => a.ptr + off
  | 2 => a.ring off
  | _ => a.ptr

/-- The kind of an access is permitted. -/
def AReg.permits (a : AReg) : AccKind → Bool
  | .load => a.r
  | .store => a.w
  | .atomic => a.a
  | _ => a.e

/-- PTR lies in the modulo ring. -/
def AReg.inRing (a : AReg) : Bool :=
  a.modlen != 0 && decide (a.base.toNat ≤ a.ptr.toNat) && decide (a.ptr.toNat < a.base.toNat + a.modlen.toNat)

/-- Bytes [x, x + n) lie in [BASE, LIMIT). -/
def AReg.covers (a : AReg) (x n : Nat) : Bool := decide (a.base.toNat ≤ x) && decide (x + n ≤ a.limit.toNat)

/-- An access as an instruction names it. -/
structure Acces where
  kind : AccKind
  areg : Nat
  mode : Nat
  off : DWord
  size : Nat
  deriving DecidableEq, Repr

/-- Traps with the first lane for which a check fails. -/
def firstFail (f : Nat × DWord → Option Detail) (xs : List (Nat × DWord)) : M Unit :=
  match xs.findSome? f with
  | some d => trapWith d
  | none => .ok ()

/-- Check 3 (R126). `lane` names a lane in the log, none for a uniform access. -/
def checkAReg (a : AReg) (x : Acces) (lane : Nat → Option Nat) (addrs : List (Nat × DWord)) : M Unit := do
  need (x.mode != 2 || a.inRing) ⟨0x087, 0, x.areg, 7, 0, none, none, none⟩
  need (a.permits x.kind) ⟨0x085, BitVec.ofNat 32 x.kind.num, x.areg, 7, 0, none, none, none⟩
  firstFail (fun (l, p) => if a.covers p.toNat x.size then none else some ⟨0x084, 0, x.areg, 7, p, lane l, none, none⟩) addrs
  let np := a.newPtr x.mode x.off
  need (decide (a.base.toNat ≤ np.toNat) && decide (np.toNat ≤ a.limit.toNat)) ⟨0x084, 0, x.areg, 7, np, none, none, none⟩
  firstFail (fun (l, p) => if p.toNat % x.size = 0 then none
    else some ⟨0x086, BitVec.ofNat 32 x.size, x.areg, 7, p, lane l, none, none⟩) addrs

/-! ### From an address to pieces (checks 6 and 7) -/

/-- A piece of translated storage. -/
def State.leafPiece (s : State) (l : Leaf) (n : Nat) : Piece := ⟨s.placeOfPa l.pa, n, l.pte.rt, l.pte.key, l.pte.layout⟩

/-- Translates consecutive words of an access that lie `stride` apart. -/
def State.translateWords (s : State) (core ctx cls : Nat) (kind : AccKind) (holds : List TlbEntry) (va n stride : Nat) :
    Nat → Except Detail (List Piece × List TlbEntry × State)
  | 0 => .ok ([], holds, s)
  | k + 1 =>
    match s.translateHeld core ctx cls kind holds (BitVec.ofNat 64 va) with
    | .error d => .error d
    | .ok (l, holds, s) =>
      match State.translateWords s core ctx cls kind holds (va + stride) n stride k with
      | .error d => .error d
      | .ok (ps, holds, s) => .ok (s.leafPiece l n :: ps, holds, s)

/-- Check 6: window decoding and range (R108, R109); window 3 belongs to the workgroup that owns the tape (R293). -/
def checkWindow (s : State) (c : Ctx) (size : Nat) (a : DWord) (lane : Option Nat) : Option Detail :=
  match windowOf a with
  | none => none
  | some w =>
    let o := windowOffset a
    if 6 ≤ w then some ⟨0x081, 0, 0, 7, a, lane, none, none⟩
    else
      let g := match c.ref with | .user inst _ => s.wg? inst | .sup _ => none
      let r := match g with | some g => s.launchOf g.grid | none => 0
      let ok := match w with
        | 0 => (match g with | some g => g.ownRange o size | none => false)
        | 1 => (match g with
          | some g => (match (s.rankInst g.team (o / 4194304)).bind s.wg? with
            | some t => t.ownRange (o % 4194304) size
            | none => false)
          | none => false)
        | 2 => (match g with | some g => decide (o + size ≤ g.recCount * ((g.recSize + 15) / 16 * 16)) | none => false)
        | 3 => decide (o + size ≤ 65536)
        | 4 => g.isSome && decide (o + size ≤ r.parsz)
        | _ => g.isSome && decide (o + size ≤ r.privsz)
      let gone := w == 1 && (match g with | some g => s.rankLost g.team (o / 4194304) | none => false)
      let foreign := w == 3 && (match c.ref with | .user inst _ => (s.core c.core).tape.owner != some inst | .sup _ => false)
      if ok then (if foreign then some { Detail.code_ 0x10d with lane := lane } else none) else if gone then some (lostRank (o / 4194304) a lane) else some (outOfWindow w a lane)

/-- Check 7: the pieces of one lane's access, with the pages that its instruction has looked up. -/
def State.resolve (s : State) (c : Ctx) (kind : AccKind) (holds : List TlbEntry) (size : Nat) (a : DWord) (lane : Nat) :
    Except Detail (List Piece × List TlbEntry × State) :=
  let words := s.translateWords c.core c.ctx (warpClass c.ref) kind holds
  let o := windowOffset a
  match windowOf a, c.ref with
  | none, _ => words a.toNat size 0 1
  | some 0, .user inst _ => .ok ([⟨.scratch inst o, size, true, 0, 0⟩], holds, s)
  | some 1, .user inst _ =>
    match (s.wg? inst).bind fun g => s.rankInst g.team (o / 4194304) with
    | some j => .ok ([⟨.scratch j (o % 4194304), size, true, 0, 0⟩], holds, s)
    | none => .error (outOfWindow 1 a none)
  | some 2, .user inst _ => .ok ([⟨.records inst o, size, false, 0, 0⟩], holds, s)
  | some 3, _ => .ok ([⟨.tape c.core o, size, false, 0, 0⟩], holds, s)
  | some 4, .user inst _ =>
    match s.wg? inst with
    | some g => words ((s.launchOf g.grid).param.toNat + o) size 0 1
    | none => .error (outOfWindow 4 a none)
  | some 5, .user inst w =>
    match s.wg? inst with
    | some g =>
      let r := s.launchOf g.grid
      if size ≤ 4 then words (privateVa r g.wgid w lane o) size 0 1
      else words (privateVa r g.wgid w lane o) 4 128 (size / 4)
    | none => .error (outOfWindow 5 a none)
  | some w, _ => .error (outOfWindow w a none)

/-- Resolves every lane, looking each page up once (R386); the log names the lane. -/
def resolveAll (s : State) (c : Ctx) (kind : AccKind) (size : Nat) (name : Nat → Option Nat) (holds : List TlbEntry) :
    List (Nat × DWord) → M (List (Nat × DWord × List Piece) × State)
  | [] => .ok ([], s)
  | (l, a) :: t =>
    match s.resolve c kind holds size a l with
    | .error d => trapWith { d with lane := name l }
    | .ok (ps, holds, s) => do
      let (r, s) ← resolveAll s c kind size name holds t
      .ok ((l, a, ps) :: r, s)

/-- Checks 3 to 7 of R243 for the lanes of an access, and their pieces. `windows` admits a window, none a virtual
address. -/
def checkAccess (s : State) (c : Ctx) (x : Acces) (windows : Option Nat → Bool) (uniform : Bool) (lanes : List Nat) :
    M (List (Nat × DWord × List Piece) × State) := do
  let a := (s.warp c.ref).aGet x.areg
  let name := fun (l : Nat) => if uniform then none else some l
  let addrs := lanes.map fun l => (l, a.addr x.mode x.off x.size l)
  checkAReg a x name addrs
  firstFail (fun (l, p) => if canonical p then none else some ⟨0x080, 0, 0, 7, p, name l, none, none⟩) addrs
  firstFail (fun (l, p) =>
    if windows (windowOf p) then none else some ⟨0x088, 0, (windowOf p).getD 0, 7, p, name l, none, none⟩) addrs
  firstFail (fun (l, p) => checkWindow s c x.size p (name l)) addrs
  resolveAll s c x.kind x.size name [] addrs

/-- The PTR update (R125): once per issuing group. -/
def State.updatePtr (s : State) (c : Ctx) (x : Acces) : State :=
  s.modWarp c.ref fun w => let a := w.aGet x.areg; w.aSet x.areg { a with ptr := a.newPtr x.mode x.off }

/-! ### Issue -/

/-- The registers of DATA as an operation in flight writes them. -/
def dataDests (o : Opnd) (n : Nat) : List Reg := o.destRegs n

/-- The bytes of DATA in a lane, and whether an element is marked. -/
def State.dataBytes (s : State) (c : Ctx) (o : Opnd) (regs size l : Nat) : List Byte × Bool :=
  let vals := (List.range regs).map fun i =>
    match o with
    | .v n => s.opnd c (.v (n + BitVec.ofNat 8 i)) false l
    | .u n => s.opnd c (.u (n + BitVec.ofNat 8 i)) false l
    | o => s.opnd c o false l
  (((vals.flatMap fun v => leBytes 4 (v.1.setWidth 32).toNat)).take size, vals.any (·.2))

/-- The lanes that an access covers: the active lanes, or lane term 0 of a uniform access that executes (R241). -/
def accessLanes (s : State) (c : Ctx) (h : Head) (uniform : Bool) : List Nat :=
  if uniform then (if c.executes s h then [0] else []) else Lanes.list (c.active s h)

/-- Counts an operation in flight (R166, R167). -/
def State.flyOp (s : State) (c : Ctx) (h : Head) (id : Nat) (dests : List Reg) : State := s.launchFlight c h id dests none

/-- Ends the issue of an access: PTR, the operation, and the kills of R245, which wait for the operation's checks (R353): a lane that poison
will kill is checked with the others, and accesses nothing. `before` is the state before the operand's rows were accessed. -/
def launchAccess (before s : State) (c : Ctx) (h : Head) (x : Acces) (eff : Eff) (uniform : Bool) (lanes : List LaneAcc)
    (dests : List Reg) (dead : Mask × Use) (split : List LaneAcc → List LaneAcc := id) : State :=
  let a := (s.warp c.ref).aGet x.areg
  let guard := c.guardMarks s h
  let act := c.active s h
  let gone := if a.mark then act else dead.1
  let rest := act &&& ~~~gone &&& ~~~guard
  let all := lanes.map fun l => { l with ghost := if uniform then rest = 0 else !rest.has l.lane }
  let undo := before.histsBefore s
  let s := s.updatePtr c x
  let use := if a.mark then Use.address else dead.2
  if all.isEmpty then (s.kill c gone use).kill c guard .guard
  else
    let (id, s) := s.addOp c h.flag.toNat eff (split all) uniform
    let s := s.modOp c.core id fun o => { o with undo := undo }
    (s.flyOp c h id dests).modWarp c.ref fun w => (w.doom (gone &&& act) id use).doom guard id .guard

/-- A plain load (R246, R247). -/
def loadInstr (s : State) (c : Ctx) (h : Head) (b : BodyM) (windows : Option Nat → Bool) : M State := do
  let size := sizeOf b.sz
  let uniform := b.data.uniformData
  let names := namesOf b.data b.dataRegs 4
  checkNames (s.warp c.ref) names
  let x : Acces := ⟨.load, b.areg.toNat, b.mode.toNat, scaledOff b size, size⟩
  let (rs, s1) ← checkAccess s c x windows uniform (accessLanes s c h uniform)
  let s2 ← s1.rowAccess c (if uniform then 0 else c.active s h) true names
  let lanes := rs.map fun (l, a, ps) => (⟨l, a, ps, [], false⟩ : LaneAcc)
  .ok (launchAccess s1 s2 c h x (.load b.data size (b.mod.getLsbD 0) b.scope.toNat) uniform lanes (dataDests b.data b.dataRegs)
    (0, .address))

/-- A plain store. -/
def storeInstr (s : State) (c : Ctx) (h : Head) (b : BodyM) (windows : Option Nat → Bool) : M State := do
  let size := sizeOf b.sz
  let uniform := b.data.uniformData
  let names := namesOf b.data b.dataRegs 4
  checkNames (s.warp c.ref) names
  let x : Acces := ⟨.store, b.areg.toNat, b.mode.toNat, scaledOff b size, size⟩
  let (rs, s1) ← checkAccess s c x windows uniform (accessLanes s c h uniform)
  let act := c.active s h
  let s2 ← s1.rowAccess c (if uniform then 0 else act) false names
  let data := fun (l : Nat) => s2.dataBytes c b.data b.dataRegs size l
  let dead := if uniform then (if (data 0).2 then act else 0) else Lanes.mask fun l => act.has l && (data l).2
  let lanes := rs.map fun (l, a, ps) => (⟨l, a, ps, (data l).1, false⟩ : LaneAcc)
  .ok (launchAccess s1 s2 c h x (.store b.scope.toNat) uniform lanes [] (dead, .storeData))

def execLd (h : Head) (b : BodyM) (s : State) : Host.Outcome State Fault Refusal :=
  runOp s h fun c => loadInstr s c h b fun w => w != some 4

def execSt (h : Head) (b : BodyM) (s : State) : Host.Outcome State Fault Refusal :=
  runOp s h fun c => storeInstr s c h b fun w => w != some 2 && w != some 3 && w != some 4

def execLds (h : Head) (b : BodyM) (s : State) : Host.Outcome State Fault Refusal :=
  runOp s h fun c => loadInstr s c h b fun w => w == some 0

def execSts (h : Head) (b : BodyM) (s : State) : Host.Outcome State Fault Refusal :=
  runOp s h fun c => storeInstr s c h b fun w => w == some 0

def execLdt (h : Head) (b : BodyM) (s : State) : Host.Outcome State Fault Refusal :=
  runOp s h fun c => loadInstr s c h b fun w => w == some 1

def execStt (h : Head) (b : BodyM) (s : State) : Host.Outcome State Fault Refusal :=
  runOp s h fun c => storeInstr s c h b fun w => w == some 1

def execLdc (h : Head) (b : BodyM) (s : State) : Host.Outcome State Fault Refusal :=
  runOp s h fun c => loadInstr s c h b fun w => w == some 4

/-! ### Spill and fill (R132, R256) -/

/-- The slot of a private offset: a 128-byte line (R111). -/
def State.slotPiece (s : State) (c : Ctx) (kind : AccKind) (a : DWord) : Except Detail (Piece × State) :=
  match c.ref with
  | .sup _ => .error (outOfWindow 5 a none)
  | .user inst w =>
    match s.wg? inst with
    | none => .error (outOfWindow 5 a none)
    | some g =>
      let r := s.launchOf g.grid
      let o := windowOffset a
      match s.translate c.core c.ctx (warpClass c.ref) kind (BitVec.ofNat 64 (privateVa r g.wgid w 0 (o / 4 * 4))) with
      | .ok (l, s) => .ok (s.leafPiece l 128, s)
      | .error d => .error d

/-- The checks of a spill or fill (R256), and its slot. -/
def checkSlot (s : State) (c : Ctx) (x : Acces) : M (DWord × Piece × State) := do
  let a := (s.warp c.ref).aGet x.areg
  let p := a.addr x.mode x.off 4 0
  checkAReg a x (fun _ => none) [(0, p)]
  need (canonical p) ⟨0x080, 0, 0, 7, p, none, none, none⟩
  need (windowOf p == some 5) ⟨0x088, 0, (windowOf p).getD 0, 7, p, none, none, none⟩
  match checkWindow s c 4 p none with
  | some d => trapWith d
  | none =>
    match s.slotPiece c x.kind p with
    | .error d => trapWith d
    | .ok (pc, s) => .ok (p, pc, s)

/-- A spill or fill that no thread executes: the checks of its address register that concern no lane, and the PTR update, which is written
even then (R125, R126). -/
def idleSlot (s : State) (c : Ctx) (x : Acces) : M State := do
  checkAReg ((s.warp c.ref).aGet x.areg) x (fun _ => none) []
  .ok (s.updatePtr c x)

/-- A spill's data: the lanes of the row and its poison mask. -/
def rowBytes (r : Row) : List Byte :=
  (List.range 32).flatMap (fun l => leBytes 4 (r.lane l).toNat) ++ leBytes 4 r.poison.toNat

def execStSpill (h : Head) (b : BodyM) (s : State) : Host.Outcome State Fault Refusal :=
  runOp s h fun c => do
    let names := namesOf b.data 1 4
    checkNames (s.warp c.ref) names
    let x : Acces := ⟨.store, b.areg.toNat, b.mode.toNat, scaledOff b 4, 4⟩
    if !c.executes s h then idleSlot s c x
    else
      let (p, pc, s1) ← checkSlot s c x
      let s2 ← s1.rowAccess c Mask.all false names
      let row := match s2.nameId c b.data.idx with | some i => (s2.getRow i).seenBy c.ctx | none => Row.zero
      let s3 := s2.updatePtr c x
      let (id, s4) := s3.addOp c h.flag.toNat .spill [⟨0, p, [pc], rowBytes row, false⟩] true
      .ok ((s4.modOp c.core id fun o => { o with undo := s1.histsBefore s2 }).flyOp c h id [])

/-- What a fill carries to its completion: the lanes whose guard is poisoned, whose elements are marked (R353). -/
def fillMarks (guard : Mask) : List Byte := if guard = 0 then [] else leBytes 4 guard.toNat

def execLdFill (h : Head) (b : BodyM) (s : State) : Host.Outcome State Fault Refusal :=
  runOp s h fun c => do
    let names := namesOf b.data 1 4
    checkNames (s.warp c.ref) names
    let x : Acces := ⟨.load, b.areg.toNat, b.mode.toNat, scaledOff b 4, 4⟩
    let guard := c.guardMarks s h
    if !c.executes s h then (idleSlot s c x).map fun s => s.markName c b.data.idx guard
    else
      let (p, pc, s1) ← checkSlot s c x
      let s2 ← s1.rowAccess c Mask.all true names
      let s3 := s2.updatePtr c x
      let (id, s4) := s3.addOp c h.flag.toNat (.fill b.data) [⟨0, p, [pc], fillMarks guard, false⟩] true
      .ok ((s4.modOp c.core id fun o => { o with undo := s1.histsBefore s2 }).flyOp c h id (dataDests b.data 1))

/-- The words of a spill. -/
def spillWords (bs : List Byte) : List Word := (List.range 32).map fun l => BitVec.ofNat 32 (leNat ((bs.drop (4 * l)).take 4))

/-- Every difference from the first lane lies in a signed range. -/
def deltasWithin (vs : List Word) (half : Nat) : Bool :=
  let v0 := vs.getD 0 0
  vs.all fun v => decide (((v - v0) + BitVec.ofNat 32 half).toNat < 2 * half)

/-- The form of a spill (R132): format byte and the bytes written. -/
def spillForm (vs : List Word) (poison : Mask) : Nat × List Byte :=
  let v0 := vs.getD 0 0
  let first := leBytes 4 v0.toNat
  let deltas := fun (n : Nat) => (List.range 31).flatMap fun i => leBytes n ((vs.getD (i + 1) 0 - v0).toNat)
  if poison ≠ 0 then (0, vs.flatMap fun v => leBytes 4 v.toNat)
  else if vs.all (· == 0) then (4, [])
  else if vs.all (· == v0) then (3, first)
  else if deltasWithin vs 128 then (1, first ++ deltas 1)
  else if deltasWithin vs 32768 then (2, first ++ deltas 2)
  else (0, vs.flatMap fun v => leBytes 4 v.toNat)

/-- The key of a slot's format byte: its first sector. -/
def Piece.slotKey (p : Piece) : Nat := match p.place with | .pa a => cellOf p.layout a / 32 | _ => 0

/-- A spill is performed. -/
def State.doSpill (s : State) (p : Piece) (data : List Byte) : State :=
  let poison : Mask := BitVec.ofNat 32 (leNat (data.drop 128))
  let (fmt, bs) := spillForm (spillWords data) poison
  let s := s.writePiece { p with bytes := bs.length } bs fun i => poison.has i
  { s with spillFmt := s.spillFmt.put 0 p.slotKey fmt }

/-- The lanes that a fill rebuilds, with their marks: byte `at_` + `n`·(l − 1) on holds the difference of lane l. -/
def State.doFill (s : State) (p : Piece) : List (Word × Bool) × State :=
  let (bs, s') := s.readPiece p
  let word := fun (o n : Nat) => leNat ((bs.drop o).take n)
  let mark := fun (o n : Nat) => (List.range n).any fun i => s.markAt (p.place.plus ((o + i) / 4 * 4)) p.layout
  let v0 : Word := BitVec.ofNat 32 (word 0 4)
  let m0 := mark 0 4
  let delta := fun (n l : Nat) =>
    let o := 4 + n * (l - 1)
    if l = 0 then (v0, m0)
    else (v0 + (BitVec.ofNat (8 * n) (word o n)).signExtend 32, m0 || mark o n)
  (match s.spillFmt.get 0 p.slotKey with
    | 4 => List.replicate 32 (0, false)
    | 3 => List.replicate 32 (v0, m0)
    | 1 => Lanes.build (delta 1)
    | 2 => Lanes.build (delta 2)
    | _ => Lanes.build fun l => (BitVec.ofNat 32 (word (4 * l) 4), mark (4 * l) 4), s')

/-! ### Checks 8 and 9 (R244, R446) -/

/-- The context of an operation's warp, for its register writes. -/
def MemOp.ctx_ (o : MemOp) (core : Nat) : Option Ctx :=
  match o.party with
  | .warp inst w => some ⟨.user inst w, o.group, o.hdrAddr, o.hdr, o.word, o.pc, core, o.ctx⟩
  | .sup n => some ⟨.sup n, o.group, o.hdrAddr, o.hdr, o.word, o.pc, core, 0⟩
  | _ => none

/-- The rank of a lost team member in whose scratchpad a piece lies (R414). -/
def State.lostPlace (s : State) (p : Party) (x : Piece) : Option Nat := do
  let inst ← p.inst?
  let g ← s.wg? inst
  let t ← s.team? g.team
  match x.place with
  | .scratch j _ => (t.lost.find? fun e => e.1 == j).map (·.2)
  | _ => none

/-- What is ordered before a lane of an operation: for an acquire, also the releases of the words it reads (R138). -/
def State.laneClock (s : State) (o : MemOp) (l : LaneAcc) : Clock :=
  if o.eff.acquires then Clock.join o.clk (s.acquired o.party o.eff.scopeOf (l.pieces.flatMap s.relsOf)) else o.clk

/-- The cause with which a lane fails: its target is lost, or check 8 or 9. Across lanes the model goes by lane first and by check within
it: the manual does not say whether a lower lane's check 9 comes before a higher lane's check 8 (log 82: DESIGN CHOICE). -/
def State.laneFault (s : State) (core : Nat) (o : MemOp) (l : LaneAcc) : Option Detail :=
  let lane := if o.uniform then none else some (l.lane % 32)
  let n := l.pieces.foldl (fun n p => n + p.bytes) 0
  match l.pieces.findSome? (s.lostPlace o.party) with
  | some rank => some (lostRank rank l.addr lane)
  | none =>
  let spans := s.lockSpans o.party (l.lane % 32) l.addr n (match o.eff with | .spill | .fill _ => true | _ => false)
  match spans.findSome? fun x => s.lockConflict core o.ctx o.party.inst? x.1 x.2 o.eff.writes with
  | some k => some (s.lockDetail k l.addr lane)
  | none => (s.raceOf o.party (s.laneClock o l) o.eff.writes o.eff.isAtomic (s.laneLocs o l)).map fun p =>
      ⟨0x090, 0, 0, 7, l.addr, lane, some p, none⟩

/-! ### PRF (R258) -/

/-- A load or PRF brings the lines of a piece into its slices, and into the core's L1 as CACHE says: 1 streaming, 2 past L1, 3 kept in the
shared level (R171). -/
def State.fillLines (s : State) (core cache : Nat) (l1 : Bool) (p : Piece) : State :=
  let s := s.useLines cache p
  if l1 then p.cells.foldl (fun s c => s.useL1 core (cache == 1) c) s else s

/-- CACHE as an access at an address uses it: a window address ignores it (R171). -/
def cacheAt (a : DWord) (cache : Nat) : Nat := if (windowOf a).isSome then 0 else cache

/-- A lane of PRF would pass checks 8 and 9 too (R258). -/
def State.probes (s : State) (c : Ctx) (l : LaneAcc) : Bool :=
  let (id, t) := s.addOp c 0 (.load (.u 0) 4 false 0) [l] false
  match t.op? c.core id with
  | some o => (t.laneFault c.core o l).isNone
  | none => false

/-- PRF (R258): lines for the lanes that would pass the checks of R243, and no trap for the others. No access sees it. -/
def prfRun (s : State) (c : Ctx) (h : Head) (b : BodyM) : M State :=
    let size := sizeOf b.sz
    let uniform := b.mod == 1
    let x : Acces := ⟨.load, b.areg.toNat, b.mode.toNat, scaledOff b size, size⟩
    let guard := c.guardMarks s h
    let gone := if ((s.warp c.ref).aGet x.areg).mark then c.active s h else 0
    let rest := c.active s h &&& ~~~gone &&& ~~~guard
    let lanes := (accessLanes s c h uniform).filter fun l => if uniform then rest != 0 else rest.has l
    let cache := b.cache.toNat
    let s1 := lanes.foldl (fun s l =>
      match checkAccess s c x (fun w => w.isNone) uniform [l] with
      | .ok (rs, t) =>
        if rs.all fun (l, a, ps) => t.probes c ⟨l, a, ps, [], false⟩ then
          (rs.flatMap fun r => r.2.2).foldl (fun s p => s.fillLines c.core cache (decide (cache ≤ 1)) p) t
        else t
      | .error _ => s) s
    .ok ((s1.kill c gone .address).kill c guard .guard)

def execPrf (h : Head) (b : BodyM) (s : State) : Host.Outcome State Fault Refusal :=
  runOp s h fun c => heldBehind s c h (.prf h b) [] (prfRun s c h b)

/-- The cause of an operation whose target has been lost since it passed its checks (R414). -/
def State.lostFault (s : State) (o : MemOp) : Option Detail :=
  (o.lanes.filter fun l => !o.done.contains l.lane).findSome? fun l =>
    (l.pieces.findSome? (s.lostPlace o.party)).map fun rank =>
      lostRank rank l.addr (if o.uniform then none else some (l.lane % 32))

/-- The instruction of an operation fails (R446): precisely when its warp has issued nothing after it, else on its flag, else
where the warp next stops. A party that has ended has no such point (log 23). It kills no one, and no race history keeps it. -/
def State.failOp (s : State) (core : Nat) (o : MemOp) (d : Detail) : State :=
  let s := (s.dropOp core o.id).undoHists o.id o.undo
  let s := { s with sendHeads := s.sendHeads.filter fun h => h.1 != o.id }
  let lanes := o.active
  match o.ctx_ core with
  | none => s
  | some c =>
    match s.warp? c.ref with
    | none => s
    | some x =>
      if x.exited then s.flagDone o.party o.flag []
      else if x.issues = o.serial && x.trap.isNone then
        let x := (x.land o.id).flagDown o.flag
        let s := s.setWarp c.ref (x.modThreads o.group fun _ t => if t.exited then t else { t with st := .ready })
        s.takeTrap c.ref ⟨0, d, lanes, o.group &&& x.live, o.pc, o.pc, o.word, none, 0⟩ (some (o.hdrAddr, o.hdr))
      else
        let s := s.setWarp c.ref { x with
          inflight := x.inflight.map fun f => if f.id == o.id then { f with failed := true } else f }
        let s := if o.flag != 0 then s.flagFail o.party o.flag [] ⟨o.id, d, lanes, none⟩
          else s.modWarp c.ref fun x => { x with deferred := x.deferred ++ [⟨5, d, lanes, o.pc, o.word, none, o.id⟩] }
        s.spareDoomed c o.id

/-- Makes checks 8 and 9 for every lane before the first is performed (R244), enters the histories, and kills whom the instruction
kills (R245). A target that is lost later still fails it (R414). -/
def State.commitOp (s : State) (core : Nat) (o : MemOp) : Except State (MemOp × State) :=
  if o.checked then
    match s.lostFault o with
    | some d => .error (s.failOp core o d)
    | none => .ok (o, s)
  else
    match o.lanes.findSome? (s.laneFault core o) with
    | some d => .error (s.failOp core o d)
    | none =>
      let acc : Acc := ⟨o.party, o.party, o.epoch, o.eff.isAtomic, o.id⟩
      let s := o.lanes.foldl (fun s l => if l.ghost then s else s.addHist acc o.eff.writes (s.laneLocs o l)) s
      let o := { o with checked := true }
      let s := s.setOp core o
      .ok (o, match o.ctx_ core with | some c => s.killDoomed c o.id | none => s)

/-- An operation whose lanes are all performed leaves, and counts down its flag. -/
def State.completeOp (s : State) (core : Nat) (o : MemOp) : State :=
  let s := ((s.dropOp core o.id).land o.party o.id).flagDone o.party o.flag []
  { s with sendHeads := s.sendHeads.filter fun h => h.1 != o.id }

/-! ### Loads -/

/-- The bytes that a lane reads, its own party's earlier stores included (R136, R247), and the mark of each word. -/
def State.readLane (s : State) (core : Nat) (o : MemOp) (l : LaneAcc) : List Byte × List Bool × State :=
  let (bs, s') := s.readPieces o.eff.scopeOf l.pieces
  let mine := ((opsBefore (s.core core).ops o).filter fun e => e.eff.forwards).flatMap fun e =>
    (e.lanes.filter fun k => !e.done.contains k.lane && !k.ghost).map fun k => k.places.zip k.data
  let put := fun (p : Place) (b : Byte) =>
    mine.foldl (fun b m => match assoc? m p with | some x => x | none => b) b
  let whole := fun (p : Place) => mine.any fun m => (List.range 4).all fun i => (m.map (·.1)).contains (p.plus i)
  let words := l.pieces.flatMap fun p => (List.range ((p.bytes + 3) / 4)).map fun i => (p.place.plus (4 * i), p.layout)
  let aligned := fun (p : Place) => match p with
    | .pa a => Place.pa (a / 4 * 4)
    | .scratch i off => .scratch i (off / 4 * 4)
    | q => q
  let marks := words.map fun w => s.markAt w.1 w.2 && !whole (aligned w.1)
  ((l.places.zip bs).map fun e => put e.1 e.2, marks, s')

/-- What a read of a lane acquires (R138): at once with SCOPE, and with or without for a later FENCE, whose scope may be wider. -/
def State.acquireLane (s : State) (o : MemOp) (rs : List Rel) : State :=
  if rs.isEmpty then s
  else
    let s := if o.eff.scopeOf != 0 then s.acquire o.party (s.acquired o.party o.eff.scopeOf rs) (some o.id) else s
    match o.party with
    | .warp inst w => s.modWarp (.user inst w) fun x => { x with seen := x.seen ++ rs.filter fun r => !x.seen.contains r }
    | .sup n => s.modWarp (.sup n) fun x => { x with seen := x.seen ++ rs.filter fun r => !x.seen.contains r }
    | _ => s

/-- One lane of a load reads. -/
def State.loadLane (s : State) (core : Nat) (o : MemOp) (l : LaneAcc) : MemOp × State :=
  if l.ghost then ({ o with done := o.done ++ [l.lane] }, s) else
  let (bs, m, s') := s.readLane core o l
  let cache := cacheAt l.addr (o.word.extractLsb' 2 2).toNat
  let s' := l.pieces.foldl (fun s p => s.fillLines core cache (cache != 2) p) s'
  let rs := l.pieces.flatMap s.relsOf
  ({ o with done := o.done ++ [l.lane], got := o.got ++ [(l.lane, bs, m)] }, s'.acquireLane o rs)

/-- Lane `k` of a load reads its word, and with it every lane that touches the same word (R136). -/
def State.loadPerform (s : State) (core op k : Nat) : Option State := do
  let o ← s.op? core op
  let l ← o.lanes.find? fun l => l.lane == k
  if !o.eff.isLoad || !s.mayPerform core o l then none
  else
    match s.commitOp core o with
    | .error s' => some s'
    | .ok (o, s) =>
      match o.eff with
      | .fill _ =>
        let p ← l.pieces.head?
        let (vs, s) := s.doFill p
        let guard : Mask := BitVec.ofNat 32 (leNat l.data)
        let got := (List.range 32).map fun i => let v := vs.getD i (0, false); (i, leBytes 4 v.1.toNat, [v.2 || guard.has i])
        some (s.setOp core { o with done := [k], got := got })
      | _ =>
        let ls := o.lanes.filter fun m => m.lane == k || (!o.done.contains m.lane && !m.ghost && !l.ghost && m.meets l)
        let (o, s) := ls.foldl (fun (o, s) m => s.loadLane core o m) (o, s)
        some (s.setOp core o)

/-- An element of a load (R247). -/
def extendBytes (size : Nat) (signed : Bool) (bs : List Byte) : Word :=
  let n := leNat bs
  if size < 4 && signed && decide (2 ^ (8 * size - 1) ≤ n) then BitVec.ofNat 32 (n + 2 ^ 32 - 2 ^ (8 * size)) else BitVec.ofNat 32 n

/-- Writes elements of a row that a warp's name selected, whatever the name selects now (R71). -/
def State.writeRow (s : State) (c : Ctx) (r : Nat) (f : Nat → Option (Word × Bool)) : State :=
  let i := s.rowId c.ref r
  s.setRow i (((s.getRow i).seenBy c.ctx).write f)

/-- Writes what an operation has read into its destination, each element with the mark of its word (R245, R352): the rows that its names
selected at issue (R71), or k registers (R241). -/
def State.writeData (s : State) (c : Ctx) (dst : Opnd) (size : Nat) (signed : Bool) (rows : List Nat)
    (got : List (Nat × List Byte × List Bool)) : State :=
  let n := (size + 3) / 4
  let word := fun (bs : List Byte) (i : Nat) => extendBytes (if size < 4 then size else 4) signed ((bs.drop (4 * i)).take 4)
  match dst with
  | .v _ =>
    (List.range n).foldl (fun s i =>
      s.writeRow c (rows.getD i 0) fun l => (assoc? got l).map fun g => (word g.1 i, g.2.getD i false)) s
  | .u u =>
    match got with
    | (_, bs, m) :: _ => s.modWarp c.ref fun w => (List.range n).foldl (fun w i => w.kSet (u.toNat + i) (word bs i) (m.getD i false)) w
    | [] => s
  | _ => s

/-- LOAD_COMPLETE (R248): the result of a load whose lanes have all read is written. -/
def execLoadComplete (core op : Nat) (s : State) : Host.Outcome State Fault Refusal :=
  event s (do
    let o ← s.op? core op
    let c ← o.ctx_ core
    if !o.lanes.all fun l => o.done.contains l.lane then none
    else
      match o.eff with
      | .load dst size signed _ => some ((s.writeData c dst size signed o.rows o.got).completeOp core o)
      | .fill dst => some ((s.writeData c dst 4 false o.rows o.got).completeOp core o)
      | _ => none)

/-! ### Stores -/

/-- STORE_PERFORMED (R145): a lane of a store or a spill reaches its ordering point. Lanes that store to one word are
performed in ascending order (R136). -/
def execStorePerformed (core op k : Nat) (s : State) : Host.Outcome State Fault Refusal :=
  event s (do
    let o ← s.op? core op
    let l ← o.lanes.find? fun l => l.lane == k
    let lower := o.lanes.any fun m => decide (m.lane < k) && !o.done.contains m.lane && !m.ghost && !l.ghost && m.meets l
    if !o.eff.isStore || lower || !s.mayPerform core o l then none
    else
      match s.commitOp core o with
      | .error s' => some s'
      | .ok (o, s) =>
        let quiet := l.ghost || (s.mute o && l.pieces.any Piece.global)
        let n := s.outbox.length
        let s := if !l.ghost && l.pieces.any Piece.global then s.signWrite o.party l.addr (l.data.take 16) else s
        let s := if quiet then s else match o.eff, l.pieces with
          | .spill, p :: _ => s.doSpill p l.data
          | _, ps =>
            let s := s.writePieces (if o.releases then o.releaseScope else 0) (fun _ => false) ps l.data
            let cache := cacheAt l.addr (o.word.extractLsb' 2 2).toNat
            if cache = 0 then s else ps.foldl (fun s p => s.useLines cache p) s
        let own := if o.releases then [⟨o.party, o.releaseScope, o.clk, 0⟩] else []
        let s := if quiet then s else (l.pieces.foldl (fun s p => s.setRels p own false) s).headed o.id n
        let o := { o with done := o.done ++ [k] }
        let s := s.setOp core o
        some (if o.lanes.all fun m => o.done.contains m.lane then s.completeOp core o else s))

end Sys2Proof.Machine
end

