-- ==== Sys2Proof/Machine/Atomic.lean ====
section
/-! DEFINITION. Address-register instructions (R252 to R255), atomics (R259 to R263) and fences (R264). -/

namespace Sys2Proof.Machine

/-! ### AINIT, ASET, AADV, AGET (R252 to R255) -/

/-- The address register of an operand. -/
def aregNo (o : Opnd) : Nat := o.idx

def AReg.withPerm (a : AReg) (x : Nat) : AReg :=
  { a with r := x.testBit 0, w := x.testBit 1, a := x.testBit 2, e := x.testBit 3 }

/-- R, W, A and E in bits 3:0. -/
def AReg.perm (a : AReg) : Nat :=
  (if a.r then 1 else 0) + (if a.w then 2 else 0) + (if a.a then 4 else 0) + (if a.e then 8 else 0)

/-- Runs an instruction on an address register where it executes (R59); a register that a false poisoned guard keeps is
marked (R353). -/
def aregOp (s : State) (c : Ctx) (h : Head) (d : Nat) (f : State → M AReg) : M State := do
  let mark := c.guardMarks s h != 0
  let old := (s.warp c.ref).aGet d
  if c.executes s h then
    let a ← f s
    .ok (s.modWarp c.ref fun w => w.aSet d { a with mark := a.mark || mark })
  else .ok (if mark then s.modWarp c.ref fun w => w.aSet d { old with mark := true } else s)

/-- AINIT (R252): every field, for any program and without limits (R251). -/
def ainitRun (s : State) (c : Ctx) (h : Head) (b : BodyA) : M State :=
  aregOp s c h (aregNo b.dst) fun s =>
    let base := s.uni64 c b.sa
    let len := match b.sb with | .imm x => x.toNat | o => (s.uni64 c o).toNat
    let limit := if base.toNat + len < 2 ^ 64 then base.toNat + len else 2 ^ 64 - 1
    let mark := s.uniMark c b.sa true || s.uniMark c b.sb true
    .ok (({ AReg.zero with ptr := base, base := base, limit := BitVec.ofNat 64 limit, mark := mark }).withPerm b.sc.immNat)

def execAinit (h : Head) (b : BodyA) (s : State) : Host.Outcome State Fault Refusal :=
  runOp s h fun c => heldBehind s c h (.ainit h b) [.a (aregNo b.dst)] (ainitRun s c h b)

/-- ASET (R253): any field to any value, for any program (R251). A register of which one field is set keeps its mark and takes that of the
source beside it: whether the old mark goes, the manual does not say (log 82: DESIGN CHOICE). -/
def asetRun (s : State) (c : Ctx) (h : Head) (b : BodyA) : M State :=
  aregOp s c h (aregNo b.dst) fun s =>
    let w := s.warp c.ref
    let a := w.aGet (aregNo b.dst)
    let x := s.uni64 c b.sa
    -- k or an immediate, zero-extended (R253)
    let n := match b.sa with | .imm i => i.toNat | o => (s.uni c o).toNat
    let n16 := match b.sa with | .imm i => i.signExtend 16 | o => (s.uni c o).setWidth 16
    let wide := decide (b.sb.immNat ≤ 2)
    let mark := a.mark || s.uniMark c b.sa wide
    .ok (match b.sb.immNat with
      | 0 => { a with ptr := x, mark := mark }
      | 1 => { a with base := x, mark := mark }
      | 2 => { a with limit := x, mark := mark }
      | 3 => { a with modlen := BitVec.ofNat 32 n, mark := mark }
      | 4 => { a with step := n16, mark := mark }
      | 5 => { a.withPerm n with mark := mark }
      | _ => w.aGet (aregNo b.sa))

def execAset (h : Head) (b : BodyA) (s : State) : Host.Outcome State Fault Refusal :=
  runOp s h fun c => heldBehind s c h (.aset h b) [.a (aregNo b.dst)] (asetRun s c h b)

/-- AADV (R254). -/
def aadvRun (s : State) (c : Ctx) (h : Head) (b : BodyA) : M State :=
  aregOp s c h (aregNo b.dst) fun s => do
    let a := (s.warp c.ref).aGet (aregNo b.dst)
    let wide := b.mod.getLsbD 1
    let d := if wide then s.uni64 c b.sa else (s.uni c b.sa).signExtend 64
    let mark := a.mark || s.uniMark c b.sa wide
    if b.mod.getLsbD 0 then
      need a.inRing ⟨0x087, 0, aregNo b.dst, 0, 0, none, none, none⟩
      .ok { a with ptr := a.ring d, mark := mark }
    else
      let p := (a.ptr.toNat : Int) + d.toInt
      need (decide ((a.base.toNat : Int) ≤ p) && decide (p ≤ a.limit.toNat)) ⟨0x084, 0, aregNo b.dst, 0, BitVec.ofInt 64 p, none, none, none⟩
      .ok { a with ptr := BitVec.ofInt 64 p, mark := mark }

def execAadv (h : Head) (b : BodyA) (s : State) : Host.Outcome State Fault Refusal :=
  runOp s h fun c => heldBehind s c h (.aadv h b) [.a (aregNo b.dst)] (aadvRun s c h b)

/-- AGET (R255). -/
def agetRun (s : State) (c : Ctx) (h : Head) (b : BodyA) : M State :=
    let mark := c.guardMarks s h != 0
    let sel := b.sb.immNat
    let wide := decide (sel ≤ 2)
    if c.executes s h then
      let a := (s.warp c.ref).aGet (aregNo b.sa)
      let x : DWord := match sel with
        | 0 => a.ptr
        | 1 => a.base
        | 2 => a.limit
        | 3 => a.modlen.setWidth 64
        | 4 => a.step.signExtend 64
        | _ => BitVec.ofNat 64 a.perm
      .ok (s.writeU c b.dst.idx wide x (a.mark || mark))
    else .ok (s.keepU c b.dst.idx wide mark)

def execAget (h : Head) (b : BodyA) (s : State) : Host.Outcome State Fault Refusal :=
  runOp s h fun c => heldBehind s c h (.aget h b) (if b.sb.immNat ≤ 2 then [.k b.dst.idx, .k (b.dst.idx + 1)] else [.k b.dst.idx])
    (agetRun s c h b)

/-! ### Atomic operations (R259, R263) -/

/-- The new value of a word of `w` bits. -/
def applyAop (aop w : Nat) (old v : Nat) : Nat :=
  let sgn := fun (x : Nat) => intOf true w (BitVec.ofNat 64 x)
  let fmt := if w = 64 then fp64 else fp32
  let fl := fun (r : Num) => fmt.round .rne false r
  match aop with
  | 0 => (old + v) % 2 ^ w
  | 1 => if sgn old ≤ sgn v then old else v
  | 2 => if sgn old ≤ sgn v then v else old
  | 3 => if old ≤ v then old else v
  | 4 => if old ≤ v then v else old
  | 5 => old &&& v
  | 6 => old ||| v
  | 7 => old ^^^ v
  | 8 => v
  | 9 => if v ≤ old then 0 else old + 1
  | 10 => if old = 0 ∨ v < old then v else old - 1
  | 11 => fl ((fmt.value old).add false (fmt.value v))
  | 12 => fl (minMax false false (fmt.value old) (fmt.value v))
  | 13 => fl (minMax true false (fmt.value old) (fmt.value v))
  | _ =>
    let f := if aop = 14 then bf16 else fp16
    let half := fun (i : Nat) =>
      f.round .rne false ((f.value (old / 2 ^ (16 * i) % 65536)).add false (f.value (v / 2 ^ (16 * i) % 65536)))
    half 0 + 65536 * half 1

/-- ATOM, ATOMS, RED, CAS and REDV at issue (R261 to R263). `regs` registers hold DATA; `dst` receives old values. -/
def atomicInstr (s : State) (c : Ctx) (h : Head) (b : BodyM) (eff : Eff) (regs : Nat) (dests : List Reg) (write : Bool)
    (windows : Option Nat → Bool) (split : List LaneAcc → List LaneAcc := id) : M State := do
  let size := sizeOf b.sz
  let uniform := b.data.uniformData
  let names := namesOf b.data regs 4
  checkNames (s.warp c.ref) names
  let x : Acces := ⟨.atomic, b.areg.toNat, b.mode.toNat, scaledOff b size, size⟩
  let (rs, s1) ← checkAccess s c x windows uniform (accessLanes s c h uniform)
  let act := c.active s h
  let s2 ← s1.rowAccess c (if uniform then 0 else act) false names
  let s3 ← s2.rowAccess c (if uniform || !write then 0 else act) true (names.take dests.length)
  let data := fun (l : Nat) => s3.dataBytes c b.data regs (4 * regs) l
  let dead := if uniform then (if (data 0).2 then act else 0) else Lanes.mask fun l => act.has l && (data l).2
  let lanes := rs.map fun (l, a, ps) => (⟨l, a, ps, (data l).1, false⟩ : LaneAcc)
  .ok (launchAccess s1 s3 c h x eff uniform lanes dests (dead, .atomic) split)

def execAtom (h : Head) (b : BodyM) (s : State) : Host.Outcome State Fault Refusal :=
  runOp s h fun c =>
    atomicInstr s c h b (.atomic b.aop (b.sz == 3) (some b.data) b.scope.toNat) b.dataRegs (dataDests b.data b.dataRegs) true
      fun w => w.isNone

def execAtoms (h : Head) (b : BodyM) (s : State) : Host.Outcome State Fault Refusal :=
  runOp s h fun c =>
    atomicInstr s c h b (.atomic b.aop (b.sz == 3) (some b.data) b.scope.toNat) b.dataRegs (dataDests b.data b.dataRegs) true
      fun w => w == some 0 || w == some 1

def execRed (h : Head) (b : BodyM) (s : State) : Host.Outcome State Fault Refusal :=
  runOp s h fun c =>
    atomicInstr s c h b (.atomic b.aop (b.sz == 3) none 0) b.dataRegs [] false fun w => w.isNone

def execCas (h : Head) (b : BodyM) (s : State) : Host.Outcome State Fault Refusal :=
  runOp s h fun c =>
    atomicInstr s c h b (.cas (b.sz == 3) b.data b.scope.toNat) b.casRegs (dataDests b.data (b.casRegs / 2)) true
      fun w => w.isNone

/-- The elements of a REDV: with SZ 4 each lane updates four words, numbered lane + 32 × word (R263). -/
def splitElements (size : Nat) (ls : List LaneAcc) : List LaneAcc :=
  if size ≤ 8 then ls
  else ls.flatMap fun l => (List.range 4).map fun e =>
    { l with lane := l.lane + 32 * e
             addr := l.addr + BitVec.ofNat 64 (4 * e)
             pieces := l.pieces.map fun p => { p with place := p.place.plus (4 * e), bytes := 4 }
             data := (l.data.drop (4 * e)).take 4 }

def execRedv (h : Head) (b : BodyM) (s : State) : Host.Outcome State Fault Refusal :=
  runOp s h fun c =>
    let size := sizeOf b.sz
    atomicInstr s c h b (.redv b.aop (if size = 8 then 8 else 4)) b.dataRegs [] false (fun w => w.isNone) (splitElements size)

/-! ### At the ordering point (R117, R147) -/

/-- The scope with which an operation releases. -/
def MemOp.scopeNo (o : MemOp) : BitVec 3 := BitVec.ofNat 3 (if o.releases then o.releaseScope else 0)

/-- What a request of an atomic, with the operands of its lanes in order, asks of the member that holds its word (R147, R416). -/
def MemOp.peerReq (o : MemOp) (ls : List LaneAcc) : PeerReq :=
  let v := fun (n i : Nat) (l : LaneAcc) => BitVec.ofNat 64 (leNat ((l.data.drop (n * i)).take n))
  match o.eff with
  | .atomic aop wide .. => .atomic o.scopeNo (BitVec.ofNat 4 aop) wide (ls.map (v (if wide then 8 else 4) 0))
  | .redv aop size => .atomic o.scopeNo (BitVec.ofNat 4 aop) (size == 8) (ls.map (v size 0))
  | .cas wide .. => let n := if wide then 8 else 4; .cas o.scopeNo wide (ls.map fun l => (v n 0 l, v n 1 l))
  | _ => .read 0

/-- A request is applied at the ordering point of another member: this module sends it with all its operands, and the old values are that
member's (log 10). -/
def State.askAll (s : State) (o : MemOp) (ls : List LaneAcc) : State :=
  match ls with
  | [] => s
  | l :: _ =>
    let n := s.outbox.length
    let s := ls.foldl (fun s l => s.signWrite o.party l.addr (l.data.take 16)) s
    if s.mute o then s else (l.pieces.foldl (fun s p => s.askPeer p (o.peerReq ls)) s).headed o.id n

/-- The old value that another member answers for one operand. -/
def State.applyPeer (s : State) (l : LaneAcc) : List Byte × List Bool × State :=
  let (bs, s') := l.pieces.foldl (fun (acc : List Byte × State) p =>
    let (b, s) := acc.2.readSpan p.place p.key p.layout p.bytes
    (acc.1 ++ b, s)) ([], s)
  (bs, l.pieces.flatMap s.pieceMarks, s')

/-- One operand applied to a word of this module: its old value and the marks of its words, and the state. A value of 64 bits that is
computed from a marked word is marked in both. A global write of a screened workgroup or its copy enters the signature (R430). -/
def State.applyHere (s : State) (o : MemOp) (l : LaneAcc) : List Byte × List Bool × State :=
  let (bs, s1) := s.readPieces 0 l.pieces
  let n := bs.length
  let old := leNat bs
  let marks := l.pieces.flatMap s.pieceMarks
  let mark := marks.any id
  let v := leNat (l.data.take n)
  let (new, m) : Nat × (Nat → Bool) := match o.eff with
    | .atomic aop .. => (applyAop aop (8 * n) old v, fun _ => mark && aop != 8)
    | .redv aop _ => (applyAop aop (8 * n) old v, fun _ => mark)
    | .cas .. => if old = v then (leNat ((l.data.drop n).take n), fun _ => false) else (old, fun i => marks.getD i false)
    | _ => (old, fun i => marks.getD i false)
  let s1 := if l.pieces.any Piece.global then s1.signWrite o.party l.addr (l.data.take 16) else s1
  let s2 := if s1.mute o then s1 else s1.writePieces 0 m l.pieces (leBytes n new)
  let cache := cacheAt l.addr (o.word.extractLsb' 2 2).toNat
  let s2 := if cache = 0 then s2 else l.pieces.foldl (fun s p => s.useLines cache p) s2
  let rs := l.pieces.flatMap s2.relsOf
  let own := if o.releases then [⟨o.party, o.releaseScope, o.clk, 0⟩] else []
  let s3 := l.pieces.foldl (fun s p => s.setRels p own true) s2
  (bs, marks, s3.acquireLane o rs)

/-- The lanes of an instruction that address one word, in ascending order: one request (R147, R261). A lane that poison kills makes none. -/
def MemOp.request (o : MemOp) (k : LaneAcc) : List LaneAcc :=
  if k.ghost then [k] else o.lanes.filter fun l => l.addr == k.addr && !l.ghost

/-- Applies the operands of some lanes, one after the other. -/
def State.applyAll (s : State) (core : Nat) (o : MemOp) (ls : List LaneAcc) : State :=
  let real := ls.filter fun l => !l.ghost
  let peer := real.any fun l => l.pieces.any s.onPeer
  let s := if peer then s.askAll o real else s
  let (o, s) := real.foldl (fun (o, s) l =>
    let (bs, m, s) := if peer then State.applyPeer s l else State.applyHere s o l
    ({ o with got := o.got ++ [(l.lane, bs, m)] }, s)) (o, s)
  let o := { o with done := o.done ++ ls.map (·.lane) }
  let s := s.setOp core o
  if !o.lanes.all fun l => o.done.contains l.lane then s
  else
    let s := match o.ctx_ core, o.eff with
      | some c, .atomic _ wide (some dst) _ => s.writeData c dst (if wide then 8 else 4) false o.rows o.got
      | some c, .cas wide dst _ => s.writeData c dst (if wide then 8 else 4) false o.rows o.got
      | _, _ => s
    s.completeOp core o

/-- ATOMIC_REQUEST_APPLY (R147, R261): the request of the address whose lowest lane is `k` is applied indivisibly. -/
def execAtomicRequestApply (core op k : Nat) (s : State) : Host.Outcome State Fault Refusal :=
  event s (do
    let o ← s.op? core op
    let l ← o.lanes.find? fun l => l.lane == k
    let isReq := match o.eff with | .atomic .. | .cas .. => true | _ => false
    if !isReq || o.done.contains k || !s.mayPerform core o l || (o.request l).any fun m => decide (m.lane < k) then none
    else
      match s.commitOp core o with
      | .error s' => some s'
      | .ok (o, s) => some (s.applyAll core o (o.request l)))

/-- REDV_ELEMENT_APPLY (R263): one element is updated indivisibly. -/
def execRedvElementApply (core op k : Nat) (s : State) : Host.Outcome State Fault Refusal :=
  event s (do
    let o ← s.op? core op
    let l ← o.lanes.find? fun l => l.lane == k
    let isRedv := match o.eff with | .redv .. => true | _ => false
    if !isRedv || !s.mayPerform core o l then none
    else
      match s.commitOp core o with
      | .error s' => some s'
      | .ok (o, s) => some (s.applyAll core o [l]))

/-! ### Fences (R264, R150) -/

/-- FENCE and FENCEB: later accesses of the party wait behind the operation until its conditions hold. -/
def fenceInstr (s : State) (c : Ctx) (h : Head) (scope : Nat) (bank : Bool) : M State :=
  if c.executes s h then
    let (_, s) := s.addOp c 0 (.fence scope bank) [] true
    .ok (s.modWarp c.ref fun w => { w with fenced := if w.fenced < scope then scope else w.fenced })
  else .ok s

def execFence (h : Head) (scope : BitVec 3) (s : State) : Host.Outcome State Fault Refusal :=
  runOp s h fun c => fenceInstr s c h scope.toNat false

def execFenceb (h : Head) (scope : BitVec 3) (s : State) : Host.Outcome State Fault Refusal :=
  runOp s h fun c => fenceInstr s c h scope.toNat true

/-- The bank operations that a party has issued and that are not complete, commands in the port's buffer among them (R150). -/
def State.bankPending (s : State) (p : Party) (before : Nat) : Bool :=
  match p.inst? with
  | none => false
  | some i =>
    match s.wg? i with
    | none => false
    | some g => (g.bankOps.any fun b => b.party == p && decide (b.id < before)) ||
        g.bankBuf.filled.any fun e => e.1.party == p && decide (e.2 < before)

/-- Every store to a bank-tiled page has been written to the stacks (R150). -/
def State.tiledDrained (s : State) : Bool := s.arrays.all fun e =>
  match e.2 with
  | some x => !x.way.any (·.tiled) && (match x.newest with | some (_, tiled) => !tiled | none => true)
  | none => true

/-- A fence's conditions hold (R145, R150, R264): every earlier access and external effect of its party has been performed,
and for FENCEB its earlier bank operations are complete and its earlier stores to bank-tiled pages are in the stacks. -/
def State.fenceReady (s : State) (core : Nat) (o : MemOp) (bank : Bool) : Bool :=
  let before := opsBefore (s.core core).ops o
  before.all (fun p => p.handed (s.core core).ops || !(p.unperformed || p.eff.external || p.eff.isFence || p.eff.isHeld)) &&
  (!bank || (!s.bankPending o.party o.id && s.tiledDrained))

/-- FENCE_CONDITIONS_MET: the fence registers its release and acquires what loads before it read (R138). -/
def execFenceConditionsMet (core op : Nat) (s : State) : Host.Outcome State Fault Refusal :=
  event s (do
    let o ← s.op? core op
    match o.eff with
    | .fence scope bank =>
      if !s.fenceReady core o bank then none
      else
        let seen := match o.ctx_ core with | some c => (s.warp c.ref).seen | none => []
        let s := s.acquire o.party (s.acquired o.party scope seen) (some o.id)
        some (s.dropOp core op)
    | _ => none)

end Sys2Proof.Machine
end

