-- ==== Sys2Proof/Machine/Engine.lean ====
section
/-! DEFINITION. What the engines share: who issues an operation, range locks at issue (R148), translations that an operation holds
(R386, R388), accesses of an engine (R135, R143), and where a failed operation's cause goes (R166, R345, R444). -/

namespace Sys2Proof.Machine

/-! ### Who issues -/

/-- A warp or a Beryl core as the issuer of an operation of its workgroup. `stage`: 0 to 7, 8 the loader, 9 the storer (R274). -/
structure Agent where
  party : Party
  inst : Nat
  core : Nat
  ctx : Nat
  group : Mask
  stage : Nat
  /-- the lanes whose predicate holds (R340) -/
  active : Mask
  deriving DecidableEq, Repr

/-- The warp that issues. -/
def ownAgent (s : State) (c : Ctx) : M Agent := do
  let (inst, _, _) ← ownWg s c
  .ok ⟨c.party, inst, c.core, c.ctx, c.group, (s.warp c.ref).stage, c.held s⟩

/-- The party of a workgroup as an agent, for a command that it has sent. -/
def State.agentOf (s : State) (inst : Nat) (p : Party) : Agent :=
  match s.wg? inst with
  | some g => ⟨p, inst, g.core, g.ctx, 0, 0, 0⟩
  | none => ⟨p, inst, 0, 0, 0, 0, 0⟩

/-- The group was blocked at this instruction before. -/
def Ctx.retries (c : Ctx) (s : State) : Bool :=
  match Lanes.low c.group with
  | some l => (match ((s.warp c.ref).thread l).st with | .blocked _ => true | _ => false)
  | none => false

/-! ### Range locks at issue (R148) -/

/-- A span as a lock. -/
def State.spanLock (s : State) (a : Agent) (op : Nat) (x : Span) : RangeLock :=
  let (i, base) := s.lockAddr (some a.inst) x.addr
  ⟨op, a.ctx, i, base, x.len, x.dest⟩

/-- Registers the spans of an operation, if nothing holds it. -/
def State.takeLocks (s : State) (a : Agent) (op : Nat) (xs : List Span) : Option State :=
  s.register a.core (xs.map (s.spanLock a op))

/-- Releases the locks of an operation. -/
def State.freeLocks (s : State) (core op : Nat) : State :=
  s.modCore core fun k => { k with locks := k.locks.filter fun l => l.op != op }

/-- The operation has its locks. -/
def State.hasLocks (s : State) (core op : Nat) : Bool := (s.core core).locks.any fun l => l.op == op

/-- The group waits at the issue of an engine operation: for its locks, or behind another of its party (R148). -/
def State.engineWait (s : State) (a : Agent) (full : Bool) : State :=
  s.modCore a.core fun k =>
    { k with engWait := waitAdd a.party a.group k.cycle (if full then 1 else 0) (waitDrop a.party a.group k.engWait) }

/-- The group waits no more. -/
def State.engineGo (s : State) (a : Agent) : State :=
  s.modCore a.core fun k => { k with engWait := waitDrop a.party a.group k.engWait }

/-- No earlier engine operation of the party waits at its own issue. -/
def State.engineFirst (s : State) (a : Agent) : Bool :=
  waitFirst a.party a.group ((s.core a.core).engWait.filter fun x => x.party == a.party)

/-- Issues an engine operation once its locks can be registered; else the group blocks. An operation that a fence holds counts as
issued and takes its locks when the fence is met (R264); an acquire holds only its accesses (R145, R148). -/
def lockAtIssue (s : State) (a : Agent) (op : Nat) (xs : List Span) (go : State → M State) : M State :=
  if !s.engineFirst a then .error (.block (s.engineWait a false))
  else if s.fencePending a.core a.party op then go (s.engineGo a)
  else if s.unlocked a.core a.party op then .error (.block (s.engineWait a false))
  else
    match (s.engineGo a).takeLocks a op xs with
    | some s' => go s'
    | none => .error (.block (s.engineWait a (s.lockFull a.core xs.length)))

/-- A check that fails after a wait leaves nothing of the wait. -/
def lateTrap {α : Type} (s : State) (a : Agent) (d : Detail) : M α := .error (.drop (s.engineGo a) d)

/-! ### Translations of an engine operation (R388) -/

/-- A piece of `n` bytes at a generic address, as an engine of class `cls` reaches it. -/
def State.engPiece (s : State) (a : Agent) (cls : Nat) (kind : AccKind) (holds : List TlbEntry) (addr : DWord) (n : Nat) :
    Except Detail (Piece × List TlbEntry × State) :=
  let o := windowOffset addr
  match windowOf addr with
  | none =>
    match s.translateHeld a.core a.ctx cls kind holds addr with
    | .ok (l, h, s) => .ok (⟨s.placeOfPa l.pa, n, l.pte.rt, l.pte.key, l.pte.layout⟩, h, s)
    | .error d => .error d
  | some 0 => .ok (⟨.scratch a.inst o, n, true, 0, 0⟩, holds, s)
  | some 1 =>
    match (s.wg? a.inst).bind fun g => s.rankInst g.team (o / 4194304) with
    | some j => .ok (⟨.scratch j (o % 4194304), n, true, 0, 0⟩, holds, s)
    | none =>
      let gone := match s.wg? a.inst with | some g => s.rankLost g.team (o / 4194304) | none => false
      .error (if gone then lostRank (o / 4194304) addr none else outOfWindow 1 addr none)
  | some 2 => .ok (⟨.records a.inst o, n, false, 0, 0⟩, holds, s)
  | some w => .error (outOfWindow w addr none)

/-- The generic range of an operand is canonical and lies in its window (R107, R109). -/
def State.checkSpan (s : State) (inst : Nat) (kind : AccKind) (addr : DWord) (n : Nat) : Option Detail :=
  let last := addr + BitVec.ofNat 64 (n - 1)
  if !canonical addr || !canonical last || decide (2 ^ 64 < addr.toNat + n) then some ⟨0x080, 0, 0, 7, addr, none, none, none⟩
  else
    let o := windowOffset addr
    match windowOf addr, s.wg? inst with
    | none, _ => none
    | some 0, some g => if g.ownRange o n then none else some (outOfWindow 0 addr none)
    | some 1, some g =>
      match (s.rankInst g.team (o / 4194304)).bind s.wg? with
      | some t => if t.ownRange (o % 4194304) n then none else some (outOfWindow 1 addr none)
      | none => if s.rankLost g.team (o / 4194304) then none else some (outOfWindow 1 addr none)
    | some 2, some g =>
      if o + n ≤ g.recCount * ((g.recSize + 15) / 16 * 16) then none else some (outOfWindow 2 addr none)
    | some w, _ => if 6 ≤ w then some ⟨0x081, 0, 0, 7, addr, none, none, none⟩ else some ⟨0x083, BitVec.ofNat 32 kind.num, w, 7, 0, none, none, none⟩

/-- A location as a trap of an engine operation logs it: an address of the own-scratchpad window, or a physical address (log 22). -/
def Loc.addr : Loc → Nat
  | .word k => 4 * k
  | .scratch _ w => windowBase 0 + 4 * w
  | .row _ r _ => r

/-- An access of an engine operation: the race check of its party (R143), then its history under the operation's key. -/
def State.engTouch (s : State) (p : Party) (op epoch : Nat) (clk : Clock) (writes : Bool) (ps : List Piece) : Except Detail State :=
  let ls := (if writes && s.isCopy p then ps.filter fun x => !x.global else ps).flatMap Piece.locs
  match s.raceOf p clk writes false ls with
  | some q =>
    let at_ := (ls.find? fun l => ((s.histAt l).race p clk writes false).isSome).map Loc.addr
    .error ⟨0x090, 0, 0, 7, BitVec.ofNat 64 (at_.getD 0), none, some q, none⟩
  | none => .ok (s.addHist ⟨p, .eng op, epoch, false, s.nextId⟩ writes ls)

/-- The pieces of at most 16 bytes of a range, translated, at most `fuel` of them. -/
def State.engPieces (s : State) (a : Agent) (cls : Nat) (kind : AccKind) (holds : List TlbEntry) (addr n : Nat) :
    Nat → Except Detail (List Piece × List TlbEntry × State)
  | 0 => .ok ([], holds, s)
  | fuel + 1 =>
    if n = 0 then .ok ([], holds, s)
    else do
      let k := if n < 16 - addr % 16 then n else 16 - addr % 16
      let (p, holds, s) ← s.engPiece a cls kind holds (BitVec.ofNat 64 addr) k
      let (rest, holds, s) ← s.engPieces a cls kind holds (addr + k) (n - k) fuel
      .ok (p :: rest, holds, s)

/-- An engine operation may make its next accesses, to the given ranges: nothing earlier of its party, or sent earlier by its core to the
same scratchpad, has still to be performed there (R136, R141, R114). -/
def State.engReady (s : State) (a : Agent) (cls id : Nat) (holds : List TlbEntry) (xs : List Span) : Bool :=
  !(s.core a.core).ops.any MemOp.unperformed ||
  xs.all fun x =>
    match s.engPieces a cls (if x.dest then .engineDst else .engineSrc) holds x.addr.toNat x.len (x.len + 1) with
    | .ok (ps, _) => s.engMay a.core a.party id ps
    | .error _ => true

/-! ### Words with their marks -/

/-- A write of an engine at a generic address: bytes, marks, and no release left in its words (R352, R138). A screen copy
writes nothing global (R429). -/
def State.engWrite (s : State) (party : Party) (addr : DWord) (p : Piece) (bs : List Byte) (marks : List Bool) : State :=
  let s := if p.global then s.signWrite party addr bs else s
  if p.global && s.isCopy party then s else (s.writePiece p bs fun i => marks.getD i false).setRels p [] false

/-! ### Failure -/

/-- The cause of a command of a port is delivered to its sender; none when nobody is left to take it. -/
def State.portFail (s : State) (inst : Nat) (p : Party) (lanes : Mask) (k : Parked) (d : Detail) : Option State :=
  (s.heir inst p).map fun q => s.defer q ⟨2, d, lanes, 0, 0, some k, k.id⟩

end Sys2Proof.Machine
end

