-- ==== Sys2Proof/Machine/Copy.lean ====
section
/-! DEFINITION. Buffer-table handles (R127, R128, R280, R281) and the copy engine (R129 to R131, R282 to R287, R443,
R444). -/

namespace Sys2Proof.Machine

/-! ### Handles -/

/-- The index of a handle. -/
def handleIndex (h : BitVec 16) : Nat := (h.extractLsb' 0 10).toNat

/-- The entry of an index of a workgroup. -/
def State.handleAt (s : State) (inst idx : Nat) : Option Handle := do
  let g ← s.wg? inst
  let e ← g.hents[idx]?
  some ((s.core g.core).buftab.get Handle.zero e)

def State.modHandle (s : State) (inst idx : Nat) (f : Handle → Handle) : State :=
  match s.wg? inst with
  | none => s
  | some g =>
    match g.hents[idx]? with
    | none => s
    | some e => s.modCore g.core fun k => { k with buftab := k.buftab.upd Handle.zero e f }

/-- The entry that a handle names, if its index and generation match (R128). -/
def State.handle? (s : State) (inst : Nat) (h : BitVec 16) : Option Handle :=
  (s.handleAt inst (handleIndex h)).bind fun e => if e.gen = (h.extractLsb' 10 6).toNat then some e else none

/-- stale handle -/
def stale : Detail := .code_ 0x104

/-- The entry returns to Free (R127). -/
def Handle.freed (e : Handle) (clk : Clock) : Handle := { e with state := 0, gen := (e.gen + 1) % 64, clk := clk }

/-! ### Copy commands (R282) -/

namespace CopyCmd

def src (c : CopyCmd) : DWord := c.raw.extractLsb' 0 64
def dst (c : CopyCmd) : DWord := c.raw.extractLsb' 64 64
def len (c : CopyCmd) : Nat := (c.raw.extractLsb' 128 32).toNat
def chan (c : CopyCmd) : Nat := (c.raw.extractLsb' 160 2).toNat
def hd (c : CopyCmd) : Bool := c.raw.getLsbD 162
def hs (c : CopyCmd) : Bool := c.raw.getLsbD 163
def post (c : CopyCmd) : Bool := c.raw.getLsbD 164
def tbv (c : CopyCmd) : Bool := c.raw.getLsbD 165
def tb (c : CopyCmd) : Nat := (c.raw.extractLsb' 166 3).toNat
def tag (c : CopyCmd) : Nat := (c.raw.extractLsb' 176 16).toNat
def hdst (c : CopyCmd) : BitVec 16 := c.raw.extractLsb' 192 16
def hsrc (c : CopyCmd) : BitVec 16 := c.raw.extractLsb' 208 16

/-- The limits of the table that need no state. -/
def formOk (c : CopyCmd) : Bool :=
  c.raw.extractLsb' 224 32 == 0 && c.raw.extractLsb' 169 7 == 0 && c.len % 16 == 0 && decide (16 ≤ c.len) &&
  decide (c.len ≤ 2 ^ 31) && c.src.toNat % 16 == 0 && c.dst.toNat % 16 == 0 &&
  (match windowOf c.src with | none => true | some w => w ≤ 2) && (match windowOf c.dst with | none => true | some w => w ≤ 1)

/-- The ranges that it locks. -/
def spans (c : CopyCmd) : List Span := [⟨c.src, c.len, false⟩, ⟨c.dst, c.len, true⟩]

end CopyCmd

/-- Whether an engine operation names a handle of a workgroup. -/
def Wg.namesHandle (g : Wg) (idx : Nat) : Bool :=
  g.chans.any fun e => e.2.ops.any fun o =>
    (o.cmd.hd && handleIndex o.cmd.hdst == idx) || (o.cmd.hs && handleIndex o.cmd.hsrc == idx)

/-- The destination lies in the range of its handle. -/
def CopyCmd.inHandle (c : CopyCmd) (e : Handle) : Bool :=
  windowOf c.dst == some 0 && decide (e.offset ≤ windowOffset c.dst) && decide (windowOffset c.dst + c.len ≤ e.offset + e.length)

/-- The checks of a copy command. -/
def State.checkCopy (s : State) (inst : Nat) (c : CopyCmd) : Option Detail :=
  let hd := s.handle? inst c.hdst
  let hs := s.handle? inst c.hsrc
  if !c.formOk then some (.code_ 0x10e)
  else if (c.hd && hd.isNone) || (c.hs && hs.isNone) then some stale
  else if c.hd && !(match hd with | some e => c.inHandle e | none => true) then some (.code_ 0x10e)
  else if (c.hd && (hd.map (·.state)) != some 1) || (c.hs && (hs.map (·.state)) != some 2) then some (.code_ 0x105)
  else (s.checkSpan inst .engineSrc c.src c.len).orElse fun _ => s.checkSpan inst .engineDst c.dst c.len

/-! ### Channels (R129) -/

def Wg.chan_ (g : Wg) (n : Nat) : Channel := g.chans.get Channel.zero n

def State.modChan (s : State) (inst n : Nat) (f : Channel → Channel) : State :=
  s.modWg inst fun g => { g with chans := g.chans.upd Channel.zero n f }

def State.setCopy (s : State) (inst n : Nat) (o : CopyOp) : State :=
  s.modChan inst n fun k => { k with ops := k.ops.map fun p => if p.id = o.id then o else p }

/-- What the operation's accesses so far order, for the party that waits on it. -/
def CopyOp.done (o : CopyOp) : Clock := assocPut o.clk (.eng o.id) o.sent

/-- The completion entry (R283). -/
def CopyOp.entry (o : CopyOp) : List Word :=
  [BitVec.ofNat 32 (o.cmd.tag + o.cmd.chan * 65536 + o.status * 2 ^ 20), BitVec.ofNat 32 o.sent]

/-- A command joins its channel: its source handle drains (R284). -/
def State.enterCopy (s : State) (a : Agent) (o : CopyOp) : State :=
  let s := if o.cmd.hs then s.modHandle a.inst (handleIndex o.cmd.hsrc) fun e => { e with state := 3 } else s
  s.modChan a.inst o.cmd.chan fun k => { k with ops := k.ops ++ [o] }

/-- The command completes and leaves its channel: WP passes what a cancelled or abandoned command has not delivered, the
handles change, the locks are released and the flag falls (R280, R284, R286, R345). -/
def State.finishCopy (s : State) (inst n : Nat) (o : CopyOp) : State :=
  match s.wg? inst with
  | none => s
  | some g =>
    let s := s.modChan inst n fun k =>
      { wp := k.wp + (o.cmd.len - o.sent), ops := k.ops.filter fun p => p.id != o.id, clk := Clock.join k.clk o.done }
    let s := s.modWg inst fun g => { g with engClk := Clock.join g.engClk o.done }
    let s := if o.cmd.post then
        s.modWg inst fun g => { g with copyDone := g.copyDone ++ [⟨o.entry, 0, o.party, o.done, (s.core g.core).cycle, 0⟩] }
      else s
    let s := if o.cmd.hd && o.status != 2 then
        s.modHandle inst (handleIndex o.cmd.hdst) fun e => if e.state = 1 then { e with state := 2, clk := o.done } else e
      else s
    let s := if o.cmd.hs && o.status != 2 then
        s.modHandle inst (handleIndex o.cmd.hsrc) fun e => if e.state = 3 then e.freed o.done else e
      else s
    let s := (s.freeLocks g.core o.id).dropOp g.core o.id
    if o.status = 2 then s else (s.land o.party o.id).flagDone o.party o.flag o.done

/-- The head of a channel may complete: its completion entry has room (R283). -/
def Wg.copyCompletes (g : Wg) (n : Nat) : Option CopyOp :=
  match (g.chan_ n).ops with
  | o :: _ => if o.posting && (!o.cmd.post || decide (g.copyDone.length < 64)) then some o else none
  | [] => none

/-- Completes the commands at the head of a channel that have ended and wait for no entry. -/
def State.settleCopies (s : State) (inst n : Nat) : Nat → State
  | 0 => s
  | k + 1 =>
    match (s.wg? inst).bind fun g => g.copyCompletes n with
    | some o => if o.cmd.post then s else (s.finishCopy inst n o).settleCopies inst n k
    | none => s

/-! ### Timed fills (R285, R286) -/

def State.fillBudget (s : State) (ctx : Nat) : Nat := (s.ctxs.get CtxRegs.zero ctx).fillbud.toNat

/-- The context has bytes of its budget left in the current window of 10 µs. -/
def State.inBudget (s : State) (ctx : Nat) : Bool :=
  let (w, n) := s.fillUse.get (0, 0) ctx
  decide ((if w = s.clockNs / 10000 then n else 0) < 10 * s.fillBudget ctx)

def State.useBudget (s : State) (ctx n : Nat) : State :=
  let (w, m) := s.fillUse.get (0, 0) ctx
  let w' := s.clockNs / 10000
  { s with fillUse := s.fillUse.put (0, 0) ctx (w', (if w = w' then m else 0) + n) }

/-- The fill cannot meet its deadline. -/
def State.tooLate (s : State) (ctx : Nat) (o : CopyOp) : Bool :=
  match o.cmd.deadline with
  | none => false
  | some dl =>
    let r := o.cmd.len - o.sent
    let b := s.fillBudget ctx
    decide (0 < r) && decide (dl < s.clockNs + if b = 0 then 0 else (1000 * r + b - 1) / b)

/-- Cancels a fill that is too late. -/
def State.testFill (s : State) (ctx : Nat) (o : CopyOp) : CopyOp :=
  if !o.posting && !o.parked && s.tooLate ctx o then { o with status := 1, posting := true } else o

/-- Tests every pending fill of a core. -/
def State.testFills (s : State) (core : Nat) : State :=
  let here := s.allWgs.filter fun e => e.2.core == core
  let test := fun (g : Wg) (c : Nat × Channel) => (c.1, { c.2 with ops := c.2.ops.map (s.testFill g.ctx) })
  let s := here.foldl (fun s e => s.modWg e.1 fun g => { g with chans := g.chans.map (test g) }) s
  here.foldl (fun s e => (List.range 4).foldl (fun s n => s.settleCopies e.1 n 64) s) s

/-! ### Issue -/

/-- A copy operation as it is issued. -/
def CopyOp.new (id flag : Nat) (a : Agent) (cmd : CopyCmd) (fromPort parked : Bool) (clk : Clock) (issued : Nat) : CopyOp :=
  { id := id, cmd := cmd, party := a.party, flag := flag, active := a.active, sent := 0, fromPort := fromPort, parked := parked,
    status := 0, posting := false, holds := [], clk := clk, issued := issued }

/-- CPY and CPYT (R284): checks, locks, and the command on its way through the release buffer. -/
def copyInstr (s : State) (c : Ctx) (h : Head) (kgrp : BitVec 3) (deadline : Option Nat) : M State := do
  let a ← ownAgent s c
  let w := s.warp c.ref
  let raw : BitVec 256 := BitVec.ofNat 256 (leNat ((List.range 8).flatMap fun i => leBytes 4 (w.kGet (8 * kgrp.toNat + i)).toNat))
  let cmd : CopyCmd := ⟨raw, deadline⟩
  match s.checkCopy a.inst cmd with
  | some d => lateTrap s a d
  | none =>
    lockAtIssue s a s.nextId cmd.spans fun s =>
      let (id, s) := s.addOp c h.flag.toNat (.copy cmd) [] true
      let s := s.launchFlight c h id [] none
      let s := s.enterCopy a (s.testFill a.ctx (.new id h.flag.toNat a cmd false false (s.clockOf a.party) s.clockNs))
      .ok (s.settleCopies a.inst cmd.chan 64)

/-- The marks of the k registers of a command block. -/
def blockMark (s : State) (c : Ctx) (kgrp n : Nat) : Bool := (List.range n).any fun i => (s.warp c.ref).kMarked (8 * kgrp + i)

def execCpy (h : Head) (kgrp : BitVec 3) (s : State) : Host.Outcome State Fault Refusal :=
  runOp s h fun c => uniformOp s c h (blockMark s c kgrp.toNat 8) .command fun c => copyInstr s c h kgrp none

def execCpyt (h : Head) (kgrp : BitVec 3) (dlk : BitVec 5) (s : State) : Host.Outcome State Fault Refusal :=
  runOp s h fun c =>
    let w := s.warp c.ref
    let d := 2 * dlk.toNat
    uniformOp s c h (blockMark s c kgrp.toNat 8 || w.kMarked d || w.kMarked (d + 1)) .command fun c =>
      copyInstr s c h kgrp (some (w.kPair d).toNat)

/-! ### Commands from a port (R443, R444) -/

/-- The parked operation of a copy as teng names it (R345). -/
def CopyOp.parkedAs (o : CopyOp) : Parked := ⟨o.id, o.cmd.tag, 0, o.cmd.kind, o.cmd.chan, 0⟩

/-- A copy stops on a fault: it parks, and its cause goes to its flag or to the sender of the command; without anyone left
it is abandoned and the supervisor's log keeps the cause (R282, R444). A parked copy holds no page (R396). -/
def State.parkCopy (s : State) (inst n : Nat) (o : CopyOp) (d : Detail) : State :=
  let o := { o with holds := [] }
  let s1 := s.setCopy inst n { o with parked := true }
  if !o.fromPort then s1.flagFail o.party o.flag o.done ⟨o.id, d, o.active, some o.parkedAs⟩
  else
    match s1.portFail inst o.party o.active o.parkedAs d with
    | some s2 => s2
    | none =>
      match s.wg? inst with
      | some g => ((s.setCopy inst n { o with status := 2, posting := true }).logCause g.core g.ctx d).settleCopies inst n 64
      | none => s

/-- The bits of an entry as a command. -/
def entryBits (ws : List Word) : BitVec 256 := BitVec.ofNat 256 (leNat (ws.flatMap fun w => leBytes 4 w.toNat))

/-- COPY_COMMAND_TAKE: the engine takes the oldest command of the buffer of the workgroup that `State.cur` names. A command
that fails its checks parks with progress 0. -/
def execCopyCommandTake (s : State) : Host.Outcome State Fault Refusal :=
  event s (match s.cur with
    | .wg inst => do
      let g ← s.wg? inst
      let (e, id) ← g.copyBuf.filled.head?
      let a := { s.agentOf inst e.party with active := e.lanes }
      let cmd : CopyCmd := ⟨entryBits e.data, none⟩
      let taken := s.modWg inst fun g => { g with copyBuf := { g.copyBuf with filled := g.copyBuf.filled.drop 1 } }
      let op := CopyOp.new id 0 a cmd true false e.clk s.clockNs
      if g.resting || s.lockFull g.core 2 then none
      else
        match s.checkCopy inst cmd with
        | some d => some ((taken.modChan inst cmd.chan fun k => { k with ops := k.ops ++ [op] }).parkCopy inst cmd.chan op d)
        | none => (taken.takeLocks a id cmd.spans).map fun s => s.enterCopy a op
    | _ => none)

/-! ### Bursts (R285) -/

/-- A resumed command that never passed its checks makes them again, and registers its locks; one that a fence has held
registers them now, behind the earlier operations of its party (R148, R264). -/
def State.readyCopy (s : State) (a : Agent) (o : CopyOp) : Except Detail (Option State) :=
  if s.hasLocks a.core o.id then .ok (some s)
  else if !o.fromPort && s.unlocked a.core o.party o.id then .ok none
  else
    match (if o.fromPort then s.checkCopy a.inst o.cmd else none) with
    | some d => .error d
    | none =>
      .ok ((s.takeLocks a o.id o.cmd.spans).map fun s =>
        if o.fromPort && o.cmd.hs then s.modHandle a.inst (handleIndex o.cmd.hsrc) fun e => { e with state := 3 } else s)

/-- A command at the head of a channel that the engine may serve. -/
structure CopyHead where
  inst : Nat
  slot : Nat
  ctx : Nat
  chan : Nat
  op : CopyOp
  deriving DecidableEq, Repr

/-- The heads of the channels of a core: commands that have reached the engine and are neither parked nor ended. While a
workgroup is brought to rest, a command with more than 256 KiB left does not move (R372). -/
def State.copyHeads (s : State) (core : Nat) : List CopyHead :=
  let ops := (s.core core).ops
  s.allWgs.flatMap fun e =>
    let g := e.2
    if g.core = core && !g.frozen then
      g.chans.filterMap fun c =>
        match c.2.ops with
        | o :: _ =>
          let arrived := match ops.find? fun m => m.id == o.id with | some m => m.handed ops | none => !s.barred core o.party o.id
          let small := !g.resting || decide (o.cmd.len - o.sent ≤ 262144)
          if arrived && small && !o.parked && !o.posting then some ⟨e.1, g.slot, g.ctx, c.1, o⟩ else none
        | [] => none
    else []

/-- The head with the earliest deadline; ties go to the earlier issue: operations are numbered in the order in which they issue. -/
def earliest : List CopyHead → Option CopyHead
  | [] => none
  | k :: ks =>
    match earliest ks with
    | none => some k
    | some j =>
      let d := fun (x : CopyHead) => x.op.cmd.deadline.getD 0
      some (if d k < d j ∨ (d k = d j ∧ k.op.id ≤ j.op.id) then k else j)

/-- The next head in round-robin order of channel, after channel number `last`. -/
def nextRound (last : Nat) (hs : List CopyHead) : Option CopyHead :=
  let num := fun (x : CopyHead) => (4 * x.slot + x.chan + 64 - last - 1) % 64
  hs.foldl (fun best x => match best with | none => some x | some b => if num x < num b then some x else best) none

/-- Moves 16 bytes of a command; none at a fault. -/
def State.copyUnit (s : State) (a : Agent) (o : CopyOp) : Except Detail (CopyOp × State) := do
  let off := BitVec.ofNat 64 o.sent
  let (ps, h1, s) ← s.engPiece a 3 .engineSrc o.holds (o.cmd.src + off) 16
  let (pd, h2, s) ← s.engPiece a 3 .engineDst h1 (o.cmd.dst + off) 16
  let s ← s.engTouch o.party o.id (o.sent + 1) o.clk false [ps]
  let s ← s.engTouch o.party o.id (o.sent + 1) o.clk true [pd]
  let marks := s.pieceMarks ps
  let (bs, s) := s.readPiece ps
  .ok ({ o with sent := o.sent + 16, holds := h2 }, s.engWrite o.party (o.cmd.dst + off) pd bs marks)

/-- Delivered bytes are credited to a team barrier (R270). -/
def State.creditTx (s : State) (inst tb n : Nat) (clk : Clock) : State :=
  let r := s.barRef inst true tb
  (s.modBar r fun b => { b.addTx (-(n : Int)) with cur := { b.cur with clk := Clock.join b.cur.clk clk } }).recount r

/-- The ranges of the next 16 bytes of a command. -/
def CopyOp.nextUnit (o : CopyOp) : List Span :=
  let off := BitVec.ofNat 64 o.sent
  [⟨o.cmd.src + off, 16, false⟩, ⟨o.cmd.dst + off, 16, true⟩]

/-- The next unit may move now (R136, R114). -/
def State.unitReady (s : State) (a : Agent) (o : CopyOp) : Bool := s.engReady a 3 o.id o.holds o.nextUnit

/-- Moves up to `n` units, each credited as it is delivered (R270), as far as they may move; the cause of the fault that ends the burst,
if one does. -/
def State.copyUnits (s : State) (a : Agent) (o : CopyOp) : Nat → CopyOp × Option Detail × State
  | 0 => (o, none, s)
  | n + 1 =>
    if !s.unitReady a o then (o, none, s)
    else
      match s.copyUnit a o with
      | .ok (o, s) => (if o.cmd.tbv then s.creditTx a.inst o.cmd.tb 16 o.done else s).copyUnits a o n
      | .error d => (o, some d, s)

/-- The engine may serve the head: its locks are registered or can be, and its next bytes may move, or it stops on a check. -/
def State.canMove (s : State) (x : CopyHead) : Bool :=
  let a := s.agentOf x.inst x.op.party
  match s.readyCopy a x.op with
  | .error _ => true
  | .ok none => false
  | .ok (some s) => s.unitReady a x.op

/-- The choice of R285; true for a fill served within its budget. -/
def State.chooseCopy (s : State) (core : Nat) : Option (Bool × CopyHead) :=
  let hs := (s.copyHeads core).filter s.canMove
  let timed := hs.filter fun x => x.op.cmd.deadline.isSome && s.inBudget x.ctx
  match earliest timed with
  | some x => some (true, x)
  | none => (nextRound (s.core core).lastChan hs).map fun x => (false, x)

/-- The destination lock covers only what is still to be delivered (R130, R148). -/
def State.shrinkLock (s : State) (core op n : Nat) : State :=
  s.modCore core fun k =>
    { k with locks := k.locks.map fun l => if l.op = op ∧ l.dest then { l with base := l.base + n, len := l.len - n } else l }

/-- One burst of a command (R285). -/
def State.burst (s : State) (core : Nat) (timed : Bool) (x : CopyHead) : State :=
  let a := s.agentOf x.inst x.op.party
  match s.readyCopy a x.op with
  | .error d => s.parkCopy x.inst x.chan x.op d
  | .ok none => s
  | .ok (some s) =>
    let s := s.dropOp core x.op.id
    let n := if x.op.cmd.len - x.op.sent < 4096 then x.op.cmd.len - x.op.sent else 4096
    let (o, fault, s) := s.copyUnits a x.op (n / 16)
    let moved := o.sent - x.op.sent
    let s := if timed then s.useBudget x.ctx moved else s.modCore core fun k => { k with lastChan := 4 * x.slot + x.chan }
    let s := (s.shrinkLock core o.id moved).modChan x.inst x.chan fun k =>
      { k with wp := k.wp + moved, clk := Clock.join k.clk o.done }
    let s := match fault with
      | some d => s.parkCopy x.inst x.chan o d
      | none => s.setCopy x.inst x.chan { o with posting := o.sent == o.cmd.len }
    s.settleCopies x.inst x.chan 64

/-- COPY_BURST: the engine of the core that `State.cur` names moves one burst, then tests the pending fills (R286). -/
def execCopyBurst (s : State) : Host.Outcome State Fault Refusal :=
  event s (match s.cur with
    | .core n =>
      if (s.core n).offline then none
      else (s.chooseCopy n).map fun x => (s.burst n x.1 x.2).testFills n
    | _ => none)

/-- COPY_COMPLETION_POST (R283): the completion entry of the head of a channel is placed, and the command completes. -/
def execCopyCompletionPost (inst chan : Nat) (s : State) : Host.Outcome State Fault Refusal :=
  event s (do
    let g ← s.wg? inst
    let o ← g.copyCompletes chan
    if o.cmd.post then some ((s.finishCopy inst chan o).settleCopies inst chan 64) else none)

/-! ### Handle instructions (R281) -/

/-- The k register of a handle operand. -/
def handleOf (s : State) (c : Ctx) (o : Opnd) : BitVec 16 := (s.uni c o).setWidth 16

/-- HGET for a warp or a Beryl core: the handle, or none while no entry is Free. -/
def State.getHandle (s : State) (inst off len : Nat) : Except Detail (Option (Word × State)) :=
  match s.wg? inst with
  | none => .error (.code_ 0x106)
  | some g =>
    if g.hents.isEmpty || off % 128 != 0 || len % 128 != 0 || decide (len < 128) || decide (0x200000 < len) || !g.ownRange off len then
      .error (.code_ 0x106)
    else
      match (List.range g.hents.length).find? fun i => (s.handleAt inst i).map (·.state) == some 0 with
      | none => .ok none
      | some i =>
        let gen := ((s.handleAt inst i).getD .zero).gen
        .ok (some (BitVec.ofNat 32 (gen * 1024 + i), s.modHandle inst i fun e => { e with state := 1, offset := off, length := len }))

def execHget (h : Head) (b : BodyA) (s : State) : Host.Outcome State Fault Refusal :=
  runOp s h fun c => uniformOp s c h (s.uniMark c b.sa false || s.uniMark c b.sb false) .command fun c => do
    let (inst, _, _) ← ownWg s c
    match s.getHandle inst (s.uni c b.sa).toNat (s.uni c b.sb).toNat with
    | .error d => trapWith d
    | .ok none => .error (.block s)
    | .ok (some (x, s)) => .ok (s.writeU c b.dst.idx false (x.setWidth 64) false)

def execHfree (h : Head) (b : BodyA) (s : State) : Host.Outcome State Fault Refusal :=
  runOp s h fun c => uniformOp s c h (s.uniMark c b.sa false) .command fun c => do
    let (inst, _, g) ← ownWg s c
    let x := handleOf s c b.sa
    match s.handle? inst x with
    | none => trapWith stale
    | some e => do
      need (e.state != 0 && !g.namesHandle (handleIndex x)) (.code_ 0x105)
      .ok (s.modHandle inst (handleIndex x) fun e => e.freed [])

/-- The wait of HWAIT: the clock to acquire once the entry is in the state. -/
def State.awaitHandle (s : State) (inst : Nat) (x : BitVec 16) (st : Nat) : Except Detail (Option Clock) :=
  match s.handle? inst x with
  | none => .error stale
  | some e => .ok (if e.state = st then some e.clk else none)

def execHwait (h : Head) (b : BodyA) (s : State) : Host.Outcome State Fault Refusal :=
  runOp s h fun c => uniformOp s c h (s.uniMark c b.sa false) .command fun c => do
    let (inst, _, _) ← ownWg s c
    match s.awaitHandle inst (handleOf s c b.sa) b.sb.immNat with
    | .error d => trapWith d
    | .ok none => .error (.block s)
    | .ok (some clk) => .ok (s.acquire c.party clk none)

/-- The operation of an HSET that a group waits on. -/
def State.hsetOp (s : State) (c : Ctx) : Option MemOp :=
  (s.core c.core).ops.find? fun o => (match o.eff with | .hset .. => true | _ => false) && o.party == c.party && o.group == c.group

/-- HSET (R281): blocks until its release registers, then checks and changes the state. -/
def hsetInstr (s : State) (c : Ctx) (inst : Nat) (x : BitVec 16) (st : Nat) : M State :=
  let (id, s1) := match s.hsetOp c with
    | some o => (o.id, s)
    | none => s.addOp c 0 (.hset x.toNat st) [] true
  match s1.registers? c.core id with
  | none => .error (.early s1)
  | some o =>
    let s2 := s1.dropOp c.core id
    match s2.handle? inst x with
    | none => .error (.drop s2 stale)
    | some e =>
      if (st = 2 ∧ (e.state = 1 ∨ e.state = 3)) ∨ (st = 3 ∧ e.state = 2) then
        .ok (s2.modHandle inst (handleIndex x) fun e => { e with state := st, clk := o.clk })
      else .error (.drop s2 (.code_ 0x105))

def execHset (h : Head) (b : BodyA) (s : State) : Host.Outcome State Fault Refusal :=
  runOp s h fun c => uniformOp s c h (s.uniMark c b.sa false) .command fun c => do
    let (inst, _, _) ← ownWg s c
    hsetInstr s c inst (handleOf s c b.sa) b.sb.immNat

/-! ### WPTR and WWAIT (R287) -/

def execWptr (h : Head) (b : BodyA) (s : State) : Host.Outcome State Fault Refusal :=
  runOp s h fun c => uniformOp s c h false .command fun c => do
    let (_, _, g) ← ownWg s c
    let k := g.chan_ b.sb.immNat
    .ok ((s.writeU c b.dst.idx true (BitVec.ofNat 64 k.wp) false).acquire c.party k.clk none)

def execWwait (h : Head) (b : BodyA) (s : State) : Host.Outcome State Fault Refusal :=
  runOp s h fun c => uniformOp s c h (s.uniMark c b.sa true) .command fun c => do
    let (_, _, g) ← ownWg s c
    let k := g.chan_ b.sb.immNat
    if (s.uni64 c b.sa).toNat ≤ k.wp then .ok (s.acquire c.party k.clk none) else .error (.block s)

end Sys2Proof.Machine
end

