-- ==== Sys2Proof/Machine/Convert.lean ====
section
/-! DEFINITION. Conversions (R232 to R238). -/

namespace Sys2Proof.Machine

/-! ### CVT (R232, R233) -/

/-- The float format of a CVT type code. -/
def cvtFloat (code : Nat) : Option FloatFmt :=
  match code with
  | 0 => some fp32 | 1 => some fp16 | 2 => some bf16 | 3 => some fp64 | _ => none

/-- Width and sign of an integer type code. -/
def cvtInt (code : Nat) : Nat × Bool :=
  match code with
  | 4 => (8, true) | 5 => (8, false) | 6 => (16, true) | 7 => (16, false) | 8 => (32, true) | 9 => (32, false)
  | 10 => (64, true) | _ => (64, false)

/-- 64-bit types. -/
def cvtWide (code : Nat) : Bool := code == 3 || code == 10 || code == 11

/-- The exact value of a source of a type. -/
def cvtSource (code : Nat) (x : DWord) : Num :=
  match cvtFloat code with
  | some f => f.value (x.toNat % 2 ^ f.width)
  | none => .ofInt (intOf (cvtInt code).2 (cvtInt code).1 x)

/-- The result element of a value in a type. -/
def cvtResult (code : Nat) (r : Rnd) (x : Num) : DWord :=
  match cvtFloat code with
  | some f => BitVec.ofNat 64 (f.round r false x)
  | none =>
    let (w, sg) := cvtInt code
    let lo : Int := if sg then -(2 ^ (w - 1)) else 0
    let hi : Int := if sg then 2 ^ (w - 1) - 1 else 2 ^ w - 1
    BitVec.ofInt 64 (x.toIntClamped r lo hi)

def execCvt (h : Head) (b : BodyA) (s : State) : Host.Outcome State Fault Refusal :=
  runOp s h fun c =>
    let t := b.sb.immNat / 16
    let u := b.sb.immNat % 16
    alu s c h b.dst (cvtWide t) [(b.sa, wideN (cvtWide u), 1)] fun s l =>
      let x : Num × Bool := match b.sa, cvtFloat u with
        | .imm i, some _ => (.ofInt i.toInt, false)
        | _, _ => let x := s.opnd c b.sa (cvtWide u) l; (cvtSource u x.1, x.2)
      (cvtResult t (.ofMod b.mod.toNat) x.1, x.2)

/-- CVTW (R234). -/
def execCvtw (h : Head) (b : BodyA) (s : State) : Host.Outcome State Fault Refusal :=
  runOp s h fun c =>
    let f := if b.mod.getLsbD 2 then bf16 else fp16
    let r := Rnd.ofMod (b.mod.toNat % 4)
    alu s c h b.dst false [(b.sa, 1, 1), (b.sb, 1, 2)] fun s l =>
      let x := s.fp c b.sa l
      let y := s.fp c b.sb l
      (BitVec.ofNat 64 (f.round r false y.1 * 65536 + f.round r false x.1), x.2 || y.2)

/-! ### Through a slot -/

/-- The descriptor of a format slot of the grid; the supervisor warp has no grid (log 2). -/
def State.slotOf (s : State) (c : Ctx) (n : Nat) : Slot :=
  match c.ref with
  | .user inst _ => (match s.wg? inst with | some g => (s.launchOf g.grid).fs n | none => 0)
  | .sup _ => (Config.supervisorValue (512 + n)).setWidth 64

/-- slot format mismatch (R96). -/
def slotMismatch (f : Slot) (n : Nat) : Detail := ⟨0x008, BitVec.ofNat 32 f.elem, n, 7, 0, none, none, none⟩

/-- The slot of an operand fs0 to fs7. -/
def fsNo (o : Opnd) : Nat := o.idx - 0x28

/-- Discarded bits by element, zero where no active lane writes one (R100). -/
def laneDiscard (f : Slot) (act : Mask) (val : Nat → Num) (first i : Nat) : Nat :=
  if first ≤ i ∧ i < first + 32 ∧ act.has (i - first) then f.discard (val (i - first)) else 0

/-- Marks by element, none where no active lane writes one. -/
def laneMarked (act : Mask) (mark : Nat → Bool) (first i : Nat) : Bool :=
  decide (first ≤ i) && decide (i < first + 32) && act.has (i - first) && mark (i - first)

/-- CVTS (R235). The slot is checked before the names (log 82). -/
def execCvts (h : Head) (b : BodyA) (s : State) : Host.Outcome State Fault Refusal :=
  runOp s h fun c => do
    let f := s.slotOf c (fsNo b.sb)
    need (f.format.isSome && f.elem != 3) (slotMismatch f (fsNo b.sb))
    let act := c.active s h
    if b.mod == 0 then
      alu s c h b.dst false [(b.sa, 1, 1)] fun s l =>
        let x := s.fp c b.sa l
        let d := laneDiscard f act (fun k => (s.fp c b.sa k).1) 0
        (BitVec.ofNat 64 (f.convert (slotHash d l) x.1), x.2 || slotHashMark f (laneMarked act (fun k => (s.fp c b.sa k).2) 0) l)
    else
      alu s c h b.dst false [(b.sa, 1, 1)] fun s l =>
        let x := s.opnd c b.sa false l
        ((round32 .rne (f.value (x.1.toNat % 2 ^ f.bits))).setWidth 64, x.2)

/-! ### Packed elements of rows (R88) -/

/-- A field written into a lane element. -/
structure BitField where
  lane : Nat
  bit : Nat
  width : Nat
  value : Nat
  mark : Bool
  deriving DecidableEq, Repr

/-- Replaces bits of a word. -/
def putBits (x : Word) (bit width value : Nat) : Word :=
  let m := BitVec.ofNat 32 ((2 ^ width - 1) * 2 ^ bit)
  (x &&& ~~~m) ||| (BitVec.ofNat 32 (value % 2 ^ width * 2 ^ bit))

/-- The lanes that a list of fields touches. -/
def fieldLanes (ws : List BitField) : Mask := ws.foldl (fun m w => m ||| Mask.one w.lane) 0

/-- Writes fields into the row of a name; the other bits keep their values. An element keeps its mark unless all of
it is written. -/
def State.writeFields (s : State) (c : Ctx) (n : Nat) (ws : List BitField) : State :=
  s.writeName c n fun l =>
    let here := ws.filter fun w => w.lane == l
    match here with
    | [] => none
    | _ =>
      let old := s.laneVal c n l
      let whole := here.foldl (fun k w => k + w.width) 0 == 32
      some (here.foldl (fun x w => putBits x w.bit w.width w.value) old.1, (!whole && old.2) || here.any fun w => w.mark)

/-- A packed element of a name: element `j` of width `w`, with the mark of its lane element. -/
def State.readPacked (s : State) (c : Ctx) (n w j : Nat) : Nat × Bool :=
  let x := s.laneVal c n (j * w / 32)
  (x.1.toNat / 2 ^ (j * w % 32) % 2 ^ w, x.2)

/-- The width of a slot's elements in a packed row, six-bit codes in 8-bit containers (R236). -/
def Slot.container (f : Slot) : Nat := if f.bits = 6 then 8 else f.bits

/-- CVTN (R236). The slot is checked before the names (log 82). -/
def execCvtn (h : Head) (b : BodyA) (s : State) : Host.Outcome State Fault Refusal :=
  runOp s h fun c => do
    let f := s.slotOf c (fsNo b.sb)
    let w := f.container
    let part := b.sc.immNat
    need (f.format.isSome && decide (w < 32) && decide (part < 32 / w)) (slotMismatch f (fsNo b.sb))
    checkNames (s.warp c.ref) (namesOf b.dst 1 0 ++ namesOf b.sa 1 1)
    let act := c.active s h
    let guard := c.guardMarks s h
    if b.mod == 0 then
      let s1 ← s.rowAccess c act false (namesOf b.sa 1 1)
      let d := laneDiscard f act (fun k => (s1.fp c b.sa k).1) (32 * part)
      let ws := (Lanes.list act).map fun l =>
        let j := 32 * part + l
        let x := s1.fp c b.sa l
        (⟨j * w / 32, j * w % 32, w, f.convert (slotHash d j) x.1,
          x.2 || slotHashMark f (laneMarked act (fun k => (s1.fp c b.sa k).2) (32 * part)) j⟩ : BitField)
      let s2 ← s1.rowAccess c (fieldLanes ws) true (namesOf b.dst 1 0)
      let g := (Lanes.list guard).foldl (fun m l => m ||| Mask.one ((32 * part + l) * w / 32)) 0
      .ok ((s2.writeFields c b.dst.idx ws).markName c b.dst.idx g)
    else
      let srcs := (Lanes.list act).foldl (fun m l => m ||| Mask.one ((32 * part + l) * w / 32)) 0
      let s1 ← s.rowAccess c srcs false (namesOf b.sa 1 1)
      let s2 ← s1.rowAccess c act true (namesOf b.dst 1 0)
      .ok (s2.writeV c b.dst.idx false act guard fun l =>
        let x := s1.readPacked c b.sa.idx w (32 * part + l)
        ((round32 .rne (f.value x.1)).setWidth 64, x.2))

/-- BSCALE (R237). The slot is checked before the names (log 82). -/
def execBscale (h : Head) (b : BodyA) (s : State) : Host.Outcome State Fault Refusal :=
  runOp s h fun c => do
    let f := s.slotOf c (fsNo b.sc)
    need (f.scale == 1 || f.scale == 2) (slotMismatch f (fsNo b.sc))
    alu s c h b.dst false [(b.sa, 1, 1), (b.sb, 1, 2)] fun s l =>
      let x := s.fp c b.sa l
      let q := s.opnd c b.sb false l
      let sc := scaleValue f.scale (q.1.toNat % 256)
      let r := if b.mod == 0 then scaleElem x.1 sc else if sc.isNan then .nan else x.1.div 64 sc
      ((round32 .rne r).setWidth 64, x.2 || q.2)

/-! ### Planes (R92, R238) -/

/-- The 2-bit element `e` of half `h` of a low-plane row: its lane and bit. -/
def lowPlane (h e : Nat) : Nat × Nat := (16 * h + e / 16, 2 * (e % 16))

/-- The group element of container `j` under q. -/
def planeElem (q j : Nat) : Nat := 128 * (q % 2) + j

/-- The four containers of a lane. -/
def containersOf (l : Nat) : List Nat := (List.range 4).map fun i => 4 * l + i

def execPlsplit (h : Head) (b : BodyA) (s : State) : Host.Outcome State Fault Refusal :=
  runOp s h fun c => do
    let q := b.sc.immNat
    checkNames (s.warp c.ref) (namesOf b.dst 1 0 ++ namesOf b.sa 1 1 ++ namesOf b.sb 1 2)
    let act := c.active s h
    let guard := c.guardMarks s h
    let s1 ← s.rowAccess c act false (namesOf b.sa 1 1)
    let js := (Lanes.list act).flatMap containersOf
    let hi := js.map fun j =>
      let e := planeElem q j
      let x := s1.readPacked c b.sa.idx 8 j
      (⟨e / 8, 4 * (e % 8), 4, x.1 % 64 / 4, x.2⟩ : BitField)
    let lo := js.map fun j =>
      let e := planeElem q j
      let x := s1.readPacked c b.sa.idx 8 j
      (⟨(lowPlane (q / 2) e).1, (lowPlane (q / 2) e).2, 2, x.1 % 4, x.2⟩ : BitField)
    let s2 ← s1.rowAccess c (fieldLanes hi) true (namesOf b.dst 1 0)
    let s3 ← s2.rowAccess c (fieldLanes lo) true (namesOf b.sb 1 2)
    let gj := (Lanes.list guard).flatMap containersOf
    let gh := gj.foldl (fun m j => m ||| Mask.one (planeElem q j / 8)) 0
    let gl := gj.foldl (fun m j => m ||| Mask.one (lowPlane (q / 2) (planeElem q j)).1) 0
    .ok ((((s3.writeFields c b.dst.idx hi).writeFields c b.sb.idx lo).markName c b.dst.idx gh).markName c b.sb.idx gl)

def execPljoin (h : Head) (b : BodyA) (s : State) : Host.Outcome State Fault Refusal :=
  runOp s h fun c => do
    let q := b.sc.immNat
    checkNames (s.warp c.ref) (namesOf b.dst 1 0 ++ namesOf b.sa 1 1 ++ namesOf b.sb 1 2)
    let act := c.active s h
    let js := (Lanes.list act).flatMap containersOf
    let hiLanes := js.foldl (fun m j => m ||| Mask.one (planeElem q j / 8)) 0
    let loLanes := js.foldl (fun m j => m ||| Mask.one (lowPlane (q / 2) (planeElem q j)).1) 0
    let s1 ← s.rowAccess c hiLanes false (namesOf b.sa 1 1)
    let s2 ← s1.rowAccess c loLanes false (namesOf b.sb 1 2)
    let s3 ← s2.rowAccess c act true (namesOf b.dst 1 0)
    .ok (s3.writeV c b.dst.idx false act (c.guardMarks s h) fun l =>
      (containersOf l).foldl (fun (a : DWord × Bool) j =>
        let e := planeElem q j
        let x := s2.readPacked c b.sa.idx 4 e
        let p := lowPlane (q / 2) e
        let y := s2.laneVal c b.sb.idx p.1
        let v := x.1 * 4 + y.1.toNat / 2 ^ p.2 % 4
        (a.1 ||| BitVec.ofNat 64 (v * 2 ^ (8 * (j % 4))), a.2 || x.2 || y.2)) (0, false))

end Sys2Proof.Machine
end

