-- ==== Sys2Proof/Machine/Matrix.lean ====
section
/-! DEFINITION. The matrix engine (R298 to R310): signing (R36 to R38), tile order (R299), row blocks (R303, R304), and the
arithmetic of R102 to R106. -/

namespace Sys2Proof.Machine

/-! ### Reads of an engine -/

/-- Bytes with their marks. -/
abbrev Marked := List (Byte × Bool)

/-- An engine operation as it makes accesses. -/
structure Eng where
  agent : Agent
  cls : Nat
  op : Nat
  clk : Clock
  epoch : Nat
  deriving DecidableEq, Repr

/-- Reads `n` bytes at a generic address, in pieces that a 16-byte line holds; `fuel` pieces at most. -/
def State.engRead (s : State) (e : Eng) (holds : List TlbEntry) (addr n : Nat) : Nat → Except Detail (Marked × List TlbEntry × State)
  | 0 => .ok ([], holds, s)
  | fuel + 1 =>
    if n = 0 then .ok ([], holds, s)
    else do
      let k := if n < 16 - addr % 16 then n else 16 - addr % 16
      let (p, holds, s) ← s.engPiece e.agent e.cls .engineSrc holds (BitVec.ofNat 64 addr) k
      let s ← s.engTouch e.agent.party e.op e.epoch e.clk false [p]
      let ms := (List.range k).map fun i => s.markAt (p.place.plus i) p.layout
      let (bs, s) := s.readPiece p
      let (rest, holds, s) ← s.engRead e holds (addr + k) (n - k) fuel
      .ok (bs.zip ms ++ rest, holds, s)

/-! ### Operands (R301, R302) -/

/-- The sum rule of a slot pair (R302). -/
inductive MatRule where
  | sum | int | double
  deriving DecidableEq, Repr

def isInt8 (f : Slot) : Bool := f.elem == 4 || f.elem == 5
def isNarrow (f : Slot) : Bool := f.elem == 1 || f.elem == 2 || f.isP3109

def matRule (fa fb : Slot) : Option MatRule :=
  if f64Elem fa && f64Elem fb then some .double
  else if isInt8 fa && isInt8 fb then some .int
  else if isNarrow fa && isNarrow fb then some .sum
  else none
where
  f64Elem (f : Slot) : Bool := f.elem == 3

/-- Bytes of a row of `k` elements (R88, R92). -/
def Slot.rowBytes (f : Slot) (k : Nat) : Nat := if f.split then k / 2 + k / 4 else k * f.bits / 8

/-- Elements of a block (R94). -/
def Slot.blockSize (f : Slot) : Nat := if f.block = 1 then 16 else 32

/-- Scale bytes of a row of `k` elements (R301). -/
def Slot.scaleBytes (f : Slot) (k : Nat) : Nat := if f.scale = 0 then 0 else (k + f.blockSize - 1) / f.blockSize

/-- The operand block (R301). -/
abbrev OpBlock := BitVec 256

namespace OpBlock

def astr (b : OpBlock) : Nat := (b.extractLsb' 0 32).toNat
def bstr (b : OpBlock) : Nat := (b.extractLsb' 32 32).toNat
def ascl (b : OpBlock) : DWord := b.extractLsb' 64 64
def bscl (b : OpBlock) : DWord := b.extractLsb' 128 64
def asstr (b : OpBlock) : Nat := (b.extractLsb' 192 16).toNat
def bsstr (b : OpBlock) : Nat := (b.extractLsb' 208 16).toNat
def reserved (b : OpBlock) : Word := b.extractLsb' 224 32

end OpBlock

/-- A block of eight k registers. -/
def Warp.kBlock (w : Warp) (n : Nat) : BitVec 256 :=
  BitVec.ofNat 256 (leNat ((List.range 8).flatMap fun i => leBytes 4 (w.kGet (n + i)).toNat))

/-- Bits of a row and which of its bytes are marked. -/
structure RowBits where
  bits : Nat
  marks : Nat
  deriving DecidableEq, Repr

def Marked.row (m : Marked) : RowBits :=
  ⟨leNat (m.map (·.1)), (List.range m.length).foldl (fun n i => if (m.getD i (0, false)).2 then n + 2 ^ i else n) 0⟩

/-- A field of `w` bits at bit `i`. -/
def RowBits.field (r : RowBits) (i w : Nat) : Nat := r.bits / 2 ^ i % 2 ^ w

/-- Element `j` of a row of `k` elements: its code, and whether a byte of it is marked. -/
def RowBits.elem (r : RowBits) (f : Slot) (k j : Nat) : Nat × Bool :=
  if f.split then
    (r.field (4 * j) 4 * 4 + r.field (4 * k + 2 * j) 2, r.marks.testBit (j / 2) || r.marks.testBit (k / 2 + j / 4))
  else
    let w := f.bits
    (r.field (w * j) w, (List.range ((w + 7) / 8)).any fun i => r.marks.testBit (w * j / 8 + i))

/-- The values of a row, each times its block scale (R93). -/
def rowValues (f : Slot) (k : Nat) (data scales : RowBits) : List (Num × Bool) :=
  (List.range k).map fun j =>
    let (c, m) := data.elem f k j
    if f.scale = 0 then (f.value c, m)
    else
      let b := j / f.blockSize
      (scaleElem (f.value c) (scaleValue f.scale (scales.field (8 * b) 8)), m || scales.marks.testBit b)

/-! ### Sums (R102 to R106) -/

/-- An element of an operand of the integer rule. -/
def int8Value (f : Slot) (c : Nat) : Int := if f.elem = 4 then (BitVec.ofNat 8 c).toInt else c

/-- The products of one output element. -/
def products (xs ys : List (Num × Bool)) : List Num := List.zipWith (fun x y => Num.mul x.1 y.1) xs ys

/-- The real and imaginary products of complex rows, two for each complex value (R106). -/
def complexProducts : List (Num × Bool) → List (Num × Bool) → List Num × List Num
  | ar :: ai :: xs, br :: bi :: ys =>
    let (re, im) := complexProducts xs ys
    (ar.1.mul br.1 :: (ai.1.mul bi.1).neg :: re, ar.1.mul bi.1 :: ai.1.mul br.1 :: im)
  | _, _ => ([], [])

/-- A row of an operand as the rules need it. -/
structure MatRow where
  data : RowBits
  vals : List (Num × Bool)
  marked : Bool
  deriving DecidableEq, Repr

def matRow (f : Slot) (k : Nat) (r : Marked × Marked) : MatRow :=
  let d := r.1.row
  let v := rowValues f k d r.2.row
  ⟨d, v, v.any (·.2)⟩

/-- Words of the tile that output (m, n) takes (R300, R303). -/
def outWords (two : Bool) (m n : Nat) : List Nat := if two then [64 * m + 2 * n, 64 * m + 2 * n + 1] else [64 * m + n]

/-! ### Tiles (R57, R78, R300) -/

/-- A tile as a context meets it. -/
def Tile.seenBy (t : Tile) (ctx : Nat) : Tile := if t.owner = ctx then t else ⟨[], [], ctx⟩

def State.tileOf (s : State) (core tile ctx : Nat) : Tile := ((s.core core).tiles.get Tile.zero tile).seenBy ctx

def State.setTile (s : State) (core tile : Nat) (t : Tile) : State :=
  s.modCore core fun k => { k with tiles := k.tiles.put Tile.zero tile t }

def Tile.word (t : Tile) (i : Nat) : Word := t.words.get 0 i
def Tile.mark (t : Tile) (i : Nat) : Bool := t.marks.get false i

def Tile.set (t : Tile) (i : Nat) (x : Word) (m : Bool) : Tile :=
  { t with words := t.words.put 0 i x, marks := t.marks.put false i m }

/-- Writes words from an index on. -/
def Tile.setFrom (t : Tile) : Nat → List (Word × Bool) → Tile
  | _, [] => t
  | i, x :: xs => (t.set i x.1 x.2).setFrom (i + 1) xs

/-! ### Operations -/

namespace MatOp

/-- An operation on a tile with everything else unset. -/
def new (id : Nat) (kind : MatKind) (a : Agent) (acc tile : Nat) (clk : Clock) : MatOp :=
  { id := id, kind := kind, inst := a.inst, party := a.party, flags := [], active := a.active, acc := acc, tile := tile, aA := .zero, aB := .zero,
    fsA := 0, fsB := 0, block := 0, kk := 0, z := false, int := false, act := 0, bv := false, scale := 0, row := 0, put := false,
    slot := none, progress := 0, parked := false, owed := false, complete := false, ranges := [], locked := true, bRows := [], pieces := [],
    bias := [], staged := .zero, holds := [], clk := clk }

/-- The format slots. -/
def slotA (op : MatOp) : Slot := op.fsA
def slotB (op : MatOp) : Slot := op.fsB

/-- Output columns (R302). -/
def cols (op : MatOp) : Nat := if op.kind = .mmac ∨ op.slotA.elem = 3 then 32 else 64

/-- An output takes two words. -/
def twoWords (op : MatOp) : Bool := op.kind == .mmac || op.slotA.elem == 3

/-- What the operation's accesses order, for the warps that wait on its flag. -/
def done (op : MatOp) : Clock := assocPut op.clk (.eng op.id) 4

/-- The same, of what it has done so far: an MEPI has its accesses in the histories from its commitment (R309). -/
def sofar (op : MatOp) : Clock := assocPut op.clk (.eng op.id) (if op.kind = .mepi then 4 else op.progress / 16)

/-- KIND of R310 and R345. -/
def code (op : MatOp) : Nat := op.kind.code

def parkedAs (op : MatOp) : Parked := ⟨op.id, 0, op.progress, op.code, op.slot.getD 0, op.acc⟩

/-- The operation needs its tile no more: it is complete, or an MEPI that has read it (R308, R309). -/
def released (op : MatOp) : Bool := op.complete || (op.kind == .mepi && (op.slot.isSome || op.progress != 0))

end MatOp

/-- The new words of output (m, n) from the old ones. -/
def outValue (op : MatOp) (old : List Word) (a b : MatRow) : List Word :=
  let fa := op.slotA
  let fb := op.slotB
  let c := fun (i : Nat) => old.getD i 0
  if op.kind = .mmac then
    let (re, im) := complexProducts a.vals b.vals
    [sumGroups (c 0) op.kk re, sumGroups (c 1) op.kk im]
  else
    match matRule fa fb with
    | some .double =>
      let x := (List.range op.kk).foldl (fun (x : DWord) j =>
        let p := (f64 (BitVec.ofNat 64 (a.data.field (64 * j) 64))).mul (f64 (BitVec.ofNat 64 (b.data.field (64 * j) 64)))
        round64 .rne (p.add false (f64 x))) ((c 1 ++ c 0 : BitVec 64))
      [x.setWidth 32, x.extractLsb' 32 32]
    | some .int =>
      [(List.range op.kk).foldl (fun (x : Word) j =>
        x + BitVec.ofInt 32 (int8Value fa (a.data.field (8 * j) 8) * int8Value fb (b.data.field (8 * j) 8))) (c 0)]
    | _ => [sumGroups (c 0) op.kk (products a.vals b.vals)]

def State.setMat (s : State) (core : Nat) (op : MatOp) : State :=
  s.modCore core fun k => { k with mats := k.mats.map fun m => if m.id = op.id then op else m }

/-- The operation ends: its slot and locks are free. It stays listed while it is the latest of its tile: one that was abandoned reads there
as complete, in slot 0, with the progress that it had (R310 does not say; log 82: DESIGN CHOICE). -/
def State.endMat (s : State) (core : Nat) (op : MatOp) : State :=
  let s := (s.freeLocks core op.id).modWg op.inst fun g => { g with engClk := Clock.join g.engClk op.sofar }
  s.modCore core fun k =>
    let later := (k.mats.dropWhile fun m => m.id != op.id).drop 1
    let last := !later.any fun m => m.inst == op.inst && m.acc == op.acc
    { k with mats := k.mats.filterMap fun m =>
        if m.id = op.id then (if last then some { op with complete := true, parked := false, slot := none, holds := [] } else none)
        else some m }

/-- The operation is finished: its flag falls in every warp that counted it (R303). -/
def State.finishMat (s : State) (core : Nat) (op : MatOp) : State :=
  let s := (s.endMat core { op with progress := 64 }).land op.party op.id
  op.flags.foldl (fun s f => s.flagDone (wref op.inst f.1).party f.2 op.done) s

/-- The operation stops at the start of its row block and parks; its flag falls with the cause (R304), and it holds no page (R396). -/
def State.parkMat (s : State) (core : Nat) (op : MatOp) (d : Detail) : State :=
  let op := { op with owed := false, holds := [] }
  let s := s.setMat core { op with parked := true }
  op.flags.foldl (fun s f => s.flagFail (wref op.inst f.1).party f.2 op.done ⟨op.id, d, op.active, some op.parkedAs⟩) s

/-! ### Checks of R298 -/

/-- accumulator not granted (R57). -/
def needTile (g : Wg) (acc : Nat) : M Nat :=
  match g.tiles[acc]? with
  | some t => .ok t
  | none => trapWith ⟨0x044, 0, acc, 7, 0, none, none, none⟩

/-- The checks of an address register that names an operand of `n` bytes. -/
def needEngReg (a : AReg) (areg : Nat) (kind : AccKind) (n : Nat) : M Unit := do
  need (a.e && (if kind = .engineDst then a.w else a.r)) ⟨0x085, BitVec.ofNat 32 kind.num, areg, 7, 0, none, none, none⟩
  need (a.covers a.ptr.toNat n) ⟨0x084, 0, areg, 7, a.ptr, none, none, none⟩

/-- matrix operand invalid -/
def needOperand (ok : Bool) : M Unit := need ok (.code_ 0x144)

/-- The window checks of an operand (R107 to R109). -/
def needSpan (s : State) (inst : Nat) (x : Span) : M Unit :=
  match s.checkSpan inst (if x.dest then .engineDst else .engineSrc) x.addr x.len with
  | some d => trapWith d
  | none => need (!(x.dest && windowOf x.addr == some 2)) ⟨0x083, 4, 2, 7, 0, none, none, none⟩

def needSpans (s : State) (inst : Nat) : List Span → M Unit
  | [] => .ok ()
  | x :: xs => do
    needSpan s inst x
    needSpans s inst xs

/-- The bytes from the start of row 0 to the end of the last of `n` rows. -/
def rowsLen (n stride bytes : Nat) : Nat := (n - 1) * stride + bytes

/-! ### MMA and MMAC (R303) -/

/-- The slot that a pair's 0x008 names: one that no pair of the instruction admits, FSA before FSB; where each is admitted in some
pair, FSB (R96 does not say: log 82). -/
def pairMismatch (cplx : Bool) (fa fb : Slot) (b : BodyMma) : Detail :=
  if isNarrow fa || (!cplx && (isInt8 fa || fa.elem == 3)) then slotMismatch fb b.fs2.toNat else slotMismatch fa b.fs1.toNat

/-- The checks of R298, and the operation with its spans. -/
def checkMma (s : State) (c : Ctx) (a : Agent) (g : Wg) (cplx : Bool) (b : BodyMma) : M (MatOp × List Span) := do
  let w := s.warp c.ref
  let tile ← needTile g b.acc.toNat
  let fa := s.slotOf c b.fs1.toNat
  let fb := s.slotOf c b.fs2.toNat
  need (match matRule fa fb with | some .sum => true | some _ => !cplx | none => false) (pairMismatch cplx fa fb b)
  let k := 16 * (b.kf.toNat + 1)
  let blk : OpBlock := w.kBlock b.kop.toNat
  let rA := w.aGet b.areg1.toNat
  let rB := w.aGet b.areg2.toNat
  let op := { MatOp.new 0 (if cplx then .mmac else .mma) a b.acc.toNat tile (s.clockOf a.party) with
    aA := rA, aB := rB, fsA := fa, fsB := fb, block := blk, kk := k, z := b.z, locked := false }
  let lenA := rowsLen 64 blk.astr (fa.rowBytes k)
  let lenB := rowsLen op.cols blk.bstr (fb.rowBytes k)
  needEngReg rA b.areg1.toNat .engineSrc lenA
  needEngReg rB b.areg2.toNat .engineSrc lenB
  needOperand (rA.ptr.toNat % 16 == 0 && rB.ptr.toNat % 16 == 0 && blk.astr % 16 == 0 && blk.bstr % 16 == 0 && blk.reserved == 0)
  let spans := [⟨rA.ptr, lenA, false⟩] ++
    (if fa.scale = 0 then [] else [⟨blk.ascl, rowsLen 64 blk.asstr (fa.scaleBytes k), false⟩]) ++ [⟨rB.ptr, lenB, false⟩] ++
    (if fb.scale = 0 then [] else [⟨blk.bscl, rowsLen op.cols blk.bsstr (fb.scaleBytes k), false⟩])
  needSpans s a.inst spans
  .ok (op, spans)

/-- The convergence checks (R36 to R38). -/
def checkRound (v : Conv) (warp : Nat) (word : DWord) (conv : Nat) : M Unit := do
  need (v.mask != 0) ⟨0x141, 0, conv, 7, 0, none, none, none⟩
  need (v.mask.has warp) ⟨0x140, 0, conv, 7, 0, none, none, none⟩
  need (!v.isOpen || v.word == word) ⟨0x143, 0, conv, 7, 0, none, none, none⟩

/-- Threads sign: the first signature opens a round, the last signer's values are the operation's (R36, R37). -/
def Conv.sign (v : Conv) (warp flag : Nat) (m : Mask) (word : DWord) (op : MatOp) : Conv :=
  let clk := match v.last with | some o => Clock.join o.clk op.clk | none => op.clk
  { v with signed := v.signed.upd 0 warp fun x => x ||| m, isOpen := true, word := word, last := some { op with clk := clk },
           flags := v.flags ++ [(warp, flag)] }

/-- The threads of the group that have signed the open round stall; the others sign and go on (R38). -/
def mmaInstr (cplx : Bool) (s : State) (c : Ctx) (h : Head) (b : BodyMma) : M State := do
  let g := c.guardMarks s h
  let signers := c.active s h &&& ~~~g
  let goOn := fun (s : State) (m : Mask) => (s.modWarp c.ref fun x => x.unblock m).advance c m []
  if signers = 0 then .ok (goOn (s.kill c g .guard) c.group)
  else
    let (inst, w, wg) ← ownWg s c
    let a ← ownAgent s c
    let (op, spans) ← checkMma s c a wg cplx b
    let n := b.conv.toNat
    let v := wg.conv_ n
    checkRound v w c.word n
    let x := s.warp c.ref
    if op.aA.mark || op.aB.mark then .ok (goOn ((s.kill c signers .address).kill c g .guard) c.group)
    else if (List.range 8).any fun i => x.kMarked (b.kop.toNat + i) then
      .ok (goOn ((s.kill c signers .command).kill c g .guard) c.group)
    else
      let stalled := if v.isOpen then signers &&& v.signed.get 0 w else 0
      if stalled = c.group then .error (.block s)
      else
        let new := signers &&& ~~~stalled
        let (id, s) := s.newId
        let op := { op with id := id, ranges := spans.map (s.spanLock a id) }
        let s := if new = 0 then s
          else ((s.modConv inst n fun v => v.sign w h.flag.toNat new c.word op).modWarp c.ref fun x => x.flagUp h.flag.toNat).closeRound inst n
        let s := (goOn s (c.group &&& ~~~stalled)).kill c g .guard
        .ok (if stalled = 0 then s else s.blockAt c stalled)

def execMma (h : Head) (b : BodyMma) (s : State) : Host.Outcome State Fault Refusal :=
  runNav s h fun c => mmaInstr false s c h b

def execMmac (h : Head) (b : BodyMma) (s : State) : Host.Outcome State Fault Refusal :=
  runNav s h fun c => mmaInstr true s c h b

/-- MSIGN (R305): a zero mask leaves the register undeclared. -/
def msignRun (s : State) (c : Ctx) (h : Head) (conv : BitVec 3) (src : Opnd) : M State :=
  uniformOp s c h (s.uniMark c src false) .command fun c => do
    let (inst, _, g) ← ownWg s c
    need (!(g.conv_ conv.toNat).isOpen) ⟨0x142, 0, conv.toNat, 7, 0, none, none, none⟩
    let m := s.uni c src &&& Lanes.mask fun w => decide (w < g.warps.length)
    .ok (s.modConv inst conv.toNat fun v => { v with mask := m })

def execMsign (h : Head) (conv : BitVec 3) (src : Opnd) (s : State) : Host.Outcome State Fault Refusal :=
  runOp s h fun c => heldBehind s c h (.msign h conv src) [] (msignRun s c h conv src)

/-! ### The single-warp instructions (R306 to R309) -/

/-- Issues an operation behind its locks: its flag rises and it enters tile order. -/
def issueMat (s : State) (c : Ctx) (h : Head) (a : Agent) (w : Nat) (op : MatOp) (spans : List Span) (dests : List Reg) : M State :=
  lockAtIssue s a s.nextId spans fun s =>
    let (id, s) := s.newId
    let s := s.launchFlight c h id dests none
    .ok (s.enqueueMat c.core
      { op with id := id, ranges := if s.fencePending c.core a.party id then spans.map (s.spanLock a id) else [],
                flags := if h.flag = 0 then [] else [(w, h.flag.toNat)] })

def execMzero (h : Head) (acc : BitVec 4) (s : State) : Host.Outcome State Fault Refusal :=
  runOp s h fun c => uniformOp s c h false .command fun c => do
    let (_, w, g) ← ownWg s c
    let a ← ownAgent s c
    let tile ← needTile g acc.toNat
    issueMat s c h a w (.new 0 .mzero a acc.toNat tile (s.clockOf a.party)) [] []

/-- ACCLD and ACCST. -/
def accInstr (load : Bool) (s : State) (c : Ctx) (h : Head) (b : BodyAcc) : M State := do
  let (inst, w, g) ← ownWg s c
  let a ← ownAgent s c
  let tile ← needTile g b.acc.toNat
  let x := s.warp c.ref
  let r := x.aGet b.areg.toNat
  let stride := (x.kGet b.ks.toNat).toNat
  let len := rowsLen 64 stride 256
  needEngReg r b.areg.toNat (if load then .engineSrc else .engineDst) len
  needOperand (r.ptr.toNat % 16 == 0 && stride % 16 == 0)
  needSpan s inst ⟨r.ptr, len, !load⟩
  let op := { MatOp.new 0 (if load then .accld else .accst) a b.acc.toNat tile (s.clockOf a.party) with aA := r, kk := stride }
  issueMat s c h a w op [⟨r.ptr, len, !load⟩] []

/-- The marks of an address register and of a stride. -/
def accMark (s : State) (c : Ctx) (areg : BitVec 4) (ks : BitVec 6) : Bool × Use :=
  let m := ((s.warp c.ref).aGet areg.toNat).mark
  (m || (s.warp c.ref).kMarked ks.toNat, if m then .address else .command)

def execAccld (h : Head) (b : BodyAcc) (s : State) : Host.Outcome State Fault Refusal :=
  runOp s h fun c =>
    let m := accMark s c b.areg b.ks
    uniformOp s c h m.1 m.2 fun c => accInstr true s c h b

def execAccst (h : Head) (b : BodyAcc) (s : State) : Host.Outcome State Fault Refusal :=
  runOp s h fun c =>
    let m := accMark s c b.areg b.ks
    uniformOp s c h m.1 m.2 fun c => accInstr false s c h b

/-- ACCMV (R307): all 32 lanes, whatever the predicates. A put reads the row at issue. Of an index above 127 and a name that is unmapped,
the model reports the index (R298 gives the check of names no place in its list; log 82: DESIGN CHOICE). -/
def execAccmv (h : Head) (b : BodyAccmv) (s : State) : Host.Outcome State Fault Refusal :=
  runOp s h fun c => uniformOp s c h (s.uniMark c b.idx false) .command fun c => do
    let (_, w, g) ← ownWg s c
    let a ← ownAgent s c
    let tile ← needTile g b.acc.toNat
    let idx := s.uni c b.idx
    need (idx.ult 128) ⟨0x144, idx, 0, 7, 0, none, none, none⟩
    checkNames (s.warp c.ref) (namesOf b.vec 1 0)
    let n := b.vec.idx
    let s ← s.rowAccess c Mask.all (!b.put) [(n, 0)]
    let row := ((s.warp c.ref).nameRow n).getD 0
    let x := s.getRow (s.rowId c.ref row)
    let data := (List.range 32).map fun l => (x.lane l, x.poison.has l)
    let op := { MatOp.new 0 .accmv a b.acc.toNat tile (s.clockOf a.party) with
      kk := idx.toNat, put := b.put, row := row, staged := if b.put then Tile.zero.setFrom 0 data else .zero }
    issueMat s c h a w op [] (if b.put then [] else [.v n])

/-! ### MEPI -/

/-- SCALE as an FP32 value (R308). -/
def mepiScale (s : State) (c : Ctx) (o : Opnd) : Word :=
  match o with
  | .imm x => round32 .rne (.ofInt x.toInt)
  | o => s.uni c o

/-- Rows `first` on of the destination, translated and checked for races. -/
def State.commitRows (s : State) (e : Eng) (holds : List TlbEntry) (base stride bytes first : Nat) :
    Nat → Except Detail (List Piece × List TlbEntry × State)
  | 0 => .ok ([], holds, s)
  | m + 1 => do
    let (ps, holds, s) ← s.commitRows e holds base stride bytes first m
    let (qs, holds, s) ← s.engPieces e.agent e.cls .engineDst holds (base + (first + m) * stride) bytes bytes
    let s ← s.engTouch e.agent.party e.op e.epoch e.clk true qs
    .ok (ps ++ qs, holds, s)

/-- Commits every byte of the destination that is still to be stored, all of it at first, and of the bias (R308, R309); pages that it
still holds keep their translation (R388). -/
def State.commitMepi (s : State) (e : Eng) (op : MatOp) : Except Detail (MatOp × State) := do
  let cols := op.cols
  let bytes := op.slotA.rowBytes cols
  let (ds, holds, s) ← s.commitRows e op.holds op.aA.ptr.toNat op.kk bytes op.progress (64 - op.progress)
  let (bs, holds, s) ← if op.bv then s.engPieces e.agent e.cls .engineSrc holds op.aB.ptr.toNat (4 * cols) (4 * cols) else .ok ([], holds, s)
  let s ← s.engTouch e.agent.party e.op e.epoch e.clk false bs
  .ok ({ op with pieces := ds, bias := bs, holds := holds }, s)

def mepiInstr (s : State) (c : Ctx) (h : Head) (b : BodyMepi) : M State := do
  let (inst, w, g) ← ownWg s c
  let a ← ownAgent s c
  let tile ← needTile g b.acc.toNat
  let f := s.slotOf c b.fs.toNat
  need (!(b.int && f.elem == 3)) (slotMismatch f b.fs.toNat)
  let cols := if f.elem = 3 then 32 else 64
  let bytes := f.rowBytes cols
  let x := s.warp c.ref
  let rD := x.aGet b.aregD.toNat
  let rB := x.aGet b.aregB.toNat
  let stride := (x.kGet b.ks.toNat).toNat
  let len := rowsLen 64 stride bytes
  needEngReg rD b.aregD.toNat .engineDst len
  if b.bv then needEngReg rB b.aregB.toNat .engineSrc (4 * cols)
  needOperand (rD.ptr.toNat % 16 == 0 && stride % 16 == 0)
  let spans := ⟨rD.ptr, len, true⟩ :: if b.bv then [⟨rB.ptr, 4 * cols, false⟩] else []
  needSpans s inst spans
  let op := { MatOp.new 0 .mepi a b.acc.toNat tile (s.clockOf a.party) with
    aA := rD, aB := rB, fsA := f, kk := stride, int := b.int, act := b.act.toNat, bv := b.bv,
    scale := (mepiScale s c b.scale).setWidth 64 }
  match s.commitMepi ⟨a, 4, s.nextId, op.clk, 1⟩ op with
  | .error d => lateTrap s a d
  | .ok _ =>
    -- behind an acquire, as behind a fence, the engine may not touch the ranges yet (R145)
    if s.barred c.core a.party s.nextId then .error (.block s) else
    lockAtIssue s a s.nextId spans fun s =>
      match s.commitMepi ⟨a, 4, s.nextId, op.clk, 1⟩ op with
      | .error d => lateTrap s a d
      | .ok (op, s) =>
        let (id, s) := s.newId
        let s := s.launchFlight c h id [] none
        .ok (s.enqueueMat c.core { op with id := id, flags := if h.flag = 0 then [] else [(w, h.flag.toNat)] })

def mepiRun (s : State) (c : Ctx) (h : Head) (b : BodyMepi) : M State :=
  let x := s.warp c.ref
  let am := (x.aGet b.aregD.toNat).mark || (b.bv && (x.aGet b.aregB.toNat).mark)
  uniformOp s c h (am || x.kMarked b.ks.toNat || s.uniMark c b.scale false) (if am then .address else .command) fun c =>
    mepiInstr s c h b

def execMepi (h : Head) (b : BodyMepi) (s : State) : Host.Outcome State Fault Refusal :=
  runOp s h fun c => heldBehind s c h (.mepi h b) [] (mepiRun s c h b)

/-- The activation (R308). -/
def activate (act : Nat) (t : Num) : Num :=
  let r := fun (x : Num) => f32 (round32 .rne x)
  match act with
  | 1 => if t.isNan then .nan else if t.isZero || t.sign then .zero else t
  | 2 => r (tanh (r t))
  | 3 =>
    let half := Num.fin false 1 (-1)
    r ((r (half.mul (r (tanh (r (half.mul (r t))))))).add false half)
  | _ => t

/-- The bias of column `n`, with its mark. -/
def biasAt (bias : List (Byte × Bool)) (n : Nat) : Num × Bool :=
  let x := (bias.drop (4 * n)).take 4
  (f32 (BitVec.ofNat 32 (leNat (x.map (·.1)))), x.any (·.2))

/-- The value that MEPI converts for output (m, n), with its mark. -/
def mepiValue (op : MatOp) (bias : List (Byte × Bool)) (m n : Nat) : Num × Bool :=
  let t := op.staged
  let s := f32 (op.scale.setWidth 32)
  let (bx, bm) := if op.bv then biasAt bias n else (.zero, false)
  if op.slotA.elem = 3 then
    let i := 64 * m + 2 * n
    let x := f64 (t.word (i + 1) ++ t.word i : BitVec 64)
    (activate op.act (f64 (round64 .rne ((x.mul s).add false bx))), t.mark i || t.mark (i + 1) || bm)
  else
    let i := 64 * m + n
    let x := if op.int then f32 (round32 .rne (.ofInt (t.word i).toInt)) else f32 (t.word i)
    (activate op.act (f32 (round32 .rne ((x.mul s).add false bx))), t.mark i || bm)

/-- The bytes of a row of codes, with their marks (R88, R92). -/
def packRow (f : Slot) (codes : List (Nat × Bool)) : Marked :=
  let k := codes.length
  let n := f.rowBytes k
  let code := fun (j : Nat) => (codes.getD j (0, false)).1
  let mark := fun (j : Nat) => (codes.getD j (0, false)).2
  let sum := fun (w off : Nat) (x : Nat → Nat) => (List.range k).foldl (fun acc j => acc + x (code j) * 2 ^ (off + w * j)) 0
  let bits := if f.split then sum 4 0 (fun c => c / 4) + sum 2 (4 * k) (fun c => c % 4) else sum f.bits 0 id
  let bytes := leBytes n bits
  let marked := fun (i : Nat) => (List.range k).any fun j => mark j &&
    (if f.split then j / 2 == i || k / 2 + j / 4 == i else decide (f.bits * j / 8 ≤ i) && decide (i ≤ (f.bits * j + f.bits - 1) / 8))
  (List.range n).map fun i => (bytes.getD i 0, marked i)

/-- A row that MEPI stores. -/
def mepiRow (op : MatOp) (bias : List (Byte × Bool)) (m : Nat) : Marked :=
  let f : Slot := op.fsA
  let vals := (List.range op.cols).map fun n => mepiValue op bias m n
  let d := fun (i : Nat) => f.discard (vals.getD (i - 64 * m) (.zero, false)).1
  packRow f ((List.range op.cols).map fun n =>
    let v := vals.getD n (.zero, false)
    (f.convert (slotHash d (64 * m + n)) v.1, v.2 || slotHashMark f (fun i => (vals.getD (i - 64 * m) (.zero, false)).2) (64 * m + n)))

/-- Writes a row to its committed pieces. -/
def State.storeRow (s : State) (party : Party) (addr : Nat) : List Piece → Marked → State
  | [], _ => s
  | p :: ps, m =>
    let here := m.take p.bytes
    let marks := (List.range ((p.bytes + 3) / 4)).map fun i => ((here.drop (4 * i)).take 4).any (·.2)
    (s.engWrite party (BitVec.ofNat 64 addr) p (here.map (·.1)) marks).storeRow party (addr + p.bytes) ps (m.drop p.bytes)

/-! ### Row blocks (R303, R304) -/

/-- The row `m` of an operand with its scales. -/
def State.readRow (s : State) (e : Eng) (holds : List TlbEntry) (f : Slot) (k base scl sclStr stride m : Nat) :
    Except Detail ((Marked × Marked) × List TlbEntry × State) := do
  let n := f.rowBytes k
  let (d, holds, s) ← s.engRead e holds (base + m * stride) n n
  let j := f.scaleBytes k
  let (x, holds, s) ← s.engRead e holds ((scl + m * sclStr) % 2 ^ 64) j j
  .ok ((d, x), holds, s)

/-- Rows `first` to `first + n − 1`. -/
def State.readRows (s : State) (e : Eng) (holds : List TlbEntry) (f : Slot) (k base scl sclStr stride first : Nat) :
    Nat → Except Detail (List (Marked × Marked) × List TlbEntry × State)
  | 0 => .ok ([], holds, s)
  | n + 1 => do
    let (rs, holds, s) ← s.readRows e holds f k base scl sclStr stride first n
    let (r, holds, s) ← s.readRow e holds f k base scl sclStr stride (first + n)
    .ok (rs ++ [r], holds, s)

/-- One block of MMA or MMAC: B is read in block 0; all outputs are computed from the tile before any is written. -/
def State.mmaBlock (s : State) (core : Nat) (a : Agent) (op : MatOp) : Except Detail (MatOp × State) := do
  let e : Eng := ⟨a, 4, op.id, op.clk, op.progress / 16 + 1⟩
  let fa : Slot := op.fsA
  let fb : Slot := op.fsB
  let blk : OpBlock := op.block
  let (bRows, holds, s) ← if op.bRows.isEmpty then
      s.readRows e op.holds fb op.kk op.aB.ptr.toNat blk.bscl.toNat blk.bsstr blk.bstr 0 op.cols
    else .ok (op.bRows, op.holds, s)
  let (aRows, holds, s) ← s.readRows e holds fa op.kk op.aA.ptr.toNat blk.ascl.toNat blk.asstr blk.astr op.progress 16
  let t := s.tileOf core op.tile a.ctx
  let bs := bRows.map (matRow fb op.kk)
  let as := aRows.map (matRow fa op.kk)
  let outs := (List.range 16).flatMap fun i => (List.range op.cols).flatMap fun n =>
    let ra := as.getD i ⟨⟨0, 0⟩, [], false⟩
    let rb := bs.getD n ⟨⟨0, 0⟩, [], false⟩
    let ix := outWords op.twoWords (op.progress + i) n
    let old := if op.z then ix.map fun _ => (0 : Word) else ix.map t.word
    -- the parts of an MMAC output are sums of their own (R106)
    let m := fun (i : Nat) => ra.marked || rb.marked || (!op.z && (if op.kind == .mmac then t.mark i else ix.any t.mark))
    (ix.zip (outValue op old ra rb)).map fun x => (x.1, x.2, m x.1)
  let t := outs.foldl (fun (t : Tile) (o : Nat × Word × Bool) => t.set o.1 o.2.1 o.2.2) t
  .ok ({ op with progress := op.progress + 16, holds := holds, bRows := bRows }, s.setTile core op.tile t)

/-- Words of bytes, each marked when a byte of it is. -/
def wordsOf (m : Marked) : List (Word × Bool) :=
  (List.range (m.length / 4)).map fun i =>
    let x := (m.drop (4 * i)).take 4
    (BitVec.ofNat 32 (leNat (x.map (·.1))), x.any (·.2))

def State.accldBlock (s : State) (core : Nat) (a : Agent) (op : MatOp) : Except Detail (MatOp × State) := do
  let e : Eng := ⟨a, 4, op.id, op.clk, op.progress / 16 + 1⟩
  let (rows, holds, s) ← s.readRows e op.holds 0 64 op.aA.ptr.toNat 0 0 op.kk op.progress 16
  let t := (s.tileOf core op.tile a.ctx).setFrom (64 * op.progress) (rows.flatMap fun r => wordsOf r.1)
  .ok ({ op with progress := op.progress + 16, holds := holds }, s.setTile core op.tile t)

def State.accstBlock (s : State) (core : Nat) (a : Agent) (op : MatOp) : Except Detail (MatOp × State) := do
  let e : Eng := ⟨a, 4, op.id, op.clk, op.progress / 16 + 1⟩
  let t := s.tileOf core op.tile a.ctx
  (List.range 16).foldlM (fun (x : MatOp × State) _ => do
    let m := x.1.progress
    let addr := op.aA.ptr.toNat + m * op.kk
    let (ps, holds, s) ← x.2.engPieces a 4 .engineDst x.1.holds addr 256 256
    let s ← s.engTouch a.party op.id e.epoch op.clk true ps
    let data : Marked := (List.range 64).flatMap fun j => (leBytes 4 (t.word (64 * m + j)).toNat).map fun b => (b, t.mark (64 * m + j))
    .ok ({ x.1 with progress := m + 1, holds := holds }, s.storeRow a.party addr ps data)) (op, s)

/-- An MEPI that has lost its hold on its pages translates what it has still to do again (R387, R388, R396; log 83). -/
def State.recommit (s : State) (a : Agent) (op : MatOp) : Except Detail (MatOp × State) :=
  if op.kind == .mepi && op.pieces.isEmpty then s.commitMepi ⟨a, 4, op.id, op.clk, 1⟩ op else .ok (op, s)

/-- MEPI stores sixteen committed rows. `pieces` hold the rows that were still to be stored when they were committed. -/
def State.mepiBlock (s : State) (a : Agent) (op : MatOp) : MatOp × State :=
  let (bias, s) := op.bias.foldl (fun (x : Marked × State) p =>
    let ms := (List.range p.bytes).map fun i => x.2.markAt (p.place.plus i) p.layout
    let (bs, s) := x.2.readPiece p
    (x.1 ++ bs.zip ms, s)) ([], s)
  let n := op.slotA.rowBytes op.cols
  let per := n / 16
  let first := 64 - op.pieces.length / per
  let s := (List.range 16).foldl (fun s i =>
    let m := op.progress + i
    s.storeRow a.party (op.aA.ptr.toNat + m * op.kk) ((op.pieces.drop (per * (m - first))).take per) ((mepiRow op bias m).take n)) s
  ({ op with progress := op.progress + 16 }, s)

/-- ACCMV: a get writes the row that its name selected at issue (R71, R307). -/
def State.moveBlock (s : State) (core : Nat) (a : Agent) (op : MatOp) : State :=
  let first := 64 * (op.kk / 2) + 32 * (op.kk % 2)
  let t := s.tileOf core op.tile a.ctx
  if op.put then
    s.setTile core op.tile (t.setFrom first ((List.range 32).map fun l => (op.staged.word l, op.staged.mark l)))
  else
    match op.party.warp? with
    | some (inst, w) =>
      let i := s.rowId (wref inst w) op.row
      s.setRow i (((s.getRow i).seenBy a.ctx).write fun l => some (t.word (first + l), t.mark (first + l)))
    | none => s

/-- The next row block of an operation that holds a slot. -/
def State.matBlock (s : State) (core : Nat) (a : Agent) (op : MatOp) : Except Detail (MatOp × State) :=
  match op.kind with
  | .mma | .mmac => s.mmaBlock core a op
  | .accld => s.accldBlock core a op
  | .accst => s.accstBlock core a op
  | .mepi => do
    let (op, s) ← s.recommit a op
    .ok (s.mepiBlock a op)
  | .accmv => .ok ({ op with progress := 64 }, s.moveBlock core a op)
  | .mzero => .ok ({ op with progress := 64 }, s.setTile core op.tile ⟨[], [], a.ctx⟩)

/-- The ranges of the rows `first` to `first + n − 1` of an operand with their scales. -/
def rowSpans (f : Slot) (k base scl sclStr stride first n : Nat) : List Span :=
  (List.range n).flatMap fun i =>
    let m := first + i
    [⟨BitVec.ofNat 64 (base + m * stride), f.rowBytes k, false⟩, ⟨BitVec.ofNat 64 (scl + m * sclStr), f.scaleBytes k, false⟩]

/-- The ranges that the next row block of an operation reads or writes. -/
def MatOp.nextBlock (op : MatOp) : List Span :=
  let blk : OpBlock := op.block
  let rows := fun (n : Nat) (dest : Bool) => (List.range 16).map fun i =>
    (⟨BitVec.ofNat 64 (op.aA.ptr.toNat + (op.progress + i) * op.kk), n, dest⟩ : Span)
  match op.kind with
  | .mma | .mmac =>
    (if op.bRows.isEmpty then rowSpans op.slotB op.kk op.aB.ptr.toNat blk.bscl.toNat blk.bsstr blk.bstr 0 op.cols else []) ++
    rowSpans op.slotA op.kk op.aA.ptr.toNat blk.ascl.toNat blk.asstr blk.astr op.progress 16
  | .accld => rows 256 false
  | .accst => rows 256 true
  | .mepi => rows (op.slotA.rowBytes op.cols) true ++ (if op.bv then [⟨op.aB.ptr, 4 * op.cols, false⟩] else [])
  | .accmv | .mzero => []

/-- Nothing earlier of the operation's party holds its next row block (R136, R114). -/
def State.blockReady (s : State) (a : Agent) (op : MatOp) : Bool := s.engReady a 4 op.id op.holds op.nextBlock

/-- The workgroup is not being brought to rest (R151, R304). -/
def State.moves (s : State) (inst : Nat) : Bool :=
  match s.wg? inst with | some g => !g.resting && !g.frozen | none => false

/-- MATRIX_BLOCK_COMPLETE: the operation in a slot finishes its current row block, or stops at its start. -/
def execMatrixBlockComplete (core slot : Nat) (s : State) : Host.Outcome State Fault Refusal :=
  event s (do
    let op ← (s.core core).mats.find? fun m => m.slot == some slot && !m.complete
    if op.parked || !(op.owed || s.moves op.inst) || (s.core core).offline || decide ((s.core core).cycle < (s.core core).stallTo.get 0 4) ||
        !s.blockReady (s.agentOf op.inst op.party) op then none
    else
      let a := s.agentOf op.inst op.party
      match s.matBlock core a op with
      | .error d => some (s.parkMat core op d)
      | .ok (op, s) =>
        let op := { op with owed := false }
        if op.progress = 64 then some (s.finishMat core op) else some (s.setMat core op))

/-! ### Tile order (R299) -/

/-- The lowest free slot of an engine. -/
def Core.freeMatSlot (k : Core) : Option Nat := (List.range 4).find? fun i => !k.mats.any fun m => m.slot == some i

/-- The operation waits for a slot and nothing before it needs its tile. -/
def mayTake (before : List MatOp) (m : MatOp) : Bool :=
  m.locked && !m.complete && !m.parked && m.slot.isNone &&
  !before.any fun e => e.inst == m.inst && e.acc == m.acc && !e.released

/-- The first operation that may take a slot, of those that `f` admits. -/
def firstReady (f : MatOp → Bool) : List MatOp → List MatOp → Option MatOp
  | _, [] => none
  | before, m :: ms => if mayTake before m && f m then some m else firstReady f (before ++ [m]) ms

/-- Registers the ranges of operations that something held as they were issued or as their round closed; while a fence of its
party holds one, it has no ranges registered (R264), and later ones of the party wait behind it (R148). -/
def State.lockMats (s : State) (core : Nat) : State :=
  (s.core core).mats.foldl (fun s m =>
    if m.locked || s.unlocked core m.party m.id || s.fencePending core m.party m.id then s
    else match s.register core m.ranges with
      | some s => s.setMat core { m with locked := true }
      | none => s) s

/-- The operation as it takes a slot. MEPI reads the tile and releases it (R308); one that has lost its hold on its pages translates
its ranges again first. -/
def State.startMat (s : State) (core slot : Nat) (m : MatOp) : State :=
  let a := s.agentOf m.inst m.party
  if m.kind = .mepi && m.progress = 0 then
    match s.recommit a m with
    | .error d => s.parkMat core m d
    | .ok (m, s) => s.setMat core { m with slot := some slot, staged := s.tileOf core m.tile a.ctx }
  else s.setMat core { m with slot := some slot }

/-- MATRIX_OP_START, on the core that `State.cur` names: waiting ranges are registered, and the next operation takes the lowest
free slot, unless the zone of the engine replays (R422). -/
def execMatrixOpStart (s : State) : Host.Outcome State Fault Refusal :=
  event s (match s.cur with
    | .core n =>
      if (s.core n).cycle < (s.core n).stallTo.get 0 4 then none else
      let s' := s.lockMats n
      let k := s'.core n
      let live := k.mats.filter fun m => s'.moves m.inst
      let starts := fun (m : MatOp) => !s'.barred n m.party m.id
      match k.freeMatSlot, firstReady starts [] live with
      | some i, some m => some (s'.startMat n i m)
      | _, _ => if s' = s then none else some s'
    | _ => none)

/-! ### MRPQ (R310) -/

/-- The snapshot of an operation. -/
def MatOp.snapshot (op : MatOp) : Word :=
  let st := if op.complete then 4 else if op.parked then 3 else if op.slot.isSome then 2 else 1
  let sl := if op.complete then 0 else op.slot.getD 0
  BitVec.ofNat 32 (st * 2 ^ 29 + sl * 2 ^ 24 + op.code * 2 ^ 20 + op.progress)

def mrpqRun (s : State) (c : Ctx) (h : Head) (kd : BitVec 6) (acc : BitVec 4) : M State :=
  uniformOp s c h false .command fun c => do
    let (inst, _, g) ← ownWg s c
    let _ ← needTile g acc.toNat
    let ops := (s.core c.core).mats.filter fun m => m.inst == inst && m.acc == acc.toNat
    let x := match ops.getLast? with | some m => m.snapshot | none => 0
    .ok (s.writeU c kd.toNat false (x.setWidth 64) false)

def execMrpq (h : Head) (kd : BitVec 6) (acc : BitVec 4) (s : State) : Host.Outcome State Fault Refusal :=
  runOp s h fun c => heldBehind s c h (.mrpq h kd acc) [.k kd.toNat] (mrpqRun s c h kd acc)

end Sys2Proof.Machine
end

