-- ==== Sys2Proof/Machine/Bank.lean ====
section
/-! DEFINITION. The bank engines (R311 to R315, R443, R444): commands, row blocks over bank-tiled pages (R122, R123), results. -/

namespace Sys2Proof.Machine

/-! ### Commands (R311) -/

namespace BankCmd

def w (c : BankCmd) : DWord := c.raw.extractLsb' 0 64
def x (c : BankCmd) : DWord := c.raw.extractLsb' 64 64
def y (c : BankCmd) : DWord := c.raw.extractLsb' 128 64
def rows (c : BankCmd) : Nat := (c.raw.extractLsb' 192 16).toNat
def k (c : BankCmd) : Nat := (c.raw.extractLsb' 208 16).toNat
def batch (c : BankCmd) : Nat := (c.raw.extractLsb' 224 4).toNat + 1
def fs (c : BankCmd) : Nat := (c.raw.extractLsb' 228 3).toNat
def rop (c : BankCmd) : Nat := (c.raw.extractLsb' 231 2).toNat
def post (c : BankCmd) : Bool := c.raw.getLsbD 233
def ys (c : BankCmd) : Bool := c.raw.getLsbD 234
def tag (c : BankCmd) : Nat := (c.raw.extractLsb' 235 16).toNat
def opkField (c : BankCmd) : Nat := (c.raw.extractLsb' 251 2).toNat

/-- BRED. -/
def reduces (c : BankCmd) : Bool := c.opk == 2

/-- Pages across K. -/
def kPages (c : BankCmd) : Nat := (c.k + 1023) / 1024

/-- The limits of the table that need no state; `port` says that OPK names the operation. -/
def formOk (c : BankCmd) (port : Bool) : Bool :=
  let page := fun (a : DWord) => a.toNat % 65536 == 0 && (windowOf a).isNone
  c.raw.extractLsb' 253 3 == 0 && (if port then decide (c.opkField ≤ 2) else c.opkField == 0) && decide (1 ≤ c.k) &&
  decide (1 ≤ c.rows) && page c.w && (if c.reduces then c.x == 0 && c.batch == 1 else page c.x && c.rop == 0) &&
  (if c.ys then windowOf c.y == some 0 && c.y.toNat % 16 == 0 else page c.y)

end BankCmd

/-- Rows of a bank-tiled page (R122) and its LAYOUT, by the width of the slot's elements. -/
def rowsPerPage (f : Slot) : Nat := match f.bits with | 16 => 32 | 4 => 128 | _ => 64
def tileLayout (f : Slot) : Nat := match f.bits with | 8 => 1 | 16 => 2 | 6 => 3 | _ => 4

/-- The slot admits bank operations. -/
def bankSlot (f : Slot) : Bool := f.scale == 0 && (isInt8 f || isNarrow f)

/-- The ranges that a command locks (R312). -/
def BankCmd.spans (c : BankCmd) (f : Slot) : List Span :=
  let rb := rowsPerPage f
  ⟨c.w, (c.rows + rb - 1) / rb * c.kPages * 65536, false⟩ ::
    (if c.reduces then [] else [⟨c.x, c.kPages * 65536, false⟩]) ++
    [⟨c.y, if c.ys then 4 * c.batch * c.rows else (c.rows + 1023) / 1024 * 65536, true⟩]

/-- A format slot of a workgroup's grid. -/
def State.wgSlot (s : State) (inst n : Nat) : Slot :=
  match s.wg? inst with | some g => (s.launchOf g.grid).fs n | none => 0

def State.spansFault (s : State) (inst : Nat) (xs : List Span) : Option Detail := xs.findSome? fun x => s.checkSpan inst (if x.dest then .engineDst else .engineSrc) x.addr x.len

/-- The checks of a bank command. -/
def State.checkBank (s : State) (inst : Nat) (port : Bool) (c : BankCmd) : Option Detail :=
  let f := s.wgSlot inst c.fs
  if !c.formOk port then some (.code_ 0x151)
  else if !bankSlot f then some (slotMismatch f c.fs)
  else s.spansFault inst (c.spans f)

/-! ### Operations -/

def BankOp.parkedAs (o : BankOp) : Parked := ⟨o.id, o.cmd.tag, o.progress, o.cmd.kind, 0, 0⟩

/-- What the operation's accesses order. -/
def BankOp.done (o : BankOp) : Clock := assocPut o.clk (.eng o.id) 65536

/-- The same, of what it has done so far. -/
def BankOp.sofar (o : BankOp) : Clock := assocPut o.clk (.eng o.id) o.progress

/-- The result entry (R314). -/
def BankOp.entry (o : BankOp) : List Word :=
  [BitVec.ofNat 32 (o.cmd.tag + (if o.abandoned then 2 else 0) * 2 ^ 20), BitVec.ofNat 32 o.progress]

def BankOp.new (id flag : Nat) (a : Agent) (cmd : BankCmd) (fromPort : Bool) (clk : Clock) : BankOp :=
  { id := id, cmd := cmd, party := a.party, flag := flag, active := a.active, progress := 0, fromPort := fromPort, parked := false, posting := false,
    abandoned := false, owed := false, holds := [], clk := clk }

def State.modBank (s : State) (inst id : Nat) (f : BankOp → BankOp) : State :=
  s.modWg inst fun g => { g with bankOps := g.bankOps.map fun o => if o.id = id then f o else o }

/-- The operation completes: its locks are released and its flag falls, unless it was abandoned (R312, R345). -/
def State.finishBank (s : State) (inst : Nat) (o : BankOp) : State :=
  match s.wg? inst with
  | none => s
  | some g =>
    let s := s.modWg inst fun g =>
      { g with bankOps := g.bankOps.filter fun p => p.id != o.id,
               engClk := Clock.join g.engClk o.sofar,
               bankDone := if o.cmd.post then g.bankDone ++ [⟨o.entry, 0, o.party, o.done, (s.core g.core).cycle, 0⟩] else g.bankDone }
    let s := (s.freeLocks g.core o.id).dropOp g.core o.id
    if o.abandoned then s else (s.land o.party o.id).flagDone o.party o.flag o.done

/-- The operation has ended: without POST it completes, else it waits for its entry (R314). -/
def State.endBank (s : State) (inst : Nat) (o : BankOp) : State :=
  if o.cmd.post then s.modBank inst o.id fun _ => { o with posting := true, parked := false } else s.finishBank inst o

/-- A stopped operation parks; its cause goes to its flag or to the sender of the command, or, with nobody left, it is
abandoned (R313, R444). A parked operation holds no page (R396). -/
def State.parkBank (s : State) (inst : Nat) (o : BankOp) (d : Detail) : State :=
  let o := { o with owed := false, holds := [] }
  let s1 := s.modBank inst o.id fun _ => { o with parked := true }
  if !o.fromPort then s1.flagFail o.party o.flag o.done ⟨o.id, d, o.active, some o.parkedAs⟩
  else
    match s1.portFail inst o.party o.active o.parkedAs d with
    | some s2 => s2
    | none =>
      match s.wg? inst with
      | some g => (s1.logCause g.core g.ctx d).endBank inst { o with abandoned := true }
      | none => s

/-! ### Issue -/

/-- BMV, BMVA and BRED (R312); the 64th outstanding operation stalls at issue (R313). -/
def bankInstr (opk : Nat) (s : State) (c : Ctx) (h : Head) (kgrp : BitVec 3) : M State := do
  let a ← ownAgent s c
  let (_, _, g) ← ownWg s c
  let cmd : BankCmd := ⟨(s.warp c.ref).kBlock (8 * kgrp.toNat), opk⟩
  match s.checkBank a.inst false cmd with
  | some d => lateTrap s a d
  | none =>
    if 63 ≤ g.bankOps.length then .error (.block s)
    else
      lockAtIssue s a s.nextId (cmd.spans (s.wgSlot a.inst cmd.fs)) fun s =>
        let (id, s) := s.addOp c h.flag.toNat (.bank cmd) [] true
        let s := s.launchFlight c h id [] none
        .ok (s.modWg a.inst fun g =>
          { g with bankOps := g.bankOps ++ [.new id h.flag.toNat a cmd false (s.clockOf a.party)] })

def execBmv (h : Head) (kgrp : BitVec 3) (s : State) : Host.Outcome State Fault Refusal :=
  runOp s h fun c => uniformOp s c h (blockMark s c kgrp.toNat 8) .command fun c => bankInstr 0 s c h kgrp

def execBmva (h : Head) (kgrp : BitVec 3) (s : State) : Host.Outcome State Fault Refusal :=
  runOp s h fun c => uniformOp s c h (blockMark s c kgrp.toNat 8) .command fun c => bankInstr 1 s c h kgrp

def execBred (h : Head) (kgrp : BitVec 3) (s : State) : Host.Outcome State Fault Refusal :=
  runOp s h fun c => uniformOp s c h (blockMark s c kgrp.toNat 8) .command fun c => bankInstr 2 s c h kgrp

/-- While the workgroup comes to rest, a FENCEB waits for a bank operation that has not been taken past `o`, or for one of the buffer when
there is no `o`: its release buffer cannot drain before, and the engines go on until it has (R150, R151, R372; log 70). -/
def State.fencebAfter (s : State) (inst : Nat) (g : Wg) (o : Option BankOp) : Bool :=
  let listed : List BankOp := match o with | some o => g.bankOps.dropWhile fun (b : BankOp) => b.id != o.id | none => []
  let ops := listed.map (fun (b : BankOp) => (b.party, b.id)) ++ g.bankBuf.filled.map fun e => (e.1.party, e.2)
  g.resting && !g.frozen && (s.core g.core).ops.any fun e =>
    (match e.eff with | .fence _ b => b | _ => false) && e.party.inst? == some inst && ops.any fun b => b.1 == e.party && decide (b.2 < e.id)

/-- BANK_COMMAND_TAKE: the bank engines take the oldest command of the buffer of the workgroup that `State.cur` names. -/
def execBankCommandTake (s : State) : Host.Outcome State Fault Refusal :=
  event s (match s.cur with
    | .wg inst => do
      let g ← s.wg? inst
      let (e, id) ← g.bankBuf.filled.head?
      let a := { s.agentOf inst e.party with active := e.lanes }
      let raw := entryBits e.data
      let cmd : BankCmd := ⟨raw, (raw.extractLsb' 251 2).toNat⟩
      let op := BankOp.new id 0 a cmd true e.clk
      let taken := s.modWg inst fun g =>
        { g with bankBuf := { g.bankBuf with filled := g.bankBuf.filled.drop 1 }, bankOps := g.bankOps ++ [op] }
      if (g.resting && !s.fencebAfter inst g none) || decide (63 ≤ g.bankOps.length) || s.lockFull g.core 3 then none
      else
        match s.checkBank inst true cmd with
        | some d => some (taken.parkBank inst op d)
        | none => taken.takeLocks a id (cmd.spans (s.wgSlot inst cmd.fs))
    | _ => none)

/-! ### Row blocks (R312, R313) -/

/-- A translated page of an operand, of the LAYOUT that the operation needs. -/
def State.bankPage (s : State) (e : Eng) (kind : AccKind) (holds : List TlbEntry) (layout : Nat) (va : Nat) :
    Except Detail (Leaf × List TlbEntry × State) := do
  let (l, holds, s) ← s.translateHeld e.agent.core e.agent.ctx e.cls kind holds (BitVec.ofNat 64 va)
  if l.pte.layout = layout then .ok (l, holds, s) else .error ⟨0x150, BitVec.ofNat 32 l.pte.layout, 0, 7, BitVec.ofNat 64 va, none, none, none⟩

def State.bankPages (s : State) (e : Eng) (kind : AccKind) (holds : List TlbEntry) (layout va : Nat) :
    Nat → Except Detail (List Leaf × List TlbEntry × State)
  | 0 => .ok ([], holds, s)
  | n + 1 => do
    let (ls, holds, s) ← s.bankPages e kind holds layout va n
    let (l, holds, s) ← s.bankPage e kind holds layout (va + n * 65536)
    .ok (ls ++ [l], holds, s)

/-- Byte ranges of a row of weights in its page (R122): offset and length. -/
def rowRanges (layout i : Nat) : List (Nat × Nat) :=
  match layout with
  | 1 => [(1024 * i, 1024)]
  | 2 => [(2048 * i, 2048)]
  | 3 => [(2048 * (i / 2) + 512 * (i % 2), 512), (2048 * (i / 2) + 1024 + 256 * (i % 2), 256)]
  | _ => [(512 * i, 512)]

/-- Bytes of the stack arrays, with their marks; bytes of a backing region are undefined (R292). -/
def State.arrayBytes (s : State) (l : Leaf) (off n : Nat) : Marked :=
  (List.range n).map fun i =>
    let cell := cellOf l.pte.layout (l.pa + off + i)
    if (s.backingAt (l.pa + off + i)).isSome then (Config.regionByte cell s.fresh, false)
    else (s.arrayCell l.pte.key cell, s.arrayMark cell)

/-- The piece of a page for its race histories. -/
def Leaf.part (l : Leaf) (off n : Nat) : Piece := ⟨.pa (l.pa + off), n, l.pte.rt, l.pte.key, l.pte.layout⟩

/-- The weights of a row of a page: 1024 codes with their marks; LAYOUT 3 joins its planes (R92). -/
def State.weights (s : State) (f : Slot) (l : Leaf) (i : Nat) : List (Num × Bool) :=
  let m : Marked := (rowRanges l.pte.layout i).flatMap fun r => s.arrayBytes l r.1 r.2
  let r := m.row
  (List.range 1024).map fun j => let (c, m) := r.elem f 1024 j; (f.value c, m)

/-- A vector element: FP32 words of LAYOUT 5 pages. -/
def State.vecWord (s : State) (l : Leaf) (b j : Nat) : Word × Bool :=
  let m := s.arrayBytes l (4096 * b + 4 * j) 4
  (BitVec.ofNat 32 (leNat (m.map (·.1))), m.any (·.2))

/-- A vector of X across its pages. -/
def State.vector (s : State) (ls : List Leaf) (b : Nat) : List (Num × Bool) :=
  ls.flatMap fun l => (List.range 1024).map fun j => let (x, m) := s.vecWord l b j; (f32 x, m)

/-- The result of a row for a vector (R312): from the old word, the weights and the vector. -/
def bankResult (c : BankCmd) (old : Word) (ws xs : List (Num × Bool)) : Word :=
  let n := ws.length
  let vs := ws.map (·.1)
  match c.opk with
  | 0 => sumGroups 0 n (products ws xs)
  | 1 => sumGroups old n (products ws xs)
  | _ =>
    match c.rop with
    | 0 => sumGroups 0 n vs
    | 2 => sumGroups 0 n (vs.map fun v => v.mul v)
    | r =>
      match vs with
      | [] => 0
      | v :: vs => round32 .rne (vs.foldl (minMax (r == 1) true) v)

/-- Where element `i` of result vector `b` lies. -/
def BankCmd.yAddr (c : BankCmd) (b i : Nat) : Nat :=
  c.y.toNat + if c.ys then 4 * (b * c.rows + i) else i / 1024 * 65536 + 4096 * b + 4 * (i % 1024)

/-- The piece of a result element. Pages must be of LAYOUT 5. -/
def State.yPiece (s : State) (e : Eng) (holds : List TlbEntry) (c : BankCmd) (b i : Nat) :
    Except Detail (Piece × List TlbEntry × State) :=
  let a := c.yAddr b i
  if c.ys then s.engPiece e.agent e.cls .engineDst holds (BitVec.ofNat 64 a) 4
  else
    match s.bankPage e .engineDst holds 5 (a / 65536 * 65536) with
    | .ok (l, holds, s) => .ok ({ l.part (a % 65536) 4 with place := s.placeOfPa (l.pa + a % 65536) }, holds, s)
    | .error d => .error d

/-- The old word of a result, as the engine reads it. -/
def State.yWord (s : State) (p : Piece) : Word × Bool × State :=
  match p.place with
  | .pa a =>
    let cells := (List.range 4).map fun i => cellOf p.layout (a + i)
    (BitVec.ofNat 32 (leNat (cells.map (s.arrayCell p.key))), cells.any s.arrayMark, s)
  | _ =>
    let (bs, s') := s.readPiece p
    (BitVec.ofNat 32 (leNat bs), s.markAt p.place p.layout, s')

/-- Writes a result. The arrays and memory hold it at once: the shared level's lines are invalidated (R150). -/
def State.yStore (s : State) (party : Party) (addr : Nat) (p : Piece) (x : Word) (m : Bool) : State :=
  let s := s.engWrite party (BitVec.ofNat 64 addr) p (leBytes 4 x.toNat) [m]
  match p.place with
  | .pa a =>
    (s.settleCells fun c => p.cells.contains c).evict fun l => l.no == lineOf (cellOf p.layout a)
  | _ => s

/-- One result: its piece, checked for races, its value and its mark. -/
structure YOut where
  addr : Nat
  piece : Piece
  val : Word
  mark : Bool
  deriving DecidableEq, Repr

/-- The results of one row for every vector. -/
def State.rowResults (s : State) (e : Eng) (holds : List TlbEntry) (c : BankCmd) (ws : List (Num × Bool))
    (xs : List (List (Num × Bool))) (i : Nat) : Nat → Except Detail (List YOut × List TlbEntry × State)
  | 0 => .ok ([], holds, s)
  | b + 1 => do
    let (ys, holds, s) ← s.rowResults e holds c ws xs i b
    let (p, holds, s) ← s.yPiece e holds c b i
    let s ← if c.opk = 1 then s.engTouch e.agent.party e.op e.epoch e.clk false [p] else .ok s
    let s ← s.engTouch e.agent.party e.op e.epoch e.clk true [p]
    let (old, om, s) := s.yWord p
    let x := xs.getD b []
    let mark := ws.any (·.2) || (!c.reduces && x.any (·.2)) || (c.opk == 1 && om)
    .ok (ys ++ [⟨c.yAddr b i, p, bankResult c old ws x, mark⟩], holds, s)

/-- The results of rows `first` on; `pages` are the block's pages across K. -/
def State.blockResults (s : State) (e : Eng) (holds : List TlbEntry) (c : BankCmd) (f : Slot) (pages : List Leaf)
    (xs : List (List (Num × Bool))) (first : Nat) : Nat → Except Detail (List YOut × List TlbEntry × State)
  | 0 => .ok ([], holds, s)
  | n + 1 => do
    let (ys, holds, s) ← s.blockResults e holds c f pages xs first n
    let s ← s.engTouch e.agent.party e.op e.epoch e.clk false
      (pages.flatMap fun l => (rowRanges l.pte.layout n).map fun r => l.part r.1 r.2)
    let (zs, holds, s) ← s.rowResults e holds c (pages.flatMap fun l => s.weights f l n) xs (first + n) c.batch
    .ok (ys ++ zs, holds, s)

/-- The bank engines check the master that a command comes from, at its first block (R390); the address is that of W (log 79). -/
def State.bankTarget (s : State) (a : Agent) (o : BankOp) : Except Detail Unit :=
  let cls := match o.party with | .beryl .. => 1 | _ => 0
  if o.progress = 0 ∧ !s.mayAccess 1 a.ctx cls 8 then .error (denied 1 cls o.cmd.w)
  else .ok ()

/-- One row block. -/
def State.bankBlock (s : State) (a : Agent) (o : BankOp) : Except Detail (BankOp × State) := do
  let c := o.cmd
  let f := s.wgSlot a.inst c.fs
  let rb := rowsPerPage f
  s.bankTarget a o
  let e : Eng := ⟨a, 5, o.id, o.clk, o.progress + 1⟩
  let (wp, holds, s) ← s.bankPages e .engineSrc o.holds (tileLayout f) (c.w.toNat + o.progress / rb * c.kPages * 65536) c.kPages
  let (xp, holds, s) ← if c.reduces then .ok ([], holds, s) else s.bankPages e .engineSrc holds 5 c.x.toNat c.kPages
  let xs := (List.range c.batch).map fun b => s.vector xp b
  let s ← s.engTouch a.party o.id e.epoch o.clk false
    (xp.flatMap fun l => (List.range c.batch).map fun b => l.part (4096 * b) 4096)
  let n := if c.rows - o.progress < rb then c.rows - o.progress else rb
  let (ys, holds, s) ← s.blockResults e holds c f wp xs o.progress n
  .ok ({ o with progress := o.progress + n, holds := holds },
    ys.foldl (fun s y => s.yStore a.party y.addr y.piece y.val y.mark) s)

/-- A resumed command that never passed its checks makes them again, and registers its locks (R444); one that a fence has held
registers them now, behind the earlier operations of its party (R148, R264). -/
def State.readyBank (s : State) (a : Agent) (o : BankOp) : Except Detail (Option State) :=
  if s.hasLocks a.core o.id then .ok (some s)
  else if !o.fromPort && s.unlocked a.core o.party o.id then .ok none
  else
    match (if o.fromPort then s.checkBank a.inst true o.cmd else none) with
    | some d => .error d
    | none => .ok (s.takeLocks a o.id (o.cmd.spans (s.wgSlot a.inst o.cmd.fs)))

/-- The operation that the bank engines perform for a workgroup: the oldest that has not ended, once its command has reached
them (R150, R313). -/
def State.bankNext (s : State) (inst : Nat) : Option BankOp := do
  let g ← s.wg? inst
  let o ← g.bankOps.find? fun o => !o.posting
  let ops := (s.core g.core).ops
  let arrived := match ops.find? fun m => m.id == o.id with | some m => m.handed ops | none => true
  if arrived && !o.parked && (o.owed || s.moves inst || s.fencebAfter inst g (some o)) && !(s.core g.core).offline then some o else none

/-- BANK_ROW_BLOCK, for the workgroup that `State.cur` names. -/
def execBankRowBlock (s : State) : Host.Outcome State Fault Refusal :=
  event s (match s.cur with
    | .wg inst => do
      let o ← s.bankNext inst
      let a := s.agentOf inst o.party
      match s.readyBank a o with
      | .error d => some (s.parkBank inst o d)
      | .ok none => none
      | .ok (some s) =>
        let s := s.dropOp a.core o.id
        match s.bankBlock a o with
        | .error d => some (s.parkBank inst o d)
        | .ok (o, s) =>
          let o := { o with owed := false }
          if o.progress = o.cmd.rows then some (s.endBank inst o) else some (s.modBank inst o.id fun _ => o)
    | _ => none)

/-- BANK_RESULT_POST (R314): the entry of the first ended operation is placed, and the operation completes. -/
def execBankResultPost (s : State) : Host.Outcome State Fault Refusal :=
  event s (match s.cur with
    | .wg inst => do
      let g ← s.wg? inst
      let o ← g.bankOps.find? fun o => o.posting
      if g.bankDone.length < 64 then some (s.finishBank inst o) else none
    | _ => none)

/-! ### BSTAT (R315) -/

def bankStat (g : Wg) : DWord :=
  match g.bankOps with
  | [] => 0
  | o :: _ =>
    BitVec.ofNat 64 (o.progress * 2 ^ 32 + (if o.parked then 2 ^ 31 else 0) + g.bankOps.length % 64 * 2 ^ 16 + o.cmd.tag)

def bstatRun (s : State) (c : Ctx) (h : Head) (kd : BitVec 6) : M State :=
  uniformOp s c h false .command fun c => do
    let (_, _, g) ← ownWg s c
    .ok (s.writeU c kd.toNat true (bankStat g) false)

def execBstat (h : Head) (kd : BitVec 6) (s : State) : Host.Outcome State Fault Refusal :=
  runOp s h fun c => heldBehind s c h (.bstat h kd) [.k kd.toNat, .k (kd.toNat + 1)] (bstatRun s c h kd)

end Sys2Proof.Machine
end

