-- ==== Sys2Proof/Decode.lean ====
section
/-! DEFINITION. The decoder, total on any word, and after it the encoder, both written from the encoding tables
of the manual: 64-bit Farale words (R164 to R180), 32-bit Beryl words (R319; the RISC-V words by log 18) and
16-bit compressed Beryl words. -/

namespace Sys2Proof

/-! ### Fields of a Farale word -/

/-- The 10 bits of an operand field (R174). -/
def Opnd.bits : Opnd → BitVec 10
  | .v n => 0#2 ++ n
  | .u n => 1#2 ++ n
  | .imm x => 2#2 ++ x
  | .sp i => 3#2 ++ i

/-- The operand of an operand field (R174). -/
def Opnd.ofBits (x : BitVec 10) : Opnd :=
  let i : BitVec 8 := x.extractLsb' 0 8
  match (x.extractLsb' 8 2).toNat with
  | 0 => .v i
  | 1 => .u i
  | 2 => .imm i
  | _ => .sp i

def BodyA.bits (b : BodyA) : BitVec 43 := b.dst.bits ++ b.sa.bits ++ b.sb.bits ++ b.sc.bits ++ b.mod

def BodyA.ofBits (x : BitVec 43) : BodyA :=
  ⟨.ofBits (x.extractLsb' 33 10), .ofBits (x.extractLsb' 23 10), .ofBits (x.extractLsb' 13 10),
    .ofBits (x.extractLsb' 3 10), x.extractLsb' 0 3⟩

def BodyI.bits (b : BodyI) : BitVec 43 := b.dst.bits ++ b.imm ++ BitVec.ofBool b.wide

def BodyI.ofBits (x : BitVec 43) : BodyI := ⟨.ofBits (x.extractLsb' 33 10), x.extractLsb' 1 32, x.getLsbD 0⟩

def BodyM.bits (b : BodyM) : BitVec 43 :=
  b.data.bits ++ b.areg ++ b.mode ++ b.off ++ b.sz ++ b.scope ++ b.cache ++ b.mod

def BodyM.ofBits (x : BitVec 43) : BodyM :=
  ⟨.ofBits (x.extractLsb' 33 10), x.extractLsb' 29 4, x.extractLsb' 26 3, x.extractLsb' 10 16, x.extractLsb' 7 3,
    x.extractLsb' 4 3, x.extractLsb' 2 2, x.extractLsb' 0 2⟩

def BodyJ.bits (b : BodyJ) : BitVec 43 := b.tgt ++ b.kind ++ BitVec.ofBool b.cneg ++ b.cidx ++ 0#4

/-- COND bits 3:0 are zero (R170). -/
def BodyJ.ofBits (x : BitVec 43) : Option BodyJ :=
  if x.extractLsb' 0 4 = 0 then some ⟨x.extractLsb' 11 32, x.extractLsb' 9 2, x.getLsbD 8, x.extractLsb' 4 4⟩ else none

def BodyS.bits (b : BodyS) : BitVec 43 := b.dst.bits ++ b.sa.bits ++ b.sreg ++ 0#11

def BodyS.ofBits (x : BitVec 43) : Option BodyS :=
  if x.extractLsb' 0 11 = 0 then
    some ⟨.ofBits (x.extractLsb' 33 10), .ofBits (x.extractLsb' 23 10), x.extractLsb' 11 12⟩
  else none

def BodyMma.bits (b : BodyMma) : BitVec 43 :=
  b.conv ++ b.acc ++ b.areg1 ++ b.areg2 ++ b.fs1 ++ b.fs2 ++ b.kf ++ b.kop ++ BitVec.ofBool b.z ++ 0#9

def BodyMma.ofBits (x : BitVec 43) : Option BodyMma :=
  if x.extractLsb' 0 9 = 0 then
    some ⟨x.extractLsb' 40 3, x.extractLsb' 36 4, x.extractLsb' 32 4, x.extractLsb' 28 4, x.extractLsb' 25 3,
      x.extractLsb' 22 3, x.extractLsb' 16 6, x.extractLsb' 10 6, x.getLsbD 9⟩
  else none

def BodyAcc.bits (b : BodyAcc) : BitVec 43 := 0#3 ++ b.acc ++ b.areg ++ 0#10 ++ b.ks ++ 0#16

def BodyAcc.ofBits (x : BitVec 43) : Option BodyAcc :=
  if x.extractLsb' 0 16 = 0 ∧ x.extractLsb' 22 10 = 0 ∧ x.extractLsb' 40 3 = 0 then
    some ⟨x.extractLsb' 36 4, x.extractLsb' 32 4, x.extractLsb' 16 6⟩
  else none

def BodyAccmv.bits (b : BodyAccmv) : BitVec 43 := b.vec.bits ++ b.acc ++ b.idx.bits ++ BitVec.ofBool b.put ++ 0#18

def BodyAccmv.ofBits (x : BitVec 43) : Option BodyAccmv :=
  if x.extractLsb' 0 18 = 0 then
    some ⟨.ofBits (x.extractLsb' 33 10), x.extractLsb' 29 4, .ofBits (x.extractLsb' 19 10), x.getLsbD 18⟩
  else none

def BodyMepi.bits (b : BodyMepi) : BitVec 43 :=
  BitVec.ofBool b.int ++ 0#2 ++ b.acc ++ b.aregD ++ b.fs ++ b.act ++ b.scale.bits ++ b.aregB ++ BitVec.ofBool b.bv
    ++ b.ks ++ 0#5

def BodyMepi.ofBits (x : BitVec 43) : Option BodyMepi :=
  if x.extractLsb' 0 5 = 0 ∧ x.extractLsb' 40 2 = 0 then
    some ⟨x.getLsbD 42, x.extractLsb' 36 4, x.extractLsb' 32 4, x.extractLsb' 29 3, x.extractLsb' 26 3,
      .ofBits (x.extractLsb' 16 10), x.extractLsb' 12 4, x.getLsbD 11, x.extractLsb' 5 6⟩
  else none

/-- IMM20 of a format B word whose DST, SA and MOD are zero. -/
def immB (x : BitVec 43) : Option (BitVec 20) :=
  if x.extractLsb' 0 3 = 0 ∧ x.extractLsb' 23 20 = 0 then some (x.extractLsb' 3 20) else none

/-- SCOPE of a FENCE or FENCEB, every other body field zero (R264). -/
def fenceScope (x : BitVec 43) : Option (BitVec 3) :=
  if x.extractLsb' 0 4 = 0 ∧ x.extractLsb' 7 36 = 0 then some (x.extractLsb' 4 3) else none

/-- NEG, PIDX, FLAG and LK (R164). -/
def Head.ofWord (w : BitVec 64) : Head :=
  ⟨w.getLsbD 54, w.extractLsb' 51 3, w.extractLsb' 47 4, w.extractLsb' 43 4⟩

/-- The fields of a Farale word by its opcode (R180), before the limits of the entry are checked. -/
def rawFarale (op : Nat) (h : Head) (x : BitVec 43) : Option Instr :=
  match op with
  | 0x001 => BodyJ.ofBits x |>.map (.bra h)
  | 0x002 => BodyJ.ofBits x |>.map (.brc h)
  | 0x003 => some (.brx h (BodyA.ofBits x))
  | 0x004 => BodyJ.ofBits x |>.map (.call h)
  | 0x005 => some (.callx h (BodyA.ofBits x))
  | 0x006 => some (.ret h (BodyA.ofBits x))
  | 0x007 => if x = 0 then some (.exit h) else none
  | 0x008 => if x = 0 then some (.nop h) else none
  | 0x009 => if x = 0 then some (.yield h) else none
  | 0x00a => immB x |>.map (.sleep h)
  | 0x00b => if x.extractLsb' 0 11 = 0 then some (.setmPush h (x.extractLsb' 11 32)) else none
  | 0x00c => if x = 0 then some (.popm h) else none
  | 0x00d =>
    let b := BodyA.ofBits x
    if b.sb.zero ∧ b.sc.zero then
      match b.mod.toNat with
      | 0 => if b.sa.zero then some (.getm h b.dst false) else none
      | 1 => if b.sa.zero then some (.getm h b.dst true) else none
      | 2 => if b.dst.zero then some (.setmRestore h b.sa) else none
      | _ => none
    else none
  | 0x00e => immB x |>.map (.trap h)
  | 0x00f => immB x |>.map (.bkpt h)
  | 0x010 => some (.map h (BodyA.ofBits x))
  | 0x011 => some (.unmap h (BodyA.ofBits x))
  | 0x012 => some (.aliasName h (BodyA.ofBits x))
  | 0x013 => some (.give h (BodyA.ofBits x))
  | 0x014 => some (.take h (BodyA.ofBits x))
  | 0x015 => some (.swapn h (BodyA.ofBits x))
  | 0x016 => some (.mapq h (BodyA.ofBits x))
  | 0x020 => some (.lxch h (BodyA.ofBits x))
  | 0x021 => some (.pagr h (BodyA.ofBits x))
  | 0x022 => some (.pmsk h (BodyA.ofBits x))
  | 0x023 => some (.leqm h (BodyA.ofBits x))
  | 0x024 => some (.lred h (BodyA.ofBits x))
  | 0x025 => some (.rfal h (BodyA.ofBits x))
  | 0x040 => some (.iadd h (BodyA.ofBits x))
  | 0x041 => some (.isub h (BodyA.ofBits x))
  | 0x042 => some (.imul h (BodyA.ofBits x))
  | 0x043 => some (.imulh h (BodyA.ofBits x))
  | 0x044 => some (.imad h (BodyA.ofBits x))
  | 0x045 => some (.idiv h (BodyA.ofBits x))
  | 0x046 => some (.irem h (BodyA.ofBits x))
  | 0x047 => some (.imin h (BodyA.ofBits x))
  | 0x048 => some (.imax h (BodyA.ofBits x))
  | 0x049 => some (.iabs h (BodyA.ofBits x))
  | 0x04a => some (.ltab h (BodyA.ofBits x))
  | 0x04b => some (.shl h (BodyA.ofBits x))
  | 0x04c => some (.shr h (BodyA.ofBits x))
  | 0x04d => some (.sar h (BodyA.ofBits x))
  | 0x04e => some (.catsh h (BodyA.ofBits x))
  | 0x04f => some (.popc h (BodyA.ofBits x))
  | 0x050 => some (.clz h (BodyA.ofBits x))
  | 0x051 => some (.brev h (BodyA.ofBits x))
  | 0x052 => some (.bfe h (BodyA.ofBits x))
  | 0x053 => some (.bfi h (BodyA.ofBits x))
  | 0x054 => some (.bytep h (BodyA.ofBits x))
  | 0x055 => some (.iset h (BodyA.ofBits x))
  | 0x056 => some (.sel h (BodyA.ofBits x))
  | 0x057 => some (.mov h (BodyA.ofBits x))
  | 0x058 => some (.movi h (BodyI.ofBits x))
  | 0x059 => some (.rds h (BodyA.ofBits x))
  | 0x080 => some (.fadd h (BodyA.ofBits x))
  | 0x081 => some (.fmul h (BodyA.ofBits x))
  | 0x082 => some (.ffma h (BodyA.ofBits x))
  | 0x083 => some (.fmin h (BodyA.ofBits x))
  | 0x084 => some (.fmax h (BodyA.ofBits x))
  | 0x085 => some (.fset h (BodyA.ofBits x))
  | 0x086 => some (.frnd h (BodyA.ofBits x))
  | 0x087 => some (.fclass h (BodyA.ofBits x))
  | 0x088 => some (.phadd h (BodyA.ofBits x))
  | 0x089 => some (.phmul h (BodyA.ofBits x))
  | 0x08a => some (.phfma h (BodyA.ofBits x))
  | 0x08b => some (.pbfma h (BodyA.ofBits x))
  | 0x08c => some (.dadd h (BodyA.ofBits x))
  | 0x08d => some (.dmul h (BodyA.ofBits x))
  | 0x08e => some (.dfma h (BodyA.ofBits x))
  | 0x08f => some (.dset h (BodyA.ofBits x))
  | 0x090 => some (.frcp h (BodyA.ofBits x))
  | 0x091 => some (.frsq h (BodyA.ofBits x))
  | 0x092 => some (.fsqrt h (BodyA.ofBits x))
  | 0x093 => some (.fex2 h (BodyA.ofBits x))
  | 0x094 => some (.flg2 h (BodyA.ofBits x))
  | 0x095 => some (.fsin h (BodyA.ofBits x))
  | 0x096 => some (.fcos h (BodyA.ofBits x))
  | 0x097 => some (.ftanh h (BodyA.ofBits x))
  | 0x098 => some (.cvt h (BodyA.ofBits x))
  | 0x099 => some (.cvtn h (BodyA.ofBits x))
  | 0x09a => some (.cvts h (BodyA.ofBits x))
  | 0x09b => some (.cvtw h (BodyA.ofBits x))
  | 0x09c => some (.plsplit h (BodyA.ofBits x))
  | 0x09d => some (.pljoin h (BodyA.ofBits x))
  | 0x09e => some (.bscale h (BodyA.ofBits x))
  | 0x0c0 => let b := BodyM.ofBits x; if b.mod.getLsbD 1 then some (.ldFill h b) else some (.ld h b)
  | 0x0c1 => let b := BodyM.ofBits x; if b.mod.getLsbD 1 then some (.stSpill h b) else some (.st h b)
  | 0x0c2 => some (.lds h (BodyM.ofBits x))
  | 0x0c3 => some (.sts h (BodyM.ofBits x))
  | 0x0c4 => some (.ldt h (BodyM.ofBits x))
  | 0x0c5 => some (.stt h (BodyM.ofBits x))
  | 0x0c6 => some (.ldc h (BodyM.ofBits x))
  | 0x0c7 => some (.prf h (BodyM.ofBits x))
  | 0x0c8 => some (.ainit h (BodyA.ofBits x))
  | 0x0c9 => some (.aset h (BodyA.ofBits x))
  | 0x0ca => some (.aadv h (BodyA.ofBits x))
  | 0x0cb => some (.aget h (BodyA.ofBits x))
  | 0x0cc => some (.atom h (BodyM.ofBits x))
  | 0x0cd => some (.cas h (BodyM.ofBits x))
  | 0x0ce => some (.red h (BodyM.ofBits x))
  | 0x0cf => some (.redv h (BodyM.ofBits x))
  | 0x0d0 => some (.atoms h (BodyM.ofBits x))
  | 0x0d1 => fenceScope x |>.map (.fence h)
  | 0x0d2 => fenceScope x |>.map (.fenceb h)
  | 0x100 => some (.bars h (BodyA.ofBits x))
  | 0x101 => some (.bara h (BodyA.ofBits x))
  | 0x102 => some (.barw h (BodyA.ofBits x))
  | 0x103 => some (.tbara h (BodyA.ofBits x))
  | 0x104 => some (.tbarw h (BodyA.ofBits x))
  | 0x105 => some (.tbarx h (BodyA.ofBits x))
  | 0x106 => if x = 0 then some (.acq h) else none
  | 0x107 => some (.qbind h (BodyA.ofBits x))
  | 0x108 => some (.qsend h (BodyA.ofBits x))
  | 0x109 => some (.qrecv h (BodyA.ofBits x))
  | 0x10a => some (.qtry h (BodyA.ofBits x))
  | 0x10b => some (.qstat h (BodyA.ofBits x))
  | 0x10c => some (.poll h (BodyA.ofBits x))
  | 0x10d => some (.hget h (BodyA.ofBits x))
  | 0x10e => some (.hfree h (BodyA.ofBits x))
  | 0x10f => some (.hwait h (BodyA.ofBits x))
  | 0x110 => some (.hset h (BodyA.ofBits x))
  | 0x111 => some (.wptr h (BodyA.ofBits x))
  | 0x112 => some (.wwait h (BodyA.ofBits x))
  | 0x113 => if x.extractLsb' 0 40 = 0 then some (.cpy h (x.extractLsb' 40 3)) else none
  | 0x114 => if x.extractLsb' 0 35 = 0 then some (.cpyt h (x.extractLsb' 40 3) (x.extractLsb' 35 5)) else none
  | 0x115 => some (.wgsend h (BodyA.ofBits x))
  | 0x116 => some (.qsplit h (BodyA.ofBits x))
  | 0x117 => some (.qret h (BodyA.ofBits x))
  | 0x118 => some (.qborrow h (BodyA.ofBits x))
  | 0x119 => some (.waitq h (BodyA.ofBits x))
  | 0x11a => some (.tapef h (BodyA.ofBits x))
  | 0x11b => some (.depinc h (BodyA.ofBits x))
  | 0x11c => some (.time h (BodyA.ofBits x))
  | 0x11d => some (.waitt h (BodyA.ofBits x))
  | 0x11e => some (.launch h (BodyA.ofBits x))
  | 0x140 => BodyMma.ofBits x |>.map (.mma h)
  | 0x141 => BodyMma.ofBits x |>.map (.mmac h)
  | 0x142 => if x.extractLsb' 0 30 = 0 then some (.msign h (x.extractLsb' 40 3) (Opnd.ofBits (x.extractLsb' 30 10))) else none
  | 0x143 => if x.extractLsb' 0 36 = 0 ∧ x.extractLsb' 40 3 = 0 then some (.mzero h (x.extractLsb' 36 4)) else none
  | 0x144 => BodyAcc.ofBits x |>.map (.accld h)
  | 0x145 => BodyAcc.ofBits x |>.map (.accst h)
  | 0x146 => BodyAccmv.ofBits x |>.map (.accmv h)
  | 0x147 => BodyMepi.ofBits x |>.map (.mepi h)
  | 0x148 => if x.extractLsb' 0 33 = 0 then some (.mrpq h (x.extractLsb' 37 6) (x.extractLsb' 33 4)) else none
  | 0x160 => if x.extractLsb' 0 40 = 0 then some (.bmv h (x.extractLsb' 40 3)) else none
  | 0x161 => if x.extractLsb' 0 40 = 0 then some (.bmva h (x.extractLsb' 40 3)) else none
  | 0x162 => if x.extractLsb' 0 40 = 0 then some (.bred h (x.extractLsb' 40 3)) else none
  | 0x163 => if x.extractLsb' 0 37 = 0 then some (.bstat h (x.extractLsb' 37 6)) else none
  | 0x170 => BodyS.ofBits x |>.map (.rdsr h)
  | 0x171 => BodyS.ofBits x |>.map (.wrsr h)
  | 0x172 => BodyS.ofBits x |>.map (.eret h)
  | 0x173 => BodyS.ofBits x |>.map (.savewg h)
  | 0x174 => BodyS.ofBits x |>.map (.restwg h)
  | 0x175 => BodyS.ofBits x |>.map (.tlbi h)
  | 0x176 => BodyS.ofBits x |>.map (.flushs h)
  | 0x177 => BodyS.ofBits x |>.map (.halt h)
  | _ => none

/-- The Farale instruction of a word; none for a word that raises the illegal-instruction trap (R173, R178). -/
def decodeFarale (w : BitVec 64) : Option Instr :=
  match rawFarale (w.extractLsb' 55 9).toNat (Head.ofWord w) (w.extractLsb' 0 43) with
  | some i => if i.wf then some i else none
  | none => none

/-! ### Beryl words -/

/-- The condition of a branch by funct3. -/
def RvCond.of (f3 : Nat) : Option RvCond :=
  match f3 with
  | 0 => some .eq | 1 => some .ne | 4 => some .lt | 5 => some .ge | 6 => some .ltu | 7 => some .geu | _ => none

/-- The operation of OP by funct7 and funct3. -/
def RvAlu.of (f7 f3 : Nat) : Option RvAlu :=
  match f7, f3 with
  | 0x00, 0 => some .add | 0x20, 0 => some .sub | 0x00, 1 => some .sll | 0x00, 2 => some .slt
  | 0x00, 3 => some .sltu | 0x00, 4 => some .xor | 0x00, 5 => some .srl | 0x20, 5 => some .sra
  | 0x00, 6 => some .or | 0x00, 7 => some .and | _, _ => none

/-- funct7 and funct3 of an operation of OP. -/
def RvAlu.code : RvAlu → BitVec 7 × BitVec 3
  | .add => (0x00, 0) | .sub => (0x20, 0) | .sll => (0x00, 1) | .slt => (0x00, 2) | .sltu => (0x00, 3)
  | .xor => (0x00, 4) | .srl => (0x00, 5) | .sra => (0x20, 5) | .or => (0x00, 6) | .and => (0x00, 7)

def RvMul.of (f3 : Nat) : RvMul :=
  match f3 with
  | 0 => .mul | 1 => .mulh | 2 => .mulhsu | 3 => .mulhu | 4 => .div | 5 => .divu | 6 => .rem | _ => .remu

def RvMul.code : RvMul → BitVec 3
  | .mul => 0 | .mulh => 1 | .mulhsu => 2 | .mulhu => 3 | .div => 4 | .divu => 5 | .rem => 6 | .remu => 7

def RvCond.code : RvCond → BitVec 3
  | .eq => 0 | .ne => 1 | .lt => 4 | .ge => 5 | .ltu => 6 | .geu => 7

def RvAmo.of (f5 : Nat) : Option RvAmo :=
  match f5 with
  | 0x01 => some .swap | 0x00 => some .add | 0x04 => some .xor | 0x0c => some .and | 0x08 => some .or
  | 0x10 => some .min | 0x14 => some .max | 0x18 => some .minu | 0x1c => some .maxu | _ => none

def RvAmo.code : RvAmo → BitVec 5
  | .swap => 0x01 | .add => 0x00 | .xor => 0x04 | .and => 0x0c | .or => 0x08 | .min => 0x10 | .max => 0x14
  | .minu => 0x18 | .maxu => 0x1c

def RvCsrOp.of (f3 : Nat) : Option RvCsrOp :=
  match f3 with
  | 1 => some .rw | 2 => some .rs | 3 => some .rc | 5 => some .rwi | 6 => some .rsi | 7 => some .rci | _ => none

def RvCsrOp.code : RvCsrOp → BitVec 3
  | .rw => 1 | .rs => 2 | .rc => 3 | .rwi => 5 | .rsi => 6 | .rci => 7

/-- The Xfar instructions by funct3 and funct7 (R319). -/
def rawXfar (f3 f7 : Nat) (b : BodyX) : Option Instr :=
  match f3, f7 with
  | 0, 0 => some (.fqSend b) | 0, 1 => some (.fqSendTry b)
  | 1, 0 => some (.fqRecv b) | 1, 1 => some (.fqRecvTry b)
  | 2, 0 => some (.fhGet b)
  | 3, 0 => some (.fhWait b)
  | 4, 0 => some (.fcpIssue b) | 4, 1 => some (.fcpIssueT b)
  | 5, 0 => some (.fwpRead b) | 5, 1 => some (.fwpReadWait b)
  | 6, 0 => some (.ftime b) | 6, 1 => some (.ftimeWait b)
  | 7, 0 => some (.fpollEq b) | 7, 1 => some (.fpollNe b) | 7, 2 => some (.fpollLt b)
  | 7, 3 => some (.fpollLe b) | 7, 4 => some (.fpollGt b) | 7, 5 => some (.fpollGe b)
  | _, _ => none

/-- The SYSTEM opcode: ecall, ebreak and Zicsr; an access to an fqbind CSR is FQBIND_WRITE's (R318). -/
def rawSystem (w : BitVec 32) (f3 : Nat) (rd rs1 : BitVec 5) : Option Instr :=
  let c : BitVec 12 := w.extractLsb' 20 12
  if f3 = 0 then
    if rd = 0 ∧ rs1 = 0 then
      if c = 0 then some (.berylInstruction .ecall none)
      else if c = 1 then some (.berylInstruction .ebreak none) else none
    else none
  else (RvCsrOp.of f3).map fun f =>
    if 0x800 ≤ c.toNat ∧ c.toNat ≤ 0x80f then .fqbindWrite f rd rs1 (c.extractLsb' 0 4)
    else .berylInstruction (.csr f rd rs1 c) none

/-- The ordinary RISC-V instructions of a 32-bit word (log 18). -/
def rawRv (w : BitVec 32) (f3 f7 : Nat) (rd rs1 rs2 : BitVec 5) : Option Rv :=
  let i12 : BitVec 12 := w.extractLsb' 20 12
  match (w.extractLsb' 0 7).toNat with
  | 0x37 => some (.lui rd (w.extractLsb' 12 20))
  | 0x17 => some (.auipc rd (w.extractLsb' 12 20))
  | 0x6f => some (.jal rd (w.extractLsb' 31 1 ++ w.extractLsb' 12 8 ++ w.extractLsb' 20 1 ++ w.extractLsb' 21 10))
  | 0x67 => if f3 = 0 then some (.jalr rd rs1 i12) else none
  | 0x63 => (RvCond.of f3).map fun c =>
      .branch c rs1 rs2 (w.extractLsb' 31 1 ++ w.extractLsb' 7 1 ++ w.extractLsb' 25 6 ++ w.extractLsb' 8 4)
  | 0x03 => some (.load (w.extractLsb' 12 2) (w.getLsbD 14) rd rs1 i12)
  | 0x23 => if f3 ≤ 3 then some (.store (w.extractLsb' 12 2) rs1 rs2 (w.extractLsb' 25 7 ++ w.extractLsb' 7 5)) else none
  | 0x13 =>
    if f3 = 1 ∨ f3 = 5 then
      (RvAlu.of (2 * (f7 / 2)) f3).map fun f => .shImm f rd rs1 (w.extractLsb' 20 6)
    else (RvAlu.of 0 f3).map fun f => .opImm f rd rs1 i12
  | 0x33 => if f7 = 1 then some (.mulDiv (RvMul.of f3) rd rs1 rs2) else (RvAlu.of f7 f3).map fun f => .op f rd rs1 rs2
  | 0x1b =>
    if f3 = 0 then some (.addiw rd rs1 i12)
    else (RvAlu.of f7 f3).map fun f => .shImmW f rd rs1 rs2
  | 0x3b => if f7 = 1 then some (.mulDivW (RvMul.of f3) rd rs1 rs2) else (RvAlu.of f7 f3).map fun f => .opW f rd rs1 rs2
  | 0x0f => if f3 = 0 then some (.fence (w.extractLsb' 28 4) (w.extractLsb' 24 4) (w.extractLsb' 20 4) rd rs1) else none
  | 0x2f =>
    if f3 = 2 ∨ f3 = 3 then
      let d := f3 == 3; let aq := w.getLsbD 26; let rl := w.getLsbD 25
      match f7 / 4 with
      | 0x02 => if rs2 = 0 then some (.lr d aq rl rd rs1) else none
      | 0x03 => some (.sc d aq rl rd rs1 rs2)
      | n => (RvAmo.of n).map fun f => .amo f d aq rl rd rs1 rs2
    else none
  | _ => none

/-- The fields of a 32-bit Beryl word. -/
def rawBeryl (w : BitVec 32) : Option Instr :=
  let rd : BitVec 5 := w.extractLsb' 7 5
  let f3 := (w.extractLsb' 12 3).toNat
  let rs1 : BitVec 5 := w.extractLsb' 15 5
  let rs2 : BitVec 5 := w.extractLsb' 20 5
  let f7 := (w.extractLsb' 25 7).toNat
  match (w.extractLsb' 0 7).toNat with
  | 0x0b => rawXfar f3 f7 ⟨rd, rs1, rs2⟩
  | 0x73 => rawSystem w f3 rd rs1
  | _ => (rawRv w f3 f7 rd rs1 rs2).map fun i => .berylInstruction i none

/-- The Beryl instruction of a 32-bit word. -/
def decodeBeryl (w : BitVec 32) : Option Instr :=
  match rawBeryl w with
  | some i => if i.wf then some i else none
  | none => none

/-- The Beryl instruction of a compressed halfword. -/
def decodeCompressed (c : BitVec 16) : Option Instr :=
  match Rvc.expand c with
  | some i => if (Instr.berylInstruction i (some c)).wf then some (.berylInstruction i (some c)) else none
  | none => none

/-- The instruction that the decoder reads from an instruction of `nbits` bits: a Farale word of 64, a Beryl
word of 32, a compressed one of 16. -/
def decodeTableWord (nbits w : Nat) : Option Instr :=
  match nbits with
  | 64 => decodeFarale (BitVec.ofNat 64 w)
  | 32 => decodeBeryl (BitVec.ofNat 32 w)
  | 16 => decodeCompressed (BitVec.ofNat 16 w)
  | _ => none

/-! ### The encoder -/

/-- A Farale word: OP, the head and the body (R164). -/
def farale (op : BitVec 9) (h : Head) (x : BitVec 43) : Option (Nat × Nat) :=
  some (64, (op ++ BitVec.ofBool h.neg ++ h.pidx ++ h.flag ++ h.lk ++ x : BitVec 64).toNat)

/-- An R-type word. -/
def rType (f7 : BitVec 7) (rs2 rs1 : BitVec 5) (f3 : BitVec 3) (rd : BitVec 5) (op : BitVec 7) : BitVec 32 :=
  f7 ++ rs2 ++ rs1 ++ f3 ++ rd ++ op

/-- An I-type word. -/
def iType (imm : BitVec 12) (rs1 : BitVec 5) (f3 : BitVec 3) (rd : BitVec 5) (op : BitVec 7) : BitVec 32 :=
  imm ++ rs1 ++ f3 ++ rd ++ op

/-- An Xfar word (R319). -/
def xfar (f7 : BitVec 7) (f3 : BitVec 3) (b : BodyX) : Option (Nat × Nat) :=
  some (32, (rType f7 b.rs2 b.rs1 f3 b.rd 0x0b).toNat)

/-- The 32-bit word of an ordinary RISC-V instruction. -/
def Rv.word : Rv → BitVec 32
  | .lui rd i => i ++ rd ++ 0x37#7
  | .auipc rd i => i ++ rd ++ 0x17#7
  | .jal rd i => i.extractLsb' 19 1 ++ i.extractLsb' 0 10 ++ i.extractLsb' 10 1 ++ i.extractLsb' 11 8 ++ rd ++ 0x6f#7
  | .jalr rd rs1 i => iType i rs1 0 rd 0x67
  | .branch c rs1 rs2 i =>
    i.extractLsb' 11 1 ++ i.extractLsb' 4 6 ++ rs2 ++ rs1 ++ c.code ++ i.extractLsb' 0 4 ++ i.extractLsb' 10 1 ++ 0x63#7
  | .load w u rd rs1 i => iType i rs1 (BitVec.ofBool u ++ w) rd 0x03
  | .store w rs1 rs2 i => i.extractLsb' 5 7 ++ rs2 ++ rs1 ++ (0#1 ++ w) ++ i.extractLsb' 0 5 ++ 0x23#7
  | .opImm f rd rs1 i => iType i rs1 f.code.2 rd 0x13
  | .shImm f rd rs1 s => iType (f.code.1.extractLsb' 1 6 ++ s) rs1 f.code.2 rd 0x13
  | .op f rd rs1 rs2 => rType f.code.1 rs2 rs1 f.code.2 rd 0x33
  | .addiw rd rs1 i => iType i rs1 0 rd 0x1b
  | .shImmW f rd rs1 s => rType f.code.1 s rs1 f.code.2 rd 0x1b
  | .opW f rd rs1 rs2 => rType f.code.1 rs2 rs1 f.code.2 rd 0x3b
  | .mulDiv f rd rs1 rs2 => rType 1 rs2 rs1 f.code rd 0x33
  | .mulDivW f rd rs1 rs2 => rType 1 rs2 rs1 f.code rd 0x3b
  | .fence fm p s rd rs1 => iType (fm ++ p ++ s) rs1 0 rd 0x0f
  | .ecall => 0x00000073
  | .ebreak => 0x00100073
  | .csr f rd src c => iType c src f.code rd 0x73
  | .lr d aq rl rd rs1 => rType (0x02#5 ++ BitVec.ofBool aq ++ BitVec.ofBool rl) 0 rs1 (if d then 3 else 2) rd 0x2f
  | .sc d aq rl rd rs1 rs2 => rType (0x03#5 ++ BitVec.ofBool aq ++ BitVec.ofBool rl) rs2 rs1 (if d then 3 else 2) rd 0x2f
  | .amo f d aq rl rd rs1 rs2 => rType (f.code ++ BitVec.ofBool aq ++ BitVec.ofBool rl) rs2 rs1 (if d then 3 else 2) rd 0x2f

/-- The number of bits and the word of an instruction; none for an event, which has no word. -/
def encode : Instr → Option (Nat × Nat)
  | .bra h b => farale 0x001 h b.bits
  | .brc h b => farale 0x002 h b.bits
  | .brx h b => farale 0x003 h b.bits
  | .call h b => farale 0x004 h b.bits
  | .callx h b => farale 0x005 h b.bits
  | .ret h b => farale 0x006 h b.bits
  | .exit h => farale 0x007 h 0#43
  | .nop h => farale 0x008 h 0#43
  | .yield h => farale 0x009 h 0#43
  | .sleep h i => farale 0x00a h (0#20 ++ i ++ 0#3)
  | .setmPush h t => farale 0x00b h (t ++ 0#11)
  | .popm h => farale 0x00c h 0#43
  | .getm h d c => farale 0x00d h (d.bits ++ 0#30 ++ (if c then 1#3 else 0#3))
  | .setmRestore h s => farale 0x00d h (0#10 ++ s.bits ++ 0#20 ++ 2#3)
  | .trap h i => farale 0x00e h (0#20 ++ i ++ 0#3)
  | .bkpt h i => farale 0x00f h (0#20 ++ i ++ 0#3)
  | .map h b => farale 0x010 h b.bits
  | .unmap h b => farale 0x011 h b.bits
  | .aliasName h b => farale 0x012 h b.bits
  | .give h b => farale 0x013 h b.bits
  | .take h b => farale 0x014 h b.bits
  | .swapn h b => farale 0x015 h b.bits
  | .mapq h b => farale 0x016 h b.bits
  | .lxch h b => farale 0x020 h b.bits
  | .pagr h b => farale 0x021 h b.bits
  | .pmsk h b => farale 0x022 h b.bits
  | .leqm h b => farale 0x023 h b.bits
  | .lred h b => farale 0x024 h b.bits
  | .rfal h b => farale 0x025 h b.bits
  | .iadd h b => farale 0x040 h b.bits
  | .isub h b => farale 0x041 h b.bits
  | .imul h b => farale 0x042 h b.bits
  | .imulh h b => farale 0x043 h b.bits
  | .imad h b => farale 0x044 h b.bits
  | .idiv h b => farale 0x045 h b.bits
  | .irem h b => farale 0x046 h b.bits
  | .imin h b => farale 0x047 h b.bits
  | .imax h b => farale 0x048 h b.bits
  | .iabs h b => farale 0x049 h b.bits
  | .ltab h b => farale 0x04a h b.bits
  | .shl h b => farale 0x04b h b.bits
  | .shr h b => farale 0x04c h b.bits
  | .sar h b => farale 0x04d h b.bits
  | .catsh h b => farale 0x04e h b.bits
  | .popc h b => farale 0x04f h b.bits
  | .clz h b => farale 0x050 h b.bits
  | .brev h b => farale 0x051 h b.bits
  | .bfe h b => farale 0x052 h b.bits
  | .bfi h b => farale 0x053 h b.bits
  | .bytep h b => farale 0x054 h b.bits
  | .iset h b => farale 0x055 h b.bits
  | .sel h b => farale 0x056 h b.bits
  | .mov h b => farale 0x057 h b.bits
  | .movi h b => farale 0x058 h b.bits
  | .rds h b => farale 0x059 h b.bits
  | .fadd h b => farale 0x080 h b.bits
  | .fmul h b => farale 0x081 h b.bits
  | .ffma h b => farale 0x082 h b.bits
  | .fmin h b => farale 0x083 h b.bits
  | .fmax h b => farale 0x084 h b.bits
  | .fset h b => farale 0x085 h b.bits
  | .frnd h b => farale 0x086 h b.bits
  | .fclass h b => farale 0x087 h b.bits
  | .phadd h b => farale 0x088 h b.bits
  | .phmul h b => farale 0x089 h b.bits
  | .phfma h b => farale 0x08a h b.bits
  | .pbfma h b => farale 0x08b h b.bits
  | .dadd h b => farale 0x08c h b.bits
  | .dmul h b => farale 0x08d h b.bits
  | .dfma h b => farale 0x08e h b.bits
  | .dset h b => farale 0x08f h b.bits
  | .frcp h b => farale 0x090 h b.bits
  | .frsq h b => farale 0x091 h b.bits
  | .fsqrt h b => farale 0x092 h b.bits
  | .fex2 h b => farale 0x093 h b.bits
  | .flg2 h b => farale 0x094 h b.bits
  | .fsin h b => farale 0x095 h b.bits
  | .fcos h b => farale 0x096 h b.bits
  | .ftanh h b => farale 0x097 h b.bits
  | .cvt h b => farale 0x098 h b.bits
  | .cvtn h b => farale 0x099 h b.bits
  | .cvts h b => farale 0x09a h b.bits
  | .cvtw h b => farale 0x09b h b.bits
  | .plsplit h b => farale 0x09c h b.bits
  | .pljoin h b => farale 0x09d h b.bits
  | .bscale h b => farale 0x09e h b.bits
  | .ld h b | .ldFill h b => farale 0x0c0 h b.bits
  | .st h b | .stSpill h b => farale 0x0c1 h b.bits
  | .lds h b => farale 0x0c2 h b.bits
  | .sts h b => farale 0x0c3 h b.bits
  | .ldt h b => farale 0x0c4 h b.bits
  | .stt h b => farale 0x0c5 h b.bits
  | .ldc h b => farale 0x0c6 h b.bits
  | .prf h b => farale 0x0c7 h b.bits
  | .ainit h b => farale 0x0c8 h b.bits
  | .aset h b => farale 0x0c9 h b.bits
  | .aadv h b => farale 0x0ca h b.bits
  | .aget h b => farale 0x0cb h b.bits
  | .atom h b => farale 0x0cc h b.bits
  | .cas h b => farale 0x0cd h b.bits
  | .red h b => farale 0x0ce h b.bits
  | .redv h b => farale 0x0cf h b.bits
  | .atoms h b => farale 0x0d0 h b.bits
  | .fence h s => farale 0x0d1 h (0#36 ++ s ++ 0#4)
  | .fenceb h s => farale 0x0d2 h (0#36 ++ s ++ 0#4)
  | .bars h b => farale 0x100 h b.bits
  | .bara h b => farale 0x101 h b.bits
  | .barw h b => farale 0x102 h b.bits
  | .tbara h b => farale 0x103 h b.bits
  | .tbarw h b => farale 0x104 h b.bits
  | .tbarx h b => farale 0x105 h b.bits
  | .acq h => farale 0x106 h 0#43
  | .qbind h b => farale 0x107 h b.bits
  | .qsend h b => farale 0x108 h b.bits
  | .qrecv h b => farale 0x109 h b.bits
  | .qtry h b => farale 0x10a h b.bits
  | .qstat h b => farale 0x10b h b.bits
  | .poll h b => farale 0x10c h b.bits
  | .hget h b => farale 0x10d h b.bits
  | .hfree h b => farale 0x10e h b.bits
  | .hwait h b => farale 0x10f h b.bits
  | .hset h b => farale 0x110 h b.bits
  | .wptr h b => farale 0x111 h b.bits
  | .wwait h b => farale 0x112 h b.bits
  | .cpy h g => farale 0x113 h (g ++ 0#40)
  | .cpyt h g d => farale 0x114 h (g ++ d ++ 0#35)
  | .wgsend h b => farale 0x115 h b.bits
  | .qsplit h b => farale 0x116 h b.bits
  | .qret h b => farale 0x117 h b.bits
  | .qborrow h b => farale 0x118 h b.bits
  | .waitq h b => farale 0x119 h b.bits
  | .tapef h b => farale 0x11a h b.bits
  | .depinc h b => farale 0x11b h b.bits
  | .time h b => farale 0x11c h b.bits
  | .waitt h b => farale 0x11d h b.bits
  | .launch h b => farale 0x11e h b.bits
  | .mma h b => farale 0x140 h b.bits
  | .mmac h b => farale 0x141 h b.bits
  | .msign h c o => farale 0x142 h (c ++ o.bits ++ 0#30)
  | .mzero h a => farale 0x143 h (0#3 ++ a ++ 0#36)
  | .accld h b => farale 0x144 h b.bits
  | .accst h b => farale 0x145 h b.bits
  | .accmv h b => farale 0x146 h b.bits
  | .mepi h b => farale 0x147 h b.bits
  | .mrpq h k a => farale 0x148 h (k ++ a ++ 0#33)
  | .bmv h g => farale 0x160 h (g ++ 0#40)
  | .bmva h g => farale 0x161 h (g ++ 0#40)
  | .bred h g => farale 0x162 h (g ++ 0#40)
  | .bstat h k => farale 0x163 h (k ++ 0#37)
  | .rdsr h b => farale 0x170 h b.bits
  | .wrsr h b => farale 0x171 h b.bits
  | .eret h b => farale 0x172 h b.bits
  | .savewg h b => farale 0x173 h b.bits
  | .restwg h b => farale 0x174 h b.bits
  | .tlbi h b => farale 0x175 h b.bits
  | .flushs h b => farale 0x176 h b.bits
  | .halt h b => farale 0x177 h b.bits
  | .fqbindWrite f rd src p => some (32, (iType (0x80#8 ++ p) src f.code rd 0x73).toNat)
  | .berylInstruction i none => some (32, i.word.toNat)
  | .berylInstruction _ (some c) => some (16, c.toNat)
  | .fqSend b => xfar 0 0 b
  | .fqSendTry b => xfar 1 0 b
  | .fqRecv b => xfar 0 1 b
  | .fqRecvTry b => xfar 1 1 b
  | .fhGet b => xfar 0 2 b
  | .fhWait b => xfar 0 3 b
  | .fcpIssue b => xfar 0 4 b
  | .fcpIssueT b => xfar 1 4 b
  | .fwpRead b => xfar 0 5 b
  | .fwpReadWait b => xfar 1 5 b
  | .ftime b => xfar 0 6 b
  | .ftimeWait b => xfar 1 6 b
  | .fpollEq b => xfar 0 7 b
  | .fpollNe b => xfar 1 7 b
  | .fpollLt b => xfar 2 7 b
  | .fpollLe b => xfar 3 7 b
  | .fpollGt b => xfar 4 7 b
  | .fpollGe b => xfar 5 7 b
  | .giveRowPark .. | .fenceConditionsMet .. | .barrierArrivalRegister .. | .barrierWaiterRelease .. | .acqGrant
  | .queueEntryLand .. | .pollRetry .. | .copyCommandTake | .copyBurst | .copyCompletionPost ..
  | .recordArriveBin .. | .binTimerExpire .. | .accountUpdate .. | .waitqWake .. | .waittWake .. | .sleepWake ..
  | .matrixOpStart | .matrixBlockComplete .. | .bankCommandTake | .bankRowBlock | .bankResultPost
  | .workgroupAtRest | .clauseBoundary .. | .clauseWaitPass .. | .groupWaitPromote .. | .warpStarvationPromote ..
  | .resultWriteback .. | .releaseBufferLeave .. | .storePerformed .. | .loadComplete .. | .atomicRequestApply ..
  | .redvElementApply .. | .supervisorWake | .ectlResume | .ectlAbandon | .sysregWrite .. | .atvalWrite ..
  | .tapeownBind .. | .tapeownUnbind .. | .lqtailWrite .. | .launchEntryTake .. | .timedStartReached ..
  | .workgroupAdmit .. | .teamAdmit .. | .nodeWorkgroupAdmit .. | .headGridReserve .. | .acqWaitReserve
  | .workgroupRetire | .gridComplete .. | .blockedTimeLimit | .gateTokenArrive .. | .gateTapeEntryWrite
  | .pageWalkComplete .. | .shootdownTimeout | .swqWrite .. | .switchPrestage | .switchSaveStart | .switchAdvance
  | .switchReleased | .gangStraggler | .switchFaultTimeout | .faultNoticeReceive .. | .handshakeReady ..
  | .handshakeCommit .. | .gangcfgWrite .. | .gfaultClear .. | .gangPacketArrive .. | .fabricMessageDeliver ..
  | .refusalReturn .. | .dropNoticeReceive .. | .peerAccessArrive .. | .lossNoticeReceive .. | .ptpSyncMessage ..
  | .ppsEdge | .syncLossTimeout | .holdoverTimeout | .hostInboundAccess .. | .powerInterval .. | .railDroop ..
  | .thermalTrip .. | .strikeReport .. | .timingNearMiss .. | .machineError | .patrolScrub .. | .screenCopyAdmit ..
  | .screenCopyEnd | .keygen .. | .keyclr .. | .triprd .. | .boostreq .. | .bringUp .. | .coreRestart
  | .fabricSendDepart | .trapRecordAged
    => none

end Sys2Proof
end

