-- ==== Sys2Proof/Machine/Boundary.lean ====
section
/-! DEFINITION. Clause boundaries (R157, R160, R163), the choice among a warp's groups (R29, R30), and promotions (R30,
R53). -/

namespace Sys2Proof.Machine

/-! ### Headers (R156, R157) -/

/-- CLASS, COUNT, WAIT and DIST of a header. -/
def hdrClass (h : DWord) : Nat := (h.extractLsb' 60 4).toNat
def hdrCount (h : DWord) : Nat := (h.extractLsb' 56 4).toNat
def hdrWait (h : DWord) (flag : Nat) : Bool := h.getLsbD (44 + flag)
def hdrDist (h : DWord) (i : Nat) : Nat := (h.extractLsb' (12 + 2 * i) 2).toNat

/-- The cause with which a word fails as a header, if it fails. -/
def headerFault (h : DWord) : Option Nat :=
  if h.extractLsb' 0 8 ≠ 0xa5 then some 0x001
  else if 6 ≤ hdrClass h ∨ h.extractLsb' 8 2 ≠ 0 then some 0x000
  else if (List.range 16).any fun i => decide (hdrCount h < i) && hdrDist h i != 0 then some 0x000
  else none

/-- Fetches every word of a clause (R384). -/
def State.fetchWords (s : State) (core ctx cls : Nat) (pc : DWord) : Nat → Except Detail State
  | 0 => .ok s
  | n + 1 =>
    match s.fetch core ctx cls pc with
    | .ok (_, s) => s.fetchWords core ctx cls (pc + 8) n
    | .error d => .error d

/-- Reads and checks the clause at an address (R157, R384): its header, or the cause and the word read. -/
def State.header (s : State) (core ctx cls : Nat) (pc : DWord) : Except (Detail × DWord) (DWord × State) :=
  if pc.extractLsb' 0 3 ≠ 0 then .error (⟨0x001, 0, 0, 7, pc, none, none, none⟩, 0)
  else
    match s.fetch core ctx cls pc with
    | .error d => .error (d, 0)
    | .ok (h, s) =>
      match headerFault h with
      | some code => .error (⟨code, 0, 0, 7, if code = 1 then pc else 0, none, none, none⟩, h)
      | none =>
        match s.fetchWords core ctx cls (pc + 8) (hdrCount h + 1) with
        | .ok s => .ok (h, s)
        | .error d => .error (d, h)

/-! ### Groups (R29) -/

/-- The lanes of the group whose clause is in progress (R158). -/
def Warp.inClause (w : Warp) : Mask :=
  w.running &&& w.lanesWhere fun t => t.st == .ready && t.clause.isSome

/-- The threads that share PC, clause and state with the thread of a lane and came to that PC in the same cycle (R29: threads that reach
one PC without a meeting are one group only then). -/
def Warp.groupOf (w : Warp) (l : Nat) : Mask :=
  let t := w.thread l
  w.lanesWhere fun u => u.pc == t.pc && u.clause == t.clause && u.st == t.st && u.arrived == t.arrived

/-- A result holds the instruction after its window, and the window has passed (R167). -/
def Warp.holding (w : Warp) : Bool := w.inflight.any fun f => f.holds && !f.failed && f.window == some 0

/-- Whether the warp may go on from a suspended instruction: no trap is pending, and nothing stops it for SAVEWG (R341, R350,
R371, R372). -/
def State.mayResume (s : State) (w : WRef) : Bool :=
  !(s.core (s.coreOf w)).offline &&
  match s.warp? w with
  | none => false
  | some x =>
    x.trap.isNone && x.again.isNone && !x.stopping &&
    match w with
    | .sup _ => x.awake
    | .user inst _ => match s.wg? inst with | some g => !g.frozen && !s.gfaulted.contains g.ctx | none => false

/-- Whether the warp may go on from a boundary: HALT stops it there (R349). -/
def State.mayIssue (s : State) (w : WRef) : Bool := s.mayResume w && !(s.core (s.coreOf w)).halted

/-- The zone of a warp is being restored for a replay and issues nothing (R422). -/
def State.zoneStalls (s : State) (w : WRef) : Bool := decide (s.cycleOf w < (s.core (s.coreOf w)).stallTo.get 0 w.quarter)

/-- Re-execution makes anew a record that a replay has withdrawn (R425). -/
def Warp.retrap (w : Warp) (cycle : Nat) : Warp :=
  { w with again := none, trap := (w.again.map fun (r : TrapRec) => { r with cycle := cycle }).orElse fun _ => w.trap }

/-! ### Boundaries -/

/-- The trap of a boundary, SRC 1. -/
def State.boundaryTrap (s : State) (w : WRef) (g : Mask) (pc word : DWord) (d : Detail) : State :=
  s.takeTrap w ⟨1, d, g, g, pc, pc, word, none, 0⟩ none

/-- A cause that waited for the warp to stop is delivered where it stops (R444, R446). -/
def State.deliverDeferred (s : State) (w : WRef) (g : Mask) (stop : DWord) (clause : Option (DWord × DWord)) : Option State := do
  let x ← s.warp? w
  match x.deferred with
  | [] => none
  | d :: ds =>
    let s := s.setWarp w { x with deferred := ds, inflight := x.inflight.filter fun i => i.id != d.op || !i.failed }
    let pc := if d.src = 5 then d.pc else stop
    some (s.takeTrap w ⟨d.src, d.cause, d.lanes, g, pc, stop, if d.src = 5 then d.word else 0, d.parked, 15⟩ clause)

/-- CLAUSE_BOUNDARY (R157, R31): the group of a lane that has reached a word as a boundary. The word is checked as a header;
then the threads whose `m` holds its address are held, and the others wait for the flags of WAIT. -/
def execClauseBoundary (w : WRef) (lane : Nat) (s : State) : Host.Outcome State Fault Refusal :=
  event s (do
    let x ← s.warp? w
    let t := x.thread lane
    if !s.mayIssue w || s.zoneStalls w || x.inClause != 0 || x.holding || t.st != .ready || t.clause.isSome then none
    else
      let g := x.groupOf lane
      match s.deliverDeferred w g t.pc none with
      | some s' => some s'
      | none =>
        match s.header (s.coreOf w) (s.ctxOf w) (warpClass w) t.pc with
        | .error (d, word) => some (s.boundaryTrap w g t.pc word d)
        | .ok (_, s) =>
          some (s.modWarp w fun x =>
            (x.modThreads g fun _ u => { u with st := if u.m == some t.pc then .held else .flagWait }).meet (s.cycleOf w)))

/-- Every flag that a header names reads zero (R163). -/
def Warp.flagsZero (w : Warp) (hdr : DWord) : Bool := (List.range 12).all fun f => !hdrWait hdr f || w.cf.get 0 f == 0

/-- The flag that a header names whose error queue is not empty. -/
def Warp.flagErrorAt (w : Warp) (hdr : DWord) : Option (Nat × ErrRec × List ErrRec) :=
  (List.range 12).findSome? fun f =>
    if hdrWait hdr f then (match w.errq.get [] f with | e :: es => some (f, e, es) | [] => none) else none

/-- The trap of a flag's error record, SRC 2 (R166, R345): the cause leaves the queue. -/
def State.flagTrap (s : State) (w : WRef) (g : Mask) (pc : DWord) (clause : Option (DWord × DWord)) (f : Nat) (e : ErrRec)
    (rest : List ErrRec) : State :=
  let s := s.modWarp w fun x =>
    { x with errq := x.errq.put [] f rest, inflight := x.inflight.filter fun i => i.id != e.op }
  s.takeTrap w ⟨2, e.cause, e.lanes, g, pc, pc, 0, e.parked, f⟩ clause

/-- The age by which R30 chooses among groups. -/
structure GroupKey where
  mask : Mask
  since : Nat
  /-- the cycle from which it has waited, and whether it has done so for 64 cycles -/
  from_ : Nat
  waited : Bool
  deriving DecidableEq, Repr

/-- R30: groups that have waited 64 cycles first, the one that has waited longest ahead, then the oldest; a tie goes to the lowest lane. -/
def GroupKey.before (a b : GroupKey) : Bool :=
  let age := fun (k : GroupKey) => if a.waited && b.waited then k.from_ else k.since
  if a.waited != b.waited then a.waited
  else if age a = age b then decide ((Lanes.low a.mask).getD 32 ≤ (Lanes.low b.mask).getD 32)
  else decide (age a < age b)

def GroupKey.best : List GroupKey → Option GroupKey
  | [] => none
  | k :: ks => match GroupKey.best ks with | none => some k | some j => some (if k.before j then k else j)

/-- The cycle from which a thread has waited: its PC has not changed and its group has been ready since. -/
def Thread.waitsFrom (t : Thread) : Nat := if t.since < t.readyAt then t.readyAt else t.since

/-- The group of a lane with its age: where its threads have slept since different cycles and woke in one, that of its lowest lane (R30,
R192; log 81). -/
def Warp.key (w : Warp) (cycle l : Nat) : GroupKey :=
  let t := w.thread l
  ⟨w.groupOf l, t.since, t.waitsFrom, t.promoted || decide (t.waitsFrom + 64 ≤ cycle)⟩

/-- An operation of the party waits for entries of the range-lock table, and its issue stalls (R148). -/
def State.stalled (s : State) (w : WRef) : Bool :=
  let k := s.core (s.coreOf w)
  k.engWait.any (fun x => x.party == w.party && x.arg == 1) ||
  k.mats.any fun m => m.party == w.party && !m.locked && s.lockFull (s.coreOf w) m.ranges.length

/-- The groups that may go on: suspended clauses that are ready, and groups at a header whose flags have fallen. -/
def State.readyGroups (s : State) (w : WRef) : List GroupKey :=
  match s.warp? w with
  | none => []
  | some x =>
    let cyc := s.cycleOf w
    if s.stalled w then [] else
    (List.range 32).filterMap fun l =>
      let t := x.thread l
      if Lanes.low (x.groupOf l) != some l then none
      else if t.st == .ready && t.clause.isSome then some (x.key cyc l)
      else if t.st == .flagWait then
        match s.header (s.coreOf w) (s.ctxOf w) (warpClass w) t.pc with
        | .ok (h, _) => if x.flagsZero h then some (x.key cyc l) else none
        | .error _ => some (x.key cyc l)
      else none

/-- The flags of a header have fallen: the group enters its clause, or traps on an error record. While it waits, at the boundary, a cause
that waits for the warp to stop is delivered (R444, R446). -/
def State.passWait (s : State) (w : WRef) (lane : Nat) : Option State := do
  let x ← s.warp? w
  let t := x.thread lane
  let g := x.groupOf lane
  match s.deliverDeferred w g t.pc none with
  | some s' => some s'
  | none =>
  match s.header (s.coreOf w) (s.ctxOf w) (warpClass w) t.pc with
  | .error (d, word) => some (s.boundaryTrap w g t.pc word d)
  | .ok (h, s) =>
    if !x.flagsZero h then none
    else
      match x.flagErrorAt h with
      | some (f, e, rest) => some (s.flagTrap w g t.pc none f e rest)
      | none =>
        let clk := (List.range 12).foldl (fun c f => if hdrWait h f then Clock.join c (x.flagClk.get [] f) else c) []
        let s := s.modWarp w fun x =>
          { x.modThreads g fun _ u => { u with st := .ready, clause := some (t.pc, h), pc := t.pc + 8, since := s.cycleOf w, arrived := s.cycleOf w, promoted := false }
            with running := g }
        some (s.joinClock w.party clk)

/-- The QRET of a warp whose account update has not taken place: no other group of the warp issues before it has (R290). -/
def State.qretOf (s : State) (w : WRef) : Option MemOp :=
  (s.core (s.coreOf w)).ops.find? fun o => (match o.eff with | .qret .. => true | _ => false) && o.party == w.party

/-- CLAUSE_WAIT_PASS (R163, R30): the flags of WAIT read zero, the warp is at a boundary, and R30 chooses the group. The flag
edges of R138 are formed. -/
def execClauseWaitPass (w : WRef) (lane : Nat) (s : State) : Host.Outcome State Fault Refusal :=
  event s (do
    let x ← s.warp? w
    if !s.mayIssue w || s.zoneStalls w || x.inClause != 0 || x.holding || (x.thread lane).st != .flagWait || (s.qretOf w).isSome then none
    else
      match GroupKey.best (s.readyGroups w) with
      | some k => if k.mask.has lane then s.passWait w lane else none
      | none => none)

/-! ### Promotions -/

/-- GROUP_WAIT_PROMOTE (R30): a group that has waited 64 cycles is chosen first at the next boundary. -/
def execGroupWaitPromote (w : WRef) (lane : Nat) (s : State) : Host.Outcome State Fault Refusal :=
  event s (do
    let x ← s.warp? w
    let t := x.thread lane
    let waits := (t.st == .ready && t.clause.isSome && !x.inClause.has lane) || t.st == .flagWait
    if waits && !t.promoted && decide (t.waitsFrom + 64 ≤ s.cycleOf w) then
      some (s.setWarp w (x.modThreads (x.groupOf lane) fun _ u => { u with promoted := true }))
    else none)

/-- Nothing that has arisen within the cycle keeps the warp from issuing. Whether it could issue in the cycles before is what
`readySince` says, which every cycle renews in which it could not (R53, R370). -/
def State.isReady (s : State) (w : WRef) : Bool :=
  match s.warp? w with
  | none => false
  | some x => x.trap.isNone && !x.holding

/-- WARP_STARVATION_PROMOTE (R53): a warp that has been ready for 64 cycles without issuing goes ahead of the others. -/
def execWarpStarvationPromote (w : WRef) (s : State) : Host.Outcome State Fault Refusal :=
  event s (do
    let x ← s.warp? w
    if s.isReady w && !x.starved && decide (x.readySince + 64 ≤ s.cycleOf w) then some (s.setWarp w { x with starved := true })
    else none)

end Sys2Proof.Machine
end

