-- ==== Sys2Proof/Machine/Control.lean ====
section
/-! DEFINITION. Control transfers, exits, sleep, meeting registers and user traps (R188 to R196). -/

namespace Sys2Proof.Machine

/-! ### Transfers (R188 to R190) -/

/-- The target of a label: H + 8 × sext32(TGT). -/
def Ctx.label (c : Ctx) (tgt : BitVec 32) : DWord := c.hdrAddr + (tgt.signExtend 64 <<< 3)

/-- The condition of BRC in a lane, with its mark. -/
def State.condition (s : State) (c : Ctx) (b : BodyJ) (l : Nat) : Bool × Bool :=
  let w := s.warp c.ref
  let n := b.cidx.toNat
  if b.kind = 2 then (w.kpGet n != b.cneg, w.kpMark.get false n) else (w.pred n l != b.cneg, w.predMark n l)

/-- Ends a transfer: threads that a poisoned guard, condition or target reaches are killed, those of `jump` go to their
targets, and the others fall through (R190, R353). -/
def State.transfer (s : State) (c : Ctx) (dead : Mask) (jump : List (Nat × DWord)) : State :=
  (s.kill c dead .branch).advance c c.group jump

/-- A transfer to a label for the lanes in which the condition holds. -/
def jumpLabel (s : State) (c : Ctx) (h : Head) (tgt : BitVec 32) (cond : Nat → Bool × Bool) : State :=
  let guard := c.guardMarks s h
  let act := c.active s h
  let dead := Lanes.mask fun l => guard.has l || (act.has l && (cond l).2)
  let go := (Lanes.list (act &&& ~~~dead)).filter fun l => (cond l).1
  s.transfer c dead (go.map fun l => (l, c.label tgt))

def execBra (h : Head) (b : BodyJ) (s : State) : Host.Outcome State Fault Refusal :=
  runNav s h fun c => .ok (jumpLabel s c h b.tgt fun _ => (true, false))

def execBrc (h : Head) (b : BodyJ) (s : State) : Host.Outcome State Fault Refusal :=
  runNav s h fun c => .ok (jumpLabel s c h b.tgt (s.condition c b))

/-- Writes the link in the lanes of `m` (R188). -/
def linkWrite (s : State) (c : Ctx) (n : Nat) (m : Mask) : M State := do
  let names := [(n, 0), (n + 1, 0)]
  checkNames (s.warp c.ref) names
  let s ← s.rowAccess c m true names
  .ok (s.writeV c n true m 0 fun _ => (c.fallThrough, false))

def execCall (h : Head) (b : BodyJ) (s : State) : Host.Outcome State Fault Refusal :=
  runNav s h fun c => do
    let s' ← linkWrite s c 254 (c.active s h &&& ~~~(c.guardMarks s h))
    .ok (jumpLabel s' c h b.tgt fun _ => (true, false))

/-- A transfer to the address in a pair; `link` is the pair that receives the fall-through header:
where both pairs are unmapped, its name is the one that is logged (log 82). -/
def jumpPair (s : State) (c : Ctx) (h : Head) (t : Opnd) (link : Option Nat) : M State := do
  let names := namesOf t 2 1
  let lnames := match link with | some n => [(n, 0), (n + 1, 0)] | none => []
  checkNames (s.warp c.ref) (lnames ++ names)
  let act := c.active s h
  let guard := c.guardMarks s h
  let s1 ← s.rowAccess c act false names
  let target := s1.opnd c t true
  let dead := Lanes.mask fun l => guard.has l || (act.has l && (target l).2)
  let go := act &&& ~~~dead
  let s2 ← (match link with | some n => linkWrite s1 c n go | none => .ok s1 : M State)
  .ok (s2.transfer c dead ((Lanes.list go).map fun l => (l, (target l).1)))

def execBrx (h : Head) (b : BodyA) (s : State) : Host.Outcome State Fault Refusal :=
  runNav s h fun c => jumpPair s c h b.sa none

def execCallx (h : Head) (b : BodyA) (s : State) : Host.Outcome State Fault Refusal :=
  runNav s h fun c => jumpPair s c h b.sa (some b.dst.idx)

def execRet (h : Head) (b : BodyA) (s : State) : Host.Outcome State Fault Refusal :=
  runNav s h fun c => jumpPair s c h b.sa none

/-! ### EXIT, NOP, YIELD, SLEEP (R191, R192) -/

def execExit (h : Head) (s : State) : Host.Outcome State Fault Refusal :=
  runNav s h fun c => .ok ((s.exitThreads c.ref (c.active s h) .normal).advance c c.group [])

def execNop (h : Head) (s : State) : Host.Outcome State Fault Refusal :=
  runOp s h fun _ => .ok s

def execYield (h : Head) (s : State) : Host.Outcome State Fault Refusal :=
  runOp s h fun c =>
    if c.executes s h then .ok (s.modWarp c.ref fun w => { w with yielding := w.yielding ||| c.group }) else .ok s

/-- Threads of the lanes of `m` go to sleep past the instruction, with their clause suspended (R158), the others continue. Behind
the last instruction the clause ends when the sleepers go on. -/
def State.sleepAfter (s : State) (c : Ctx) (m : Mask) (wake : Wake) : State :=
  let cyc := s.cycleOf c.ref
  let rest := c.group &&& ~~~m &&& (s.warp c.ref).live
  let s := s.modWarp c.ref fun w =>
    { w.modThreads m fun _ t => if t.exited then t else { t with pc := c.nextPc, st := .asleep wake, since := cyc, arrived := cyc }
      with running := w.running &&& ~~~m }
  if rest = 0 then s else s.advance c rest []

def execSleep (h : Head) (n : BitVec 20) (s : State) : Host.Outcome State Fault Refusal :=
  runNav s h fun c =>
    let m := c.active s h
    if n = 0 || m = 0 then .ok (s.advance c c.group [])
    else .ok (s.sleepAfter c m (.cycle ((s.core c.core).cycle + n.toNat)))

/-- The cycle in which a sleeper becomes ready: that of its SLEEP, else the present one (R192). -/
def Wake.at_ (k : Wake) (cycle : Nat) : Nat := match k with | .cycle n => n | _ => cycle

/-- Threads of a warp wake when `f` holds of what they wait for; those that become ready in one cycle and share a PC are one group. -/
def State.wakeWhere (s : State) (w : WRef) (f : Wake → Bool) : Option State := do
  let x ← s.warp? w
  let m := x.lanesWhere fun t => match t.st with | .asleep k => f k | _ => false
  if m = 0 then none else some (s.setWarp w (x.modThreads m fun _ t =>
    { t with st := .ready, arrived := match t.st with | .asleep k => k.at_ (s.cycleOf w) | _ => t.arrived }))

/-- SLEEP_WAKE: sleepers whose cycles have passed are ready (R192). -/
def execSleepWake (w : WRef) (s : State) : Host.Outcome State Fault Refusal :=
  event s (s.wakeWhere w fun k => match k with | .cycle n => decide (n ≤ s.cycleOf w) | _ => false)

/-! ### Meeting registers (R193 to R195) -/

def execSetmPush (h : Head) (tgt : BitVec 32) (s : State) : Host.Outcome State Fault Refusal :=
  runOp s h fun c => do
    let m := c.active s h
    let w := s.warp c.ref
    -- the set of lanes at depth 4 is logged as VALUE (R195; log 22)
    let full := Lanes.mask fun l => m.has l && (w.thread l).stack.length == 4
    match Lanes.low full with
    | some l => trapWith ⟨0x004, full, 0, 7, 0, some l, none, none⟩
    | none =>
      .ok (s.setWarp c.ref (w.modThreads m fun _ t => { t with stack := t.m :: t.stack, m := some (c.label tgt) }))

def execPopm (h : Head) (s : State) : Host.Outcome State Fault Refusal :=
  runOp s h fun c => .ok (s.modWarp c.ref fun w => w.modThreads (c.active s h) fun _ t => t.pop)

/-- The word that GETM writes for an address and a depth (R194). -/
def meetWord (m : Option DWord) (depth : Nat) : DWord :=
  let d := BitVec.ofNat 64 (depth * 2 ^ 56)
  match m with
  | some a => d ||| (a &&& 0x003ffffffffffff8) ||| 1
  | none => d

/-- Entry i of a stack as GETM sees it: 1 is the top. -/
def Thread.entry (t : Thread) (i : Nat) : Option DWord := (t.stack.getD (i - 1) none)

/-- The five words of a thread's meeting state. -/
def Thread.meetWords (t : Thread) (i : Nat) : DWord :=
  if i = 0 then meetWord t.m t.stack.length else meetWord (t.entry i) 0

def execGetm (h : Head) (vd : Opnd) (clr : Bool) (s : State) : Host.Outcome State Fault Refusal :=
  runOp s h fun c => do
    let names := namesOf vd 10 0
    checkNames (s.warp c.ref) names
    let m := c.active s h
    let guard := c.guardMarks s h
    let s1 ← s.rowAccess c m true names
    let w := s.warp c.ref
    let s2 := (List.range 5).foldl
      (fun s i => s.writeV c (vd.idx + 2 * i) true m guard fun l => ((w.thread l).meetWords i, false)) s1
    .ok (if clr then s2.modWarp c.ref fun w => w.modThreads m fun _ t => { t with stack := [] } else s2)

/-- The depth of a saved state. -/
def meetDepth (x : DWord) : Nat := (x.extractLsb' 56 3).toNat

/-- Word i of a saved state is valid (R194). -/
def meetValid (depth i : Nat) (x : DWord) : Bool :=
  x &&& 0xf8c0000000000006 == 0 && (if i = 0 then decide (meetDepth x ≤ 4) else meetDepth x == 0) &&
  (i == 0 || decide (i ≤ depth) || x == 0) && (x.getLsbD 0 || x.extractLsb' 3 51 == 0)

/-- The address that a word holds. -/
def meetAddr (x : DWord) : Option DWord := if x.getLsbD 0 then some (x &&& 0x003ffffffffffff8) else none

/-- The restore form of SETM (R193). A race on a row that it reads is raised before an invalid state (log 82). -/
def execSetmRestore (h : Head) (vs : Opnd) (s : State) : Host.Outcome State Fault Refusal :=
  runOp s h fun c => do
    let names := namesOf vs 10 1
    checkNames (s.warp c.ref) names
    let m := c.active s h
    let s1 ← s.rowAccess c m false names
    let word := fun (l i : Nat) => (s1.opnd c (.v (BitVec.ofNat 8 (vs.idx + 2 * i))) true l).1
    let bad := (Lanes.list m).findSome? fun l =>
      ((List.range 5).find? fun i => !meetValid (meetDepth (word l 0)) i (word l i)).map fun i => (l, i)
    match bad with
    | some (l, i) => trapWith ⟨0x005, 0, i, 1, 0, some l, none, none⟩
    | none =>
      .ok (s1.modWarp c.ref fun w => w.modThreads m fun l t =>
        { t with m := meetAddr (word l 0),
                 stack := (List.range (meetDepth (word l 0))).map fun i => meetAddr (word l (i + 1)) })

/-! ### User traps (R196) -/

/-- TRAP and BKPT: the group traps with its resume point behind the instruction. -/
def userTrap (s : State) (c : Ctx) (h : Head) (code : Nat) (n : BitVec 20) : State :=
  let m := c.active s h
  if m = 0 then s.advance c c.group []
  else
    let x := s.warp c.ref
    let clause := match Lanes.low c.group with | some l => (x.thread l).clause | none => none
    s.takeTrap c.ref ⟨0, ⟨code, n.setWidth 32, 0, 7, 0, none, none, none⟩, m, c.group, c.pc, c.nextPc, c.word, none, 0⟩ clause

def execTrap (h : Head) (n : BitVec 20) (s : State) : Host.Outcome State Fault Refusal :=
  runNav s h fun c => .ok (userTrap s c h 0x006 n)

def execBkpt (h : Head) (n : BitVec 20) (s : State) : Host.Outcome State Fault Refusal :=
  runNav s h fun c => .ok (userTrap s c h 0x007 n)

end Sys2Proof.Machine
end

