-- ==== Sys2Proof/Machine/Sync.lean ====
section
/-! DEFINITION. Barriers (R267 to R271), ACQ (R42, R272), POLL (R279), TIME and WAITT (R295). -/

namespace Sys2Proof.Machine

/-! ### Arriving and waiting (R269) -/

/-- A cause about a barrier or a queue port. -/
def indexed (code idx : Nat) : Detail := ⟨code, 0, idx, 7, 0, none, none, none⟩

/-- The largest count of a barrier: 32, or the warps of the team. -/
def State.barLimit (s : State) (r : BarRef) : Nat :=
  match r with
  | .nb .. => 32
  | .tb t _ =>
    match s.team? t with
    | none => 0
    | some x => x.warps

/-- A blocked arrival that precedes the group's own could join a phase now (R268). -/
def State.barTurn (s : State) (r : BarRef) (c : Ctx) : Bool :=
  let b := s.bar r
  let before := b.arrivers.takeWhile fun x => !(x.party == c.party && x.group == c.group)
  before.all fun x =>
    match x.party.warp? with
    | some (i, w) => (b.joinable (s.barMember r i w)).isNone
    | none => true

/-- A team barrier of a team that has lost a member traps (R414); a group that waits at it is released into the trap, unless its
phase has completed. -/
def teamWhole (s : State) (c : Ctx) (team : Bool) (n : Nat) : M Unit := do
  let (inst, w, g) ← ownWg s c
  match (if team then (s.team? g.team).bind fun t => t.lost.head? else none) with
  | none => .ok ()
  | some (_, rank) =>
    let r := s.barRef inst team n
    let m := s.barMember r inst w
    let mine := fun (x : BarWait) => x.rank == m.1 && x.warp == m.2 && x.group == c.group
    if (s.bar r).wake.any fun x => mine x.1 then .ok ()
    else
      .error (.drop (s.modBar r fun b =>
        { b with waiters := b.waiters.filter (fun x => !mine x), arrivers := waitDrop c.party c.group b.arrivers }) (lostRank rank 0 none))

/-- Arrives: the phase that the arrival joins, counted from the first (R268, R269). -/
def arriveBar (s : State) (c : Ctx) (team : Bool) (n count : Nat) : M (Nat × State) := do
  let (inst, w, _) ← ownWg s c
  teamWhole s c team n
  let r := s.barRef inst team n
  let m := s.barMember r inst w
  need (decide (0 < count) && decide (count ≤ s.barLimit r)) (indexed 0x108 n)
  let gone := s.modBar r fun b => { b with arrivers := waitDrop c.party c.group b.arrivers }
  let waits := Except.error (Stop.early (s.modBar r fun b =>
    { b with arrivers := waitAdd c.party c.group (s.core c.core).cycle 0 b.arrivers }))
  match (s.bar r).joinable m with
  | none => waits
  | some nx =>
    if !s.barTurn r c then waits
    else
      let ph := if nx then (s.bar r).next else (s.bar r).cur
      let number := (s.bar r).phase + (if nx then 1 else 0)
      if ph.expect != 0 && ph.expect != count then .error (.drop gone (indexed 0x107 n))
      else
        let s1 := gone.modBar r fun b => if nx then { b with next := b.next.join m count } else { b with cur := b.cur.join m count }
        .ok (number, (s1.addOp c 0 (.arrive team n number) [] true).2)

/-- The group waits for a phase, or is about to be released. -/
def Barrier.awaits (b : Barrier) (m : Member) (g : Mask) : Bool :=
  let mine := fun (x : BarWait) => x.rank == m.1 && x.warp == m.2 && x.group == g
  b.waiters.any mine || b.wake.any fun x => mine x.1

/-- Waits for a phase: a phase that has completed is acquired at once (R269). -/
def waitBar (s : State) (c : Ctx) (r : BarRef) (m : Member) (phase : Nat) : M State :=
  let b := s.bar r
  if phase < b.phase then .ok (s.acquire c.party (b.past.get [] phase) none)
  else .error (.block (s.modBar r fun b => { b with waiters := b.waiters ++ [⟨m.1, m.2, c.group, phase⟩] }))

/-- The phase that the low 16 bits name: the latest of that number that has completed within the last 2^15, else the next. Before the
first phases a number may name a phase that has never been: it counts as completed (R269). -/
def Barrier.named (b : Barrier) (p : Nat) : Option Nat :=
  let d := (b.phase + 65536 - p % 65536) % 65536
  if 1 ≤ d ∧ d ≤ 32768 then (if d ≤ b.phase then some (b.phase - d) else none)
  else if d = 0 then some b.phase else some (b.phase + (65536 - d))

/-- The number of an nb or tb operand. -/
def barNo (team : Bool) (o : Opnd) : Nat := o.idx - (if team then 0x40 else 0x30)

/-- An arrival count: an immediate lies in 1 to 127. -/
def countOf (s : State) (c : Ctx) (o : Opnd) : Nat :=
  match o with
  | .imm x => if x.toInt < 1 then 0 else x.toNat
  | o => (s.uni c o).toNat

/-- BARS: arrives, then waits for the phase that it joined. -/
def execBars (h : Head) (b : BodyA) (s : State) : Host.Outcome State Fault Refusal :=
  runOp s h fun c => uniformOp s c h (s.uniMark c b.sb false) .command fun c => do
    let (inst, w, _) ← ownWg s c
    let n := barNo false b.sa
    let r := s.barRef inst false n
    let m := s.barMember r inst w
    if (s.bar r).awaits m c.group then .error (.block s)
    else
      let (ph, s) ← arriveBar s c false n (countOf s c b.sb)
      waitBar s c r m ph

/-- BARA and TBARA: arrive, and write the number of the phase joined. -/
def arriveInstr (s : State) (c : Ctx) (b : BodyA) (team : Bool) : M State := do
  let (ph, s) ← arriveBar s c team (barNo team b.sa) (countOf s c b.sb)
  .ok (s.writeU c b.dst.idx false (BitVec.ofNat 64 (ph % 65536)) false)

def execBara (h : Head) (b : BodyA) (s : State) : Host.Outcome State Fault Refusal :=
  runOp s h fun c => uniformOp s c h (s.uniMark c b.sb false) .command fun c => arriveInstr s c b false

def execTbara (h : Head) (b : BodyA) (s : State) : Host.Outcome State Fault Refusal :=
  runOp s h fun c => uniformOp s c h (s.uniMark c b.sb false) .command fun c => arriveInstr s c b true

/-- BARW and TBARW: wait until a phase has completed. -/
def waitInstr (s : State) (c : Ctx) (b : BodyA) (team : Bool) : M State := do
  let (inst, w, _) ← ownWg s c
  teamWhole s c team (barNo team b.sa)
  let r := s.barRef inst team (barNo team b.sa)
  let m := s.barMember r inst w
  if (s.bar r).awaits m c.group then .error (.block s)
  else
    match (s.bar r).named (s.uni c b.sb).toNat with
    | some ph => waitBar s c r m ph
    | none => .ok s

def execBarw (h : Head) (b : BodyA) (s : State) : Host.Outcome State Fault Refusal :=
  runOp s h fun c => uniformOp s c h (s.uniMark c b.sb false) .command fun c => waitInstr s c b false

def execTbarw (h : Head) (b : BodyA) (s : State) : Host.Outcome State Fault Refusal :=
  runOp s h fun c => uniformOp s c h (s.uniMark c b.sb false) .command fun c => waitInstr s c b true

/-- TBARX (R270): bytes expected in the phase in progress. -/
def execTbarx (h : Head) (b : BodyA) (s : State) : Host.Outcome State Fault Refusal :=
  runOp s h fun c => uniformOp s c h (s.uniMark c b.sb false) .command fun c => do
    let (inst, _, _) ← ownWg s c
    let n := barNo true b.sa
    teamWhole s c true n
    let x := match b.sb with | .imm i => i.toInt | o => (s.uni c o).toInt
    need (decide (0 ≤ x) && (x != 0 || !b.sb.isImm)) (indexed 0x108 n)
    .ok (s.modBar (s.barRef inst true n) fun b => b.addTx x)

/-! ### Release of waiters (R268, R271) -/

/-- The instruction at which a group stands, as it runs. -/
def State.standing (s : State) (w : WRef) (g : Mask) : Option Ctx := do
  let x ← s.warp? w
  let l ← Lanes.low g
  let t := x.thread l
  let (ha, hdr) ← t.clause
  some ⟨w, g, ha, hdr, 0, t.pc, s.coreOf w, s.ctxOf w⟩

/-- Completes the instruction at which a group waits. -/
def State.completeWait (s : State) (c : Ctx) : State := (s.modWarp c.ref fun w => w.unblock c.group).advance c c.group []

/-- A waiter of a barrier that may be released now. -/
def State.dueWaiter (s : State) (r : BarRef) (m : Member) (cycle : Nat) : Option BarWait :=
  ((s.bar r).wake.find? fun x => x.1.rank == m.1 && x.1.warp == m.2 && decide (x.2 ≤ cycle)).map (·.1)

/-- Releases a waiter: it acquires what the phase's arrivals released. -/
def State.releaseWaiter (s : State) (r : BarRef) (inst : Nat) (x : BarWait) : Option State := do
  let s1 := s.modBar r fun b => { b with wake := b.wake.filter fun y => y.1 != x }
  let c ← s1.standing (wref inst x.warp) x.group
  some ((s1.acquire c.party ((s.bar r).past.get [] x.phase) none).completeWait c)

/-- BARRIER_WAITER_RELEASE: the waiters of a warp whose phase has completed go on. -/
def execBarrierWaiterRelease (inst w : Nat) (s : State) : Host.Outcome State Fault Refusal :=
  event s (do
    let g ← s.wg? inst
    let cyc := (s.core g.core).cycle
    let refs := (List.range 16).map (BarRef.nb inst) ++ (List.range 8).map (BarRef.tb g.team)
    let due := refs.findSome? fun r => (s.dueWaiter r (s.barMember r inst w) cyc).map fun x => (r, x)
    let (r, x) ← due
    if s.mayIssue (wref inst w) then s.releaseWaiter r inst x else none)

/-! ### ACQ (R42, R43, R272) -/

/-- The full allotment replaces the prologue (R40). -/
def Wg.grant (g : Wg) (a : Alloc) : Wg :=
  { g with pool := a.rows, near := a.near, far := a.far, tiles := a.tiles, hents := a.hents, acq := .granted, acqReserved := false,
           reserve := none }

/-- A request enters its core's queue, in the order of admission of the workgroups (R42). -/
def State.queueAcq (s : State) (inst : Nat) (aseq : Nat) : List Nat → List Nat
  | [] => [inst]
  | i :: is =>
    match s.wg? i with
    | some g => if aseq < g.aseq then inst :: i :: is else i :: s.queueAcq inst aseq is
    | none => i :: s.queueAcq inst aseq is

def acqInstr (s : State) (c : Ctx) : M State := do
  let (inst, _, g) ← ownWg s c
  if c.retries s then (if g.acq = .granted then .ok s else .error (.block s))
  else
    match g.acq, g.reserve with
    | .none, some a => .ok (s.setWg inst (g.grant { a with tiles := (s.unboundTiles g.core).take a.tiles.length }))
    | .none, none =>
      let s := s.setWg inst { g with acq := .waiting, acqSince := s.clockNs }
      .error (.block (s.modCore g.core fun k => { k with acqQ := s.queueAcq inst g.aseq k.acqQ }))
    | _, _ => trapCode 0x110

def execAcq (h : Head) (s : State) : Host.Outcome State Fault Refusal :=
  runOp s h fun c => uniformOp s c h false .command fun c => acqInstr s c

/-! ### POLL (R279) -/

/-- The comparison of a POLL. -/
def pollTest (cmp : Nat) (w v : Word) : Bool :=
  match cmp with
  | 0 => w == v
  | 1 => w != v
  | 2 => w.ult v
  | 3 => w.ule v
  | 4 => v.ult w
  | _ => v.ule w

/-- Performs the lane of a listed uniform load: its word and mark, or none while an earlier access or a fence of the party holds it (R264). -/
def performNow (s : State) (core : Nat) (o : MemOp) : M (Option (Word × Bool × State)) :=
  match o.lanes with
  | [] => .ok none
  | l :: _ =>
    if !s.mayPerform core o l then .ok none
    else
      match s.laneFault core o l with
      | some d => trapWith d
      | none =>
        let s := s.addHist ⟨o.party, o.party, o.epoch, false, s.nextId⟩ false (l.pieces.flatMap Piece.locs)
        let (o, s) := s.loadLane core o l
        match o.got with
        | (_, bs, m) :: _ => .ok (some (BitVec.ofNat 32 (leNat bs), m.any (fun b => b), s))
        | [] => .ok none

/-- The lane of a uniform load, checked. -/
def uniformLanes (s : State) (c : Ctx) (x : Acces) (windows : Option Nat → Bool) : M (List LaneAcc × State) := do
  let (rs, s) ← checkAccess s c x windows true [0]
  .ok (rs.map fun (l, a, ps) => ⟨l, a, ps, [], false⟩, s)

/-- A uniform load that is performed at once: its word and mark, or none while something earlier of the party holds it. -/
def loadNow (s : State) (c : Ctx) (x : Acces) (scope : Nat) (windows : Option Nat → Bool) : M (Option (Word × Bool × State)) := do
  let (lanes, s) ← uniformLanes s c x windows
  let (id, s) := s.addOp c 0 (.load (.u 0) 4 false scope) lanes true
  match s.op? c.core id with
  | some o =>
    match ← performNow s c.core o with
    | some (word, m, s) => .ok (some (word, m, s.dropOp c.core id))
    | none => .ok none
  | none => .ok none

/-- The word of a POLL lies in any window but 4. -/
def pollAccess (b : BodyA) : Acces := ⟨.load, b.sa.idx, 0, 0, 4⟩
def pollWindow (w : Option Nat) : Bool := w != some 4

/-- A load and test: on success the word is written and the warp has its launch priority again; else its priority falls (R279). -/
def State.pollEnd (s : State) (c : Ctx) (b : BodyA) (word : Word) (m : Bool) : Bool × State :=
  if pollTest b.sc.immNat word (s.uni c b.sb) then
    (true, (s.writeU c b.dst.idx false (word.setWidth 64) m).modWarp c.ref fun w => { w with prio := w.launchPrio })
  else (false, s.modWarp c.ref fun w => { w with prio := w.prio - 1 })

/-- The back-off after one of `interval` cycles. -/
def nextInterval (interval : Nat) : Nat := if 2 * interval < 16384 then 2 * interval else 16384

/-- The threads of a group sleep where they stand. -/
def State.sleepNow (s : State) (c : Ctx) (wake : Wake) : State :=
  s.modWarp c.ref fun w =>
    { w.modThreads c.group fun _ t => if t.exited then t else { t with st := .asleep wake } with running := w.running &&& ~~~c.group }

/-- One load and test: done, or asleep for `interval` cycles. -/
def pollOnce (s : State) (c : Ctx) (b : BodyA) (interval : Nat) : M (Bool × State) := do
  match ← loadNow s c (pollAccess b) b.mod.toNat pollWindow with
  | none => .error (.early s)
  | some (word, m, s) =>
    let (done, s) := s.pollEnd c b word m
    .ok (done, if done then s else s.sleepNow c (.poll ((s.core c.core).cycle + interval) (nextInterval interval)))

/-- What kills the threads that POLL runs for: a poisoned address or value (R245, R353). -/
def pollMark (s : State) (c : Ctx) (b : BodyA) : Bool × Use :=
  let mark := ((s.warp c.ref).aGet b.sa.idx).mark
  (mark || s.uniMark c b.sb false, if mark then .address else .command)

/-- POLL for the parts of a group; a poisoned guard kills too. -/
def pollInstr (s : State) (c : Ctx) (h : Head) (b : BodyA) (interval : Nat) : M State := do
  let k := pollMark s c b
  let r ← uniformOp s c h k.1 k.2 fun c => do
    let (_, s) ← pollOnce s c b interval
    .ok s
  -- sleepers stay at the instruction; the others go on
  let sleeping := c.group &&& (r.warp c.ref).lanesWhere Thread.asleep
  let rest := c.group &&& ~~~sleeping
  .ok ((r.modWarp c.ref fun w => w.unblock c.group).advance c rest [])

/-- POLL. Behind a pending fence it is held, and its group goes on (R264). -/
def execPoll (h : Head) (b : BodyA) (s : State) : Host.Outcome State Fault Refusal :=
  runNav s h fun c =>
    if c.executes s h && s.fencePending c.core c.party s.nextId then do
      let s ← heldBehind s c h (.poll h b) [.k b.dst.idx] (pollInstr s c h b 16)
      .ok ((s.modWarp c.ref fun w => w.unblock c.group).advance c c.group [])
    else pollInstr s c h b 16

/-- What stays of a held instruction whose test has failed: its op, due again after `interval` cycles. -/
def Eff.retry (e : Eff) (due interval : Nat) : Eff :=
  match e with
  | .held i k kMark kp kpMark a p pMark _ => .held i k kMark kp kpMark a p pMark (some (due, interval))
  | e => e

/-- A held POLL is performed, with the registers of its issue in the warp: its load stands where it issued. While its test fails it stays
held for the back-off, and the ready threads of its group sleep (R264, R279). -/
def heldPoll (s : State) (c : Ctx) (h : Head) (b : BodyA) (o : MemOp) (interval : Nat) : M State := do
  let k := pollMark s c b
  uniformOp s c h k.1 k.2 fun c => do
    let (lanes, s1) ← uniformLanes s c (pollAccess b) pollWindow
    let load := { o with eff := .load (.u 0) 4 false b.mod.toNat, lanes := lanes }
    match ← performNow (s1.setOp c.core load) c.core load with
    | none => .error (.block s)
    | some (word, m, s2) =>
      let (done, s3) := s2.pollEnd c b word m
      if done then .ok (s3.dropOp c.core o.id)
      else
        let due := (s.core c.core).cycle + interval
        .ok ((s3.setOp c.core { o with eff := o.eff.retry due (nextInterval interval) }).modWarp c.ref fun w =>
          { w.modThreads o.group fun _ t => if t.st == .ready then { t with st := .asleep (.cycle due) } else t
            with running := w.running &&& ~~~o.group })

/-- POLL_RETRY: the back-off of a sleeper of the warp has passed, and the load and test repeat. -/
def execPollRetry (w : WRef) (s : State) : Host.Outcome State Fault Refusal :=
  event s (do
    let x ← s.warp? w
    let cyc := s.cycleOf w
    let lane ← (List.range 32).find? fun l =>
      match (x.thread l).st with | .asleep (.poll n _) => decide (n ≤ cyc) | _ => false
    let g := x.groupOf lane
    let c ← s.standing w g
    let interval ← match (x.thread lane).st with | .asleep (.poll _ k) => some k | _ => none
    if !s.mayIssue w || s.zoneStalls w then none
    else
      match s.fetch c.core c.ctx (warpClass w) c.pc with
      | .error d => some (s.takeTrap w ⟨1, d, g, g, c.pc, c.pc, 0, none, 0⟩ (some (c.hdrAddr, c.hdr)))
      | .ok (word, s) =>
        match decodeFarale word with
        | some (.poll h b) =>
          let c := { c with word := word }
          let awake := s.modWarp w fun x => x.modThreads g fun _ t => { t with st := .ready }
          match pollInstr awake c h b interval with
          | .ok s' => some s'
          | .error (.trap d) => some (awake.trapAt c h d)
          | .error (.drop s' d) => some (s'.trapAt c h d)
          | .error (.block _) | .error (.early _) => none
        | _ => none)

/-! ### Time (R295) -/

def execTime (h : Head) (b : BodyA) (s : State) : Host.Outcome State Fault Refusal :=
  runOp s h fun c => uniformOp s c h false .command fun c =>
    .ok (if b.mod.getLsbD 0 then s.writeU c b.dst.idx false (BitVec.ofNat 64 s.clockState) false
      else s.writeU c b.dst.idx true s.now false)

/-- WAITT: asleep until the gang clock reaches a time. -/
def execWaitt (h : Head) (b : BodyA) (s : State) : Host.Outcome State Fault Refusal :=
  runOp s h fun c => uniformOp s c h (s.uniMark c b.sa true) .command fun c =>
    let t := (s.uni64 c b.sa).toNat
    .ok (if t ≤ s.now.toNat then s else s.sleepNow c (.time t))

/-- WAITT_WAKE: the clock has reached the time of a sleeper. -/
def execWaittWake (w : WRef) (s : State) : Host.Outcome State Fault Refusal :=
  event s (s.wakeWhere w fun k => match k with | .time t => decide (t ≤ s.now.toNat) | _ => false)

end Sys2Proof.Machine
end

