-- ==== Sys2Proof/Machine/Queue.lean ====
section
/-! DEFINITION. Queue ports and their endpoints (R273 to R277, R293, R294, R443). The functions serve warps and Beryl cores
alike. -/

namespace Sys2Proof.Machine

/-! ### Binding (R273) -/

/-- k registers of an entry, by endpoint kind. -/
def entryRegs (kind : Nat) : Nat :=
  match kind with
  | 0 => 1
  | 2 | 4 => 2
  | _ => 8

/-- The direction that a kind has; none for a named queue, which has both. -/
def kindRecv (kind : Nat) : Option Bool :=
  match kind with
  | 0 => none
  | 1 | 3 | 6 => some false
  | _ => some true

/-- The tape of a core belongs to a workgroup. -/
def State.ownsTape (s : State) (core inst : Nat) : Bool := (s.core core).tape.owner == some inst

/-- Binds a port: the binding and the limit that it sets. -/
def State.bindPort (s : State) (a : Agent) (port kind : Nat) (recv : Bool) (arg : Word) : Except Detail (Port × State) :=
  let allow := (arg.extractLsb' 4 7).toNat
  let ok := match kindRecv kind with
    | none => arg.extractLsb' 11 21 == 0 && decide (allow ≤ 64)
    | some d => decide (kind ≤ 7) && d == recv && arg == 0
  if !ok then .error (indexed 0x101 port)
  else if kind = 5 ∧ !s.ownsTape a.core a.inst then .error (indexed 0x10d port)
  else
    let qidx := (arg.extractLsb' 0 4).toNat
    let s := if kind = 0 && !recv && allow != 0 then
        s.modWg a.inst fun g => { g with queues := g.queues.upd Queue.zero qidx fun q => { q with limit := q.limit.put 64 a.stage allow } }
      else s
    .ok (⟨kind, recv, if kind = 0 then qidx else 0⟩, s)

/-! ### Named queues (R274) -/

def Wg.queue_ (g : Wg) (n : Nat) : Queue := g.queues.get Queue.zero n

def State.modQueue (s : State) (inst n : Nat) (f : Queue → Queue) : State :=
  s.modWg inst fun g => { g with queues := g.queues.upd Queue.zero n f }

/-- ALLOW of a stage: the limit minus the outstanding entries. -/
def Queue.allow (q : Queue) (stage : Nat) : Nat := q.limit.get 64 stage - q.out.get 0 stage

/-- A send of a stage can reserve. -/
def Queue.room (q : Queue) (stage : Nat) : Bool := decide (0 < q.allow stage) && decide (q.entries.length + q.reserved < 64)

def Queue.reserve (q : Queue) (stage : Nat) : Queue :=
  { q with reserved := q.reserved + 1, out := q.out.put 0 stage (q.out.get 0 stage + 1) }

/-- An entry lands at the tail. -/
def Queue.land (q : Queue) (e : QEntry) : Queue := { q with entries := q.entries ++ [e], reserved := q.reserved - 1 }

/-- The head is removed. -/
def Queue.pop (q : Queue) : Option (QEntry × Queue) :=
  match q.entries with
  | [] => none
  | e :: es => some (e, { q with entries := es, out := q.out.put 0 e.stage (q.out.get 0 e.stage - 1) })

/-! ### Command buffers (R443) -/

def CmdBuf.free (b : CmdBuf) : Nat := 16 - (b.reserved + b.filled.length)

/-- The buffer of a kind 1, 3 or 6. -/
def Wg.buf (g : Wg) (kind : Nat) : CmdBuf := if kind = 1 then g.copyBuf else if kind = 3 then g.bankBuf else g.fabBuf

def State.modBuf (s : State) (inst kind : Nat) (f : CmdBuf → CmdBuf) : State :=
  s.modWg inst fun g =>
    if kind = 1 then { g with copyBuf := f g.copyBuf } else if kind = 3 then { g with bankBuf := f g.bankBuf }
    else { g with fabBuf := f g.fabBuf }

/-! ### Sending -/

/-- The stage of a waiting sender, kept in its wait. -/
def sendersOf (g : Wg) (p : Port) : List Wait := if p.kind = 0 then (g.queue_ p.qidx).senders else (g.buf p.kind).senders

def State.modSenders (s : State) (inst : Nat) (p : Port) (f : List Wait → List Wait) : State :=
  if p.kind = 0 then s.modQueue inst p.qidx fun q => { q with senders := f q.senders }
  else s.modBuf inst p.kind fun b => { b with senders := f b.senders }

/-- A sender of a stage can reserve at the port's endpoint. -/
def Wg.sendRoom (g : Wg) (p : Port) (stage : Nat) : Bool :=
  if p.kind = 0 then (g.queue_ p.qidx).room stage else decide (0 < (g.buf p.kind).free)

/-- The agent can reserve, and no sender that blocked before it can (R274). -/
def Wg.maySend (g : Wg) (a : Agent) (p : Port) : Bool :=
  g.sendRoom p a.stage &&
  ((sendersOf g p).takeWhile fun x => !(x.party == a.party && x.group == a.group)).all fun x => !g.sendRoom p x.arg

/-- Takes the reservation. -/
def State.reserveEntry (s : State) (a : Agent) (p : Port) : State :=
  let s := s.modSenders a.inst p (waitDrop a.party a.group)
  if p.kind = 0 then s.modQueue a.inst p.qidx fun q => q.reserve a.stage
  else s.modBuf a.inst p.kind fun b => { b with reserved := b.reserved + 1 }

/-- The group waits to reserve. -/
def State.waitSend (s : State) (a : Agent) (p : Port) : State :=
  s.modSenders a.inst p (waitAdd a.party a.group (s.core a.core).cycle a.stage)

/-- A message leaves at the port, with the header that it took as it left the release buffer (R405). -/
def State.sendMessage (s : State) (member : Nat) (m : Message) (sendId : Nat) : State :=
  { s with outbox := s.outbox ++ [⟨assoc? s.sendHeads sendId, .message member m sendId⟩]
           sendHeads := s.sendHeads.filter fun e => e.1 != sendId }

/-- The message of an entry (R277). -/
def messageOf (ws : List Word) : Message :=
  let x : BitVec 256 := BitVec.ofNat 256 (leNat (ws.flatMap fun w => leBytes 4 w.toNat))
  ⟨x.extractLsb' 128 128, x.extractLsb' 114 14, x.extractLsb' 96 18, x.extractLsb' 64 32, x.extractLsb' 0 64⟩

/-- The member that a message addresses. -/
def messageMember (m : Message) : Nat := (m.target.extractLsb' 0 8).toNat

/-- A message fills its entry of the fabric send buffer; one to this member is then under way to its inbox (R443), one to another
takes the header of its packet (R405). The sends of a screen copy are complete with no effect (R429). -/
def State.landFabric (s : State) (inst : Nat) (o : MemOp) (e : QEntry) : State :=
  let free := s.modBuf inst 6 fun b => { b with reserved := b.reserved - 1 }
  if s.isCopy o.party then (free.land o.party o.id).flagDone o.party o.flag []
  else
    let m := messageOf e.data
    let s := free.modBuf inst 6 fun b => { b with filled := b.filled ++ [(e, o.id)] }
    if messageMember m = s.member then
      { s with flights := s.flights ++ [⟨m, s.member, some (o.party, o.flag), o.id, s.member, false, o.clk⟩] }
    else { s with sendHeads := s.sendHeads ++ [(o.id, s.pktHead)] }

/-- An entry that has left the release buffer is at its endpoint (R276). -/
def State.landEntry (s : State) (core inst : Nat) (o : MemOp) (p : Port) (stage : Nat) (data : List Word) : State :=
  let e : QEntry := ⟨data, stage, o.party, o.clk, (s.core core).cycle, o.active⟩
  if p.kind = 0 then s.modQueue inst p.qidx fun q => q.land e
  else if p.kind = 6 then s.landFabric inst o e
  else s.modBuf inst p.kind fun b => { b with reserved := b.reserved - 1, filled := b.filled ++ [(e, o.id)] }

/-- QUEUE_ENTRY_LAND: the entry of a send is placed at its endpoint. The send is complete, but for a fabric message, whose
outcome is decided at its destination (R276). -/
def execQueueEntryLand (core op : Nat) (s : State) : Host.Outcome State Fault Refusal :=
  event s (do
    let o ← s.registers? core op
    match o.eff with
    | .entry p stage data =>
      let inst ← o.party.inst?
      let s := s.landEntry core inst o p stage data
      some (if p.kind = 6 then s.dropOp core op else s.completeOp core o)
    | _ => none)

/-! ### Receiving -/

/-- The head entry of the tape may be taken: its counter has reached its threshold (R294). -/
def Tape.ready (t : Tape) : Bool :=
  t.head != t.tail &&
  (let e := t.ring.get 0 (t.head % 2048)
   let ctr := t.ctr.get 0 (e.extractLsb' 32 8).toNat
   decide ((ctr + 65536 - (e.extractLsb' 40 16).toNat) % 65536 < 32768))

/-- What a receive of an endpoint takes: the entry's words, what it acquires, and the state; none while it must wait. -/
def State.popEntry (s : State) (a : Agent) (p : Port) : Option (List Word × Clock × State) := do
  let g ← s.wg? a.inst
  let now := (s.core a.core).cycle
  let fifo := fun (q : List QEntry) (put : Wg → List QEntry → Wg) =>
    match q with
    | e :: es => some (e.data, e.clk, s.modWg a.inst fun g => put g es)
    | [] => none
  match p.kind with
  | 0 =>
    let q := g.queue_ p.qidx
    if !waitFirst a.party a.group q.receivers then none
    else
      let (e, q') ← q.pop
      if now ≤ e.landed then none
      else some (e.data, e.clk, s.modQueue a.inst p.qidx fun _ => { q' with receivers := waitDrop a.party a.group q'.receivers })
  | 2 => fifo g.copyDone fun g es => { g with copyDone := es }
  | 4 => fifo g.bankDone fun g es => { g with bankDone := es }
  | 7 => fifo g.inbox fun g es => { g with inbox := es }
  | 5 =>
    let t := (s.core a.core).tape
    if !t.ready || !waitFirst a.party a.group t.waiters then none
    else
      let e := t.ring.get 0 (t.head % 2048)
      let ctr := (e.extractLsb' 32 8).toNat
      some ((List.range 8).map fun i => e.extractLsb' (32 * i) 32, Clock.join (t.ctrClk.get [] ctr) [(.gate, t.gateAt.get 0 (t.head % 2048))],
        s.modCore a.core fun k =>
          { k with tape := { k.tape with head := (t.head + 1) % 4096, waiters := waitDrop a.party a.group t.waiters } })
  | _ => none

/-- The group waits for an entry. -/
def State.waitRecv (s : State) (a : Agent) (p : Port) : State :=
  let now := (s.core a.core).cycle
  match p.kind with
  | 0 => s.modQueue a.inst p.qidx fun q => { q with receivers := waitAdd a.party a.group now 0 q.receivers }
  | 5 => s.modCore a.core fun k => { k with tape := { k.tape with waiters := waitAdd a.party a.group now 0 k.tape.waiters } }
  | _ => s

/-! ### The instructions (R275, R276) -/

/-- The port of an operand. -/
def portNo (o : Opnd) : Nat := o.idx - 0x10

/-- The binding of a port; queue port unbound (R275). -/
def boundPort (s : State) (c : Ctx) (n : Nat) : M Port :=
  match (s.warp c.ref).q.get none n with
  | some p => .ok p
  | none => trapWith (indexed 0x100 n)

/-- queue port misuse unless a condition holds. -/
def portOk (ok : Bool) (n : Nat) : M Unit := need ok (indexed 0x102 n)

/-- The words of an entry in k registers. -/
def entryWords (s : State) (c : Ctx) (k n : Nat) : List Word := (List.range n).map fun i => (s.warp c.ref).kGet (k + i)

/-- Whether a k register of an entry is marked. -/
def entryMark (s : State) (c : Ctx) (port k : Nat) : Bool :=
  match (s.warp c.ref).q.get none port with
  | some p => !p.recv && (List.range (entryRegs p.kind)).any fun i => (s.warp c.ref).kMarked (k + i)
  | none => false

/-- A poisoned entry of a fabric send is a use of its own (R355). -/
def entryUse (s : State) (c : Ctx) (port : Nat) : Use :=
  match (s.warp c.ref).q.get none port with
  | some p => if p.kind = 6 then .fabric else .command
  | none => .command

/-- The instruction at which a thread is blocked, if it sends to or receives from a port: the port, the entry's first k register, whether
it receives, and its FLAG. -/
def State.portOfThread (s : State) (c : Ctx) (t : Thread) : Option (Nat × Nat × Bool × Nat) :=
  match t.st, s.fetch c.core c.ctx (warpClass c.ref) t.pc with
  | .blocked _, .ok (word, _) =>
    match decodeFarale word with
    | some (.qsend h b) => some (portNo b.sa, b.sb.idx, false, h.flag.toNat)
    | some (.qrecv _ b) => some (portNo b.sa, b.dst.idx, true, 0)
    | _ => none
  | _, _ => none

/-- A group that is blocked at a send or receive on a port waits at the port's new endpoint from now on, in the order of that one (R274);
where the new binding does not admit the instruction, it traps when its turn comes. -/
def State.waitAnew (s : State) (c : Ctx) (a : Agent) (n : Nat) (p : Port) : State :=
  let x := s.warp c.ref
  (List.range 32).foldl (fun s l =>
    let g := x.groupOf l
    match s.portOfThread c (x.thread l) with
    | some (m, k, recv, flag) =>
      if m = n && Lanes.low g == some l then
        let s := s.dropWaits c.party g
        let b := { a with group := g }
        if recv != p.recv || k % entryRegs p.kind != 0 || (p.kind == 6 && flag == 0) then s
        else if recv then s.waitRecv b p else s.waitSend b p
      else s
    | none => s) s

def execQbind (h : Head) (b : BodyA) (s : State) : Host.Outcome State Fault Refusal :=
  runOp s h fun c => uniformOp s c h (s.uniMark c b.sa false) .command fun c => do
    let a ← ownAgent s c
    let n := portNo b.dst
    match s.bindPort a n b.sb.immNat (b.mod.getLsbD 0) (s.uni c b.sa) with
    | .error d => trapWith d
    | .ok (p, s) => .ok ((s.modWarp c.ref fun w => { w with q := w.q.put none n (some p) }).waitAnew c a n p)

/-- Puts an entry on its way (R276). -/
def sendEntry (s : State) (c : Ctx) (h : Head) (a : Agent) (p : Port) (k : Nat) : State :=
  let s1 := s.reserveEntry a p
  let (id, s2) := s1.addOp c h.flag.toNat (.entry p a.stage (entryWords s c k (entryRegs p.kind))) [] true
  s2.launchFlight c h id [] none

def execQsend (h : Head) (b : BodyA) (s : State) : Host.Outcome State Fault Refusal :=
  runOp s h fun c => uniformOp s c h (entryMark s c (portNo b.sa) b.sb.idx) (entryUse s c (portNo b.sa)) fun c => do
    let a ← ownAgent s c
    let n := portNo b.sa
    let p ← boundPort s c n
    portOk (!p.recv && b.sb.idx % entryRegs p.kind == 0 && (p.kind != 6 || h.flag != 0)) n
    let (_, _, g) ← ownWg s c
    if g.maySend a p then .ok (sendEntry s c h a p b.sb.idx) else .error (.block (s.waitSend a p))

/-- Receives into k registers, and acquires. -/
def recvEntry (c : Ctx) (k : Nat) (r : List Word × Clock × State) : State :=
  (r.2.2.modWarp c.ref fun w => w.kSetList k r.1).acquire c.party r.2.1 none

def execQrecv (h : Head) (b : BodyA) (s : State) : Host.Outcome State Fault Refusal :=
  runOp s h fun c => uniformOp s c h false .command fun c => do
    let a ← ownAgent s c
    let n := portNo b.sa
    let p ← boundPort s c n
    portOk (p.recv && b.dst.idx % entryRegs p.kind == 0) n
    need (p.kind != 5 || s.ownsTape a.core a.inst) (indexed 0x10d n)
    match s.popEntry a p with
    | some r => .ok (recvEntry c b.dst.idx r)
    | none => .error (.block (s.waitRecv a p))

def execQtry (h : Head) (b : BodyA) (s : State) : Host.Outcome State Fault Refusal :=
  runOp s h fun c => uniformOp s c h (entryMark s c (portNo b.sa) b.sb.idx) (entryUse s c (portNo b.sa)) fun c => do
    let a ← ownAgent s c
    let n := portNo b.sa
    let p ← boundPort s c n
    portOk (b.sb.idx % entryRegs p.kind == 0 && p.kind != 6) n
    need (p.kind != 5 || s.ownsTape a.core a.inst) (indexed 0x10d n)
    let (_, _, g) ← ownWg s c
    let done := fun (s : State) (ok : Bool) => s.modWarp c.ref fun w => w.kpSet (b.dst.idx - 0x60) ok false
    if p.recv then
      match s.popEntry a p with
      | some r => .ok (done (recvEntry c b.sb.idx r) true)
      | none => .ok (done s false)
    else if g.maySend a p then .ok (done (sendEntry s c h a p b.sb.idx) true)
    else .ok (done s false)

/-- A 7-bit field of QSTAT; the manual states no value for a count that does not fit, and that value is free (log 24). -/
def statField (s : State) (x max : Nat) : Nat × State :=
  if x ≤ max then (x, s) else ((Config.freeByte s.fresh).toNat % 128, { s with fresh := s.fresh + 1 })

/-- Free slots and entries present of a port's endpoint (R275). -/
def State.portCounts (s : State) (a : Agent) (p : Port) : Nat × Nat :=
  match s.wg? a.inst with
  | none => (0, 0)
  | some g =>
    match p.kind with
    | 0 =>
      let q := g.queue_ p.qidx
      (if p.recv then 64 - (q.entries.length + q.reserved) else q.allow a.stage, q.entries.length)
    | 2 => (64 - g.copyDone.length, g.copyDone.length)
    | 4 => (64 - g.bankDone.length, g.bankDone.length)
    | 7 => (64 - g.inbox.length, g.inbox.length)
    | 5 => let t := (s.core a.core).tape; let n := (t.tail + 4096 - t.head) % 4096; (2048 - n, n)
    | k => ((g.buf k).free, (g.buf k).filled.length)

/-- The word of QSTAT. -/
def State.portStatus (s : State) (a : Agent) (p : Port) : Word × State :=
  let (free, count) := s.portCounts a p
  let (allow, s) := statField s free 127
  let (n, s) := statField s count 64
  (BitVec.ofNat 32 (2 ^ 31 + (if p.recv then 2 ^ 19 else 0) + p.kind * 2 ^ 16 + allow * 128 + n), s)

/-- The inbox handle of a workgroup (R277). -/
def State.inboxHandle (s : State) (inst : Nat) : DWord :=
  let gen := match s.anyWg? inst with | some g => g.gen | none => 0
  BitVec.ofNat 64 (inst * 2 ^ 32 + gen % 65536 * 2 ^ 16 + s.member)

def execQstat (h : Head) (b : BodyA) (s : State) : Host.Outcome State Fault Refusal :=
  runOp s h fun c => uniformOp s c h false .command fun c => do
    let a ← ownAgent s c
    if b.mod.getLsbD 0 then .ok (s.writeU c b.dst.idx true (s.inboxHandle a.inst) false)
    else
      match (s.warp c.ref).q.get none (portNo b.sa) with
      | none => .ok (s.writeU c b.dst.idx false 0 false)
      | some p =>
        let (x, s) := s.portStatus a p
        .ok (s.writeU c b.dst.idx false (x.setWidth 64) false)

/-! ### The tape (R294) -/

def execTapef (h : Head) (b : BodyA) (s : State) : Host.Outcome State Fault Refusal :=
  runOp s h fun c => uniformOp s c h false .command fun c => do
    let a ← ownAgent s c
    need (s.ownsTape a.core a.inst) (.code_ 0x10d)
    let p : Port := ⟨5, true, 0⟩
    match s.popEntry a p with
    | some r => .ok (recvEntry c b.dst.idx r)
    | none => .error (.block (s.waitRecv a p))

/-- DEPINC: the increment takes effect once its release registers (R146). -/
def execDepinc (h : Head) (b : BodyA) (s : State) : Host.Outcome State Fault Refusal :=
  runOp s h fun c => uniformOp s c h (s.uniMark c b.sa false || s.uniMark c b.sb false) .command fun c => do
    let a ← ownAgent s c
    need (s.ownsTape a.core a.inst) (.code_ 0x10d)
    let ctr := (s.uni c b.sa).toNat % 256
    let n := (s.uni c b.sb).toNat % 65536
    .ok (s.addOp c 0 (.depinc ctr n) [] true).2

end Sys2Proof.Machine
end

