-- ==== Sys2Proof/Machine/Task.lean ====
section
/-! DEFINITION. Quiescence weight (R288 to R290) and work-graph records (R291, R292). -/

namespace Sys2Proof.Machine

/-! ### Weight (R290) -/

/-- account invalid (R289), unless the account word is valid in the context. -/
def needAccount (s : State) (c : Ctx) (k : Word) : M Unit := need (s.acctValid k c.ctx) (.code_ 0x10b)

/-- The grains of the warp and its account word. -/
def grains (s : State) (c : Ctx) : Word := (s.warp c.ref).kGet 62
def acctWord (s : State) (c : Ctx) : Word := (s.warp c.ref).kGet 63

/-- The mark of the grains or the account word. -/
def weightMark (s : State) (c : Ctx) : Bool := (s.warp c.ref).kMarked 62 || (s.warp c.ref).kMarked 63

def execQsplit (h : Head) (b : BodyA) (s : State) : Host.Outcome State Fault Refusal :=
  runOp s h fun c => uniformOp s c h (s.uniMark c b.sa false || (s.warp c.ref).kMarked 62) .command fun c => do
    let g := s.uni c b.sa
    let k := grains s c
    need (g != 0 && g.ult k) (.code_ 0x109)
    .ok ((s.writeU c 62 false ((k - g).setWidth 64) false).writeU c b.dst.idx false (g.setWidth 64) false)

/-- The QRET that a group waits on. -/
def State.qretOp (s : State) (c : Ctx) : Option MemOp :=
  (s.core c.core).ops.find? fun o => (match o.eff with | .qret .. => true | _ => false) && o.party == c.party && o.group == c.group

/-- QRET (R290, R146): returns its grains once its release registers. -/
def qretInstr (s : State) (c : Ctx) (g : Word) : M State := do
  let acct := acctWord s c
  need (g.ule (grains s c)) (.code_ 0x109)
  needAccount s c acct
  let (id, s1) := match s.qretOp c with
    | some o => (o.id, s)
    | none => s.addOp c 0 (.qret (acctIndex acct) (acctMember acct) g.toNat) [] true
  match s1.registers? c.core id with
  | none => .error (.block s1)
  | some o =>
    let s2 := (s1.dropOp c.core id).writeU c 62 false ((grains s1 c - g).setWidth 64) false
    -- a screen copy returns nothing (R429)
    .ok (if s2.isCopy c.party then s2 else s2.countGrains acct .returned g.toNat o.clk)

def execQret (h : Head) (b : BodyA) (s : State) : Host.Outcome State Fault Refusal :=
  runOp s h fun c => uniformOp s c h (s.uniMark c b.sa false || weightMark s c) .command fun c =>
    if b.mod.getLsbD 0 then (if grains s c = 0 then .ok s else qretInstr s c (grains s c)) else qretInstr s c (s.uni c b.sa)

def execQborrow (h : Head) (_b : BodyA) (s : State) : Host.Outcome State Fault Refusal :=
  runOp s h fun c => uniformOp s c h (weightMark s c) .command fun c => do
    let k := grains s c
    let acct := acctWord s c
    need (!k.getLsbD 31) (.code_ 0x10a)
    needAccount s c acct
    -- how much another member's account has issued is not held here (log 10)
    let (b, s') := s.free
    let (full, s) := if acctMember acct = s.member then (decide ((s.account (acctIndex acct)).issued = 2 ^ 32 - 1), s)
      else (b.getLsbD 0, s')
    if full then .error (.drop s (.code_ 0x10c)) else
    .ok ((s.countGrains acct .issued 1 []).writeU c 62 false ((k + 0x80000000).setWidth 64) false)

/-- The account of a WAITQ has become quiescent: whether grains were lost, and what is acquired. An account of another
member is not held here: the moment and the answer are free (log 10). -/
def State.quiesced (s : State) (k : Word) : Option (Bool × Clock × State) :=
  if acctMember k != s.member then
    let (b, s) := s.free
    some (b.getLsbD 0, [], s)
  else
    let a := s.account (acctIndex k)
    if a.quiescent then some (a.lost != 0, a.clk, s) else none

/-- WAITQ ends: it writes its result and acquires. -/
def endWaitq (c : Ctx) (d : Nat) (r : Bool × Clock × State) : State :=
  (r.2.2.writeU c d false (if r.1 then 1 else 0) false).acquire c.party r.2.1 none

/-- WAITQ at issue, or when a sleeper wakes. -/
def waitqInstr (s : State) (c : Ctx) (h : Head) (b : BodyA) : M State := do
  let r ← uniformOp s c h (s.uniMark c b.sa false) .command fun c => do
    let k := s.uni c b.sa
    needAccount s c k
    if acctMember k = s.member then
      match s.quiesced k with
      | some r => .ok (endWaitq c b.dst.idx r)
      | none => .ok (s.sleepNow c (.account k.toNat))
    else .ok (s.sleepNow c (.account k.toNat))
  let sleeping := c.group &&& (r.warp c.ref).lanesWhere Thread.asleep
  .ok ((r.modWarp c.ref fun w => w.unblock c.group).advance c (c.group &&& ~~~sleeping) [])

def execWaitq (h : Head) (b : BodyA) (s : State) : Host.Outcome State Fault Refusal :=
  runNav s h fun c => waitqInstr s c h b

/-- WAITQ_WAKE (R290): a sleeper whose account is quiescent wakes. -/
def execWaitqWake (w : WRef) (s : State) : Host.Outcome State Fault Refusal :=
  event s (do
    let x ← s.warp? w
    let lane ← (List.range 32).find? fun l =>
      match (x.thread l).st with | .asleep (.account k) => (s.quiesced (BitVec.ofNat 32 k)).isSome | _ => false
    let g := x.groupOf lane
    let c ← s.standing w g
    let k ← match (x.thread lane).st with | .asleep (.account k) => some k | _ => none
    let r ← s.quiesced (BitVec.ofNat 32 k)
    let (b, _) := r.2.2.free
    if !s.mayIssue w then none
    else if acctMember (BitVec.ofNat 32 k) != s.member && b.getLsbD 1 then
      -- the member that holds the account is lost (R436; log 10)
      let s := { s with fresh := r.2.2.fresh + 1 }
      some ((s.modWarp w fun x => x.modThreads g fun _ t => { t with st := .ready }).takeTrap w
        ⟨0, ⟨0x1c1, BitVec.ofNat 32 (acctMember (BitVec.ofNat 32 k)), 0, 7, 0, none, none, none⟩, g, g, c.pc, c.pc, 0, none, 0⟩ (some (c.hdrAddr, c.hdr)))
    else
      match s.fetch c.core c.ctx (warpClass w) c.pc with
      | .error d => some (s.takeTrap w ⟨1, d, g, g, c.pc, c.pc, 0, none, 0⟩ (some (c.hdrAddr, c.hdr)))
      | .ok (word, s) =>
        match decodeFarale word with
        | some (.waitq _ b) =>
          let awake := (endWaitq c b.dst.idx (r.1, r.2.1, { s with fresh := r.2.2.fresh })).modWarp w fun x =>
            x.modThreads g fun _ t => { t with st := .ready }
          some (awake.advance c g [])
        | _ => none)

/-- ACCOUNT_UPDATE (R289): an update that another member of the gang has sent is applied at its account. -/
def execAccountUpdate (acct : Nat) (f : AcctField) (g : DWord) (s : State) : Host.Outcome State Fault Refusal :=
  event s (some (s.countGrains (BitVec.ofNat 32 (s.member % 256 * 1024 + acct % 1024)) f g.toNat []))

/-! ### Records (R291) -/

/-- Performs a uniform load of several words at once; none while an earlier operation of the party holds one. -/
def loadWordsNow (s : State) (c : Ctx) (lanes : List LaneAcc) : M (Option (List (List Byte × Bool) × State)) :=
  let next := s.nextId
  let (id, s1) := s.addOp c 0 (.load (.u 0) 4 false 0) lanes true
  match s1.op? c.core id with
  | none => .ok none
  | some o =>
    if !lanes.all (s1.mayPerform c.core o) then .ok none
    else
      match lanes.findSome? (s1.laneFault c.core o) with
      | some d => trapWith d
      | none =>
        let s2 := s1.addHist ⟨o.party, o.party, o.epoch, false, o.id⟩ false (lanes.flatMap fun l => l.pieces.flatMap Piece.locs)
        let (o, s3) := lanes.foldl (fun (o, s) l => State.loadLane s c.core o l) (o, s2)
        .ok (some (o.got.map fun g => (g.2.1, g.2.2.any fun b => b), { s3.dropOp c.core id with nextId := next }))

/-- The words of a record, resolved one by one. -/
def resolveWords (s : State) (c : Ctx) (a : DWord) : Nat → M (List LaneAcc × List TlbEntry × State)
  | 0 => .ok ([], [], s)
  | n + 1 => do
    let (ls, holds, s) ← resolveWords s c a n
    let p := a + BitVec.ofNat 64 (4 * n)
    match s.resolve c .load holds 4 p 0 with
    | .error d => trapWith d
    | .ok (ps, holds, s) => .ok (ls ++ [⟨n, p, ps, [], false⟩], holds, s)

/-- The record bytes at PTR of an address register: checks 3 to 7 for `n` bytes, 16-aligned (R291). -/
def recordLanes (s : State) (c : Ctx) (areg n : Nat) : M (List LaneAcc × State) := do
  let a := (s.warp c.ref).aGet areg
  let p := a.ptr
  need a.r ⟨0x085, 0, areg, 7, 0, none, none, none⟩
  need (a.covers p.toNat n) ⟨0x084, 0, areg, 7, p, none, none, none⟩
  need (p.toNat % 16 == 0) ⟨0x086, BitVec.ofNat 32 n, areg, 7, p, none, none, none⟩
  need (canonical p) ⟨0x080, 0, 0, 7, p, none, none, none⟩
  need (windowOf p != some 4) ⟨0x088, 0, 4, 7, p, none, none, none⟩
  match checkWindow s c n p none with
  | some d => trapWith d
  | none => (resolveWords s c p (n / 4)).map fun x => (x.1, x.2.2)

/-- The header of a record. -/
def recordHeader (acct grains : Word) : List Byte := leBytes 8 (grains.toNat + (acct.extractLsb' 0 18).toNat * 2 ^ 32)

/-- WGSEND (R291). -/
def wgsendInstr (s : State) (c : Ctx) (h : Head) (b : BodyA) : M State := do
  let (_, _, g) ← ownWg s c
  let node := (s.uni c b.sb).toNat
  let acct := acctWord s c
  let nodes := match s.grid? g.grid with | some gr => gr.nodes | none => []
  match nodes[node]? with
  | none => trapCode 0x10f
  | some e =>
    need (e.entry != 0) (.code_ 0x10f)
    need (acct == BitVec.ofNat 32 (s.launchOf g.grid).acct) (.code_ 0x10b)
    needAccount s c acct
    let (lanes, s1) ← recordLanes s c b.sa.idx e.size
    match ← loadWordsNow s1 c lanes with
    | none => .error (.early s)
    | some (ws, s2) =>
      let k := s.uni c b.sc
      let data := recordHeader acct k ++ (ws.flatMap (·.1)).drop 8
      let marks := [false, false] ++ (ws.map (·.2)).drop 2
      let (id, s3) := s2.addOp c h.flag.toNat (.record node data marks k.toNat) [] true
      .ok (s3.launchFlight c h id [] none)

def wgsendRun (s : State) (c : Ctx) (h : Head) (b : BodyA) : M State :=
  let amark := ((s.warp c.ref).aGet b.sa.idx).mark
  uniformOp s c h (amark || s.uniMark c b.sb false || s.uniMark c b.sc false || (s.warp c.ref).kMarked 63)
    (if amark then .address else .command) fun c => wgsendInstr s c h b

/-- WGSEND does not block: where a fence, or an earlier operation on a word that it reads, holds it, it counts as issued. -/
def execWgsend (h : Head) (b : BodyA) (s : State) : Host.Outcome State Fault Refusal :=
  runOp s h fun c =>
    match heldBehind s c h (.wgsend h b) [] (wgsendRun s c h b) with
    | .error (.early _) => .ok (s.holdOp c h (.wgsend h b) [])
    | r => r

/-! ### Bins (R292) -/

def Bin.is (b : Bin) (cluster node : Nat) : Bool := b.cluster == cluster && b.node == node

def Grid.bin (g : Grid) (cluster node : Nat) : Bin := (g.bins.find? fun b => b.is cluster node).getD ⟨cluster, node, [], []⟩

/-- A bin without records is not listed. -/
def Grid.setBin (g : Grid) (b : Bin) : Grid :=
  let rest := g.bins.filter fun x => !x.is b.cluster b.node
  { g with bins := if b.closed.isEmpty && b.batch.isEmpty then rest else rest ++ [b] }

def Bin.records (b : Bin) : List BinRec := b.closed.flatten ++ b.batch

/-- Bytes of records on chip. -/
def Bin.chipBytes (b : Bin) : Nat := b.records.foldl (fun n r => if r.back then n else n + r.data.length) 0

/-- A record of `n` bytes that arrives goes to the backing region. -/
def Bin.overflows (b : Bin) (n : Nat) : Bool := decide (512 < b.chipBytes + n) || b.records.any (·.back)

def batchGrains (rs : List BinRec) : Nat := rs.foldl (fun n r => n + r.grains) 0

def Bin.close (b : Bin) : Bin := if b.batch.isEmpty then b else { b with closed := b.closed ++ [b.batch], batch := [] }

/-- A record joins the open batch, which closes before it when its grains would pass 2^32 − 1, and after it when the count is
reached. -/
def Bin.add (b : Bin) (r : BinRec) (count : Nat) : Bin :=
  let b := if decide (2 ^ 32 ≤ batchGrains b.batch + r.grains) then b.close else b
  let b := { b with batch := b.batch ++ [r] }
  if count ≤ b.batch.length then b.close else b

def State.setGrid (s : State) (g : Nat) (x : Grid) : State := { s with grids := s.grids.put none g (some x) }

/-- RECORD_ARRIVE_BIN: a record is placed in its bin, or in the backing region when that has room. -/
def execRecordArriveBin (core op : Nat) (s : State) : Host.Outcome State Fault Refusal :=
  event s (do
    let o ← s.registers? core op
    match o.eff, o.party.inst? with
    | .record node data marks grains, some inst =>
      let g ← s.wg? inst
      if g.copyOf.isSome then s.completeOp core o
      else
      let gr ← s.grid? g.grid
      let e ← gr.nodes[node]?
      let b := gr.bin (clusterOf core) node
      let back := b.overflows data.length
      let used := gr.backing.get 0 node
      if back && decide (e.backrec ≤ used) then none
      else
        let r : BinRec := ⟨data, marks, grains, s.clockNs, back, o.party, o.clk⟩
        let gr := gr.setBin (b.add r e.count)
        let gr := if back then { gr with backing := gr.backing.put 0 node (used + 1) } else gr
        some ((s.setGrid g.grid gr).completeOp core o)
    | _, _ => none)

/-- BIN_TIMER_EXPIRE: the timer, which runs from the arrival of the oldest record of the open batch, closes it. -/
def execBinTimerExpire (grid cluster node : Nat) (s : State) : Host.Outcome State Fault Refusal :=
  event s (do
    let gr ← s.grid? grid
    let e ← gr.nodes[node]?
    let b := gr.bin cluster node
    let r ← b.batch.head?
    if r.arrived + e.timer ≤ s.clockNs then some (s.setGrid grid (gr.setBin b.close)) else none)

/-- Backing records of no closed batch move into free space on chip, in order of arrival; their number. -/
def refill (room : Nat) : List BinRec → List BinRec × Nat
  | [] => ([], 0)
  | r :: rs =>
    if !r.back then let (t, n) := refill room rs; (r :: t, n)
    else if r.data.length ≤ room then let (t, n) := refill (room - r.data.length) rs; ({ r with back := false } :: t, n + 1)
    else (r :: rs, 0)

/-- The oldest closed batch leaves its bin. -/
def Grid.takeBatch (g : Grid) (cluster node : Nat) : Option (List BinRec × Grid) :=
  let b := g.bin cluster node
  match b.closed with
  | [] => none
  | x :: xs =>
    let b1 := { b with closed := xs }
    let (batch, moved) := refill (512 - b1.chipBytes) b1.batch
    let g := g.setBin { b1 with batch := batch }
    some (x, { g with backing := g.backing.put 0 node (g.backing.get 0 node - moved) })

end Sys2Proof.Machine
end

