-- ==== Sys2Proof/Machine/Launch.lean ====
section
/-! DEFINITION. Launch queues (R357, R358), the checks of a launch record (R359 to R361), grid status records (R363), flow
records (R365), and LAUNCH (R296). -/

namespace Sys2Proof.Machine

/-! ### Memory as the dispatcher sees it -/

/-- Bytes at a virtual address of a context, page by page; `fuel` pages at most. -/
def State.readCtx (s : State) (ctx va n : Nat) : Nat → Except Detail (List Byte)
  | 0 => .ok []
  | fuel + 1 =>
    if n = 0 then .ok []
    else
      let k := if n < 65536 - va % 65536 then n else 65536 - va % 65536
      match s.ctxLeaf ctx .load va with
      | .error d => .error d
      | .ok l =>
        match s.readCtx ctx (va + k) (n - k) fuel with
        | .error d => .error d
        | .ok bs => .ok (s.readPa l.pte.layout l.pte.key l.pa k ++ bs)

/-- Every byte of a range is readable. -/
def State.readable (s : State) (ctx va n : Nat) : Bool :=
  decide (va + n ≤ 2 ^ 54) && (List.range (n / 65536 + 2)).all fun i =>
    let a := if i = 0 then va else (va / 65536 + i) * 65536
    decide (va + n ≤ a) || (match s.ctxLeaf ctx .load a with | .ok _ => true | .error _ => false)

/-- Writes bytes at a virtual address of a context; a byte that does not translate is lost. -/
def State.writeCtx (s : State) (ctx va : Nat) : List Byte → State
  | [] => s
  | b :: bs =>
    let s := match s.ctxLeaf ctx .store va with
      | .ok l =>
        let cell := cellOf l.pte.layout l.pa
        let s := s.writeCell l.pte.key cell b
        -- a word that is written whole is not marked any more (R257)
        if va % 4 = 0 ∧ 3 ≤ bs.length then s.markCell cell false else s
      | .error _ => s
    s.writeCtx ctx (va + 1) bs

/-! ### Queues (R357) -/

def State.lq (s : State) (q : Nat) : LQueue := s.lqs.get LQueue.zero q

def State.modLq (s : State) (q : Nat) (f : LQueue → LQueue) : State := { s with lqs := s.lqs.upd LQueue.zero q f }

namespace LQueue

def ctx (q : LQueue) : Nat := (q.ctl.extractLsb' 0 12).toNat
def qprio (q : LQueue) : Nat := (q.ctl.extractLsb' 12 3).toNat
def en (q : LQueue) : Bool := q.ctl.getLsbD 15
def dev (q : LQueue) : Bool := q.ctl.getLsbD 21
/-- 2^LOG2 entries; LOG2 from 4 to 16. -/
def size (q : LQueue) : Nat := 2 ^ (q.ctl.extractLsb' 16 5).toNat
/-- Entries not yet taken. -/
def waiting (q : LQueue) : Nat := (q.tail + 2 ^ 32 - q.head) % 2 ^ 32
/-- lqfree. -/
def free (q : LQueue) : Nat := q.size - q.waiting
/-- The address of entry i of the ring. -/
def slotVa (q : LQueue) (i : Nat) : Nat := q.base.toNat + 8 * (i % q.size)

end LQueue

/-! ### The checks of a record (R361) -/

/-- An invalid field: the byte offset of its lowest bit, and the STATUS code. -/
abbrev Bad := Nat × Nat

/-- The lowest non-zero bit of a reserved field gives the byte reported. -/
def reservedBad (r : LaunchRec) (lo w : Nat) : List Bad :=
  match (List.range w).find? fun i => r.getLsbD (lo + i) with
  | some i => [((lo + i) / 8, 3)]
  | none => []

/-- An address is aligned, and readable when it is used: alignment, and bytes that must be readable. -/
def State.addrBad (s : State) (ctx : Nat) (r : LaunchRec) (lo align n : Nat) : List Bad :=
  let a := (r.dword lo).toNat
  if a % align != 0 || !s.readable ctx a n then [(lo / 8, 3)] else []

def bad (c : Bool) (lo : Nat) (status : Nat := 3) : List Bad := if c then [(lo / 8, status)] else []

/-- The team limit of a heat class, and the rows and scratchpad blocks that a lit core sees (R14, R44). -/
def teamLimit (heat : Nat) : Nat := match heat with | 0 => 16 | 1 => 12 | 2 => 8 | _ => 4
def heatParts (heat : Nat) : Nat := match heat with | 0 => 1 | 1 => 1 | 2 => 2 | _ => 4

/-- The first resource that fails R40. -/
def allotBad (r : LaunchRec) : List Bad :=
  let n := heatParts r.heat
  let ok := fun (p x max : Nat) => (r.noFull || decide (p ≤ x)) && decide (x ≤ max)
  if !ok r.prows r.frows (3072 * n) then [(832 / 8, 2)]
  else if !ok r.pblk r.fblk (128 * n) then [(846 / 8, 2)]
  else if 16 < r.ftiles then [(856 / 8, 2)]
  else if 1024 < r.fhnd then [(861 / 8, 2)]
  else []

/-- An entry of a node table breaks R360. -/
def State.nodeBad (s : State) (ctx : Nat) (e : NodeEnt) : Bool :=
  if e.entry = 0 then e != 0
  else
    e.extractLsb' 189 67 != 0 || e.entry.toNat % 8 != 0 || e.back.toNat % 16 != 0 || e.count == 0 || decide (256 < e.count) ||
    !s.readable ctx e.entry.toNat 8 || !s.readable ctx e.back.toNat (e.backrec * e.size)

/-- A run of bytes as values of `n` bytes each. -/
def chunks (n : Nat) (bs : List Byte) (k : Nat) : List Nat := (List.range k).map fun i => leNat ((bs.drop (n * i)).take n)

/-- The node table of a record. -/
def State.nodeTable (s : State) (ctx : Nat) (r : LaunchRec) : List NodeEnt :=
  if r.graph = 0 then []
  else match s.readCtx ctx r.graph.toNat (32 * r.nodes) 3 with
    | .ok bs => (chunks 32 bs r.nodes).map (BitVec.ofNat 256)
    | .error _ => []

/-- The section table of a record. -/
def State.sectionTable (s : State) (ctx : Nat) (r : LaunchRec) : List (DWord × DWord) :=
  if r.sect = 0 then []
  else match s.readCtx ctx r.sect.toNat 112 3 with
    | .ok bs => (List.range 7).map fun i =>
        (BitVec.ofNat 64 (leNat ((bs.drop (16 * i)).take 8)), BitVec.ofNat 64 (leNat ((bs.drop (16 * i + 8)).take 8)))
    | .error _ => []

/-- Every invalid field of a record that has been read. -/
def State.recordBads (s : State) (ctx : Nat) (r : LaunchRec) : List Bad :=
  let used := fun (x : DWord) (n : Nat) => if x = 0 then 0 else n
  [(570, 6), (630, 10), (754, 13), (792, 40), (872, 24), (928, 32), (1728, 320)].flatMap (fun x => reservedBad r x.1 x.2) ++
  s.addrBad ctx r 0 8 8 ++ s.addrBad ctx r 64 8 (used r.limg 8) ++ s.addrBad ctx r 128 8 (used r.simg 8) ++
  s.addrBad ctx r 192 16 r.parsz ++ s.addrBad ctx r 256 128 r.privLen ++
  s.addrBad ctx r 320 16 (used r.sect 112) ++ s.addrBad ctx r 384 64 64 ++ s.addrBad ctx r 448 32 (used r.graph (32 * r.nodes)) ++
  s.addrBad ctx r 1536 256 (used r.next 256) ++ s.addrBad ctx r 1600 4 (used r.cond 4) ++ s.addrBad ctx r 1664 256 (used r.alt 256) ++
  bad (decide (2 ^ 31 < r.gridSize)) 512 ++ bad (decide (65536 < r.parsz)) 544 ++ bad (decide (256 < r.nodes)) 561 ++
  bad (r.ntx * r.nty * r.ntz != 32 * r.warps) 576 ++ bad (r.warps == 0 || decide (32 < r.warps)) 606 ++
  bad (r.team == 0 || decide (teamLimit r.heat < r.team) || r.gridSize % r.team != 0) 612 ++
  bad (r.screen != 0 && (decide (r.screen < 4) || decide (16 < r.screen))) 624 ++
  bad (r.accv && !s.acctValid (BitVec.ofNat 32 r.acct) ctx) 736 ++ bad (r.graph != 0 && !r.accv) 767 ++
  bad (decide (12288 < r.frowsRaw)) 832 ++ bad (decide (512 < r.fblkRaw)) 846 ++ bad (decide (16 < r.ftiles)) 856 ++
  bad (decide (1024 < r.fhnd)) 861 ++ bad (r.privsz % 4 != 0) 896 ++
  (List.range 8).flatMap (fun i => bad (!Slot.valid (r.fs i)) (1024 + 64 * i) 1) ++ allotBad r ++
  bad ((s.nodeTable ctx r).any (s.nodeBad ctx)) 448

/-- The invalid field of the lowest offset. -/
def lowestBad : List Bad → Option Bad
  | [] => none
  | x :: xs => match lowestBad xs with | none => some x | some y => some (if x.1 ≤ y.1 then x else y)

/-- The dispatcher reads and checks a record: what it accepts, or the field with STATUS and the record as far as it was
read. -/
def State.checkRecord (s : State) (ctx va : Nat) : Except (Bad × Option LaunchRec) Accepted :=
  if va % 256 ≠ 0 then .error ((0, 3), none)
  else
    match s.readCtx ctx va 256 2 with
    | .error _ => .error ((0, 3), none)
    | .ok bs =>
      let r : LaunchRec := BitVec.ofNat 2048 (leNat bs)
      match lowestBad (s.recordBads ctx r) with
      | some b => .error (b, some r)
      | none => .ok ⟨r, s.sectionTable ctx r, s.nodeTable ctx r, []⟩

/-! ### Status records (R363) -/

/-- Writes bytes into a grid's status record. -/
def State.writeStatus (s : State) (ctx : Nat) (r : LaunchRec) (off : Nat) (bs : List Byte) : State :=
  s.writeCtx ctx (r.status.toNat + off) bs

/-- State 4 with STATUS and OFFSET (R361, R365), if the status record is readable and aligned. -/
def State.writeRefused (s : State) (ctx : Nat) (r : LaunchRec) (b : Bad) : State :=
  if r.status.toNat % 64 ≠ 0 ∨ !s.readable ctx r.status.toNat 64 then s
  else (s.writeStatus ctx r 1 [BitVec.ofNat 8 b.2, BitVec.ofNat 8 b.1]).writeStatus ctx r 0 [4]

/-! ### Taking an entry (R361) -/

/-- A grid as it is taken. -/
def Grid.new (q ctx : Nat) (a : Accepted) (prev : Option Nat) (clk : Clock) : Grid :=
  { queue := q, ctx := ctx, launch := a.launch, sections := a.sections, nodes := a.nodes, st := .queued, nextRoot := 0, retired := 0,
    nodeLive := [], nodeUse := [], copies := 0, faults := 0, poison := 0, done := 0, started := !(LaunchRec.timed a.launch),
    prev := prev, headSince := none, reserved := none, bins := [], backing := [], clk := Clock.join clk a.clk, rel := [] }

/-- An accepted record becomes a grid of its queue; a launch that names an account issues one unit (R289). -/
def State.addGrid (s : State) (q : Nat) (a : Accepted) : State :=
  let l := s.lq q
  let r : LaunchRec := a.launch
  let (id, s) := s.newId
  let s := s.setGrid id (Grid.new q l.ctx a l.last l.clk)
  let s := s.modLq q fun l => { l with grids := l.grids ++ [id], last := some id }
  let s := s.writeStatus l.ctx r 0 [0]
  if r.accv then s.countGrains (BitVec.ofNat 32 r.acct) .issued 1 [] else s

/-- The end of a grid in its status record, STATE last (R363). -/
def State.finishStatus (s : State) (ctx : Nat) (r : LaunchRec) (faults : Nat) (poison : BitVec 256) : State :=
  let s := s.writeStatus ctx r 8 (leBytes 8 faults)
  let s := s.writeStatus ctx r 16 (leBytes 8 s.clockNs)
  let s := s.writeStatus ctx r 32 (leBytes 32 poison.toNat)
  s.writeStatus ctx r 0 [if faults != 0 || poison.extractLsb' 192 64 != 0 then 3 else 2]

/-- The record that follows: NEXT or ALT by the word at COND, read as an acquire at device scope; none when the word cannot be
read (log 26). -/
def State.successor (s : State) (ctx : Nat) (r : LaunchRec) : Option (DWord × Clock) :=
  if r.cond = 0 then some (r.next, [])
  else
    match s.ctxLeaf ctx .load r.cond.toNat with
    | .error _ => none
    | .ok l =>
      let word := leNat (s.readPa l.pte.layout l.pte.key l.pa 4)
      some (if word = 0 then r.alt else r.next, s.acquired .gate 3 (s.relsOf ⟨.pa l.pa, 4, false, l.pte.key, l.pte.layout⟩))

/-- The successor of a record enters its queue ahead of every untaken entry; a chain of flow records that is being followed goes first
(R365, R376). `flow` counts the flow records followed. -/
def State.submitNext (s : State) (q : Nat) (r : LaunchRec) (flow : Nat) : State :=
  match s.successor (s.lq q).ctx r with
  | some (va, clk) =>
    if va = 0 then s
    else s.modLq q fun l =>
      let followed := if flow = 0 then l.chain.takeWhile fun e => e.2 != 0 else []
      { l with chain := followed ++ (va, flow) :: l.chain.drop followed.length, clk := Clock.join l.clk clk }
  | none => s

/-- A flow record admits nothing and completes at once. -/
def State.flowDone (s : State) (q : Nat) (r : LaunchRec) (flow : Nat) : State :=
  let ctx := (s.lq q).ctx
  let (id, s) := s.newId
  (((s.writeStatus ctx r 0 [0]).modLq q fun l => { l with last := some id }).finishStatus ctx r 0 0).submitNext q r flow

/-- A record at an address is taken: checked, then accepted or refused. `flow` counts the flow records followed (R365). -/
def State.takeRecord (s : State) (q va flow : Nat) (pre : Option Accepted) : State :=
  let ctx := (s.lq q).ctx
  match (match pre with | some a => Except.ok a | none => s.checkRecord ctx va) with
  | .error (b, some r) => s.writeRefused ctx r b
  | .error (_, none) => s
  | .ok a =>
    let r : LaunchRec := a.launch
    if r.gridSize ≠ 0 then s.addGrid q a
    else if flow + 1 = 65536 then s.writeRefused ctx r (0, 3)
    else s.flowDone q r (flow + 1)

/-- LAUNCH_ENTRY_TAKE: the dispatcher takes a submitted record, or the next entry of the ring. An entry that cannot be read
stops the queue, and the event names the queue beside the address (R357; log 25). -/
def execLaunchEntryTake (q : Nat) (s : State) : Host.Outcome State Fault Refusal :=
  event s (
    let l := s.lq q
    if !l.en then none
    else
      match l.chain with
      | (va, n) :: rest => some ((s.modLq q fun l => { l with chain := rest }).takeRecord q va.toNat n none)
      | [] =>
        if l.head = l.tail then none
        else
          let next := fun (s : State) => s.modLq q fun l => { l with head := (l.head + 1) % 2 ^ 32 }
          match s.readCtx l.ctx (l.slotVa l.head) 8 2 with
          | .error d =>
            some ((s.modLq q fun l => { l with ctl := l.ctl &&& ~~~(1 <<< 15 : DWord) }).logNamed d.code 0 l.ctx d.addr (BitVec.ofNat 64 q))
          | .ok bs =>
            -- the record that a LAUNCH wrote here was checked by it
            let seen := (l.pre.find? fun e => e.1 == l.head && e.2.1 == leNat bs).map fun e => e.2.2
            some ((next (s.modLq q fun l => { l with pre := l.pre.filter fun x => x.1 != l.head })).takeRecord q (leNat bs) 0 seen))

/-- TIMED_START_REACHED (R364): a timed grid may begin admitting. -/
def execTimedStartReached (grid : Nat) (s : State) : Host.Outcome State Fault Refusal :=
  event s (do
    let g ← s.grid? grid
    let r : LaunchRec := g.launch
    if !g.started && decide (r.start ≤ s.now.toNat) then some (s.setGrid grid { g with started := true }) else none)

/-- Writes lqtail: a write that would make lqfree negative is ignored. -/
def State.writeTail (s : State) (q : Nat) (val : DWord) : State :=
  let l := s.lq q
  let t := val.toNat % 2 ^ 32
  if (t + 2 ^ 32 - l.head) % 2 ^ 32 ≤ l.size then s.modLq q fun l => { l with tail := t } else s

/-- LQTAIL_WRITE (R357): a producer publishes entries. -/
def execLqtailWrite (q : Nat) (val : DWord) (s : State) : Host.Outcome State Fault Refusal :=
  event s (if q < 64 then some (s.writeTail q val) else none)

/-! ### LAUNCH (R296) -/

/-- The answer word of LAUNCH. -/
def launchWord (b : Bad) : DWord := BitVec.ofNat 64 (b.2 % 256 + b.1 % 256 * 256)

/-- No earlier external effect of the party is still to be performed, and no fence holds it (R264, R296). -/
def State.launchFree (s : State) (c : Ctx) : Bool :=
  let ops := (s.core c.core).ops
  ops.all fun o => o.party != c.party || decide (s.nextId ≤ o.id) || !(o.eff.external || o.eff.isFence) || o.handed ops

/-- The checks of the record's address: R permission, 256-byte alignment, a virtual address (R126, R243). -/
def launchAddr (s : State) (c : Ctx) (areg : Nat) : M Nat := do
  let a := (s.warp c.ref).aGet areg
  let p := a.ptr
  need a.r ⟨0x085, 0, areg, 7, 0, none, none, none⟩
  need (a.covers p.toNat 256) ⟨0x084, 0, areg, 7, p, none, none, none⟩
  need (p.toNat % 256 == 0) ⟨0x086, 256, areg, 7, p, none, none, none⟩
  need (canonical p) ⟨0x080, 0, 0, 7, p, none, none, none⟩
  need (windowOf p).isNone ⟨0x088, 0, (windowOf p).getD 0, 7, p, none, none, none⟩
  .ok p.toNat

/-- An accepted record enters the ring. -/
def State.submit (s : State) (q va : Nat) (a : Accepted) : State :=
  let l := s.lq q
  (s.writeCtx l.ctx (l.slotVa l.tail) (leBytes 8 va)).modLq q fun l =>
    { l with tail := (l.tail + 1) % 2 ^ 32, pre := l.pre ++ [(l.tail, va, a)] }

def launchInstr (s : State) (c : Ctx) (b : BodyA) : M State := do
  let q := match b.sb with | .imm x => x.toNat | o => (s.uni c o).toNat
  let l := s.lq q
  need (decide (q < 64) && l.en && l.dev && l.ctx == c.ctx) (.code_ 0x111)
  let va ← launchAddr s c b.sa.idx
  if s.isCopy c.party then
    -- a screen copy launches nothing (R429); what it reads as the answer is not stated
    let (x, s) := s.free
    .ok (s.writeU c b.dst.idx false (x.setWidth 64) false)
  else if !s.launchFree c || l.free = 0 then .error (.block s)
  else
    match s.checkRecord l.ctx va with
    | .error (x, _) => .ok (s.writeU c b.dst.idx false (launchWord x) false)
    | .ok a =>
      let (clk, s) := s.releaseClock c.party
      .ok ((s.submit q va { a with clk := clk }).writeU c b.dst.idx false 0 false)

def launchRun (s : State) (c : Ctx) (h : Head) (b : BodyA) : M State :=
  let amark := ((s.warp c.ref).aGet b.sa.idx).mark
  uniformOp s c h (amark || s.uniMark c b.sb false) (if amark then .address else .command) fun c => launchInstr s c b

def execLaunch (h : Head) (b : BodyA) (s : State) : Host.Outcome State Fault Refusal :=
  runOp s h fun c => heldBehind s c h (.launch h b) [.k b.dst.idx] (launchRun s c h b)

end Sys2Proof.Machine
end

