-- ==== Sys2Proof/Machine/Held.lean ====
section
/-! DEFINITION. Instructions that a fence held, as they are performed once its conditions hold (R264). -/

namespace Sys2Proof.Machine

/-- What an instruction that a fence can hold does when it is performed; POLL has a meaning of its own there. -/
def heldBody (s : State) (c : Ctx) (i : Instr) : M State :=
  match i with
  | .msign h conv src => msignRun s c h conv src
  | .mrpq h kd acc => mrpqRun s c h kd acc
  | .bstat h kd => bstatRun s c h kd
  | .mepi h b => mepiRun s c h b
  | .launch h b => launchRun s c h b
  | .wgsend h b => wgsendRun s c h b
  | .prf h b => prfRun s c h b
  | .ainit h b => ainitRun s c h b
  | .aset h b => asetRun s c h b
  | .aadv h b => aadvRun s c h b
  | .aget h b => agetRun s c h b
  | _ => .error (.block s)

/-- The element of an identity goes before those of later ones. -/
def placeById {α : Type} (key : α → Nat) (id : Nat) (xs : List α) : List α :=
  let others := xs.filter fun x => key x != id
  let before := fun (x : α) => decide (key x < id)
  others.takeWhile before ++ xs.filter (fun x => key x == id) ++ others.dropWhile before

/-- The registers of a warp `x` that has gone on, but for those in `rs`, which are as the instruction has left them in `y`. -/
def Warp.withResults (x y : Warp) (rs : List Reg) : Warp :=
  let ks := rs.filterMap fun r => match r with | .k n => some n | _ => none
  let as := rs.filterMap fun r => match r with | .a n => some n | _ => none
  { y with
    k := ks.foldl (fun t n => t.put 0 n (y.kGet n)) x.k
    kMark := ks.foldl (fun t n => t.put false n (y.kMarked n)) x.kMark
    a := as.foldl (fun t n => t.put .zero n (y.aGet n)) x.a
    kp := x.kp, kpMark := x.kpMark, p := x.p, pMark := x.pMark }

/-- The workgroup of a party is neither at rest nor waits for its team. -/
def State.thawed (s : State) (p : Party) : Bool :=
  match p.inst?.bind s.wg? with | some g => !g.frozen | none => true

/-- Performs an instruction that a fence has held, with the registers of its issue, once no earlier fence or held instruction of its
party is pending. What it starts has its identity and so stands where it issued. One whose checks now fail traps as an operation
does; a POLL whose test fails stays held until its back-off has passed (R279). -/
def State.heldPerform (s : State) (core id : Nat) : Option State := do
  let o ← s.op? core id
  let c ← o.ctx_ core
  let x ← s.warp? c.ref
  match o.eff with
  | .held i k kMark kp kpMark a p pMark again =>
    let early := match again with | some (due, _) => decide ((s.core core).cycle < due) | none => false
    if s.fencePending core o.party id || early || !s.thawed o.party then none
    else
      let atIssue := fun (s : State) => s.modWarp c.ref fun y => { y with k := k, kMark := kMark, kp := kp, kpMark := kpMark, a := a, p := p, pMark := pMark }
      let down := fun (s : State) => s.modWarp c.ref fun y => (y.land id).flagDown o.flag
      let poll := fun (h : Head) (b : BodyA) => heldPoll (atIssue s) c h b o (match again with | some (_, n) => n | none => 16)
      let result := match i with | .poll h b => poll h b | _ => heldBody { down (atIssue (s.dropOp core id)) with nextId := id } c i
      match result with
      | .error (.trap d) | .error (.drop _ d) => some (s.failOp core o d)
      | .error _ => none
      | .ok t =>
        let kept := match t.op? core id with | some e => e.eff.isHeld && e.eff != o.eff | none => false
        let t := t.modWarp c.ref fun y => x.withResults y (if kept then [] else i.writes)
        match i with
        | .poll .. => some (if kept then t else down (t.dropOp core id))
        | _ =>
          let t := t.modCore core fun k =>
            { k with
              ops := placeById MemOp.id id (k.ops.map fun e => if e.id == id then { e with serial := o.serial, active := o.active } else e)
              mats := placeById MatOp.id id k.mats }
          some { t with nextId := s.nextId }
  | _ => none

end Sys2Proof.Machine
end

