-- ==== Sys2Proof/Machine/Admit.lean ====
section
/-! DEFINITION. Placement and admission (R25, R27, R40 to R46, R366 to R368), what a workgroup starts with (R28, R55, R250,
R288, R331, R332), and the grant of an ACQ (R42). -/

namespace Sys2Proof.Machine

/-! ### Quads (R10, R44 to R46) -/

/-- Cores of the module: two dies, sixteen clusters each, sixteen cores a cluster (R10). -/
def clusterCount : Nat := 32

def quadOf (core : Nat) : Nat := core / 4

/-- Mode of a quad: 0 none, 1 + heat class. -/
def State.quadMode (s : State) (quad : Nat) : Nat := s.quads.get 0 quad

/-- No core of a quad holds a workgroup. -/
def State.quadEmpty (s : State) (quad : Nat) : Bool := (List.range 4).all fun i => (s.residents (4 * quad + i)).isEmpty

/-- The positions lit for a heat class. -/
def litAt (heat pos : Nat) : Bool :=
  match heat with
  | 0 => true
  | 1 => decide (pos ≤ 2)
  | 2 => pos == 0 || pos == 3
  | _ => pos == 0

/-- The arrays that a core sees under a quad mode: its own and its lenders'. -/
def partsUnder (mode core : Nat) : Nat := if mode = 0 then 1 else if litAt (mode - 1) (corePos core) then heatParts (mode - 1) else 1

/-! ### Free resources -/

/-- What a workgroup holds or has reserved. -/
def Wg.held (g : Wg) : Alloc :=
  match g.reserve with
  | some a => a
  | none => ⟨g.pool, g.near, g.far, g.tiles, g.hents⟩

/-- The tiles of a core that may be allotted: those that are not granted, but for as many as team members have reserved (R43). Which
physical tiles these will be is decided as they are granted (R57). -/
def State.freeTiles (s : State) (core : Nat) : List Nat :=
  let kept := ((s.residents core).map fun e => match e.2.reserve with | some a => a.tiles.length | none => 0).sum
  let free := s.unboundTiles core
  free.take (free.length - kept)

/-- The free resources of a core with `parts` arrays. -/
def State.freeOn (s : State) (core parts : Nat) : Alloc :=
  let hs := (s.residents core).map fun e => e.2.held
  let blocks := hs.flatMap fun a => a.near ++ a.far
  -- a lender that is off line lends nothing (R426)
  let lends := fun (j : Nat) => j == 0 || !(s.core (lender core j)).offline
  let freeBlocks := fun (c : Nat) =>
    (freeBelow 128 (blocks.filterMap fun b => if b.1 = c then some b.2 else none)).map fun b => (c, b)
  ⟨(freeBelow (3072 * parts) (hs.flatMap (·.rows))).filter fun r => lends (r / 3072), freeBlocks core,
   (List.range (parts - 1)).flatMap fun j => if lends (j + 1) then freeBlocks (lender core (j + 1)) else [],
   s.freeTiles core, freeBelow 1024 (hs.flatMap (·.hents))⟩

/-- Amounts of the resources of R40. -/
structure Need where
  rows : Nat
  near : Nat
  far : Nat
  tiles : Nat
  hnd : Nat
  deriving DecidableEq, Repr

/-- The prologue, whose scratchpad is near (R113). -/
def prologueNeed (r : LaunchRec) : Need := ⟨r.prows, r.pblk, 0, 0, 0⟩

/-- The full allotment on a core: near blocks first, up to what is free (R113). -/
def fullNeed (r : LaunchRec) (free : Alloc) : Need :=
  let near := if r.fblk < free.near.length then r.fblk else free.near.length
  ⟨r.frows, near, r.fblk - near, r.ftiles, r.fhnd⟩

def Alloc.covers (a : Alloc) (n : Need) : Bool :=
  decide (n.rows ≤ a.rows.length) && decide (n.near ≤ a.near.length) && decide (n.far ≤ a.far.length) &&
  decide (n.tiles ≤ a.tiles.length) && decide (n.hnd ≤ a.hents.length)

def Alloc.take (a : Alloc) (n : Need) : Alloc :=
  ⟨a.rows.take n.rows, a.near.take n.near, a.far.take n.far, a.tiles.take n.tiles, a.hents.take n.hnd⟩

/-- Warps of a quarter that W warps need (R25). -/
def warpsIn (W q : Nat) : Nat := (W + 3 - q) / 4

/-- The lowest free workgroup slot. -/
def State.freeSlot (s : State) (core : Nat) : Option Nat := (freeBelow 16 ((s.residents core).map fun e => e.2.slot)).head?

/-- The free warp slots of a quarter, lowest first. -/
def State.freeWarpSlots (s : State) (core q : Nat) : List Nat :=
  let used := (s.residents core).flatMap fun e => e.2.warps.map (·.slot)
  (List.range 16).filterMap fun j => if used.contains (16 * q + j) then none else some (16 * q + j)

/-- The conditions of R41 on a core, but for its light: slots, resources, the Beryl pair (R27), no ACQ waiting. -/
def State.hasRoom (s : State) (core parts : Nat) (r : LaunchRec) (warps : Nat) (full : Bool) : Bool :=
  let free := s.freeOn core parts
  let k := s.core core
  !k.offline && k.acqQ.isEmpty && (s.freeSlot core).isSome &&
  (List.range 4).all (fun q => decide (warpsIn warps q ≤ (s.freeWarpSlots core q).length)) &&
  ((r.limg == 0 && r.simg == 0) || !(s.residents core).any fun e => e.2.beryl) &&
  free.covers (if full then fullNeed r free else prologueNeed r)

/-- How well a core suits a heat class: 0 a quad in its mode, 1 an Indigo workgroup at (1,1) of an Ochre quad, 2 an empty quad
(R44, R45, R367); with the mode that the quad then has. -/
def State.suits (s : State) (heat core : Nat) : Option (Nat × Nat) :=
  let m := s.quadMode (quadOf core)
  let pos := corePos core
  if s.quadEmpty (quadOf core) then (if litAt heat pos then some (2, 1 + heat) else none)
  else if m = 1 + heat && litAt heat pos then some (0, m)
  else if heat = 0 && m = 2 && pos = 3 then some (1, m)
  else none

/-- A core that meets R41 for a grid, with its rank in the order of R367 within a cluster. -/
def State.coreFits (s : State) (r : LaunchRec) (full : Bool) (core : Nat) : Option (Nat × Nat) := do
  let (pref, mode) ← s.suits r.heat core
  if s.hasRoom core (partsUnder mode core) r r.warps full then some (pref, mode) else none

/-- The cores of a cluster that fit, best first: by preference, then by core id. -/
def State.fitting (s : State) (r : LaunchRec) (full : Bool) (cluster : Nat) : List Nat :=
  let fits := (List.range 16).filterMap fun i => (s.coreFits r full (16 * cluster + i)).map fun p => (p.1, 16 * cluster + i)
  [0, 1, 2].flatMap fun p => fits.filterMap fun f => if f.1 = p then some f.2 else none

/-- Clusters in the order of the scan: after the one of the last admission (R367). -/
def State.scan (s : State) : List Nat :=
  let start := match s.lastCluster with | some c => c + 1 | none => 0
  (List.range clusterCount).map fun i => (start + i) % clusterCount

/-- A cluster reserved for a head grid takes only work of queues of equal or higher QPRIO (R366). -/
def State.clusterOpen (s : State) (grid cluster : Nat) : Bool :=
  match s.grid? grid with
  | none => false
  | some g =>
    s.grids.all fun e =>
      match e.2 with
      | some h => h.reserved != some cluster || e.1 == grid || decide ((s.lq h.queue).qprio ≤ (s.lq g.queue).qprio)
      | none => true

/-- The cycles of a cluster, by its first core. -/
def State.clusterCycle (s : State) (cluster : Nat) : Nat := (s.core (16 * cluster)).cycle

/-- Nothing has been admitted to the cluster in this cycle (R366). -/
def State.clusterFree (s : State) (cluster : Nat) : Bool := decide (s.lastAdmit.get 0 cluster ≤ s.clusterCycle cluster)

/-- The cores on which the next team or workgroup of a grid goes: in the first cluster that fits, in rank order (R367). -/
def State.placeIn (s : State) (grid : Nat) (clusters : List Nat) : Option (Nat × List Nat) := do
  let g ← s.grid? grid
  let r : LaunchRec := g.launch
  clusters.findSome? fun c =>
    let fits := s.fitting r (decide (1 < r.team)) c
    if s.clusterOpen grid c && decide (r.team ≤ fits.length) then
      -- ranks follow ascending core id
      let chosen := fits.take r.team
      some (c, (List.range 16).filterMap fun i => if chosen.contains (16 * c + i) then some (16 * c + i) else none)
    else none

/-- The same among the clusters that may still admit in this cycle. -/
def State.placeOf (s : State) (grid : Nat) : Option (Nat × List Nat) := s.placeIn grid (s.scan.filter s.clusterFree)

/-- The next team or workgroup of the grid fits somewhere. -/
def State.fitsNow (s : State) (grid : Nat) : Bool := (s.placeIn grid s.scan).isSome

/-! ### What a workgroup starts with -/

/-- A workgroup's number and its GEN (R277). The number is INSTANCE in its low 32 bits and, above, how often INSTANCE has been reused:
no two workgroups have one number. An INSTANCE that has not been used goes first (log 12). -/
def State.newInstance (s : State) : Nat × Nat × State :=
  match decide (s.nextInst < 2 ^ 32), s.freeInst with
  | false, i :: is =>
    let n := s.gens.get 0 i + 1
    (i + 2 ^ 32 * n, n % 65536, { s with freeInst := is, gens := s.gens.put 0 i n })
  | _, _ => (s.nextInst, 0, { s with nextInst := s.nextInst + 1 })

/-- An address register as a launch presets it. -/
def AReg.preset (base len : Nat) (r w a e : Bool) : AReg :=
  { AReg.zero with ptr := BitVec.ofNat 64 base, base := BitVec.ofNat 64 base, limit := BitVec.ofNat 64 (base + len), r := r, w := w, a := a, e := e }

/-- a0, a1–a7, a14 and a15 (R250, R331). -/
def presets (r : LaunchRec) (sections : List (DWord × DWord)) (records : Option Nat) : Tab AReg :=
  let a := Tab.put AReg.zero [] 0 (.preset (windowBase 4) r.parsz true false false false)
  let a := (List.range 7).foldl (fun a i =>
    match sections[i]? with
    | some (b, n) => if n = 0 then a else a.put AReg.zero (i + 1) (.preset b.toNat n.toNat true true true true)
    | none => a) a
  let a := match records with
    | some n => a.put AReg.zero 14 (.preset (windowBase 2) n true false false false)
    | none => a
  a.put AReg.zero 15 (.preset (windowBase 5) r.privsz true true false false)

/-- A warp as its launch starts it: every thread at the entry clause (R28, R52, R55). -/
def Warp.start (r : LaunchRec) (a : Tab AReg) (entry : DWord) (w slot cycle : Nat) (clk : Clock) : Warp :=
  { Warp.init with
    threads := List.replicate 32 { Thread.init with pc := entry, since := cycle, arrived := cycle }
    a := a
    slot := slot
    stage := r.stage w
    launchPrio := r.prio
    prio := r.prio
    lastIssue := cycle
    readySince := cycle
    recency := 2 * cycle
    clk := clk }

/-- Warp slots in ascending warp index, each the lowest free one of its quarter (R25). -/
def State.slotsFor (s : State) (core warps : Nat) : List Nat :=
  (List.range warps).map fun w => (s.freeWarpSlots core (w % 4)).getD (w / 4) 0

/-- What distinguishes a workgroup at admission. -/
structure Start where
  grid : Nat
  wgid : Nat
  node : Option Nat
  team : Nat
  rank : Nat
  core : Nat
  full : Bool
  entry : DWord
  records : List BinRec
  weight : Nat
  copyOf : Option Nat
  deriving DecidableEq, Repr

/-- The bytes of an instruction store: the section's 16 KiB as they lie in memory (log 17). -/
def State.sectionBytes (s : State) (ctx : Nat) (va : Nat) : Tab Byte :=
  (List.range 2048).foldl (fun t i =>
    match s.readCtx ctx (va + 8 * i) 8 1 with
    | .ok bs => (List.range 8).foldl (fun t j => t.put 0 (8 * i + j) (bs.getD j 0)) t
    | .error _ => t) []

/-- A Beryl core as a launch starts it (log 17). -/
def State.startBeryl (s : State) (ctx inst : Nat) (va : DWord) (clk : Clock) : Beryl :=
  if va = 0 then Beryl.zero
  else { Beryl.zero with st := 1, inst := inst, istore := s.sectionBytes ctx va.toNat, clk := clk }

/-- A workgroup whose %wgid is screened (R428). -/
def State.screens? (s : State) (ctx : Nat) (r : LaunchRec) (x : Start) : Bool :=
  let reg := (s.ctxs.get CtxRegs.zero ctx).scrctl
  let log := if reg.getLsbD 5 then (reg.extractLsb' 0 5).toNat else r.screen
  r.scrn && r.team == 1 && log != 0 && x.node.isNone && x.copyOf.isNone && x.wgid % 2 ^ log == 0

/-- Admits a workgroup on a core. -/
def State.admitOne (s : State) (x : Start) : Nat × State :=
  match s.grid? x.grid with
  | none => (0, s)
  | some gr =>
    let r : LaunchRec := gr.launch
    let (inst, gen, s) := s.newInstance
    let (seq, s) := s.newId
    let mode := match s.suits r.heat x.core with | some (_, m) => m | none => 1 + r.heat
    let s := { s with quads := s.quads.put 0 (quadOf x.core) mode }
    let free := s.freeOn x.core (partsUnder mode x.core)
    let full := free.take (fullNeed r free)
    let pro := if x.full then full.take (prologueNeed r) else free.take (prologueNeed r)
    let size := match x.node with | some n => (match gr.nodes[n]? with | some e => e.size | none => 0) | none => 0
    let recClk := x.records.foldl (fun c b => Clock.join c b.clk) gr.clk
    let cycle := (s.core x.core).cycle
    let slots := s.slotsFor x.core r.warps
    let a := presets r gr.sections (x.node.map fun _ => x.records.length * size)
    let warps := (List.range r.warps).map fun w =>
      let y := Warp.start r a x.entry w (slots.getD w 0) cycle recClk
      let account := x.node.isSome || (r.accv && x.wgid = 0)
      if w = 0 && account then (y.kSet 62 (BitVec.ofNat 32 x.weight) false).kSet 63 (BitVec.ofNat 32 r.acct) false else y
    let beryl := r.limg != 0 || r.simg != 0
    let g : Wg :=
      { gen := gen, ctx := gr.ctx, grid := x.grid, wgid := x.wgid, node := x.node, team := x.team, rank := x.rank, core := x.core,
        slot := (s.freeSlot x.core).getD 0, warps := warps, acq := .none, acqSince := 0, acqReserved := false, pool := pro.rows,
        near := pro.near, far := [], tiles := [], hents := [], reserve := if x.full then some full else none, aseq := seq, conv := [],
        nb := [], slots := [], queues := [], copyBuf := .zero, bankBuf := .zero, fabBuf := .zero, copyDone := [], bankDone := [],
        inbox := [], chans := [], bankOps := [], engClk := [], records := x.records.flatMap (·.data), recMarks := x.records.flatMap (·.marks),
        recBacked := (x.records.filter (·.back)).length, recSize := size, recCount := x.records.length, cycles := 0, faulted := false,
        stuckSince := none, candidate := false, resting := false, saveTo := none, frozen := false, beryl := beryl, signature := 0, screened := s.screens? gr.ctx r x, copyOf := x.copyOf, copyFault := false }
    let s1 := { s with wgs := s.wgs.put none inst (some g) }
    let s2 := s1.modCore x.core fun k =>
      if beryl then { k with loader := s.startBeryl gr.ctx inst r.limg recClk, storer := s.startBeryl gr.ctx inst r.simg recClk } else k
    let c := clusterOf x.core
    (inst, { s2 with lastCluster := some c, lastAdmit := s2.lastAdmit.put 0 c (s2.clusterCycle c + 1) })

/-- The grid has admitted `n` root workgroups, or one of a node: STATE 1 at the first (R363), and its queue's turn passes (R366). A node's
leaves the wait and the reservation of the root workgroups as they are. -/
def State.admitted (s : State) (grid n : Nat) : State :=
  match s.grid? grid with
  | none => s
  | some g =>
    let s := if g.st = .queued then s.writeStatus g.ctx g.launch 0 [1] else s
    let root := n != 0
    let s := s.setGrid grid { g with st := .admitting, nextRoot := g.nextRoot + n, headSince := if root then none else g.headSince,
                                     reserved := if root then none else g.reserved }
    { s with lastQueue := (g.queue + 1) % 64 }

/-! ### Which grid is next (R358, R366) -/

/-- The grid may start: by ORDER, after the grid of the previous entry has completed or has admitted every root. -/
def State.mayStart (s : State) (g : Grid) : Bool :=
  g.started &&
  match g.prev.bind s.grid? with
  | none => true
  | some p => LaunchRec.order g.launch && p.nextRoot == LaunchRec.gridSize p.launch

/-- The head grid of a queue: the first with roots to admit, if it may start. -/
def State.headOf (s : State) (q : Nat) : Option Nat := do
  let id ← (s.lq q).grids.find? fun i => match s.grid? i with | some g => decide (g.nextRoot < LaunchRec.gridSize g.launch) | none => false
  let g ← s.grid? id
  if s.mayStart g then some id else none

/-- The outgoing context of a switch admits nothing (R404). -/
def State.admissionHeld (s : State) (ctx : Nat) : Bool :=
  s.gfaulted.contains ctx || s.heldCtxs.contains ctx

/-- Queues in the order in which they are considered: by QPRIO, and round robin among equals. -/
def State.queueOrder (s : State) : List Nat :=
  (List.range 8).flatMap fun p => ((List.range 64).map fun i => (s.lastQueue + i) % 64).filter fun q => (s.lq q).qprio == 7 - p

/-- The queues that may admit, in that order. -/
def State.openQueues (s : State) : List Nat := s.queueOrder.filter fun q => (s.lq q).en && !s.admissionHeld (s.lq q).ctx

/-- The head grids in that order. -/
def State.heads (s : State) : List Nat := s.openQueues.filterMap s.headOf

/-- The place of a node workgroup: the cluster of its bin when a core there meets R41, though it may have to wait for the cluster; else by
the scan (R368). -/
def State.nodePlace (s : State) (grid cluster : Nat) : Option Nat := do
  let g ← s.grid? grid
  let r : LaunchRec := g.launch
  let clusters := if (s.fitting r false cluster).isEmpty then s.scan else [cluster]
  clusters.findSome? fun c => if s.clusterOpen grid c && s.clusterFree c then (s.fitting r false c).head? else none

/-- The lowest free private index of a grid (R332). -/
def Grid.freeIndex (g : Grid) : Option Nat :=
  let n := LaunchRec.gridSize g.launch
  let used := bitsOf (g.nodeUse.map (· - n))
  ((List.range 8192).find? fun i => !used.testBit i).map (n + ·)

/-- A node workgroup of the grid could be admitted now. -/
def State.nodeReady (s : State) (grid : Nat) : Bool :=
  match s.grid? grid with
  | none => false
  | some g => g.freeIndex.isSome && g.bins.any fun b => !b.closed.isEmpty && (s.nodePlace grid b.cluster).isSome

/-- What a queue admits next: a workgroup of a node of one of its grids, or the next root unit of its head grid, with its cluster and
cores (R366, R368). -/
def State.queueTurn (s : State) (q : Nat) : Option (Nat × Option (Nat × List Nat)) :=
  match (s.lq q).grids.find? s.nodeReady with
  | some id => some (id, none)
  | none => (s.headOf q).bind fun id => (s.placeOf id).map fun p => (id, some p)

/-- What the distributor admits next. -/
def State.admitTurn (s : State) : Option (Nat × Option (Nat × List Nat)) := s.openQueues.findSome? s.queueTurn

/-- The same, if it is a unit of root workgroups. -/
def State.nextAdmission (s : State) : Option (Nat × Nat × List Nat) :=
  s.admitTurn.bind fun t => t.2.map fun p => (t.1, p.1, p.2)

/-- A root workgroup as it starts; the launch names an account for warp 0 of workgroup 0 (R288). -/
def rootStart (gid : Nat) (g : Grid) (wgid team rank core : Nat) (full : Bool) : Start :=
  let r : LaunchRec := g.launch
  { grid := gid, wgid := wgid, node := none, team := team, rank := rank, core := core, full := full, entry := r.wimg, records := [],
    weight := if r.accv && wgid = 0 then 2 ^ 31 else 0, copyOf := none }

def State.addTeam (s : State) (grid : Nat) (warps : Nat) (members : List Nat) (t : Nat) : State :=
  { s with teams := s.teams.put none t (some ⟨grid, members, members, [], warps, []⟩) }

/-- Admits the workgroups of a team, rank by rank; gives their INSTANCEs. -/
def State.admitRanks (s : State) (gid : Nat) (g : Grid) (team first : Nat) (full : Bool) : List Nat → List Nat × State
  | [] => ([], s)
  | c :: cs =>
    let rank := LaunchRec.team g.launch - (cs.length + 1)
    let (i, s) := s.admitOne (rootStart gid g (first + rank) team rank c full)
    let (is, s) := s.admitRanks gid g team first full cs
    (i :: is, s)

/-- Admits the next team of a grid on some cores. -/
def State.admitTeam (s : State) (gid : Nat) (cores : List Nat) : State :=
  match s.grid? gid with
  | none => s
  | some g =>
    let r : LaunchRec := g.launch
    let (t, s) := s.newId
    let (is, s) := s.admitRanks gid g t g.nextRoot (decide (1 < r.team)) cores
    (s.addTeam gid (r.team * r.warps) is t).admitted gid r.team

/-- WORKGROUP_ADMIT: the distributor admits the next root workgroup, which goes to the given cluster. -/
def execWorkgroupAdmit (cluster : Nat) (s : State) : Host.Outcome State Fault Refusal :=
  event s (do
    let (id, c, cores) ← s.nextAdmission
    if c = cluster && cores.length = 1 then some (s.admitTeam id cores) else none)

/-- TEAM_ADMIT: a whole team is admitted, each member with its full allotment reserved (R43). -/
def execTeamAdmit (cluster : Nat) (s : State) : Host.Outcome State Fault Refusal :=
  event s (do
    let (id, c, cores) ← s.nextAdmission
    if c = cluster && decide (1 < cores.length) then some (s.admitTeam id cores) else none)

/-- NODE_WORKGROUP_ADMIT (R331, R366, R368): in its queue's turn, a workgroup of a node with the oldest closed batch of a bin. -/
def execNodeWorkgroupAdmit (grid cluster node : Nat) (s : State) : Host.Outcome State Fault Refusal :=
  event s (do
    let g ← s.grid? grid
    let e ← g.nodes[node]?
    let (batch, g') ← g.takeBatch cluster node
    let wgid ← g.freeIndex
    let core ← s.nodePlace grid cluster
    if s.admitTurn != some (grid, none) then none
    else
      let (t, s) := (s.setGrid grid g').newId
      let (i, s) := s.admitOne
        { grid := grid, wgid := wgid, node := some node, team := t, rank := 0, core := core, full := false, entry := e.entry,
          records := batch, weight := batchGrains batch, copyOf := none }
      let s := (s.addTeam grid (LaunchRec.warps g.launch) [i] t).admitted grid 0
      match s.grid? grid with
      | some g => some (s.setGrid grid { g with nodeLive := i :: g.nodeLive, nodeUse := wgid :: g.nodeUse })
      | none => none)

/-! ### Reservations (R366, R368) -/

/-- The cores of a cluster that meet R41 for the unit that a grid waits to place. -/
def State.fitCount (s : State) (g : Grid) (cluster : Nat) : Nat :=
  let r : LaunchRec := g.launch
  (s.fitting r (decide (1 < r.team)) cluster).length

/-- The cluster closest to fitting: the most cores, the first in scan order among equals. -/
def State.closest (s : State) (g : Grid) : Option Nat :=
  (s.scan.foldl (fun best c =>
    match best with
    | none => some (c, s.fitCount g c)
    | some (b, n) => if n < s.fitCount g c then some (c, s.fitCount g c) else some (b, n)) none).map (·.1)

/-- HEAD_GRID_RESERVE: a head grid that has waited 100 µs reserves a cluster. -/
def execHeadGridReserve (grid : Nat) (s : State) : Host.Outcome State Fault Refusal :=
  event s (do
    let g ← s.grid? grid
    let since ← g.headSince
    if s.heads.contains grid && g.reserved.isNone && !s.fitsNow grid && decide (since + 100000 ≤ s.clockNs) then
      (s.closest g).map fun c => s.setGrid grid { g with reserved := some c }
    else none)

/-- Notes since when head grids that fit nowhere wait. -/
def State.noteHeads (s : State) : State :=
  s.heads.foldl (fun s id =>
    match s.grid? id with
    | some g =>
      let since := if s.fitsNow id then none else (match g.headSince with | some t => some t | none => some s.clockNs)
      if since = g.headSince then s else s.setGrid id { g with headSince := since }
    | none => s) s

/-! ### ACQ (R42) -/

/-- What a workgroup still needs for its full allotment. -/
def Wg.missing (g : Wg) (r : LaunchRec) (free : Alloc) : Need :=
  let blk := r.fblk - (g.near.length + g.far.length)
  let near := if blk < free.near.length then blk else free.near.length
  ⟨r.frows - g.pool.length, near, blk - near, r.ftiles, r.fhnd⟩

/-- ACQ_GRANT: the head request of the core that `State.cur` names is granted all its resources at once. -/
def execAcqGrant (s : State) : Host.Outcome State Fault Refusal :=
  event s (match s.cur with
    | .core n => do
      let inst ← (s.core n).acqQ.head?
      let g ← s.wg? inst
      let free := s.freeOn n (partsUnder (s.quadMode (quadOf n)) n)
      let need := g.missing (s.launchOf g.grid) free
      if !free.covers need then none
      else
        let a := free.take need
        let g := g.grant ⟨g.pool ++ a.rows, g.near ++ a.near, g.far ++ a.far, a.tiles, a.hents⟩
        some ((s.setWg inst g).modCore n fun k => { k with acqQ := k.acqQ.drop 1, acqReserved := false })
    | _ => none)

/-- ACQ_WAIT_RESERVE (R368): a workgroup that has waited in ACQ for 100 µs reserves its core. -/
def execAcqWaitReserve (s : State) : Host.Outcome State Fault Refusal :=
  event s (match s.cur with
    | .core n => do
      let inst ← (s.core n).acqQ.head?
      let g ← s.wg? inst
      if !g.acqReserved && decide (g.acqSince + 100000 ≤ s.clockNs) then
        some ((s.setWg inst { g with acqReserved := true }).modCore n fun k => { k with acqReserved := true })
      else none
    | _ => none)

end Sys2Proof.Machine
end

