-- ==== Sys2Proof/Machine/Rv.lean ====
section
/-! DEFINITION. The arithmetic of RV64IMAC (R13, R317): the manual names the base and extensions, and the RISC-V unprivileged
specification gives them (log 18). -/

namespace Sys2Proof

/-- A register-register or register-immediate operation; shifts use six bits of the second operand. -/
def RvAlu.eval (f : RvAlu) (x y : DWord) : DWord :=
  let n := y.toNat % 64
  match f with
  | .add => x + y
  | .sub => x - y
  | .sll => x <<< n
  | .slt => if x.slt y then 1 else 0
  | .sltu => if x.ult y then 1 else 0
  | .xor => x ^^^ y
  | .srl => x >>> n
  | .sra => x.sshiftRight n
  | .or => x ||| y
  | .and => x &&& y

/-- The 32-bit forms: the result is sign-extended; shifts use five bits. -/
def RvAlu.evalW (f : RvAlu) (x y : DWord) : DWord :=
  let a : Word := x.setWidth 32
  let b : Word := y.setWidth 32
  let n := y.toNat % 32
  let r : Word := match f with
    | .sub => a - b
    | .sll => a <<< n
    | .srl => a >>> n
    | .sra => a.sshiftRight n
    | _ => a + b
  r.signExtend 64

/-- A quotient or remainder of signed numbers of `w` bits: division by zero gives −1 or the dividend, overflow the dividend or
zero. -/
def rvDivS (w : Nat) (rem : Bool) (x y : Int) : Int :=
  if y = 0 then (if rem then x else -1)
  else if x = -(2 ^ (w - 1)) ∧ y = -1 then (if rem then 0 else x)
  else if rem then x.tmod y else x.tdiv y

/-- The same of unsigned numbers. -/
def rvDivU (w : Nat) (rem : Bool) (x y : Nat) : Nat := if y = 0 then (if rem then x else 2 ^ w - 1) else if rem then x % y else x / y

def RvMul.eval (f : RvMul) (x y : DWord) : DWord :=
  match f with
  | .mul => x * y
  | .mulh => BitVec.ofInt 64 (x.toInt * y.toInt / 2 ^ 64)
  | .mulhsu => BitVec.ofInt 64 (x.toInt * (y.toNat : Int) / 2 ^ 64)
  | .mulhu => BitVec.ofNat 64 (x.toNat * y.toNat / 2 ^ 64)
  | .div => BitVec.ofInt 64 (rvDivS 64 false x.toInt y.toInt)
  | .divu => BitVec.ofNat 64 (rvDivU 64 false x.toNat y.toNat)
  | .rem => BitVec.ofInt 64 (rvDivS 64 true x.toInt y.toInt)
  | .remu => BitVec.ofNat 64 (rvDivU 64 true x.toNat y.toNat)

def RvMul.evalW (f : RvMul) (x y : DWord) : DWord :=
  let a : Word := x.setWidth 32
  let b : Word := y.setWidth 32
  let r : Word := match f with
    | .div => BitVec.ofInt 32 (rvDivS 32 false a.toInt b.toInt)
    | .divu => BitVec.ofNat 32 (rvDivU 32 false a.toNat b.toNat)
    | .rem => BitVec.ofInt 32 (rvDivS 32 true a.toInt b.toInt)
    | .remu => BitVec.ofNat 32 (rvDivU 32 true a.toNat b.toNat)
    | _ => a * b
  r.signExtend 64

def RvCond.holds (c : RvCond) (x y : DWord) : Bool :=
  match c with
  | .eq => x == y
  | .ne => x != y
  | .lt => x.slt y
  | .ge => !x.slt y
  | .ltu => x.ult y
  | .geu => !x.ult y

/-- The new value of an AMO on `w` bits. -/
def RvAmo.eval (f : RvAmo) {w : Nat} (x y : BitVec w) : BitVec w :=
  match f with
  | .swap => y
  | .add => x + y
  | .xor => x ^^^ y
  | .and => x &&& y
  | .or => x ||| y
  | .min => if x.slt y then x else y
  | .max => if x.slt y then y else x
  | .minu => if x.ult y then x else y
  | .maxu => if x.ult y then y else x

/-- The operand of a Zicsr instruction: rs1, or its five bits as a number. -/
def RvCsrOp.isImm : RvCsrOp → Bool
  | .rwi | .rsi | .rci => true
  | _ => false

/-- The new value of a CSR. -/
def RvCsrOp.eval (f : RvCsrOp) (old x : DWord) : DWord :=
  match f with
  | .rw | .rwi => x
  | .rs | .rsi => old ||| x
  | .rc | .rci => old &&& ~~~x

/-- Whether the instruction writes the CSR: the set and clear forms with source field zero do not. -/
def RvCsrOp.writes (f : RvCsrOp) (src : BitVec 5) : Bool :=
  match f with
  | .rw | .rwi => true
  | _ => src != 0

end Sys2Proof
end

