-- ==== Sys2Proof/Machine/Beryl.lean ====
section
/-! DEFINITION. The Beryl cores (R13, R317 to R320): fetch, RISC-V exceptions, ordinary instructions, the fqbind CSRs and Xfar. -/

namespace Sys2Proof.Machine

/-! ### The core -/

def State.beryl (s : State) (core which : Nat) : Beryl := if which = 0 then (s.core core).loader else (s.core core).storer

def State.modBeryl (s : State) (core which : Nat) (f : Beryl → Beryl) : State :=
  s.modCore core fun k => if which = 0 then { k with loader := f k.loader } else { k with storer := f k.storer }

/-- Register r; x0 reads as zero and discards writes. -/
def Beryl.reg (b : Beryl) (r : BitVec 5) : DWord := if r = 0 then 0 else b.x.get 0 r.toNat

def Beryl.setReg (b : Beryl) (r : BitVec 5) (v : DWord) : Beryl := if r = 0 then b else { b with x := b.x.put 0 r.toNat v }

/-- A Beryl core at its instruction. -/
structure BCtx where
  core : Nat
  which : Nat
  b : Beryl
  agent : Agent
  len : Nat
  deriving DecidableEq, Repr

namespace BCtx

def reg (x : BCtx) (r : BitVec 5) : DWord := x.b.reg r

/-- Writes a register of the core. -/
def set (x : BCtx) (s : State) (r : BitVec 5) (v : DWord) : State := s.modBeryl x.core x.which fun b => b.setReg r v

end BCtx

/-- The context of the Beryl core that `State.cur` names. -/
def State.bctx? (s : State) (len : Nat) : Option BCtx :=
  match s.cur with
  | .beryl core which =>
    let b := s.beryl core which
    let ctx := match s.wg? b.inst with | some g => g.ctx | none => 0
    some ⟨core, which, b, ⟨.beryl b.inst which, b.inst, core, ctx, 0, 8 + which, 0⟩, len⟩
  | _ => none

/-! ### Exceptions (R317) -/

/-- Beryl exception, with its mcause and mtval. -/
def berylExc (mcause : Nat) (mtval : DWord) : Detail := ⟨0x120, BitVec.ofNat 32 mcause, 0, 7, mtval, none, none, none⟩

def raise {α : Type} (mcause : Nat) (mtval : DWord) : M α := trapWith (berylExc mcause mtval)

/-- The 32 bits at pc, or the 16 of a compressed instruction. -/
def Beryl.wordAt (b : Beryl) : Nat :=
  let byte := fun (i : Nat) => (b.istore.get 0 (b.pc.toNat + i)).toNat
  let low := byte 0 + 256 * byte 1
  if low % 4 = 3 then low + 65536 * (byte 2 + 256 * byte 3) else low

/-- The core stops with a trap (R317, R341): its record is filled and its bit of tpendb is set. -/
def State.berylTrap (s : State) (core which src : Nat) (d : Detail) (parked : Option Parked) : State :=
  let b := s.beryl core which
  let (ctx, slot) := match s.wg? b.inst with | some g => (g.ctx, g.slot) | none => (0, 0)
  let r : TrapReq := ⟨src, d, 0, 0, b.pc, b.pc, BitVec.ofNat 64 b.wordAt, parked, 15⟩
  if s.copyWg b.inst then s.copyFails b.inst
  else s.modBeryl core which fun b => { b with st := 3, trap := some (r.record ctx slot 0 (s.core core).cycle) }

/-- Runs an instruction of `len` bytes. The body leaves pc alone, or moves it and says so by `nav`. A wait leaves the
instruction to issue again. -/
def runBeryl (s : State) (len : Nat) (nav : Bool) (body : BCtx → M State) : Host.Outcome State Fault Refusal :=
  match s.bctx? len with
  | none => .fault .noParty
  | some x =>
    match body x with
    | .ok s' => .next (s'.modBeryl x.core x.which fun b =>
        { b with blocked := false, sleep := none, pc := if nav then b.pc else b.pc + BitVec.ofNat 64 len })
    | .error (.trap d) => .next (s.berylTrap x.core x.which 3 d none)
    | .error (.drop s' d) => .next (s'.berylTrap x.core x.which 3 d none)
    | .error (.block s') | .error (.early s') => .next (s'.modBeryl x.core x.which fun b => { b with blocked := true })

/-! ### The data store -/

def dataBase : Nat := 0x10000

/-- [a, a + n) lies in the data store. -/
def inData (a n : Nat) : Bool := decide (dataBase ≤ a) && decide (a + n ≤ dataBase + 0x4000)

def Beryl.loadBytes (b : Beryl) (a n : Nat) : List Byte := (List.range n).map fun i => b.dstore.get 0 (a - dataBase + i)

def Beryl.storeBytes (b : Beryl) (a : Nat) (bs : List Byte) : Beryl :=
  { b with dstore := (List.range bs.length).foldl (fun t i => t.put 0 (a - dataBase + i) (bs.getD i 0)) b.dstore }

/-- A value of `n` bytes from the data store; load access fault. -/
def berylLoad (x : BCtx) (a : DWord) (n : Nat) : M DWord :=
  if inData a.toNat n then .ok (BitVec.ofNat 64 (leNat (x.b.loadBytes a.toNat n))) else raise 5 a

/-- Stores the low `n` bytes of a value; store access fault. -/
def berylStore (s : State) (x : BCtx) (a : DWord) (n : Nat) (v : DWord) : M State :=
  if inData a.toNat n then .ok (s.modBeryl x.core x.which fun b => b.storeBytes a.toNat (leBytes n (v.toNat % 2 ^ (8 * n))))
  else raise 7 a

/-- Extends a loaded value of 2^w bytes. -/
def extendLoad (w : Nat) (uns : Bool) (v : DWord) : DWord :=
  if uns then v
  else
    match w with
    | 0 => (v.setWidth 8).signExtend 64
    | 1 => (v.setWidth 16).signExtend 64
    | 2 => (v.setWidth 32).signExtend 64
    | _ => v

/-! ### Ordinary instructions (log 18) -/

/-- Moves pc; `b` has the instruction's other effects. -/
def goTo (s : State) (x : BCtx) (pc : DWord) : State := s.modBeryl x.core x.which fun b => { b with pc := pc }

/-- A result to rd, and on to the next instruction. -/
def rvResult (s : State) (x : BCtx) (rd : BitVec 5) (v : DWord) : M State :=
  .ok (goTo (x.set s rd v) x (x.b.pc + BitVec.ofNat 64 x.len))

/-- AMO of 32 or 64 bits; a misaligned one is an address-misaligned exception. -/
def amoInstr (s : State) (x : BCtx) (d : Bool) (rd rs1 : BitVec 5) (f : DWord → DWord) : M State := do
  let a := x.reg rs1
  let n := if d then 8 else 4
  if a.toNat % n != 0 then raise 6 a
  else if !inData a.toNat n then raise 7 a
  else do
    let old := BitVec.ofNat 64 (leNat (x.b.loadBytes a.toNat n))
    let s ← berylStore s x a n (f old)
    rvResult s x rd (if d then old else (old.setWidth 32).signExtend 64)

/-- The effect of an ordinary instruction, pc included. -/
def rvInstr (s : State) (x : BCtx) (i : Rv) : M State :=
  let pc := x.b.pc
  let next := pc + BitVec.ofNat 64 x.len
  match i with
  | .lui rd imm => rvResult s x rd ((imm ++ (0 : BitVec 12) : BitVec 32).signExtend 64)
  | .auipc rd imm => rvResult s x rd (pc + (imm ++ (0 : BitVec 12) : BitVec 32).signExtend 64)
  | .jal rd imm => .ok (goTo (x.set s rd next) x (pc + (imm ++ (0 : BitVec 1) : BitVec 21).signExtend 64))
  | .jalr rd rs1 imm => .ok (goTo (x.set s rd next) x ((x.reg rs1 + imm.signExtend 64) &&& ~~~1))
  | .branch c rs1 rs2 imm =>
    .ok (goTo s x (if c.holds (x.reg rs1) (x.reg rs2) then pc + (imm ++ (0 : BitVec 1) : BitVec 13).signExtend 64 else next))
  | .load w uns rd rs1 imm => do
    let v ← berylLoad x (x.reg rs1 + imm.signExtend 64) (2 ^ w.toNat)
    rvResult s x rd (extendLoad w.toNat uns v)
  | .store w rs1 rs2 imm => do
    let s ← berylStore s x (x.reg rs1 + imm.signExtend 64) (2 ^ w.toNat) (x.reg rs2)
    .ok (goTo s x next)
  | .opImm f rd rs1 imm => rvResult s x rd (f.eval (x.reg rs1) (imm.signExtend 64))
  | .shImm f rd rs1 sh => rvResult s x rd (f.eval (x.reg rs1) (sh.setWidth 64))
  | .op f rd rs1 rs2 => rvResult s x rd (f.eval (x.reg rs1) (x.reg rs2))
  | .addiw rd rs1 imm => rvResult s x rd (RvAlu.add.evalW (x.reg rs1) (imm.signExtend 64))
  | .shImmW f rd rs1 sh => rvResult s x rd (f.evalW (x.reg rs1) (sh.setWidth 64))
  | .opW f rd rs1 rs2 => rvResult s x rd (f.evalW (x.reg rs1) (x.reg rs2))
  | .mulDiv f rd rs1 rs2 => rvResult s x rd (f.eval (x.reg rs1) (x.reg rs2))
  | .mulDivW f rd rs1 rs2 => rvResult s x rd (f.evalW (x.reg rs1) (x.reg rs2))
  | .fence _ _ _ _ _ => .ok (goTo s x next)
  | .ecall => raise 8 0
  | .ebreak => raise 3 pc
  | .csr _ _ _ _ => raise 2 (BitVec.ofNat 64 x.b.wordAt)
  | .lr d _ _ rd rs1 => do
    let a := x.reg rs1
    let n := if d then 8 else 4
    if a.toNat % n != 0 then raise 4 a
    else do
      let v ← berylLoad x a n
      let s := s.modBeryl x.core x.which fun b => { b with reservation := some (a.toNat, n) }
      rvResult s x rd (extendLoad (if d then 3 else 2) false v)
  | .sc d _ _ rd rs1 rs2 => do
    let a := x.reg rs1
    let n := if d then 8 else 4
    if a.toNat % n != 0 then raise 6 a
    else if !inData a.toNat n then raise 7 a
    else do
      let ok := x.b.reservation == some (a.toNat, n)
      let s ← if ok then berylStore s x a n (x.reg rs2) else .ok s
      let s := s.modBeryl x.core x.which fun b => { b with reservation := none }
      rvResult s x rd (if ok then 0 else 1)
  | .amo f d _ _ rd rs1 rs2 =>
    amoInstr s x d rd rs1 fun old =>
      if d then f.eval old (x.reg rs2) else (f.eval (old.setWidth 32 : Word) ((x.reg rs2).setWidth 32)).setWidth 64

def execBerylInstruction (i : Rv) (c : Option (BitVec 16)) (s : State) : Host.Outcome State Fault Refusal :=
  runBeryl s (if c.isSome then 2 else 4) true fun x => rvInstr s x i

/-! ### Ports (R318) -/

/-- What an fqbind register reads as. -/
def Beryl.bindWord (b : Beryl) (p : Nat) : DWord :=
  match b.ports.get none p with
  | none => BitVec.ofNat 64 (b.allow.get 0 p * 256)
  | some q =>
    BitVec.ofNat 64 (2 ^ 31 + b.allow.get 0 p * 256 + q.qidx % 16 * 16 + (if q.recv then 8 else 0) + q.kind % 8)

/-- Writing an fqbind register binds its port as QBIND does; what is written to its reserved bits has no effect (R6). -/
def bindBeryl (s : State) (x : BCtx) (p : Nat) (v : DWord) : M State :=
  let field := fun (i w : Nat) => (v.extractLsb' i w).toNat
  let arg : Word := BitVec.ofNat 32 (field 4 4 + field 8 7 * 16)
  match s.bindPort x.agent p (field 0 3) (v.getLsbD 3) arg with
  | .error d => trapWith d
  | .ok (q, s) => .ok (s.modBeryl x.core x.which fun b =>
      { b with ports := b.ports.put none p (some q), allow := b.allow.put 0 p (field 8 7) })

def execFqbindWrite (f : RvCsrOp) (rd src : BitVec 5) (port : BitVec 4) (s : State) : Host.Outcome State Fault Refusal :=
  runBeryl s 4 false fun x => do
    let p := port.toNat
    let old := x.b.bindWord p
    let v := if f.isImm then src.setWidth 64 else x.reg src
    let s ← if f.writes src then bindBeryl s x p (f.eval old v) else .ok s
    .ok (x.set s rd old)

/-! ### Queues (R319) -/

/-- The workgroup of the core. -/
def berylWg (s : State) (x : BCtx) : M Wg :=
  match s.wg? x.agent.inst with
  | some g => .ok g
  | none => trapCode 0x000

/-- The port that a register names, and its binding; a number above 15 names no port. -/
def berylPort (x : BCtx) (r : BitVec 5) : M (Nat × Port) :=
  let n := (x.reg r).toNat
  match if n ≤ 15 then x.b.ports.get none n else none with
  | some p => .ok (n, p)
  | none => trapWith (indexed 0x100 (n % 256))

/-- The bytes of an entry or command at a data-store address; access fault when misaligned or outside. -/
def entryAddr (a : DWord) (n mcause : Nat) : M Nat :=
  if a.toNat % n == 0 && inData a.toNat n then .ok a.toNat else raise mcause a

/-- Entry words in the data store. -/
def Beryl.words (b : Beryl) (a n : Nat) : List Word := (List.range n).map fun i => BitVec.ofNat 32 (leNat (b.loadBytes (a + 4 * i) 4))

/-- FQ.SEND. On a fabric send port, where a Farale QSEND needs a flag (R275) and a Beryl core has none, it sends; the try form traps
(R319 does not say; log 82: DESIGN CHOICE). -/
def fqSendInstr (try_ : Bool) (s : State) (x : BCtx) (b : BodyX) : M State := do
  let (n, p) ← berylPort x b.rs1
  portOk (!p.recv && !(try_ && p.kind == 6)) n
  let k := entryRegs p.kind
  let a ← entryAddr (x.reg b.rs2) (4 * k) 5
  let g ← berylWg s x
  if g.maySend x.agent p then
    let s := s.reserveEntry x.agent p
    let (_, s) := s.addBerylOp x.core x.agent.inst x.which (.entry p x.agent.stage (x.b.words a k)) x.agent.ctx
    .ok (x.set s b.rd 0)
  else if try_ then .ok (x.set s b.rd 1)
  else .error (.block (s.waitSend x.agent p))

def execFqSend (b : BodyX) (s : State) : Host.Outcome State Fault Refusal :=
  runBeryl s 4 false fun x => fqSendInstr false s x b

def execFqSendTry (b : BodyX) (s : State) : Host.Outcome State Fault Refusal :=
  runBeryl s 4 false fun x => fqSendInstr true s x b

/-- FQ.RECV: acquires (R320). -/
def fqRecvInstr (try_ : Bool) (s : State) (x : BCtx) (b : BodyX) : M State := do
  let (n, p) ← berylPort x b.rs1
  portOk p.recv n
  need (p.kind != 5 || s.ownsTape x.core x.agent.inst) (indexed 0x10d n)
  let a ← entryAddr (x.reg b.rs2) (4 * entryRegs p.kind) 7
  match s.popEntry x.agent p with
  | some (ws, clk, s) =>
    let s := s.modBeryl x.core x.which fun b => b.storeBytes a (ws.flatMap fun w => leBytes 4 w.toNat)
    .ok ((x.set s b.rd 0).acquire x.agent.party clk none)
  | none => if try_ then .ok (x.set s b.rd 1) else .error (.block (s.waitRecv x.agent p))

def execFqRecv (b : BodyX) (s : State) : Host.Outcome State Fault Refusal :=
  runBeryl s 4 false fun x => fqRecvInstr false s x b

def execFqRecvTry (b : BodyX) (s : State) : Host.Outcome State Fault Refusal :=
  runBeryl s 4 false fun x => fqRecvInstr true s x b

/-! ### Handles and copies -/

def execFhGet (b : BodyX) (s : State) : Host.Outcome State Fault Refusal :=
  runBeryl s 4 false fun x =>
    match s.getHandle x.agent.inst (x.reg b.rs1).toNat (x.reg b.rs2).toNat with
    | .error d => trapWith d
    | .ok none => .error (.block s)
    | .ok (some (h, s)) => .ok (x.set s b.rd (h.setWidth 64))

/-- FH.WAIT: a state above 3 names none. -/
def execFhWait (b : BodyX) (s : State) : Host.Outcome State Fault Refusal :=
  runBeryl s 4 false fun x => do
    let st := (x.reg b.rs2).toNat
    need (decide (st ≤ 3)) (.code_ 0x000)
    match s.awaitHandle x.agent.inst ((x.reg b.rs1).setWidth 16) st with
    | .error d => trapWith d
    | .ok none => .error (.block s)
    | .ok (some clk) => .ok ((x.set s b.rd (x.reg b.rs2)).acquire x.agent.party clk none)

/-- WP of a channel once every command in it and one of `n` bytes more is delivered. -/
def Channel.target (k : Channel) (n : Nat) : Nat := k.ops.foldl (fun w o => w + (o.cmd.len - o.sent)) k.wp + n

/-- FCP.ISSUE: as CPY or CPYT; rd receives the WP at which the command's last byte has been delivered. -/
def fcpInstr (timed : Bool) (s : State) (x : BCtx) (b : BodyX) : M State := do
  let at_ ← entryAddr (x.reg b.rs1) 32 5
  let g ← berylWg s x
  let cmd : CopyCmd := ⟨entryBits (x.b.words at_ 8), if timed then some (x.reg b.rs2).toNat else none⟩
  let a := x.agent
  match s.checkCopy a.inst cmd with
  | some d => lateTrap s a d
  | none =>
    lockAtIssue s a s.nextId cmd.spans fun s =>
      let wp := (g.chan_ cmd.chan).target cmd.len
      let (id, s) := s.addBerylOp a.core a.inst x.which (.copy cmd) a.ctx
      let s := s.enterCopy a (s.testFill a.ctx (.new id 0 a cmd true false (s.clockOf a.party) s.clockNs))
      .ok (x.set (s.settleCopies a.inst cmd.chan 64) b.rd (BitVec.ofNat 64 wp))

def execFcpIssue (b : BodyX) (s : State) : Host.Outcome State Fault Refusal :=
  runBeryl s 4 false fun x => fcpInstr false s x b

def execFcpIssueT (b : BodyX) (s : State) : Host.Outcome State Fault Refusal :=
  runBeryl s 4 false fun x => fcpInstr true s x b

/-- The channel that a register names. -/
def berylChan (s : State) (x : BCtx) (r : BitVec 5) : M Channel := do
  let n := (x.reg r).toNat
  need (decide (n ≤ 3)) (.code_ 0x000)
  let g ← berylWg s x
  .ok (g.chan_ n)

def execFwpRead (b : BodyX) (s : State) : Host.Outcome State Fault Refusal :=
  runBeryl s 4 false fun x => do
    let k ← berylChan s x b.rs1
    .ok (x.set s b.rd (BitVec.ofNat 64 k.wp))

def execFwpReadWait (b : BodyX) (s : State) : Host.Outcome State Fault Refusal :=
  runBeryl s 4 false fun x => do
    let k ← berylChan s x b.rs1
    if (x.reg b.rs2).toNat ≤ k.wp then .ok ((x.set s b.rd (BitVec.ofNat 64 k.wp)).acquire x.agent.party k.clk none)
    else .error (.block s)

/-! ### Time and polls -/

def execFtime (b : BodyX) (s : State) : Host.Outcome State Fault Refusal :=
  runBeryl s 4 false fun x => .ok (x.set s b.rd s.now)

/-- The core sleeps at its instruction. -/
def sleepBeryl (s : State) (x : BCtx) (w : Wake) : State := s.modBeryl x.core x.which fun b => { b with sleep := some w }

def execFtimeWait (b : BodyX) (s : State) : Host.Outcome State Fault Refusal :=
  runBeryl s 4 false fun x =>
    if (x.reg b.rs1).toNat ≤ s.now.toNat then .ok (x.set s b.rd s.now)
    else .error (.block (sleepBeryl s x (.time (x.reg b.rs1).toNat)))

/-- The piece of the word that a poll reads: checks 4 to 7 of R243 with the Beryl core as master. -/
def pollPiece (s : State) (x : BCtx) (p : DWord) : M (Piece × State) := do
  need (p.toNat % 4 == 0) ⟨0x086, 4, 0, 7, p, none, none, none⟩
  need (canonical p) ⟨0x080, 0, 0, 7, p, none, none, none⟩
  need (windowOf p != some 4) ⟨0x088, 0, 4, 7, p, none, none, none⟩
  if windowOf p = some 3 ∧ windowOffset p + 4 ≤ 65536 then do
    need ((s.core x.core).tape.owner == some x.agent.inst) (.code_ 0x10d)
    .ok (⟨.tape x.core (windowOffset p), 4, false, 0, 0⟩, s)
  else
    match windowOf p with
    | some w => do
      need (decide (w ≤ 5)) ⟨0x081, 0, 0, 7, p, none, none, none⟩
      match s.checkSpan x.agent.inst .load p 4 with
      | some d => trapWith (if d.code = 0x083 then outOfWindow w p none else d)
      | none => .ok ()
    | none => .ok ()
    match s.engPiece x.agent 1 .load [] p 4 with
    | .error d => trapWith d
    | .ok (pc, _, s) => .ok (pc, s)

/-- One load of a poll at device scope: its word, after checks 8 and 9. -/
def pollWord (s : State) (x : BCtx) (p : DWord) : M (Word × State) := do
  let (pc, s) ← pollPiece s x p
  let a := x.agent
  let clk := s.clockOf a.party
  match s.lockConflict x.core a.ctx (some a.inst) p 4 false with
  | some k => trapWith (s.lockDetail k p none)
  | none =>
    match s.raceOf a.party (Clock.join clk (s.acquired a.party 3 (s.relsOf pc))) false false pc.locs with
    | some q => trapWith ⟨0x090, 0, 0, 7, p, none, some q, none⟩
    | none =>
      let s := s.addHist ⟨a.party, a.party, Clock.epoch clk a.party, false, s.nextId⟩ false pc.locs
      let rs := s.relsOf pc
      let (bs, s) := s.readPiece pc
      .ok (BitVec.ofNat 32 (leNat bs), s.acquire a.party (s.acquired a.party 3 rs) none)

/-- FPOLL (R279, R319): a load whose test fails sleeps for the back-off interval and repeats. -/
def fpollInstr (cmp : Nat) (s : State) (x : BCtx) (b : BodyX) : M State := do
  let now := (s.core x.core).cycle
  let (due, interval) := match x.b.sleep with | some (.poll c k) => (decide (c ≤ now), k) | _ => (true, 16)
  if !due then .error (.block s)
  else
    let (w, s) ← pollWord s x (x.reg b.rs1)
    if pollTest cmp w ((x.reg b.rs2).setWidth 32) then .ok (x.set s b.rd (w.setWidth 64))
    else .error (.block (sleepBeryl s x (.poll (now + interval) (if 2 * interval < 16384 then 2 * interval else 16384))))

def execFpollEq (b : BodyX) (s : State) : Host.Outcome State Fault Refusal := runBeryl s 4 false fun x => fpollInstr 0 s x b
def execFpollNe (b : BodyX) (s : State) : Host.Outcome State Fault Refusal := runBeryl s 4 false fun x => fpollInstr 1 s x b
def execFpollLt (b : BodyX) (s : State) : Host.Outcome State Fault Refusal := runBeryl s 4 false fun x => fpollInstr 2 s x b
def execFpollLe (b : BodyX) (s : State) : Host.Outcome State Fault Refusal := runBeryl s 4 false fun x => fpollInstr 3 s x b
def execFpollGt (b : BodyX) (s : State) : Host.Outcome State Fault Refusal := runBeryl s 4 false fun x => fpollInstr 4 s x b
def execFpollGe (b : BodyX) (s : State) : Host.Outcome State Fault Refusal := runBeryl s 4 false fun x => fpollInstr 5 s x b

end Sys2Proof.Machine
end

