-- ==== Sys2Proof/Machine/Retire.lean ====
section
/-! DEFINITION. The end of a workgroup (R50, R51, R429, R430), of a grid (R363, R365), and the blocked-time limit (R48,
R369). -/

namespace Sys2Proof.Machine

/-! ### What a workgroup holds on its core -/

/-- The identities of the engine operations of a workgroup. -/
def State.engineIds (s : State) (inst : Nat) (g : Wg) : List Nat :=
  ((s.core g.core).mats.filter fun m => m.inst == inst).map (·.id) ++ g.chans.flatMap (fun c => c.2.ops.map (·.id)) ++ g.bankOps.map (·.id)

/-- A party belongs to a workgroup. -/
def Party.isOf (p : Party) (inst : Nat) : Bool := p.inst? == some inst

/-- The core without what a workgroup holds in it. -/
def Core.without (k : Core) (inst : Nat) (g : Wg) (ids : List Nat) : Core :=
  { k with
    locks := k.locks.filter fun l => !ids.contains l.op
    mats := k.mats.filter fun m => m.inst != inst
    ops := k.ops.filter fun o => !o.party.isOf inst
    engWait := k.engWait.filter fun w => !w.party.isOf inst
    acqQ := k.acqQ.filter fun i => i != inst
    acqReserved := k.acqReserved && k.acqQ.head? != some inst
    tape := if k.tape.owner = some inst then .zero else k.tape
    loader := if g.beryl then .zero else k.loader
    storer := if g.beryl then .zero else k.storer
    buftab := g.hents.foldl (fun t e => t.upd Handle.zero e fun h => if h.state = 0 then h else h.freed []) k.buftab }

/-- Frees the resources of a resident workgroup: its rows have no references, its histories are forgotten, and it is no
longer resident (R50, R77). -/
def State.freeResources (s : State) (inst : Nat) (g : Wg) : State :=
  let homes := g.pool.map (rowHome g.core)
  let s := homes.foldl (fun s i => s.modRef i fun _ => 0) s
  let s := s.dropHist fun l =>
    match l with
    | .scratch i _ => i == inst
    | .row c r _ => homes.contains (.phys c r)
    | .word _ => false
  let ids := s.engineIds inst g
  let s := { s with scratchRels := s.scratchRels.filter fun e => e.1.1 != inst, wgs := s.wgs.del inst }
  s.modCore g.core fun k => k.without inst g ids

/-- The workgroup leaves its team; the barriers of the team go with the last (R50). -/
def State.leaveTeam (s : State) (inst team : Nat) : State :=
  match s.team? team with
  | none => s
  | some t =>
    let t := { t with members := t.members.filter fun i => i != inst }
    { s with teams := if t.members.isEmpty then s.teams.del team else s.teams.put none team (some t) }

/-- The grid counts a workgroup that has ended (R363). -/
def State.leaveGrid (s : State) (inst : Nat) (g : Wg) (fault : Bool) (clk : Clock) : State :=
  match s.grid? g.grid with
  | none => s
  | some gr =>
    let gr := match g.node with
      | none => { gr with retired := gr.retired + 1 }
      | some n =>
        { gr with nodeLive := gr.nodeLive.filter fun i => i != inst
                  nodeUse := gr.nodeUse.filter fun i => i != g.wgid
                  backing := gr.backing.upd 0 n fun b => b - g.recBacked }
    s.setGrid g.grid { gr with faults := gr.faults + (if fault then 1 else 0), rel := Clock.join gr.rel clk }

/-- Everything that the parties of a workgroup and its engine operations have done (R138, R151). -/
def State.wgClock (s : State) (inst : Nat) (g : Wg) : Clock :=
  let warps := (List.range g.warps.length).map fun w => (Party.warp inst w, (g.warps.getD w Warp.init).clk)
  let k := s.core g.core
  let beryls := if g.beryl then [(Party.beryl inst 0, k.loader.clk), (Party.beryl inst 1, k.storer.clk)] else []
  let engines := (g.chans.flatMap fun c => c.2.ops.map (·.done)) ++ g.bankOps.map (·.sofar) ++
    (k.mats.filter fun m => m.inst == inst).map (·.sofar)
  engines.foldl Clock.join ((warps ++ beryls).foldl (fun c e => Clock.join c (e.2.release e.1)) g.engClk)

/-! ### Retirement (R50) -/

/-- A Beryl program has ended, or there is none. -/
def Beryl.ended (b : Beryl) : Bool := b.st == 0 || b.st == 2

/-- Every condition of R50 holds. -/
def State.mayRetire (s : State) (inst : Nat) (g : Wg) : Bool :=
  let k := s.core g.core
  g.warps.all (fun w => w.exited && w.cf.isEmpty) && (!g.beryl || (k.loader.ended && k.storer.ended)) &&
  !k.mats.any (fun m => m.inst == inst && !m.complete) && g.chans.all (fun c => c.2.ops.isEmpty) && g.bankOps.isEmpty &&
  g.copyBuf.filled.isEmpty && g.bankBuf.filled.isEmpty && !k.ops.any (fun o => o.party.isOf inst) && !g.resting && !k.offline

/-- The messages of a fabric send buffer that outlive their workgroup are under way on their own (R443). -/
def State.orphanSends (s : State) (inst : Nat) (g : Wg) : State :=
  let rest : List (QEntry × Nat) := g.fabBuf.filled.filter fun (e : QEntry × Nat) => messageMember (messageOf e.1.data) != s.member
  let own := fun (f : Flight) => match f.sender with | some (p, _) => p.isOf inst | none => false
  let s := rest.foldl (fun s (e : QEntry × Nat) => let m := messageOf e.1.data; s.sendMessage (messageMember m) m e.2) s
  { s with flights := (s.flights.map fun f => if own f then { f with sender := none } else f) ++
      rest.map fun (e : QEntry × Nat) => let m := messageOf e.1.data; (⟨m, s.member, none, e.2, messageMember m, false, e.1.clk⟩ : Flight) }

/-- The workgroup is gone: its resources and its INSTANCE are free. -/
def State.endWg (s : State) (inst : Nat) (g : Wg) : State :=
  let s := ((s.orphanSends inst g).freeResources inst g).leaveTeam inst g.team
  { s with freeInst := s.freeInst ++ [inst % 2 ^ 32] }

/-- With no party left, parked commands of a port are abandoned (R444). -/
def State.abandonOrphans (s : State) (inst : Nat) (g : Wg) : State :=
  let k := s.core g.core
  if !(g.warps.all Warp.exited && (!g.beryl || (k.loader.ended && k.storer.ended))) then s
  else
    let s := g.bankOps.foldl (fun s o =>
      if o.parked && o.fromPort then s.endBank inst { o with abandoned := true } else s) s
    g.chans.foldl (fun s c =>
      let s := c.2.ops.foldl (fun s o =>
        if o.parked && o.fromPort then s.setCopy inst c.1 { o with status := 2, posting := true, parked := false } else s) s
      s.settleCopies inst c.1 64) s

/-- WORKGROUP_RETIRE, for the workgroup that `State.cur` names. A screened one leaves its signature for its copy (R429). -/
def execWorkgroupRetire (s : State) : Host.Outcome State Fault Refusal :=
  event s (match s.cur with
    | .wg inst => do
      let before := s
      let s := match s.wg? inst with | some g => s.abandonOrphans inst g | none => s
      let g ← s.wg? inst
      if g.copyOf.isSome || !s.mayRetire inst g then (if s = before then none else some s)
      else
        let s1 := (s.leaveGrid inst g g.faulted (s.wgClock inst g)).endWg inst g
        some (if !g.screened then s1
          else
            let s2 := { s1 with screens := s1.screens ++ [(⟨g.grid, g.wgid, inst, clusterOf g.core, none, g.signature⟩ : Screen)] }
            match s2.grid? g.grid with
            | some gr => s2.setGrid g.grid { gr with copies := gr.copies + 1 }
            | none => s2)
    | _ => none)

/-! ### Screen copies (R429, R430) -/

/-- A core for a copy: on the other die when one fits there, else on another cluster. Reservations, and what a cluster admits in a cycle,
bind it as any admission (R366). -/
def State.copyPlace (s : State) (grid : Nat) (r : LaunchRec) (cluster : Nat) : Option Nat :=
  let other := s.scan.filter fun c => c / 16 != cluster / 16
  let same := s.scan.filter fun c => c / 16 == cluster / 16 && c != cluster
  (other ++ same).findSome? fun c => if s.clusterOpen grid c && s.clusterFree c then (s.fitting r false c).head? else none

/-- SCREEN_COPY_ADMIT: the copy of a retired workgroup is admitted. -/
def execScreenCopyAdmit (i : Nat) (s : State) : Host.Outcome State Fault Refusal :=
  event s (do
    let x ← s.screens[i]?
    let g ← s.grid? x.grid
    let r : LaunchRec := g.launch
    let core ← s.copyPlace x.grid r x.cluster
    if x.copy.isSome || s.admissionHeld g.ctx then none
    else
      let (t, s) := s.newId
      let (c, s) := s.admitOne
        { grid := x.grid, wgid := x.wgid, node := none, team := t, rank := 0, core := core, full := false, entry := r.wimg,
          records := [], weight := 0, copyOf := some x.inst }
      let s := s.addTeam x.grid r.warps [c] t
      some { s with screens := s.screens.set i { x with copy := some c } })

/-- SCREEN_COPY_END: the copy that `State.cur` names ends. A trap, a kill or the loss of its core ends it with an event;
otherwise the signatures are compared. -/
def State.endCopy (s : State) (inst : Nat) (g : Wg) (fault : Bool) : State :=
  let s1 := s.endWg inst g
  let s2 := match s.screens.find? fun x => x.copy == some inst with
    | none => s1
    | some x =>
      let s1 := { s1 with screens := s1.screens.filter fun y => y.copy != some inst }
      if fault then (s1.logOpen 0x187 g.core g.ctx).report g.core 0x187
      else if x.signature = g.signature then s1
      else
        let detail := Config.screenDetail x.wgid x.cluster (clusterOf g.core) x.signature g.signature
        (s1.logEvent 0x186 g.core g.ctx detail).report g.core 0x186
  match s2.grid? g.grid with
  | some gr => s2.setGrid g.grid { gr with copies := gr.copies - 1 }
  | none => s2

def execScreenCopyEnd (s : State) : Host.Outcome State Fault Refusal :=
  event s (match s.cur with
    | .wg inst => do
      let g ← s.wg? inst
      if g.copyOf.isSome && (g.copyFault || s.mayRetire inst g) then some (s.endCopy inst g g.copyFault) else none
    | _ => none)

/-! ### The end of a grid (R363, R365) -/

/-- The grid is complete. -/
def State.gridDone (s : State) (g : Grid) : Bool :=
  g.retired == LaunchRec.gridSize g.launch && g.nodeLive.isEmpty && g.bins.isEmpty && g.backing.isEmpty && g.copies == 0 && s.mayStart g

/-- The bytes of its backing regions are undefined from now on (R292). -/
def State.leaveRegions (s : State) (g : Grid) : State :=
  g.nodes.foldl (fun s n =>
    let (bs, s) := s.freeBytes (NodeEnt.backBytes n)
    s.writeCtx g.ctx (NodeEnt.back n).toNat bs) s

/-- GRID_COMPLETE: the status record is written, STATE last, and NEXT or ALT enters the queue ahead of every untaken entry. -/
def execGridComplete (grid : Nat) (s : State) : Host.Outcome State Fault Refusal :=
  event s (do
    let g ← s.grid? grid
    if !s.gridDone g then none
    else
      let r : LaunchRec := g.launch
      let s := { s.finishStatus g.ctx r g.faults g.poison with grids := s.grids.del grid }
      let s := s.leaveRegions g
      let s := s.modLq g.queue fun l =>
        { l with grids := l.grids.filter fun i => i != grid, clk := Clock.join l.clk g.rel }
      some (s.submitNext g.queue r 0))

/-! ### The blocked-time limit (R48, R369) -/

/-- A thread of a warp of the workgroup can go on by itself, its flags reading zero where it waits for them, or sleeps to a stated
time. -/
def State.moving (s : State) (g : Wg) (w : Warp) (t : Thread) : Bool :=
  match t.st with
  | .ready | .asleep (.time _) => true
  | .flagWait => (match s.header g.core g.ctx 0 t.pc with | .ok (h, _) => w.flagsZero h | .error _ => true)
  | _ => false

/-- A Beryl program is blocked, trapped or over. -/
def Beryl.stuck (b : Beryl) : Bool :=
  b.ended || b.st == 3 || (b.blocked && !(match b.sleep with | some (.time _) => true | _ => false))

/-- Every warp and both Beryl programs of a workgroup are held, blocked or asleep. -/
def State.stuck (s : State) (g : Wg) : Bool :=
  let k := s.core g.core
  (g.frozen || g.warps.all fun w => w.trap.isSome || !w.threads.any (s.moving g w)) &&
  (!g.beryl || g.frozen || (k.loader.stuck && k.storer.stuck))

/-- BLOCKED_TIME_LIMIT: the workgroup that `State.cur` names has been stuck for longer than its context's limit, and becomes a
candidate. The event names core, context and slot; its code is not stated (log 25). -/
def execBlockedTimeLimit (s : State) : Host.Outcome State Fault Refusal :=
  event s (match s.cur with
    | .wg inst => do
      let g ← s.wg? inst
      let since ← g.stuckSince
      let lim := (s.ctxs.get CtxRegs.zero g.ctx).blklim
      if lim != 0 && !g.candidate && s.stuck g && decide (since + 1000 * lim < s.clockNs) then
        let s := (s.setWg inst { g with candidate := true }).modCore g.core fun k => { k with pcand := k.pcand ||| 2 ^ g.slot }
        let (b, s) := s.free
        some (s.logNamed b.toNat g.core g.ctx (BitVec.ofNat 64 g.slot) 0)
      else none
    | _ => none)

end Sys2Proof.Machine
end

