-- ==== Sys2Proof/Machine/Area.lean ====
section
/-! DEFINITION. The save area of a workgroup (R346, R373, R374): where each part lies, its bits, and how RESTWG reads them back. The
manual places the parts and gives their sizes; the bits inside a part are the model's unless another rule lays them out (log 9). -/

namespace Sys2Proof.Machine

/-! ### Fields -/

/-- A number from fields, least significant first: width and value. -/
def bitsFrom : List (Nat × Nat) → Nat
  | [] => 0
  | (w, v) :: t => v % 2 ^ w + 2 ^ w * bitsFrom t

/-- The fields of given widths. -/
def fieldsOf : List Nat → Nat → List Nat
  | [], _ => []
  | w :: ws, x => x % 2 ^ w :: fieldsOf ws (x / 2 ^ w)

/-- Field `i` of a row of fields of `w` bits from bit `lo`. -/
def fieldAt (x lo w i : Nat) : Nat := x / 2 ^ (lo + w * i) % 2 ^ w

/-- What a part reads as: as it was saved while its bits are those that were written, and else as the bits say. -/
def overlay {α : Type} (enc : α → Nat) (dec : α → Nat → α) (old : α) (x : Nat) : α := if enc old = x then old else dec old x

/-- Numbers as a mask, and back. -/
def maskNat (n : Nat) (xs : List Nat) : Nat := (List.range n).foldl (fun m i => if xs.contains i then m + 2 ^ i else m) 0
def natMask (n x : Nat) : List Nat := (List.range n).filter fun i => x.testBit i

/-- A signed 32-bit number. -/
def int32 (x : Nat) : Int := if x < 2 ^ 31 then (x : Int) else (x : Int) - 2 ^ 32

/-! ### Offsets (R373) -/

/-- Bytes rounded up to 4 KiB. -/
def up4k (n : Nat) : Nat := (n + 4095) / 4096 * 4096

/-- Offset of the block of a warp. -/
def warpBlock (w : Nat) : Nat := 0x4000 + 4096 * w

namespace Saved

def rowsAt (x : Saved) : Nat := warpBlock x.wg.warps.length
def scratchAt (x : Saved) : Nat := x.rowsAt + up4k (x.wg.pool.length * 136)
def bytes (x : Saved) : Nat := (x.nearN + x.farN) * 4096
def tilesAt (x : Saved) : Nat := x.scratchAt + up4k (x.bytes + x.bytes / 32)
def handlesAt (x : Saved) : Nat := x.tilesAt + up4k (x.tiles.length * 16896)
def queuesAt (x : Saved) : Nat := x.handlesAt + up4k (x.handles.length * 8)
def inboxAt (x : Saved) : Nat := x.queuesAt + 8192
def tapeAt (x : Saved) : Nat := x.inboxAt + 4096
def storesAt (x : Saved) : Nat := x.tapeAt + if x.tape.isSome then 69632 else 0

/-- The length of the area. -/
def areaLen (x : Saved) : Nat := x.storesAt + if x.wg.beryl then 65536 else 0

/-- Offset in the scratchpad region of a window offset, and back: near bytes, then far ones. -/
def packedAt (x : Saved) (o : Nat) : Nat := if o < farBase then o else x.nearN * 4096 + (o - farBase)
def windowAt (x : Saved) (i : Nat) : Nat := if i < x.nearN * 4096 then i else farBase + (i - x.nearN * 4096)

/-- The descriptor: 4-byte fields, the offsets of the regions last; 0 for a region that the area does not have. -/
def descriptor (x : Saved) (team heat : Nat) : Nat :=
  bitsFrom ([x.wg.ctx, x.wg.wgid, x.wg.team, x.wg.rank + 65536 * team, x.inst, x.wg.gen,
      x.wg.reserve.isSome.toNat + 16 * (heat % 16) + 256 * x.shape,
      x.nearN * 4096, x.farN * 4096, x.wg.pool.length, x.tiles.length, x.handles.length,
      (match x.wg.acq with | .none => 0 | .waiting => 1 | .granted => 2), x.tape.isSome.toNat, warpBlock 0, x.rowsAt, x.scratchAt, x.tilesAt,
      x.handlesAt, x.queuesAt, x.inboxAt, if x.tape.isSome then x.tapeAt else 0, if x.wg.beryl then x.storesAt else 0].map fun v => (32, v))

end Saved

/-! ### Address registers and table entries -/

/-- The 256 bits of an address register (R124), with its mark at bit 244. -/
def AReg.bits (a : AReg) : Nat :=
  bitsFrom [(64, a.ptr.toNat), (64, a.base.toNat), (64, a.limit.toNat), (32, a.modlen.toNat), (16, a.step.toNat), (1, a.r.toNat), (1, a.w.toNat),
    (1, a.a.toNat), (1, a.e.toNat), (1, a.mark.toNat), (11, 0)]

def AReg.ofBits (_ : AReg) (x : Nat) : AReg :=
  { ptr := BitVec.ofNat 64 x, base := BitVec.ofNat 64 (x / 2 ^ 64), limit := BitVec.ofNat 64 (x / 2 ^ 128), modlen := BitVec.ofNat 32 (x / 2 ^ 192),
    step := BitVec.ofNat 16 (x / 2 ^ 224), r := x.testBit 240, w := x.testBit 241, a := x.testBit 242, e := x.testBit 243, mark := x.testBit 244 }

/-- The 64 bits of a buffer-table entry (R127). -/
def Handle.bits (e : Handle) : Nat :=
  e.state % 4 * 2 ^ 62 + e.gen % 64 * 2 ^ 56 + e.offset % 2 ^ 21 * 2 ^ 32 + e.length % 2 ^ 22

def Handle.ofBits (e : Handle) (x : Nat) : Handle :=
  { e with state := fieldAt x 62 2 0, gen := fieldAt x 56 6 0, offset := fieldAt x 32 21 0, length := fieldAt x 0 22 0 }

/-! ### Slots, barriers, convergence registers -/

/-- A hand-off slot: state and row ordinal. -/
def HandOff.bits (h : HandOff) : Nat :=
  match h.st with
  | .empty => 0
  | .reserved => 1
  | .occupied r _ => 2 + 4 * (r % 16384)

def HandOff.ofBits (h : HandOff) (x : Nat) : HandOff :=
  { h with st := match x % 4 with
      | 0 => .empty
      | 2 => .occupied (fieldAt x 2 14 0) (match h.st with | .occupied _ c => c | _ => [])
      | _ => .reserved }

/-- The members of a phase as a mask of `n` bits: 32 warps by rank. -/
def memberMask (n : Nat) (ms : List Member) : Nat := maskNat n (ms.map fun m => 32 * m.1 + m.2)
def maskMembers (n x : Nat) : List Member := (natMask n x).map fun i => (i / 32, i % 32)

/-- A barrier (R267): PHASE, EXPECT, that of NEXT, TX, and the masks ARRIVED, REG and NEXT. -/
def Barrier.bits (n : Nat) (b : Barrier) : Nat :=
  bitsFrom [(16, b.phase), (10, b.cur.expect), (10, b.next.expect), (32, (b.tx % 2 ^ 32).toNat), (n, memberMask n b.cur.joined),
    (n, memberMask n b.cur.reg), (n, memberMask n b.next.joined)]

def Barrier.ofBits (n : Nat) (b : Barrier) (x : Nat) : Barrier :=
  match fieldsOf [16, 10, 10, 32, n, n, n] x with
  | [phase, expect, next, tx, joined, reg, nextJoined] =>
    { b with
      phase := phase
      cur := { b.cur with expect := expect, joined := maskMembers n joined, reg := maskMembers n reg }
      next := { b.next with expect := next, joined := maskMembers n nextJoined, reg := maskMembers n nextJoined }
      tx := int32 tx }
  | _ => b

/-- A convergence register (R39): the round's mask and word, what each warp has signed, the operands of the last signer, and the flag
that each warp counted. -/
def Conv.bits (c : Conv) : Nat :=
  let flag := fun (w : Nat) => match c.flags.find? fun f => f.1 == w with | some f => f.2 | none => 0
  bitsFrom ([(32, c.mask.toNat), (1, c.isOpen.toNat), (31, 0), (64, c.word.toNat)] ++
    (List.range 32).map (fun w => (32, (c.signed.get 0 w).toNat)) ++ (List.range 32).map (fun w => (4, flag w)) ++
    match c.last with
    | some m => [(1, 1), (255, m.aA.bits), (255, m.aB.bits), (64, m.fsA.toNat), (64, m.fsB.toNat)]
    | none => [])

def Conv.ofBits (c : Conv) (x : Nat) : Conv :=
  { c with
    mask := BitVec.ofNat 32 x
    isOpen := x.testBit 32
    word := BitVec.ofNat 64 (x / 2 ^ 64)
    signed := (List.range 32).foldl (fun t w => t.put 0 w (BitVec.ofNat 32 (fieldAt x 128 32 w))) []
    flags := (List.range 32).filterMap fun w => if fieldAt x 1152 4 w = 0 then none else some (w, fieldAt x 1152 4 w)
    last := c.last.map fun (m : MatOp) =>
      { m with aA := m.aA.ofBits (fieldAt x 1281 255 0), aB := m.aB.ofBits (fieldAt x 1536 255 0),
               fsA := BitVec.ofNat 64 (x / 2 ^ 1791), fsB := BitVec.ofNat 64 (x / 2 ^ 1855) } }

/-! ### Engine operations (R149, R345) -/

/-- A saved engine operation. -/
inductive EngOp where
  | mat (m : MatOp)
  | copy (chan : Nat) (o : CopyOp)
  | bank (o : BankOp)
  deriving DecidableEq, Repr

/-- The engine operations of a saved workgroup in the order of their entries. -/
def Saved.engOps (x : Saved) : List EngOp :=
  x.mats.map .mat ++ x.wg.chans.flatMap (fun c => c.2.ops.map fun o => .copy c.1 o) ++ x.wg.bankOps.map .bank

def EngOp.id : EngOp → Nat
  | .mat m => m.id
  | .copy _ o => o.id
  | .bank o => o.id

/-- The operands of a matrix operation in 224 bits: the operand block of MMA and MMAC (R301), else SCALE and the stride or index. -/
def MatOp.operands (m : MatOp) : Nat :=
  match m.kind with
  | .mma | .mmac => m.block.toNat % 2 ^ 224
  | _ => bitsFrom [(64, m.scale.toNat), (32, m.kk)]

/-- The number of a format slot among the eight of the launch record `fs`. -/
def fsIndex (fs : Nat → DWord) (f : DWord) : Nat := ((List.range 8).find? fun i => fs i == f).getD 0

/-- The command of a matrix operation: what it has kept of its operands. -/
def MatOp.command (fs : Nat → DWord) (m : MatOp) : Nat :=
  bitsFrom [(64, m.aA.ptr.toNat), (64, m.aB.ptr.toNat), (224, m.operands), (7, m.kk / 16), (3, fsIndex fs m.fsA), (3, fsIndex fs m.fsB),
    (1, m.z.toNat), (1, m.int.toNat), (2, m.act), (1, m.bv.toNat), (1, m.put.toNat), (14, m.row)]

/-- The causes queued for an operation: on the flags that counted it, or for the party that takes them (R166, R444). -/
def Saved.causeOf (x : Saved) (id : Nat) : Option Detail :=
  let queued := fun (ds : List Deferred) => ds.findSome? fun d => if d.parked.any (·.id == id) then some d.cause else none
  (x.wg.warps.findSome? fun w =>
    (w.errq.findSome? fun q => q.2.findSome? fun e => if e.op = id then some e.cause else none).orElse fun _ => queued w.deferred).orElse fun _ =>
  (queued x.loader.deferred).orElse fun _ => queued x.storer.deferred

/-- An entry of 64 bytes: in 387 bits the command, with the deadline of a CPYT and the bytes that a copy has sent; the restart state as teng
names it, with the flag; whether it is parked; code and VALUE of the queued cause. -/
def EngOp.bits (fs : Nat → DWord) (cause : Option Detail) (e : EngOp) : Nat :=
  let entry := fun (cmd : Nat) (p : Parked) (flag : Nat) (parked : Bool) =>
    bitsFrom ([(387, cmd), (64, (engWord p flag).toNat), (1, parked.toNat)] ++
      match cause with | some d => [(9, d.code), (32, d.value.toNat)] | none => [])
  match e with
  | .mat m => entry (m.command fs) m.parkedAs (match m.flags with | f :: _ => f.2 | [] => 0) m.parked
  | .copy _ o => entry (bitsFrom [(256, o.cmd.raw.toNat), (64, o.sent), (1, o.cmd.deadline.isSome.toNat), (64, o.cmd.deadline.getD 0)]) o.parkedAs
      (if o.fromPort then 15 else o.flag) o.parked
  | .bank o => entry o.cmd.raw.toNat o.parkedAs (if o.fromPort then 15 else o.flag) o.parked

def MatOp.ofCommand (fs : Nat → DWord) (m : MatOp) (x : Nat) : MatOp :=
  let mma := match m.kind with | .mma | .mmac => true | _ => false
  let slot := fun (old : DWord) (i : Nat) => if fsIndex fs old = i then old else fs i
  { m with
    aA := { m.aA with ptr := BitVec.ofNat 64 x }
    aB := { m.aB with ptr := BitVec.ofNat 64 (x / 2 ^ 64) }
    block := if mma then BitVec.ofNat 256 (fieldAt x 128 224 0) else m.block
    scale := if mma then m.scale else BitVec.ofNat 64 (x / 2 ^ 128)
    kk := if mma then 16 * fieldAt x 352 7 0 else fieldAt x 192 32 0
    fsA := slot m.fsA (fieldAt x 359 3 0), fsB := slot m.fsB (fieldAt x 362 3 0)
    z := x.testBit 365, int := x.testBit 366, act := fieldAt x 367 2 0, bv := x.testBit 369, put := x.testBit 370, row := fieldAt x 371 14 0 }

def EngOp.ofBits (fs : Nat → DWord) (e : EngOp) (x : Nat) : EngOp :=
  let parked := x.testBit 451
  let progress := fieldAt x 419 16 0
  let raw := BitVec.ofNat 256 x
  match e with
  | .mat m => .mat { m.ofCommand fs x with progress := progress, parked := parked }
  | .copy n o =>
    let deadline := if x.testBit 320 then some (fieldAt x 321 64 0) else none
    .copy n { o with cmd := { o.cmd with raw := raw, deadline := deadline }, parked := parked, sent := fieldAt x 256 64 0 }
  | .bank o => .bank { o with cmd := { o.cmd with raw := raw }, parked := parked, progress := progress }

/-- Code and VALUE of an entry's cause become those of the operation's queued causes. -/
def Saved.setCause (x : Saved) (id code value : Nat) : Saved :=
  let detail := fun (d : Detail) => { d with code := code, value := BitVec.ofNat 32 value }
  let queued := fun (ds : List Deferred) => ds.map fun (d : Deferred) => if d.parked.any (·.id == id) then { d with cause := detail d.cause } else d
  { x with
    wg := { x.wg with warps := x.wg.warps.map fun (w : Warp) =>
      { w with deferred := queued w.deferred
               errq := w.errq.map fun q => (q.1, q.2.map fun (e : ErrRec) => if e.op = id then { e with cause := detail e.cause } else e) } }
    loader := { x.loader with deferred := queued x.loader.deferred }
    storer := { x.storer with deferred := queued x.storer.deferred } }

/-- A range lock: valid, destination, context, the operation by its entry, base and length. -/
def RangeLock.bits (ids : List Nat) (l : RangeLock) : Nat :=
  bitsFrom [(1, 1), (1, l.dest.toNat), (12, l.ctx), (8, ids.findIdx fun i => i == l.op), (42, 0), (64, l.base), (64, l.len)]

def RangeLock.ofBits (ids : List Nat) (inst x : Nat) : Option RangeLock :=
  if x.testBit 0 then
    (ids[fieldAt x 14 8 0]?).map fun i => ⟨i, fieldAt x 2 12 0, inst, fieldAt x 64 64 0, fieldAt x 128 64 0, x.testBit 1⟩
  else none

/-- A channel: WP, and its commands in order by their entries. -/
def Channel.bits (ids : List Nat) (c : Channel) : Nat :=
  bitsFrom ([(64, c.wp), (8, c.ops.length)] ++ c.ops.map fun o => (8, ids.findIdx fun i => i == o.id))

def Channel.ofBits (ids : List Nat) (c : Channel) (x : Nat) : Channel :=
  { c with
    wp := fieldAt x 0 64 0
    ops := (List.range (fieldAt x 64 8 0)).filterMap fun j => (ids[fieldAt x 72 8 j]?).bind fun i => c.ops.find? fun o => o.id == i }

/-! ### Trap records, Beryl cores -/

def TrapRec.bits (r : TrapRec) : Nat :=
  bitsFrom ([r.cause, r.pc, r.resume, r.word, r.addr, r.info, r.lanes, r.eng].map fun (v : DWord) => (64, v.toNat))

def trapBits : Option TrapRec → Nat
  | some r => r.bits
  | none => 0

/-- A record of the area: none when all its bytes are zero. -/
def trapOfBits (old : Option TrapRec) (x : Nat) : Option TrapRec :=
  let f := fun (i : Nat) => BitVec.ofNat 64 (fieldAt x 0 64 i)
  if x = 0 then none
  else
    let r : TrapRec := old.getD ⟨0, 0, 0, 0, 0, 0, 0, 0, f 2, BitVec.ofNat 32 (fieldAt x 0 64 6), none, false, 0, true, none⟩
    some { r with cause := f 0, pc := f 1, resume := f 2, word := f 3, addr := f 4, info := f 5, lanes := f 6, eng := f 7 }

/-- What a sleep has left: kind, cycles left or time or account, and the next POLL interval. -/
def Wake.fields (now : Nat) : Option Wake → List (Nat × Nat)
  | none => [(3, 0), (64, 0), (16, 0)]
  | some (.cycle c) => [(3, 1), (64, c - now), (16, 0)]
  | some (.poll c k) => [(3, 2), (64, c - now), (16, k)]
  | some (.time t) => [(3, 3), (64, t), (16, 0)]
  | some (.account a) => [(3, 4), (64, a), (16, 0)]

def wakeOf (now kind v k : Nat) : Option Wake :=
  match kind with
  | 1 => some (.cycle (now + v))
  | 2 => some (.poll (now + v) k)
  | 3 => some (.time v)
  | 4 => some (.account v)
  | _ => none

/-- The registers of a Beryl core: state, pc, x0–x31, its ports as fqbind reads them, reservation, sleep. -/
def Beryl.bits (now : Nat) (b : Beryl) : Nat :=
  bitsFrom ([(8, b.st), (8, b.blocked.toNat), (48, 0), (64, b.pc.toNat)] ++ (List.range 32).map (fun n => (64, (b.x.get 0 n).toNat)) ++
    (List.range 16).map (fun p => (64, (b.bindWord p).toNat)) ++
    (match b.reservation with | some (a, n) => [(1, 1), (32, a), (8, n)] | none => [(41, 0)]) ++ Wake.fields now b.sleep)

/-- A port as its fqbind register reads. -/
def portOfWord (x : Nat) : Option Port := if x.testBit 31 then some ⟨fieldAt x 0 3 0, x.testBit 3, fieldAt x 4 4 0⟩ else none

def Beryl.ofBits (now : Nat) (b : Beryl) (x : Nat) : Beryl :=
  let bind := fun (p : Nat) => fieldAt x 2176 64 p
  { b with
    st := fieldAt x 0 8 0
    blocked := x.testBit 8
    pc := BitVec.ofNat 64 (x / 2 ^ 64)
    x := (List.range 32).foldl (fun t n => t.put 0 n (BitVec.ofNat 64 (fieldAt x 128 64 n))) []
    ports := (List.range 16).foldl (fun t p => t.put none p (portOfWord (bind p))) []
    allow := (List.range 16).foldl (fun t p => t.put 0 p (fieldAt (bind p) 8 7 0)) []
    reservation := if x.testBit 3200 then some (fieldAt x 3201 32 0, fieldAt x 3233 8 0) else none
    sleep := wakeOf now (fieldAt x 3241 3 0) (fieldAt x 3244 64 0) (fieldAt x 3308 16 0) }

/-! ### Warp blocks (R374) -/

/-- The state of a thread as a number. -/
def ThreadSt.num : ThreadSt → Nat
  | .ready => 0
  | .held => 1
  | .flagWait => 2
  | .blocked _ => 3
  | .asleep _ => 4
  | .exited .normal => 5
  | .exited .poison => 6
  | .exited .fault => 7
  | .doomed .. => 8

def ThreadSt.wake : ThreadSt → Option Wake
  | .asleep w => some w
  | _ => none

def ThreadSt.ofNum (old : ThreadSt) (n : Nat) (w : Option Wake) : ThreadSt :=
  match n with
  | 1 => .held
  | 2 => .flagWait
  | 3 => match old with | .blocked t => .blocked t | _ => .ready
  | 4 => match w with | some k => .asleep k | none => .ready
  | 5 => .exited .normal
  | 6 => .exited .poison
  | 7 => .exited .fault
  | 8 => match old with | .doomed o u => .doomed o u | _ => .ready
  | _ => .ready

/-- A thread: PC, `m`, four stack entries, depth, which of those words are valid, state, sleep, the slot of the suspended instruction in
its clause. -/
def Thread.bits (now : Nat) (t : Thread) : Nat :=
  let word := fun (o : Option DWord) => match o with | some v => v.toNat | none => 0
  let entry := fun (i : Nat) => t.stack.getD i none
  bitsFrom ([(64, t.pc.toNat), (64, word t.m)] ++ (List.range 4).map (fun i => (64, word (entry i))) ++
    [(3, t.stack.length), (1, t.m.isSome.toNat)] ++ (List.range 4).map (fun i => (1, (entry i).isSome.toNat)) ++ [(4, t.st.num)] ++
    Wake.fields now t.st.wake ++ [(6, match t.clause with | some c => (t.pc.toNat - c.1.toNat) / 8 + 1 | none => 0)])

def Thread.ofBits (now : Nat) (t : Thread) (x : Nat) : Thread :=
  let word := fun (lo v : Nat) => if x.testBit v then some (BitVec.ofNat 64 (x / 2 ^ lo)) else none
  let pc : DWord := BitVec.ofNat 64 x
  let slot := fieldAt x 479 6 0
  { t with
    pc := pc
    m := word 64 387
    stack := (List.range (fieldAt x 384 3 0)).map fun i => word (128 + 64 * i) (388 + i)
    st := t.st.ofNum (fieldAt x 392 4 0) (wakeOf now (fieldAt x 396 3 0) (fieldAt x 399 64 0) (fieldAt x 463 16 0))
    clause := if slot = 0 then none else t.clause.bind fun c => if c.1.toNat + 8 * (slot - 1) = pc.toNat then some c else none }

/-- The eight bytes of a thread's part that hold p0–p6 and their marks are its last. -/
def Warp.lanePreds (w : Warp) (l : Nat) : Nat :=
  bitsFrom ((List.range 7).map (fun n => (1, ((w.p.get 0 n).has l).toNat)) ++ (List.range 7).map fun n => (1, ((w.pMark.get 0 n).has l).toNat))

def Warp.threadBits (w : Warp) (now l : Nat) : Nat := bitsFrom [(488, (w.threads.getD l Thread.init).bits now), (24, w.lanePreds l)]

/-- k0–k63 and their marks, kp0–kp3 and theirs. -/
def Warp.uniformBits (w : Warp) : Nat :=
  bitsFrom ((List.range 64).map (fun n => (32, (w.kGet n).toNat)) ++ (List.range 64).map (fun n => (1, (w.kMarked n).toNat)) ++
    (List.range 4).map (fun n => (1, (w.kpGet n).toNat)) ++ (List.range 4).map fun n => (1, (w.kpMark.get false n).toNat))

/-- A binding: valid, kind, direction, index. -/
def portBits : Option Port → Nat
  | some p => bitsFrom [(1, 1), (4, p.kind), (1, p.recv.toNat), (16, p.qidx)]
  | none => 0

def portOfBits (x : Nat) : Option Port := if x.testBit 0 then some ⟨fieldAt x 1 4 0, x.testBit 5, fieldAt x 6 16 0⟩ else none

/-- A flag in nine bytes: its count, its error records, code and VALUE of the first and the codes of the two behind it. -/
def flagBits (f : Nat × List ErrRec) : Nat :=
  let code := fun (i : Nat) => match f.2[i]? with | some e => e.cause.code | none => 0
  bitsFrom [(6, f.1), (6, f.2.length), (9, code 0), (32, match f.2 with | e :: _ => e.cause.value.toNat | [] => 0), (9, code 1), (9, code 2)]

def flagOfBits (f : Nat × List ErrRec) (x : Nat) : Nat × List ErrRec :=
  let code := fun (i : Nat) (e : ErrRec) (v : Word) => { e with cause := { e.cause with code := fieldAt x i 9 0, value := v } }
  (fieldAt x 0 6 0,
   match f.2.take (fieldAt x 6 6 0) with
   | [] => []
   | [a] => [code 12 a (BitVec.ofNat 32 (fieldAt x 21 32 0))]
   | [a, b] => [code 12 a (BitVec.ofNat 32 (fieldAt x 21 32 0)), code 53 b b.cause.value]
   | a :: b :: c :: es => code 12 a (BitVec.ofNat 32 (fieldAt x 21 32 0)) :: code 53 b b.cause.value :: code 62 c c.cause.value :: es)

/-- A map entry: valid bit and row ordinal. -/
def mapBits : Option Nat → Nat
  | some r => 1 + 2 * (r % 16384)
  | none => 0

def mapOfBits (x : Nat) : Option Nat := if x.testBit 0 then some (fieldAt x 1 14 0) else none

/-- Stage, launch priority and priority. -/
def Warp.ranks (w : Warp) : Nat := bitsFrom [(8, w.stage), (8, w.launchPrio), (8, w.prio)]

/-! ### Blocked and suspended operations (R374) -/

/-- An entry of a blocked or suspended group: its lanes, what it waits for, the index of that, and a row, a phase or an interval. -/
def groupBits (group : Mask) (kind i arg : Nat) : Nat := bitsFrom [(32, group.toNat), (8, kind), (8, i), (16, arg)]

/-- The lists of waiting parties that a workgroup has, each with its kind and index, through a function. -/
def Wg.mapWaits (g : Wg) (f : Nat → Nat → List Wait → List Wait) : Wg :=
  { g with
    slots := g.slots.map fun (e : Nat × HandOff) => (e.1, { e.2 with givers := f 1 e.1 e.2.givers, takers := f 2 e.1 e.2.takers })
    queues := g.queues.map fun (e : Nat × Queue) => (e.1, { e.2 with senders := f 3 e.1 e.2.senders, receivers := f 4 e.1 e.2.receivers })
    copyBuf := { g.copyBuf with senders := f 5 0 g.copyBuf.senders }
    bankBuf := { g.bankBuf with senders := f 6 0 g.bankBuf.senders }
    fabBuf := { g.fabBuf with senders := f 7 0 g.fabBuf.senders } }

/-- The same lists with their entries. -/
def Wg.waits (g : Wg) : List (Nat × Nat × List Wait) :=
  g.slots.flatMap (fun e => [(1, e.1, e.2.givers), (2, e.1, e.2.takers)]) ++ g.queues.flatMap (fun e => [(3, e.1, e.2.senders), (4, e.1, e.2.receivers)]) ++
  [(5, 0, g.copyBuf.senders), (6, 0, g.bankBuf.senders), (7, 0, g.fabBuf.senders)]

/-- What a warp waits for at barriers: kind 8 and 10 at the workgroup's own, 9 and 11 at those of the team. -/
def barWaits (t : Tab Barrier) (kind rank inst w : Nat) : List Nat :=
  t.flatMap fun e =>
    ((e.2.waiters.filter fun b => b.rank == rank && b.warp == w).map fun b => groupBits b.group kind e.1 b.phase) ++
    (e.2.arrivers.filter fun x => x.party == .warp inst w).map fun x => groupBits x.group (kind + 2) e.1 x.arg

/-- Barriers with the groups of the entries that `f` finds for those of a warp. -/
def mapBarWaits (t : Tab Barrier) (kind rank inst w : Nat) (f : Nat → Option Nat) : Tab Barrier :=
  t.map fun (e : Nat × Barrier) => (e.1, { e.2 with
    waiters := e.2.waiters.filterMap fun (b : BarWait) =>
      if b.rank = rank ∧ b.warp = w then (f (groupBits b.group kind e.1 b.phase)).map fun v => { b with group := BitVec.ofNat 32 v, phase := fieldAt v 48 16 0 }
      else some b
    arrivers := e.2.arrivers.filterMap fun (x : Wait) =>
      if x.party = .warp inst w then (f (groupBits x.group (kind + 2) e.1 x.arg)).map fun v => { x with group := BitVec.ofNat 32 v, arg := fieldAt v 48 16 0 }
      else some x })

/-- The lanes of each state of a list of threads, with the state. -/
def lanesBy {α : Type} [DecidableEq α] (ts : List Thread) (f : Thread → Option α) : List (Mask × α) :=
  let xs := (List.range ts.length).filterMap fun l => (f (ts.getD l Thread.init)).map fun a => (l, a)
  (xs.map (·.2)).eraseDups.map fun a => (Lanes.mask fun l => xs.contains (l, a), a)

/-- The groups of a warp that are blocked or suspended: in the workgroup's lists (kinds 1 to 11), at the tape (12), at the issue of
an engine operation (13), blocked on a state that no list holds, such as an ACQ, HWAIT or WWAIT (14), asleep in POLL with its next
interval (15), and the operations that a fence holds (16), of a POLL with its next interval (17). -/
def Saved.waitsOf (x : Saved) (t : Team) (w : Nat) : List Nat :=
  let p := Party.warp x.inst w
  let mine := fun (e : Nat × Nat × List Wait) => (e.2.2.filter fun v => v.party == p).map fun v => groupBits v.group e.1 e.2.1 v.arg
  let listed := (x.wg.waits ++ [(12, 0, match x.tape with | some t => t.waiters | none => []), (13, 0, x.engWait)]).flatMap mine ++
    barWaits x.wg.nb 8 0 x.inst w ++ barWaits t.tb 9 x.wg.rank x.inst w
  let seen := listed.foldl (fun m v => m ||| BitVec.ofNat 32 v) (0 : Mask)
  let ts := (x.wg.warps.getD w Warp.init).threads
  listed ++
  ((lanesBy ts fun t => match t.st with | .blocked k => some k | _ => none).filter fun e => e.1 &&& seen == 0).map (fun e => groupBits e.1 14 0 0) ++
  (lanesBy ts fun t => match t.st with | .asleep (.poll _ k) => some k | _ => none).map (fun e => groupBits e.1 15 0 e.2) ++
  x.ops.filterMap fun o =>
    if o.party = p then (match o.eff with
      | .held _ _ _ _ _ _ _ _ (some a) => some (groupBits o.group 17 o.flag a.2)
      | .held .. => some (groupBits o.group 16 o.flag 0)
      | _ => none)
    else none

/-! ### Rows, queues, tape -/

/-- REF, poison and the free bit of a row. -/
def Row.tail (r : Row) : Nat := bitsFrom [(32, r.poison.toNat), (16, r.ref), (15, 0), (1, (r.ref == 0).toNat)]

/-- The words of a list as one number. -/
def wordsNat (ws : List Word) : Nat := bitsFrom (ws.map fun w => (32, w.toNat))

/-- A named queue (R274): entries, reservations, limits, outstanding counts, the stage and the value of each entry. -/
def Queue.bits (q : Queue) : Nat :=
  let e := fun (i : Nat) => q.entries[i]?
  bitsFrom ([(8, q.entries.length), (8, q.reserved)] ++ (List.range 10).map (fun i => (8, q.limit.get 64 i)) ++ (List.range 10).map (fun i => (8, q.out.get 0 i)) ++
    (List.range 64).map (fun i => (4, match e i with | some x => x.stage | none => 0)) ++
    (List.range 64).map fun i => (32, match e i with | some x => (x.data.getD 0 0).toNat | none => 0))

/-- An entry as the area holds it: a new one orders nothing. -/
def entryOfBits (inst : Nat) (old : Option QEntry) (data : List Word) (stage : Nat) : QEntry :=
  match old with
  | some e => { e with data := data, stage := stage }
  | none => ⟨data, stage, .warp inst 0, [], 0, 0⟩

def Queue.ofBits (inst : Nat) (q : Queue) (x : Nat) : Queue :=
  { q with
    entries := (List.range (fieldAt x 0 8 0)).map fun i =>
      entryOfBits inst q.entries[i]? [BitVec.ofNat 32 (fieldAt x 432 32 i)] (fieldAt x 176 4 i)
    reserved := fieldAt x 8 8 0
    limit := (List.range 10).foldl (fun t i => t.put 64 i (fieldAt x 16 8 i)) []
    out := (List.range 10).foldl (fun t i => t.put 0 i (fieldAt x 96 8 i)) [] }

/-- The inbox: 64 messages in order, then how many there are. -/
def inboxBits (es : List QEntry) : Nat :=
  bitsFrom ((List.range 64).map (fun i => (256, match es[i]? with | some e => wordsNat e.data | none => 0)) ++ [(8, es.length)])

def inboxOfBits (inst : Nat) (es : List QEntry) (x : Nat) : List QEntry :=
  (List.range (fieldAt x 16384 8 0)).map fun i =>
    entryOfBits inst es[i]? ((List.range 8).map fun j => BitVec.ofNat 32 (fieldAt x (256 * i) 32 j)) 0

/-- The tape: ring, head, tail, counters. -/
def Tape.bits (t : Tape) : Nat :=
  bitsFrom ((List.range 2048).map (fun i => (256, (t.ring.get 0 i).toNat)) ++ [(16, t.head), (16, t.tail)] ++ (List.range 256).map fun i => (16, t.ctr.get 0 i))

def Tape.ofBits (t : Tape) (x : Nat) : Tape :=
  let tail := x / 2 ^ (2048 * 256)
  { t with
    ring := (List.range 2048).foldl (fun r i => r.put 0 i (BitVec.ofNat 256 (fieldAt x 0 256 i))) []
    head := fieldAt tail 0 16 0 % 4096
    tail := fieldAt tail 16 16 0 % 4096
    ctr := (List.range 256).foldl (fun c i => c.put 0 i (fieldAt tail 32 16 i)) [] }

/-- A store of a Beryl core: 16 KiB. -/
def storeBytes (t : Tab Byte) : List Byte := (List.range 16384).map (t.get 0)
def bytesTab (bs : List Byte) : Tab Byte := ((List.range bs.length).zip bs).filter fun e => e.2 != 0

/-! ### Writing an area -/

/-- The team's barriers and size, as a member's area holds them. -/
def State.teamOf (s : State) (x : Saved) : Team := (s.team? x.wg.team).getD (Team.blank x.wg.team)

/-- The parts of an area: offset, length, contents. -/
def Saved.parts (x : Saved) (t : Team) (heat : Nat) (fs : Nat → DWord) : List (Nat × Nat × Nat) :=
  let each := fun (at_ len n : Nat) (f : Nat → Nat) => (List.range n).map fun i => (at_ + len * i, len, f i)
  let ids := x.engOps.map EngOp.id
  let warp := fun (i : Nat) => x.wg.warps.getD i Warp.init
  [(0x100, 0x100, x.descriptor t.all.length heat)] ++
  each 0x200 8 64 (fun i => (x.wg.slots.get HandOff.zero i).bits) ++
  each 0x400 64 16 (fun i => (x.wg.nb.get Barrier.zero i).bits 32) ++
  each 0x800 256 8 (fun i => (t.tb.get Barrier.zero i).bits 512) ++
  each 0x1000 256 8 (fun i => (x.wg.conv.get Conv.zero i).bits) ++
  each 0x1800 32 32 (fun i => match x.locks[i]? with | some l => l.bits ids | none => 0) ++
  each 0x1c00 256 4 (fun i => (x.wg.chans.get Channel.zero i).bits ids) ++
  each 0x2000 64 32 (fun i => match x.engOps[i]? with | some e => e.bits fs (x.causeOf e.id) | none => 0) ++
  each 0x2800 64 32 (fun i => trapBits (warp i).trap) ++
  [(0x3000, 64, trapBits x.loader.trap), (0x3040, 64, trapBits x.storer.trap), (0x3080, 1984, x.loader.bits x.cycle),
    (0x3840, 1984, x.storer.bits x.cycle)] ++
  (List.range x.wg.warps.length).flatMap (fun w =>
    let b := warpBlock w
    each b 64 32 (fun l => (warp w).threadBits x.cycle l) ++
    [(b + 0x800, 0x110, (warp w).uniformBits)] ++
    each (b + 0x910) 32 16 (fun n => ((warp w).aGet n).bits) ++
    each (b + 0xb10) 8 16 (fun n => portBits ((warp w).q.get none n)) ++
    each (b + 0xb90) 9 12 (fun n => flagBits ((warp w).cf.get 0 n, (warp w).errq.get [] n)) ++
    each (b + 0xc00) 2 256 (fun n => mapBits ((warp w).map.get none n)) ++
    [(b + 0xe00, 0x200, bitsFrom ((32, (warp w).ranks) :: ((x.waitsOf t w).take 63).map fun v => (64, v)))]) ++
  each x.rowsAt 128 x.rows.length (fun i => wordsNat (x.rows.getD i Row.zero).lanes) ++
  each (x.rowsAt + 128 * x.rows.length) 8 x.rows.length (fun i => (x.rows.getD i Row.zero).tail) ++
  [(x.scratchAt + x.bytes, x.bytes / 32, maskNat (x.bytes / 4) (x.smarks.map fun w => x.packedAt (4 * w) / 4))] ++
  each x.tilesAt 16384 x.tiles.length (fun i => wordsNat ((List.range 4096).map (x.tiles.getD i Tile.zero).word)) ++
  each (x.tilesAt + 16384 * x.tiles.length) 512 x.tiles.length (fun i => maskNat 4096 ((x.tiles.getD i Tile.zero).marks.filterMap fun e => if e.2 then some e.1 else none)) ++
  each x.handlesAt 8 x.handles.length (fun i => (x.handles.getD i Handle.zero).bits) ++
  each x.queuesAt 512 16 (fun i => (x.wg.queues.get Queue.zero i).bits) ++
  [(x.inboxAt, 4096, inboxBits x.wg.inbox)] ++
  (match x.tape with | some tape => [(x.tapeAt, 69632, tape.bits)] | none => [])

/-- Writes the parts, the scratchpad and the Beryl stores. -/
def State.writeParts (s : State) (area : Nat) (x : Saved) : State :=
  let s := (x.parts (s.teamOf x) (s.launchOf x.wg.grid).heat (s.launchOf x.wg.grid).fs).foldl (fun s e => s.writeCtx 0 (area + e.1) (leBytes e.2.1 e.2.2)) s
  let s := s.writeCtx 0 (area + x.scratchAt) (List.replicate x.bytes 0)
  let s := x.scratch.foldl (fun s e => s.writeCtx 0 (area + x.scratchAt + x.packedAt e.1) [e.2]) s
  if x.wg.beryl then
    s.writeCtx 0 (area + x.storesAt) (storeBytes x.loader.istore ++ storeBytes x.loader.dstore ++ storeBytes x.storer.istore ++ storeBytes x.storer.dstore)
  else s

/-- What arrives for a saved workgroup goes into the inbox region of its area too (R375). -/
def State.rewriteInbox (s : State) (area : DWord) (x : Saved) : State :=
  s.writeCtx 0 (area.toNat + x.inboxAt) (leBytes 4096 (inboxBits x.wg.inbox))

/-- The same of its tape. -/
def State.rewriteTape (s : State) (area : DWord) (x : Saved) : State :=
  match x.tape with
  | some t => s.writeCtx 0 (area.toNat + x.tapeAt) (leBytes 69632 t.bits)
  | none => s

/-! ### Reading an area -/

/-- Bytes of an area with the marks of their words. -/
def State.areaSpan (s : State) (va n : Nat) : List (Byte × Bool) :=
  (pageParts va n).flatMap fun p =>
    match s.ctxLeaf 0 .load p.1 with
    | .ok l => (List.range p.2).map fun i =>
        let c := cellOf l.pte.layout (l.pa + i)
        (s.readCell l.pte.key c, s.cellMark c)
    | .error _ => List.replicate p.2 (0, false)

/-- A part of an area as a number, and whether word `i` of a span is marked. -/
def State.areaNat (s : State) (va n : Nat) : Nat := leNat ((s.areaSpan va n).map (·.1))
def spanMark (bs : List (Byte × Bool)) (i : Nat) : Bool := (bs.getD (4 * i) (0, false)).2

/-- Reads a table whose entries are parts of `len` bytes. -/
def State.areaTab {α : Type} [DecidableEq α] (s : State) (d : α) (enc : α → Nat) (dec : α → Nat → α) (t : Tab α) (va len n : Nat) : Tab α :=
  (List.range n).foldl (fun r i => r.put d i (overlay enc dec (t.get d i) (s.areaNat (va + len * i) len))) t

/-- A warp from its block. -/
def Warp.ofArea (w : Warp) (s : State) (now va : Nat) : Warp :=
  let thread := fun (l : Nat) => s.areaNat (va + 64 * l) 64
  let preds := fun (lo : Nat) (old : Tab Mask) => (List.range 7).foldl (fun t n =>
    t.put 0 n (Lanes.mask fun l => (s.areaNat (va + 64 * l + 61) 3).testBit (lo + n))) old
  let flag := fun (n : Nat) => overlay flagBits flagOfBits (w.cf.get 0 n, w.errq.get [] n) (s.areaNat (va + 0xb90 + 9 * n) 9)
  let ks := s.areaSpan (va + 0x800) 0x110
  let kn := leNat (ks.map (·.1))
  let w := { w with
    threads := (List.range w.threads.length).map fun l => overlay (Thread.bits now) (Thread.ofBits now) (w.threads.getD l Thread.init) (thread l % 2 ^ 488)
    p := preds 0 w.p
    pMark := preds 7 w.pMark
    kp := (List.range 4).foldl (fun t n => t.put false n (kn.testBit (2112 + n))) w.kp
    kpMark := (List.range 4).foldl (fun t n => t.put false n (kn.testBit (2116 + n))) w.kpMark
    q := s.areaTab none portBits (fun _ x => portOfBits x) w.q (va + 0xb10) 8 16
    cf := (List.range 12).foldl (fun t n => t.put 0 n (flag n).1) w.cf
    errq := (List.range 12).foldl (fun t n => t.put [] n (flag n).2) w.errq
    map := s.areaTab none mapBits (fun _ x => mapOfBits x) w.map (va + 0xc00) 2 256
    stage := s.areaNat (va + 0xe00) 1
    launchPrio := s.areaNat (va + 0xe01) 1
    prio := s.areaNat (va + 0xe02) 1 }
  let w := (List.range 64).foldl (fun w n => w.kSet n (BitVec.ofNat 32 (fieldAt kn 0 32 n)) (kn.testBit (2048 + n) || spanMark ks n)) w
  (List.range 16).foldl (fun (w : Warp) (n : Nat) =>
    let bs := s.areaSpan (va + 0x910 + 32 * n) 32
    let a := overlay AReg.bits AReg.ofBits (w.aGet n) (leNat (bs.map (·.1)))
    w.aSet n { a with mark := a.mark || bs.any (·.2) }) w

/-- A row, a tile. -/
def Row.ofArea (r : Row) (s : State) (va tail : Nat) : Row :=
  let bs := s.areaSpan va 128
  let x := leNat (bs.map (·.1))
  let y := s.areaNat tail 8
  { r with
    lanes := Lanes.build fun l => BitVec.ofNat 32 (fieldAt x 0 32 l)
    poison := BitVec.ofNat 32 y ||| Lanes.mask fun l => spanMark bs l
    ref := fieldAt y 32 16 0 }

def Tile.ofArea (t : Tile) (s : State) (va marks : Nat) : Tile :=
  let bs := s.areaSpan va 16384
  let x := leNat (bs.map (·.1))
  let m := s.areaNat marks 512
  (List.range 4096).foldl (fun t j => t.set j (BitVec.ofNat 32 (fieldAt x 0 32 j)) (m.testBit j || spanMark bs j)) t

/-- Engine operations, locks and channels. -/
def Saved.engOfArea (x : Saved) (s : State) (area : Nat) : Saved :=
  let fs := (s.launchOf x.wg.grid).fs
  let old := x.engOps
  let ids := old.map EngOp.id
  let bits := fun (i : Nat) => s.areaNat (area + 0x2000 + 64 * i) 64
  let ops := (List.range old.length).filterMap fun i =>
    (old[i]?).map fun e => if i < 32 then overlay (EngOp.bits fs (x.causeOf e.id)) (EngOp.ofBits fs) e (bits i) else e
  let copyOf := fun (o : CopyOp) => (ops.findSome? fun e => match e with | .copy _ c => if c.id = o.id then some c else none | _ => none).getD o
  let read := x.wg.chans.map fun (e : Nat × Channel) => (e.1, { e.2 with ops := e.2.ops.map copyOf })
  { x with
    mats := ops.filterMap fun e => match e with | .mat m => some m | _ => none
    locks := ((List.range 32).filterMap fun i => RangeLock.ofBits ids x.inst (s.areaNat (area + 0x1800 + 32 * i) 32)) ++ x.locks.drop 32
    wg := { x.wg with
      bankOps := ops.filterMap fun e => match e with | .bank o => some o | _ => none
      chans := s.areaTab Channel.zero (Channel.bits ids) (Channel.ofBits ids) read (area + 0x1c00) 256 4 } }

/-- The causes of engine operations, where an entry has been written since. -/
def Saved.causesOfArea (x : Saved) (s : State) (area : Nat) : Saved :=
  ((List.range 32).zip x.engOps).foldl (fun y e =>
    match x.causeOf e.2.id with
    | some d =>
      let v := s.areaNat (area + 0x2000 + 64 * e.1) 64
      if fieldAt v 452 9 0 = d.code ∧ fieldAt v 461 32 0 = d.value.toNat then y else y.setCause e.2.id (fieldAt v 452 9 0) (fieldAt v 461 32 0)
    | none => y) x

/-- What the area now says of an entry of a warp's block: none when it has been cleared. -/
def Saved.groupOfArea (x : Saved) (t : Team) (s : State) (area w v : Nat) : Option Nat :=
  match (x.waitsOf t w).findIdx? fun e => e == v with
  | none => some v
  | some i =>
    if 63 ≤ i then some v
    else
      let v' := s.areaNat (area + warpBlock w + 0xe04 + 8 * i) 8
      if v' = 0 then none else some v'

/-- The blocked and suspended operations of a saved workgroup as its area holds them now; those at barriers of the team too. -/
def Saved.waitsOfArea (x : Saved) (t : Team) (s : State) (area : Nat) : Saved :=
  let list := fun (kind i : Nat) (ws : List Wait) => ws.filterMap fun (v : Wait) =>
    match v.party.warp? with
    | some (_, w) => (x.groupOfArea t s area w (groupBits v.group kind i v.arg)).map fun b => { v with group := BitVec.ofNat 32 b, arg := fieldAt b 48 16 0 }
    | none => some v
  let warps := List.range x.wg.warps.length
  let interval := fun (w k : Nat) (l : Nat) =>
    let es := (lanesBy (x.wg.warps.getD w Warp.init).threads fun t => match t.st with | .asleep (.poll _ k) => some k | _ => none)
    match es.find? fun e => e.1.has l with
    | some e => match x.groupOfArea t s area w (groupBits e.1 15 0 e.2) with | some b => fieldAt b 48 16 0 | none => k
    | none => k
  { x with
    wg := { x.wg.mapWaits list with
      nb := warps.foldl (fun nb w => mapBarWaits nb 8 0 x.inst w (x.groupOfArea t s area w)) x.wg.nb
      warps := warps.map fun w =>
        let g := x.wg.warps.getD w Warp.init
        { g with threads := (List.range g.threads.length).map fun l =>
          let t := g.threads.getD l Thread.init
          match t.st with | .asleep (.poll c k) => { t with st := .asleep (.poll c (interval w k l)) } | _ => t } }
    tape := x.tape.map fun (t : Tape) => { t with waiters := list 12 0 t.waiters }
    engWait := list 13 0 x.engWait }

/-- The barriers of its team, as the area of a member holds the member's groups there. -/
def Saved.teamWaits (x : Saved) (t : Team) (s : State) (area : Nat) : Tab Barrier :=
  (List.range x.wg.warps.length).foldl (fun tb w => mapBarWaits tb 9 x.wg.rank x.inst w (x.groupOfArea t s area w)) t.tb

/-- A saved workgroup as its area holds it now. -/
def Saved.reload (x : Saved) (s : State) (area : Nat) : Saved :=
  let x := (x.waitsOfArea (s.teamOf x) s area).causesOfArea s area
  let trap := fun (old : Option TrapRec) (off : Nat) => overlay trapBits trapOfBits old (s.areaNat (area + off) 64)
  let store := fun (old : Tab Byte) (i : Nat) =>
    if x.wg.beryl then bytesTab ((s.areaSpan (area + x.storesAt + 16384 * i) 16384).map (·.1)) else old
  let core := fun (b : Beryl) (off tr i : Nat) =>
    { overlay (Beryl.bits x.cycle) (Beryl.ofBits x.cycle) b (s.areaNat (area + off) 1984) with
      trap := trap b.trap tr, istore := store b.istore i, dstore := store b.dstore (i + 1) }
  let marks := s.areaNat (area + x.scratchAt + x.bytes) (x.bytes / 32)
  let bs := s.areaSpan (area + x.scratchAt) x.bytes
  let y := x.engOfArea s area
  { y with
    wg := { y.wg with
      slots := s.areaTab HandOff.zero HandOff.bits HandOff.ofBits x.wg.slots (area + 0x200) 8 64
      nb := s.areaTab Barrier.zero (Barrier.bits 32) (Barrier.ofBits 32) x.wg.nb (area + 0x400) 64 16
      conv := s.areaTab Conv.zero Conv.bits Conv.ofBits x.wg.conv (area + 0x1000) 256 8
      warps := (List.range x.wg.warps.length).map fun i =>
        let w := (x.wg.warps.getD i Warp.init).ofArea s x.cycle (area + warpBlock i)
        { w with trap := trap w.trap (0x2800 + 64 * i) }
      queues := s.areaTab Queue.zero Queue.bits (Queue.ofBits x.inst) x.wg.queues (area + x.queuesAt) 512 16
      inbox := overlay inboxBits (inboxOfBits x.inst) x.wg.inbox (leNat (((s.areaSpan (area + x.inboxAt) 2049).map (·.1)))) }
    rows := (List.range x.rows.length).map fun i =>
      (x.rows.getD i Row.zero).ofArea s (area + x.rowsAt + 128 * i) (area + x.rowsAt + 128 * x.rows.length + 8 * i)
    scratch := ((List.range x.bytes).zip bs).filterMap fun e => if e.2.1 = 0 then none else some (x.windowAt e.1, e.2.1)
    smarks := ((List.range (x.bytes / 4)).filter fun i => marks.testBit i || spanMark bs i).map fun i => x.windowAt (4 * i) / 4
    tiles := (List.range x.tiles.length).map fun i =>
      (x.tiles.getD i Tile.zero).ofArea s (area + x.tilesAt + 16384 * i) (area + x.tilesAt + 16384 * x.tiles.length + 512 * i)
    handles := (List.range x.handles.length).map fun i =>
      overlay Handle.bits Handle.ofBits (x.handles.getD i Handle.zero) (s.areaNat (area + x.handlesAt + 8 * i) 8)
    tape := x.tape.map fun t => overlay Tape.bits Tape.ofBits t (s.areaNat (area + x.tapeAt) 66080)
    loader := if x.wg.beryl then core x.loader 0x3080 0x3000 0 else x.loader
    storer := if x.wg.beryl then core x.storer 0x3840 0x3040 2 else x.storer }

/-- The saved workgroup whose INSTANCE, GEN and offsets an area's descriptor names, with the area it was saved in. -/
def State.savedIn (s : State) (area : Nat) : Option (DWord × Saved) :=
  s.saved.find? fun (e : DWord × Saved) => s.areaNat (area + 0x100) 0x100 % 2 ^ 736 == e.2.descriptor (s.teamOf e.2).all.length (s.launchOf e.2.wg.grid).heat

end Sys2Proof.Machine
end

