-- ==== Sys2Proof/Machine/Save.lean ====
section
/-! DEFINITION. Bringing a workgroup to rest (R151, R371, R372), saving it (R34, R39, R80, R346, R373) and restoring it
(R81, R149, R346, R375). -/

namespace Sys2Proof.Machine

/-! ### Workgroups that may be saved -/

/-- Applies `f` to a workgroup, resident or saved. -/
def State.modAnyWg (s : State) (inst : Nat) (f : Wg → Wg) : State :=
  if (s.wg? inst).isSome then s.modWg inst f
  else { s with saved := s.saved.map fun (e : DWord × Saved) => if e.2.inst = inst then (e.1, { e.2 with wg := f e.2.wg }) else e }

/-- Applies `f` to a warp of a workgroup, resident or saved, or to a supervisor warp. -/
def State.modAnyWarp (s : State) (inst w : Nat) (f : Warp → Warp) : State :=
  if inst < supBase then s.modAnyWg inst fun g => { g with warps := g.warps.modify w f } else s.modWarp (wref inst w) f

/-- A message enters an inbox; that of a saved workgroup stands in its area (R375). -/
def State.enterInbox (s : State) (inst : Nat) (e : QEntry) : State :=
  let s := s.modAnyWg inst fun g => { g with inbox := g.inbox ++ [e] }
  match s.saved.find? fun (x : DWord × Saved) => x.2.inst == inst with
  | some (area, x) => s.rewriteInbox area x
  | none => s

/-- The workgroups of a team. -/
def State.mates (s : State) (inst : Nat) (team : Nat) : List Nat :=
  match s.team? team with
  | some t => t.members
  | none => [inst]

/-! ### Bringing to rest (R371, R372) -/

/-- Issue stops, and engine operations owe at most their block in progress. -/
def State.stopWg (s : State) (inst : Nat) : State :=
  match s.wg? inst with
  | none => s
  | some g =>
    if g.resting || g.frozen then s
    else
      let busy := (s.bankNext inst).map (·.id)
      let s := s.setWg inst { g with
        resting := true
        warps := g.warps.map fun w => { w with stopping := true }
        bankOps := g.bankOps.map fun o => { o with owed := busy == some o.id } }
      s.modCore g.core fun k =>
        { k with mats := k.mats.map fun m => if m.inst = inst then { m with owed := m.slot.isSome && !m.parked && !m.complete } else m }

/-- Every member of the team is brought to rest at once. -/
def State.stopTeam (s : State) (inst : Nat) (team : Nat) : State := (s.mates inst team).foldl State.stopWg s

/-- The bank operation that a workgroup's engines would perform next can go no further: it is parked, or waits for locks that stay with
stopped operations, or for room for its entry. -/
def State.bankStuck (s : State) (inst : Nat) (g : Wg) : Bool :=
  (match g.bankOps.find? fun o => !o.posting with
    | some o => o.parked || (match s.readyBank (s.agentOf inst o.party) o with | .ok none => true | _ => false)
    | none => false) ||
  (g.bankOps.any (·.posting) && decide (64 ≤ g.bankDone.length))

/-- An operation that cannot complete while its workgroup issues nothing: a FENCEB behind a bank operation that can go no further, or an
instruction that no fence holds any more and that blocks or sleeps, as a LAUNCH or a POLL may (R151, R264; log 70). -/
def State.stuckOp (s : State) (inst : Nat) (g : Wg) (o : MemOp) : Bool :=
  match o.eff with
  | .fence _ bank => bank && s.bankPending o.party o.id && s.bankStuck inst g
  | .held .. => !s.fencePending g.core o.party o.id && (s.heldPerform g.core o.id).isNone
  | _ => false

/-- An operation does not stand in the way of rest: a command that has reached its engine, one that is stuck or behind one that is, a GIVE
behind an ACCMV that has stopped in its queue (R72), or the release of an instruction that has not completed. -/
def State.settled (s : State) (inst : Nat) (g : Wg) (o : MemOp) : Bool :=
  let ops := (s.core g.core).ops
  o.handed ops || s.stuckOp inst g o || (opsBefore ops o).any (s.stuckOp inst g) ||
  match o.eff with
  | .hset .. | .qret .. => true
  | .give .. => s.getsRow g.core o.party o.id
  | _ => false

/-- The head of a channel does not move any more (R372): one that has only its entry to post waits for room (R283); another the engine
may not serve, as it is too long, or held with its party, or waits for locks that stay with stopped operations. -/
def State.still (s : State) (inst : Nat) (g : Wg) (n : Nat) (k : Channel) : Bool :=
  match k.ops with
  | [] => true
  | o :: _ =>
    if o.posting then o.cmd.post && decide (64 ≤ g.copyDone.length)
    else !(s.copyHeads g.core).any fun x => x.inst == inst && x.chan == n && s.canMove x

/-- No zone of the core replays (R425). -/
def Core.calm (k : Core) : Bool := k.stallTo.all fun e => decide (e.2 ≤ k.cycle)

/-- A workgroup has reached rest. -/
def State.reachedRest (s : State) (inst : Nat) (g : Wg) : Bool :=
  let k := s.core g.core
  g.resting && g.warps.all (fun w => w.inClause == 0) && (k.ops.all fun o => !o.party.isOf inst || s.settled inst g o) &&
  !k.mats.any (fun m => m.inst == inst && m.owed) && (!g.bankOps.any (·.owed) || s.bankStuck inst g) &&
  g.chans.all (fun c => s.still inst g c.1 c.2) && k.calm

/-- An MEPI that has no hold on its pages translates its ranges again before it goes on (R387, R396). -/
def MatOp.unheld (m : MatOp) : MatOp := { m with holds := [], pieces := [], bias := [] }

/-- At rest: nothing of the workgroup moves until it is released, and its operations hold no translation (R396). -/
def State.rest (s : State) (inst : Nat) (g : Wg) : State :=
  let s := s.setWg inst { g with
    resting := false
    frozen := true
    warps := g.warps.map fun w => { w with stopping := false, running := 0 }
    chans := g.chans.map fun (c : Nat × Channel) => (c.1, { c.2 with ops := c.2.ops.map fun o => { o with holds := [] } })
    bankOps := g.bankOps.map fun o => { o with holds := [], owed := false } }
  s.modCore g.core fun k => { k with mats := k.mats.map fun m => if m.inst = inst then m.unheld else m }

/-- Members go on when the whole team is resident and at rest no more wanted (R346). -/
def State.thawTeam (s : State) (inst team : Nat) : State :=
  let ms := s.mates inst team
  let whole := ms.all fun i => match s.wg? i with | some g => !g.resting && g.saveTo.isNone | none => false
  if whole then ms.foldl (fun s i => s.modWg i fun g => { g with frozen := false }) s else s

/-! ### Where an area can lie (R346) -/

/-- Every page of a range of context 0 can be written. -/
def State.writable (s : State) (va n : Nat) : Bool :=
  (List.range (n / 65536 + 2)).all fun i =>
    let a := if i = 0 then va else (va / 65536 + i) * 65536
    decide (va + n ≤ a) || (match s.ctxLeaf 0 .store a with | .ok _ => true | .error _ => false)

/-! ### What is saved -/

/-- Bytes of a workgroup's scratchpad, by window offset; blocks that another context owns read as zero (R78). -/
def State.savedScratch (s : State) (g : Wg) : List (Nat × Byte) × List Nat :=
  let blocks := (List.range g.near.length).map (fun i => (4096 * i, g.near.getD i (0, 0))) ++
    (List.range g.far.length).map fun i => (farBase + 4096 * i, g.far.getD i (0, 0))
  let mine := blocks.filter fun b => (s.core b.2.1).sowner.get 0 b.2.2 == g.ctx
  let within := fun (b : Nat × Nat × Nat) (a : Nat) => decide (b.2.2 * 4096 ≤ a) && decide (a < b.2.2 * 4096 + 4096)
  (mine.flatMap fun b => ((s.core b.2.1).scratch.filter fun e => within b e.1).map fun e => (b.1 + (e.1 - b.2.2 * 4096), e.2),
   mine.flatMap fun b => ((s.core b.2.1).smarks.filter fun e => within b (4 * e.1)).map fun e => b.1 / 4 + (e.1 - b.2.2 * 1024))

/-- A row index as its ordinal in the pool (R80). -/
def ordinal (pool : List Nat) (r : Nat) : Nat := pool.findIdx fun x => x == r

/-- The rows of an operation through a map of row indices: those of its destination, and that of a GIVE (R71, R80). -/
def MemOp.mapRows (o : MemOp) (f : Nat → Nat) : MemOp :=
  { o with rows := o.rows.map f, eff := match o.eff with | .give slot row => .give slot (f row) | x => x }

/-- Names, parked rows and rows on their way to a slot, through a map of row indices. -/
def Wg.mapRows (g : Wg) (f : Nat → Nat) : Wg :=
  let waits := fun (ws : List Wait) => ws.map fun (w : Wait) => { w with arg := f w.arg }
  { g with
    warps := g.warps.map fun w => { w with map := w.map.map fun (e : Nat × Option Nat) => (e.1, e.2.map f) }
    slots := g.slots.map fun (e : Nat × HandOff) =>
      (e.1, { e.2 with
        st := match e.2.st with | .occupied r c => .occupied (f r) c | x => x
        givers := waits e.2.givers }) }

/-- Every party of a workgroup has a clock in common (R151). -/
def Wg.joined (g : Wg) (clk : Clock) : Wg :=
  let copy := fun (o : CopyOp) => { o with clk := Clock.join o.clk clk }
  { g with
    warps := g.warps.map fun w => { w with clk := Clock.join w.clk clk }
    chans := g.chans.map fun (c : Nat × Channel) => (c.1, { c.2 with ops := c.2.ops.map copy })
    bankOps := g.bankOps.map fun (o : BankOp) => { o with clk := Clock.join o.clk clk } }

/-- So have its engine operations and those that a FENCEB holds. -/
def Saved.joined (x : Saved) (clk : Clock) : Saved :=
  { x with
    wg := x.wg.joined clk
    mats := x.mats.map fun (m : MatOp) => { m with clk := Clock.join m.clk clk }
    ops := x.ops.map fun (o : MemOp) => { o with clk := Clock.join o.clk clk }
    loader := { x.loader with clk := Clock.join x.loader.clk clk }
    storer := { x.storer with clk := Clock.join x.storer.clk clk } }

/-- A workgroup at rest as its area holds it. -/
def State.image (s : State) (inst : Nat) (g : Wg) : Saved :=
  let k := s.core g.core
  let ids := s.engineIds inst g
  let f := ordinal g.pool
  let (bytes, marks) := s.savedScratch g
  let x : Saved :=
    { inst := inst
      wg := { g.mapRows f with saveTo := none }
      rows := g.pool.map fun r => (s.getRow (rowHome g.core r)).seenBy g.ctx
      scratch := bytes
      smarks := marks
      tiles := g.tiles.map fun t => s.tileOf g.core t g.ctx
      handles := g.hents.map fun e => k.buftab.get Handle.zero e
      locks := k.locks.filter fun l => ids.contains l.op
      mats := (k.mats.filter fun m => m.inst == inst).map fun m => { m with row := f m.row, slot := none }
      ops := (k.ops.filter fun o => o.party.isOf inst && !o.handed k.ops && (match o.eff with | .hset .. | .qret .. => false | _ => true)).map
        fun o => { o.mapRows f with undo := [] }
      engWait := k.engWait.filter fun w => w.party.isOf inst
      tape := if s.ownsTape g.core inst then some k.tape else none
      loader := if g.beryl then k.loader else .zero
      storer := if g.beryl then k.storer else .zero
      shape := partsUnder (s.quadMode (quadOf g.core)) g.core
      nearN := g.near.length
      farN := g.far.length
      core := g.core
      cycle := k.cycle }
  x.joined (s.wgClock inst g)

/-- The area can take a workgroup. -/
def State.areaOk (s : State) (area : DWord) (inst : Nat) (g : Wg) : Bool :=
  area.toNat % 4096 == 0 && s.writable area.toNat (s.image inst g).areaLen

/-- When the whole team is saved, its parties have a clock in common (R151). -/
def State.joinTeam (s : State) (inst team : Nat) : State :=
  let ms := s.mates inst team
  if ms.any fun i => (s.wg? i).isSome then s
  else
    let mine := fun (x : Saved) => ms.contains x.inst
    let clk := (s.saved.filter fun e => mine e.2).foldl (fun c e => e.2.wg.warps.foldl (fun c w => Clock.join c w.clk) c) []
    { s with saved := s.saved.map fun (e : DWord × Saved) => if mine e.2 then (e.1, e.2.joined clk) else e }

/-- Writes the area of a workgroup at rest and frees its resources. Bytes of it that no part takes are free (log 9). -/
def State.saveNow (s : State) (inst : Nat) (area : DWord) : State :=
  match s.wg? inst with
  | none => s
  | some g =>
    let x := s.image inst g
    let (bs, s) := s.freeBytes (x.areaLen - 256)
    let s := (s.writeCtx 0 area.toNat (leBytes 256 (s.launchOf g.grid).toNat ++ bs)).writeParts area.toNat x
    let s := s.freeResources inst g
    { s with saved := assocPut s.saved area x }.joinTeam inst g.team

/-- WORKGROUP_AT_REST, for the workgroup that `State.cur` names. -/
def execWorkgroupAtRest (s : State) : Host.Outcome State Fault Refusal :=
  event s (match s.cur with
    | .wg inst => do
      let g ← s.wg? inst
      -- remote accesses and messages inside a team are performed before any member is saved (R371)
      let ready := (s.mates inst g.team).all fun i => match s.wg? i with | some m => m.frozen || s.reachedRest i m | none => true
      if !s.reachedRest inst g || !ready then none
      else
        let s := s.rest inst g
        some (match g.saveTo with | some area => s.saveNow inst area | none => s)
    | _ => none)

/-- A workgroup is to be saved: its team is brought to rest, or, at rest already, it is saved at once. -/
def State.beginSave (s : State) (inst : Nat) (area : DWord) : State :=
  match s.wg? inst with
  | none => s
  | some g =>
    if g.frozen then s.saveNow inst area
    else (s.modWg inst fun g => { g with saveTo := some area }).stopTeam inst g.team

/-! ### Restoring (R346, R375) -/

/-- What a saved workgroup needs of a core. -/
def Saved.need (x : Saved) : Need :=
  match x.wg.reserve with
  | some a => ⟨a.rows.length, a.near.length, a.far.length, a.tiles.length, a.hents.length⟩
  | none => ⟨x.wg.pool.length, x.nearN, x.farN, x.wg.tiles.length, x.wg.hents.length⟩

/-- The core has room for a saved workgroup, under the conditions of R375, R113, R45 and R447. -/
def State.fitsSaved (s : State) (core : Nat) (x : Saved) : Bool :=
  let r : LaunchRec := s.launchOf x.wg.grid
  let k := s.core core
  match s.suits r.heat core with
  | none => false
  | some (_, mode) =>
    let parts := partsUnder mode core
    parts == x.shape && (s.freeSlot core).isSome &&
    (List.range 4).all (fun q => decide (warpsIn x.wg.warps.length q ≤ (s.freeWarpSlots core q).length)) &&
    (s.freeOn core parts).covers x.need && (!x.wg.beryl || !(s.residents core).any fun e => e.2.beryl) && k.acqQ.isEmpty && !k.offline &&
    (x.tape.isNone || (k.tape.owner.isNone && k.tape.head == k.tape.tail))

/-- A time of the old core as one of the new. -/
def shiftCycle (old new c : Nat) : Nat := new + (c - old)

/-- A thread on a new core. Its group's age and wait count from the restore, and the threads that stand at one place are one group there,
for the save area holds no more of their groups (R30, R374; log 81). -/
def Thread.shift (old new : Nat) (t : Thread) : Thread :=
  { t with since := new, readyAt := new, arrived := new, promoted := false, st := match t.st with
    | .asleep (.cycle c) => .asleep (.cycle (shiftCycle old new c))
    | .asleep (.poll c k) => .asleep (.poll (shiftCycle old new c) k)
    | x => x }

/-- A warp in its saved state on a new core. -/
def Warp.restored (w : Warp) (slot old new : Nat) : Warp :=
  { w with
    threads := w.threads.map (Thread.shift old new)
    slot := slot
    lastIssue := new
    readySince := new
    recency := 2 * new
    trap := (w.retrap 0).trap.map fun (r : TrapRec) => { r with aged := true }
    again := none
    skipCycle := none
    inflight := w.inflight.map fun (f : InFlight) => { f with readyAt := f.readyAt.map (shiftCycle old new) } }

def Beryl.shift (old new : Nat) (b : Beryl) : Beryl :=
  { b with
    st := if b.again.isSome then 3 else b.st
    trap := (b.trap.orElse fun _ => b.again).map fun (r : TrapRec) => { r with aged := true }
    again := none
    sleep := b.sleep.map fun k => match k with
      | .poll c i => .poll (shiftCycle old new c) i
      | x => x }

/-- An operation on the new core: the tape is that of the new core, and what is left of a POLL's back-off passes there. -/
def MemOp.moved (o : MemOp) (core old new : Nat) : MemOp :=
  { o with
    born := new - (old - o.born)
    eff := match o.eff with
      | .held i k kMark kp kpMark a p pMark (some (due, n)) => .held i k kMark kp kpMark a p pMark (some (shiftCycle old new due, n))
      | x => x
    lanes := o.lanes.map fun (l : LaneAcc) => { l with pieces := l.pieces.map fun (p : Piece) => { p with place := match p.place with | .tape _ off => .tape core off | x => x } } }

/-- The kind of access whose lanes an operation translates. -/
def Eff.access? : Eff → Option AccKind
  | .load .. | .fill _ => some .load
  | .store _ | .spill => some .store
  | .atomic .. | .cas .. | .redv .. => some .atomic
  | _ => none

/-- Translates the lanes of an operation again. -/
def State.relocate (s : State) (c : Ctx) (kind : AccKind) (holds : List TlbEntry) : List LaneAcc → Except Detail (List LaneAcc × State)
  | [] => .ok ([], s)
  | l :: ls =>
    match s.resolve c kind holds (l.pieces.foldl (fun n p => n + p.bytes) 0) l.addr l.lane with
    | .error d => .error d
    | .ok (ps, holds, s) => do
      let (r, s) ← s.relocate c kind holds ls
      .ok ({ l with pieces := ps } :: r, s)

/-- An operation that was saved translates its addresses again on its new core: pages may have changed (R387). One whose address has no
page any more fails. -/
def State.retranslate (s : State) (core : Nat) (o : MemOp) : State :=
  match o.eff.access?, o.ctx_ core with
  | some kind, some c =>
    match s.relocate c kind [] o.lanes with
    | .error d => s.failOp core o d
    | .ok (ls, s) => s.modCore core fun k => { k with ops := k.ops.map fun e => if e.id == o.id then { e with lanes := ls } else e }
  | _, _ => s

/-- Rebuilds a saved workgroup on a core that has room; gives its workgroup slot. -/
def State.rebuild (s : State) (core : Nat) (x : Saved) : Nat × State :=
  let r : LaunchRec := s.launchOf x.wg.grid
  let mode := match s.suits r.heat core with | some (_, m) => m | none => 1 + r.heat
  let s := { s with quads := s.quads.put 0 (quadOf core) mode }
  let a := (s.freeOn core (partsUnder mode core)).take x.need
  let slot := (s.freeSlot core).getD 0
  let slots := s.slotsFor core x.wg.warps.length
  let now := (s.core core).cycle
  let pool := a.rows.take x.wg.pool.length
  let (seq, s) := s.newId
  let g : Wg := x.wg.mapRows fun i => pool.getD i 0
  let held : Bool := x.wg.reserve.isSome
  let g : Wg := { g with
    core := core, slot := slot, aseq := seq, frozen := true, resting := false
    pool := pool, near := a.near.take x.nearN, far := a.far.take x.farN
    tiles := if held then [] else a.tiles, hents := if held then [] else a.hents
    reserve := if held then some a else none
    acqSince := if g.acq = .waiting then s.clockNs else g.acqSince
    acqReserved := false
    warps := (List.range g.warps.length).map fun w => (g.warps.getD w Warp.init).restored (slots.getD w 0) x.cycle now
    queues := g.queues.map fun (e : Nat × Queue) => (e.1, { e.2 with entries := e.2.entries.map fun q => { q with landed := 0 } })
    nb := g.nb.map fun (e : Nat × Barrier) => (e.1, { e.2 with wake := e.2.wake.map fun (b : BarWait × Nat) => (b.1, now) })
    conv := g.conv.map fun (e : Nat × Conv) =>
      (e.1, { e.2 with last := e.2.last.map fun (m : MatOp) => { m with tile := a.tiles.getD m.acc 0 } }) }
  let s := { s with wgs := s.wgs.put none x.inst (some g) }
  -- the rows, with their references
  let s := (List.range pool.length).foldl (fun s i => s.setRow (rowHome core (pool.getD i 0)) (x.rows.getD i Row.zero)) s
  -- scratchpad: every block belongs to the context, then the saved bytes and marks
  let s := (g.near ++ g.far).foldl (fun s b => s.modCore b.1 fun k =>
    { k with scratch := k.scratch.filter fun e => e.1 / 4096 != b.2
             smarks := k.smarks.filter fun e => e.1 / 1024 != b.2
             sowner := k.sowner.put 0 b.2 g.ctx }) s
  let s := x.scratch.foldl (fun s e => s.writeAt (.scratch x.inst e.1) 0 0 e.2) s
  let s := x.smarks.foldl (fun s w => s.setMarkAt (.scratch x.inst (4 * w)) 0 true) s
  let s := (List.range g.tiles.length).foldl (fun s i => s.setTile core (g.tiles.getD i 0) (x.tiles.getD i Tile.zero)) s
  let moved := x.ops.map fun (o : MemOp) => (o.moved core x.cycle now).mapRows fun i => pool.getD i 0
  let s := s.modCore core fun k =>
    { k with
      buftab := (List.range g.hents.length).foldl (fun t i => t.put Handle.zero (g.hents.getD i 0) (x.handles.getD i Handle.zero)) k.buftab
      locks := k.locks ++ x.locks
      engWait := k.engWait ++ x.engWait
      mats := k.mats ++ x.mats.map fun (m : MatOp) => { m with tile := a.tiles.getD m.acc 0, row := pool.getD m.row 0 }
      ops := k.ops ++ moved
      tape := match x.tape with | some t => { t with owner := some x.inst } | none => k.tape
      loader := if g.beryl then x.loader.shift x.cycle now else k.loader
      storer := if g.beryl then x.storer.shift x.cycle now else k.storer
      acqQ := if g.acq = .waiting then k.acqQ ++ [x.inst] else k.acqQ }
  let s := s.modTeam g.team fun t =>
    { t with tb := t.tb.map fun (e : Nat × Barrier) =>
        (e.1, { e.2 with wake := e.2.wake.map fun (b : BarWait × Nat) => if b.1.rank = g.rank then (b.1, now) else b }) }
  (slot, (moved.foldl (fun s o => s.retranslate core o) s).thawTeam x.inst g.team)

/-- A resident member of the team stands in another cluster. -/
def State.teamElsewhere (s : State) (core : Nat) (x : Saved) : Bool :=
  (s.mates x.inst x.wg.team).any fun i => match s.wg? i with | some g => clusterOf g.core != clusterOf core | none => false

/-- The barriers of a team, with the groups `old` that the area of a member has at them, as the area of the first member that is restored
holds them (R371). -/
def State.teamOfArea (s : State) (area : Nat) (x : Saved) (old : Tab Barrier) : State :=
  if (s.mates x.inst x.wg.team).any fun i => (s.wg? i).isSome then s.modTeam x.wg.team fun t => { t with tb := old }
  else
    let tb := s.areaTab Barrier.zero (Barrier.bits 512) (Barrier.ofBits 512) old (area + 0x800) 256 8
    s.modTeam x.wg.team fun t => { t with tb := tb }

/-- RESTWG: the slot used, or the STATUS. An area whose descriptor names no saved workgroup is malformed; a copy of an area that a
SAVEWG wrote serves as it does (log 9). -/
def State.restore (s : State) (core : Nat) (area : DWord) : Except Nat (Nat × State) :=
  if area.toNat % 4096 ≠ 0 || !s.readable 0 area.toNat 16384 then .error 2
  else
    match s.savedIn area.toNat with
    | none => .error 2
    | some (home, x) =>
      if !s.readable 0 area.toNat x.areaLen then .error 2
      else if s.teamElsewhere core x then .error 3
      else if !s.fitsSaved core x then .error 1
      else let t := x.teamWaits (s.teamOf x) s area.toNat
        .ok (({ s with saved := assocDel s.saved home }.teamOfArea area.toNat x t).rebuild core (x.reload s area.toNat))

end Sys2Proof.Machine
end

