-- ==== Sys2Proof/Machine/Shoot.lean ====
section
/-! DEFINITION. Invalidation of translations (R347, R385, R387, R388, R396), page walks (R380, R386), and the write-back of the
shared level (R348). -/

namespace Sys2Proof.Machine

/-! ### What a TLBI covers -/

/-- A cached translation is covered by a kind, a context and an address. What an engine operation holds is covered in the same way. -/
def covers (kind ctx : Nat) (va : DWord) (t : TlbEntry) : Bool :=
  match kind with
  | 0 => t.ctx == ctx && t.page == pageBase va.toNat t.large
  | 1 => t.ctx == ctx
  | _ => true

def Shoot.covers (x : Shoot) (t : TlbEntry) : Bool := Machine.covers x.kind x.ctx x.va t

/-- A translation read before the TLBI from an entry marked PINNED: an operation keeps it (R388). -/
def Shoot.pins (x : Shoot) (t : TlbEntry) : Bool := x.covers t && Pte.pinned t.entry && decide (t.seq ≤ x.seq)

/-- A pointer that leads to what a TLBI covers. -/
def Shoot.coversPtr (x : Shoot) (p : PtrEntry) : Bool :=
  match x.kind with
  | 0 => p.ctx == x.ctx && p.region == vaRegion x.va.toNat p.level
  | 1 => p.ctx == x.ctx
  | _ => true

/-- A walk of a page that a TLBI covers. -/
def Shoot.coversWalk (x : Shoot) (w : Walk) : Bool :=
  match x.kind with
  | 0 => w.ctx == x.ctx && w.va.toNat / 65536 == x.va.toNat / 65536
  | 1 => w.ctx == x.ctx
  | _ => true

/-- Every cache of translations drops what is covered, and the walks that are covered start again (R385, R387). -/
def State.dropTlb (s : State) (x : Shoot) : State :=
  let keep := fun (ts : List TlbEntry) => ts.filter fun t => !x.covers t
  { s with
    cores := s.cores.map fun (e : Nat × Core) => (e.1, { e.2 with tlb := keep e.2.tlb })
    tlb2 := s.tlb2.map fun e => (e.1, keep e.2)
    walkCache := s.walkCache.map fun e => (e.1, e.2.filter fun p => !x.coversPtr p)
    walks := s.walks.map fun w => if x.coversWalk w then { w with level := 3, table := s.rootTable w.ctx, leaf := none } else w }

/-- What an engine operation still holds: a page without PINNED that is covered is translated again before the next burst or block
(R387). -/
def Shoot.left (x : Shoot) (holds : List TlbEntry) : List TlbEntry := holds.filter fun t => !(x.covers t && !x.pins t)

/-- The operations of the module lose what they hold so. What an MEPI has committed by it goes too: it translates its ranges again before
its next rows. -/
def State.dropHolds (s : State) (x : Shoot) : State :=
  let copy := fun (o : CopyOp) => { o with holds := x.left o.holds }
  let chan := fun (c : Nat × Channel) => (c.1, { c.2 with ops := c.2.ops.map copy })
  let bank := fun (o : BankOp) => { o with holds := x.left o.holds }
  let mat := fun (m : MatOp) => if x.left m.holds = m.holds then m else { m with holds := x.left m.holds, pieces := [], bias := [] }
  let s := { s with cores := s.cores.map fun (e : Nat × Core) => (e.1, { e.2 with mats := e.2.mats.map mat }) }
  s.allWgs.foldl (fun s e => s.modWg e.1 fun g => { g with chans := g.chans.map chan, bankOps := g.bankOps.map bank }) s

/-- Engine operations that hold a covered page: matrix, copy and bank operations of the module that have not completed, those that wait
for their completion entry among them (R283, R314, R388). A parked one holds nothing (R396). -/
def State.holders (s : State) (f : TlbEntry → Bool) : Nat :=
  let mats := s.cores.foldl (fun n e => n + (e.2.mats.filter fun m => !m.parked && !m.complete && m.holds.any f).length) 0
  s.allWgs.foldl (fun n e =>
    let g := e.2
    n + (g.chans.flatMap fun c => c.2.ops.filter fun o => !o.parked && o.holds.any f).length +
      (g.bankOps.filter fun o => !o.parked && o.holds.any f).length) mats

/-- Accesses that were already translated are in flight, those that a fence holds among them (R387; log 27). -/
def State.inFlight (s : State) (before : Nat) : Bool :=
  s.cores.any fun e => e.2.ops.any fun o =>
    decide (o.id < before) && o.eff.access && o.lanes.any fun l => !o.done.contains l.lane && l.pieces.any Piece.global

/-- The TLBI of a core is acknowledged. -/
def State.shootDone (s : State) (x : Shoot) : Bool := s.holders x.pins == 0 && !s.inFlight x.before

/-- A TLBI takes effect: entries are dropped at once, and its acknowledgement is awaited. -/
def State.beginShoot (s : State) (core kind : Nat) (va : DWord) : State :=
  let x : Shoot := ⟨core, kind, (s.core core).ctxsel, va, s.clockNs, s.nextId, s.shootSeq⟩
  { (s.dropTlb x).dropHolds x with shoots := s.shoots ++ [x], shootSeq := s.shootSeq + 1 }

/-- sdstat (R382): a shootdown is deferred, and the operations that still hold. -/
def State.sdstat (s : State) : DWord :=
  let n := s.holders fun t => s.shoots.any fun x => x.pins t
  BitVec.ofNat 64 ((if n = 0 then 0 else 1) + n % 256 * 256)

/-! ### The end of patience (R388) -/

/-- translation revoked: the first address of the page. -/
def revoked (holds : List TlbEntry) (f : TlbEntry → Bool) : Detail :=
  ⟨0x0a5, 0, 0, 7, BitVec.ofNat 64 (match holds.find? f with | some t => t.page | none => 0), none, none, none⟩

/-- Holders park with their progress and drop their hold; one that has only its completion entry to place drops it. An MEPI that has
released its tile cannot fail any more and goes on (R309; log 83). -/
def State.revoke (s : State) (f : TlbEntry → Bool) : State :=
  let s := s.cores.foldl (fun s e => e.2.mats.foldl (fun s m =>
    if !m.parked && !m.released && m.holds.any f then s.parkMat e.1 { m with pieces := [], bias := [] } (revoked m.holds f) else s) s) s
  s.allWgs.foldl (fun s e =>
    let s := e.2.chans.foldl (fun s c => c.2.ops.foldl (fun s o =>
      if o.parked || !o.holds.any f then s
      else if o.posting then s.setCopy e.1 c.1 { o with holds := [] }
      else s.parkCopy e.1 c.1 o (revoked o.holds f)) s) s
    e.2.bankOps.foldl (fun s o =>
      if o.parked || !o.holds.any f then s
      else if o.posting then s.modBank e.1 o.id fun o => { o with holds := [] }
      else s.parkBank e.1 o (revoked o.holds f)) s) s

/-- SHOOTDOWN_TIMEOUT: 100 µs after a TLBI, operations that still hold a page that it covers stop at their boundary. -/
def execShootdownTimeout (s : State) : Host.Outcome State Fault Refusal :=
  event s (
    let late := s.shoots.filter fun x => decide (x.since + 100000 ≤ s.clockNs)
    let f := fun t => late.any fun x => x.pins t
    if s.holders f = 0 then none else some (s.revoke f))

/-! ### Walks (R386) -/

/-- PAGE_WALK_COMPLETE: the walk of a page for a core, its own or one that it joins, gives a leaf, which the caches keep, or a fault, which
is not kept: then the access that needed the page walks again (R385). -/
def execPageWalkComplete (core : Nat) (ctx : BitVec 12) (va : DWord) (s : State) : Host.Outcome State Fault Refusal :=
  event s (
    if (tlbFind (s.core core).tlb ctx.toNat va.toNat).isSome then none
    else
      match s.lookup core ctx.toNat .load va with
      | .ok (_, s) => some s
      | .error _ =>
        let rest := s.walks.filter fun w => !(w.die == dieOf core && w.ctx == ctx.toNat && w.va.toNat / 65536 == va.toNat / 65536)
        if rest = s.walks then none else some { s with walks := rest })

/-! ### FLUSHS (R348) -/

/-- Cells of the page of context 0 that holds an address; none when it does not translate. -/
def State.pageFrame (s : State) (va : DWord) : Option Nat :=
  match s.walk 0 .load va with
  | .ok (e, large) => some (leafPa e large va.toNat / 65536)
  | .error _ => none

/-- The cells that a FLUSHS covers: those of a page, or all; none for a pattern that has no effect. -/
def State.flushScope (s : State) (x : DWord) : Option (Nat → Bool) :=
  if x.extractLsb' 2 14 ≠ 0 then none
  else if x.getLsbD 1 then some fun _ => true
  else (s.pageFrame (x &&& ~~~0xffff)).map fun f c => c / 65536 == f

/-- Dirty lines are written back, and with bit 0 the lines leave the shared level. -/
def State.flushs (s : State) (x : DWord) (f : Nat → Bool) : State :=
  let s := s.sendDirty f
  if x.getLsbD 0 then s.evict fun l => f (128 * l.no) else s

/-- The last cycle, of either die, in which what leaves a slice now may get to the stack: it leaves 64 cycles later (R423). -/
def State.flushDue (s : State) : Nat :=
  let d := fun (n : Nat) => (s.core (256 * n)).cycle
  (if d 0 < d 1 then d 1 else d 0) + 64

/-- A value of a covered cell that left its slice by a cycle has not reached the stack. -/
def State.onWay (s : State) (f : Nat → Bool) (due : Nat) : Bool :=
  s.arrays.any fun e => f e.1 && match e.2 with
    | some x => x.way.any (fun v => decide (v.due ≤ due)) || (match x.newest with | some (d, _) => decide (d ≤ due) | none => false)
    | none => false

end Sys2Proof.Machine
end

