-- ==== Sys2Proof/Machine/Gang.lean ====
section
/-! DEFINITION. Gang membership (R397, R398), timed switches (R402 to R411), the gang clock (R399 to R401), packets (R405,
R406), fabric messages (R277, R278, R413, R443), peer accesses (R415, R416) and loss notices (R412). -/

namespace Sys2Proof.Machine

/-! ### Membership (R398) -/

/-- GANG, LAST and EN of gangcfg. -/
def State.gangId (s : State) : Nat := (s.gangcfg.extractLsb' 0 16).toNat
def State.gangLast (s : State) : Nat := (s.gangcfg.extractLsb' 24 8).toNat
def State.gangOn (s : State) : Bool := s.gangcfg.getLsbD 32

/-- Writes gangcfg: ignored while a workgroup is resident or saved, and for a member number above LAST. The history of switches
starts anew (R403), and EN 0 leaves the clock unsynchronised (R400). -/
def State.writeGangcfg (s : State) (val : DWord) : State :=
  let v := val &&& 0x1ffffffff
  if !s.wgs.isEmpty || !s.saved.isEmpty || v.extractLsb' 24 8 < v.extractLsb' 16 8 then s
  else
    let s := { s with gangcfg := v, gen := 0, gangCtx := 0, switches := [], lastSwitch := none, lastTab := [], heldCtxs := [],
                      readySet := [], commitSet := [] }
    if v.getLsbD 32 then s else { s with clockState := 3, syncCount := 0, stepped := false }

/-- GANGCFG_WRITE. -/
def execGangcfgWrite (val : DWord) (s : State) : Host.Outcome State Fault Refusal := event s (some (s.writeGangcfg val))

/-- Software clears the fault of a context (R410). -/
def State.clearFault (s : State) (ctx : Nat) : State := { s with gfaulted := s.gfaulted.filter fun c => c != ctx }

/-- GFAULT_CLEAR. -/
def execGfaultClear (ctx : BitVec 12) (s : State) : Host.Outcome State Fault Refusal := event s (some (s.clearFault ctx.toNat))

/-! ### Switch records (R402, R403) -/

/-- A switch record. -/
abbrev SwitchRec := BitVec 512

namespace SwitchRec

def t (r : SwitchRec) : Nat := (r.extractLsb' 0 64).toNat
def gen (r : SwitchRec) : Nat := (r.extractLsb' 64 16).toNat
def outCtx (r : SwitchRec) : Nat := (r.extractLsb' 80 12).toNat
def inCtx (r : SwitchRec) : Nat := (r.extractLsb' 96 12).toNat
def outTab (r : SwitchRec) : Nat := (r.extractLsb' 128 64).toNat
def outN (r : SwitchRec) : Nat := (r.extractLsb' 192 32).toNat
def inN (r : SwitchRec) : Nat := (r.extractLsb' 224 32).toNat
def inTab (r : SwitchRec) : Nat := (r.extractLsb' 256 64).toNat

/-- A reserved bit is set. -/
def reserved (r : SwitchRec) : Bool := r.extractLsb' 92 4 != 0 || r.extractLsb' 108 20 != 0 || r.extractLsb' 320 192 != 0

end SwitchRec

/-- The switch before a new one: T, GEN and INCTX; with none, no T, GEN 0 and INCTX 0. -/
def State.previousSwitch (s : State) : Option Nat × Nat × Nat :=
  match s.switches.getLast?, s.lastSwitch with
  | some w, _ => (some (SwitchRec.t w.record), SwitchRec.gen w.record, SwitchRec.inCtx w.record)
  | none, some (t, g, c) => (some t, g, c)
  | none, none => (none, 0, 0)

/-- A table of a record is 8-aligned and readable. -/
def State.tableOk (s : State) (va n : Nat) : Bool := va % 8 == 0 && s.readable 0 va (8 * n)

/-- STATUS of a record that is being queued, in the order of the list of R403; zero accepts it. -/
def State.switchStatus (s : State) (r : SwitchRec) : Nat :=
  let (prevT, prevGen, prevIn) := s.previousSwitch
  if r.reserved || !s.tableOk r.outTab r.outN || !s.tableOk r.inTab r.inN then 1
  else if r.t < s.clockNs + 10000 then 2
  else if (match prevT with | some t => decide (r.t < t + 50000) | none => false) then 3
  else if r.gen ≠ (prevGen + 1) % 65536 then 4
  else if r.outCtx ≠ prevIn then 5
  else if s.gfaulted.contains r.inCtx then 6
  else if 4 ≤ s.switches.length then 7
  else 0

/-- Writing swq queues the record at an address of context 0, or refuses it with event 0x1c6. -/
def State.queueSwitch (s : State) (addr : DWord) : State :=
  let refuse := fun (n : Nat) => { s with swStatus := n }.logOpen 0x1c6 0 0
  if addr.toNat % 64 ≠ 0 then refuse 1
  else
    match s.readCtx 0 addr.toNat 64 2 with
    | .error _ => refuse 1
    | .ok bs =>
      let r : SwitchRec := BitVec.ofNat 512 (leNat bs)
      match s.switchStatus r with
      | 0 => { s with swStatus := 0, switches := s.switches ++ [⟨r, [], [], 0, [], false, false⟩] }
      | n + 1 => refuse (n + 1)

/-- SWQ_WRITE: the supervisor of a core writes swq. -/
def execSwqWrite (_core : Nat) (addr : DWord) (s : State) : Host.Outcome State Fault Refusal := event s (some (s.queueSwitch addr))

/-! ### Phases (R404) -/

/-- Resident workgroups of a context in the order of R404: core, then slot. -/
def State.residentsOf (s : State) (ctx : Nat) : List Nat :=
  (List.range (16 * clusterCount)).flatMap fun core =>
    let here := (s.residents core).filter fun e => e.2.ctx == ctx
    (List.range 16).flatMap fun slot => (here.filter fun e => e.2.slot == slot).map (·.1)

/-- A context joins those that admit nothing. -/
def State.holdCtx (s : State) (ctx : Nat) : State :=
  if ctx = 0 || s.heldCtxs.contains ctx then s else { s with heldCtxs := s.heldCtxs ++ [ctx] }

/-- The head of the queued switches. -/
def State.headSwitch (s : State) : Option Switch := s.switches.head?

def State.setHead (s : State) (w : Switch) : State := { s with switches := w :: s.switches.drop 1 }

/-- The addresses in a table. -/
def State.areaTable (s : State) (va n : Nat) : List DWord :=
  match s.readCtx 0 va (8 * n) (n / 8192 + 2) with
  | .ok bs => (chunks 8 bs n).map (BitVec.ofNat 64)
  | .error _ => []

/-- SWITCH_PRESTAGE: 10 µs before T. -/
def execSwitchPrestage (s : State) : Host.Outcome State Fault Refusal :=
  event s (do
    let w ← s.headSwitch
    let r : SwitchRec := w.record
    if w.phase != 0 || decide (s.clockNs + 10000 < r.t) then none
    else
      let out := s.areaTable r.outTab r.outN
      let short := decide (out.length < (s.residentsOf r.outCtx).length)
      let tab := s.areaTable r.inTab r.inN
      let s := (s.setHead { w with outTab := out, inTab := tab, tab := tab, phase := 1, short := short }).holdCtx r.outCtx
      some (if short then s.logOpen 0x1c6 0 r.outCtx else s))

/-- Saves workgroups into areas in order; one without an area that it can be saved in is only brought to rest. Gives the areas
left and whether every workgroup found one. -/
def State.saveInto (s : State) (areas : List DWord) : List Nat → List DWord × Bool × State
  | [] => (areas, true, s)
  | inst :: rest =>
    match s.wg? inst, areas with
    | none, _ => s.saveInto areas rest
    | some g, [] =>
      let (a, _, s) := (s.stopTeam inst g.team).saveInto [] rest
      (a, false, s)
    | some g, a :: as =>
      if g.saveTo.isSome then s.saveInto areas rest
      else if s.areaOk a inst g then (s.beginSave inst a).saveInto as rest
      else
        let (l, _, s) := (s.stopTeam inst g.team).saveInto as rest
        (l, false, s)

/-- SWITCH_SAVE_START: at T. -/
def execSwitchSaveStart (s : State) : Host.Outcome State Fault Refusal :=
  event s (do
    let w ← s.headSwitch
    let r : SwitchRec := w.record
    if w.phase != 1 || decide (s.clockNs < r.t) then none
    else
      let (left, all, s) := s.saveInto w.outTab (s.residentsOf r.outCtx)
      some (s.setHead { w with outTab := left, phase := 2, short := w.short || !all }))

/-- Every workgroup of the outgoing context is saved. -/
def State.outSaved (s : State) (w : Switch) : Bool :=
  decide (2 ≤ w.phase) && (SwitchRec.outCtx w.record == 0 || (s.residentsOf (SwitchRec.outCtx w.record)).isEmpty)

/-- Every member of the gang is in a set for a generation (R411). -/
def State.allMembers (s : State) (xs : List Nat) (gen : Nat) : Bool :=
  (List.range (s.gangLast + 1)).all fun m => xs.contains (m + 256 * gen)

/-! ### Packets and messages held and delivered (R406, R408) -/

/-- What a message of a member orders, at gang scope (R417): what that member has been sent before, its accesses here that have been
performed, and, as far as its own past goes, what the other members and the host have (log 84). -/
def State.gangPast (s : State) (m : Nat) : Clock × State :=
  let own := Clock.release (s.memberClk.get [] m) (.gang m)
  let others := s.memberClk.filter (fun e => e.1 != m) |>.map (·.2)
  let (b, s) := s.free
  (if b.getLsbD 0 then (others ++ [s.hostClk]).foldl Clock.join own else own, { s with memberClk := s.memberClk.put [] m own })

/-- A message of another member on its way to an inbox of this one. -/
def State.inbound (s : State) (m : Message) (from_ sendId : Nat) : State :=
  let (c, s) := s.gangPast from_
  { s with flights := s.flights ++ [⟨m, from_, none, sendId, s.member, false, c⟩] }

/-- A packet is delivered: a message goes to its inbox, a peer access may be performed; the requester has had the value of a reply
as the access was performed (log 10). -/
def State.deliverPacket (s : State) (p : Packet) (gen : Nat) : State :=
  match p with
  | .message _ m from_ sendId => s.inbound m from_.toNat sendId
  | .access .. => { s with held := s.held ++ [⟨p, gen, true⟩] }
  | .reply .. => s

/-- Held packets for which `f` holds are delivered in the order in which they arrived. -/
def State.releaseHeld (s : State) (f : Held → Bool) : State :=
  let go := s.held.filter fun h => !h.ready && f h
  go.foldl (fun s h => s.deliverPacket h.pkt h.gen) { s with held := s.held.filter fun h => h.ready || !f h }

/-- The member reaches a generation. -/
def State.advanceTo (s : State) (gen ctx : Nat) : State :=
  { s with gen := gen, gangCtx := ctx }.releaseHeld fun h => h.gen == gen

/-- SWITCH_ADVANCE: with every outgoing workgroup saved, the generation advances; in barrier mode after the handshake, of which
each event takes one step (R411). -/
def execSwitchAdvance (s : State) : Host.Outcome State Fault Refusal :=
  event s (do
    let w ← s.headSwitch
    let r : SwitchRec := w.record
    let me := s.member + 256 * r.gen
    if w.phase != 2 || w.short || !s.outSaved w then none
    else if s.clockState = 2 && !s.readySet.contains me then
      some ({ s with readySet := s.readySet ++ [me] }.emit (.ready r.gen))
    else if s.clockState = 2 && !s.commitSet.contains me then
      if s.allMembers s.readySet r.gen then some ({ s with commitSet := s.commitSet ++ [me] }.emit (.commit r.gen))
      else none
    else if s.clockState = 2 && !s.allMembers s.commitSet r.gen then none
    else
      let mine := fun (x : Nat) => x / 256 == r.gen
      let s := (s.setHead { w with phase := 3 }).advanceTo r.gen r.inCtx
      some { s with readySet := s.readySet.filter (fun x => !mine x), commitSet := s.commitSet.filter (fun x => !mine x) })

/-- HANDSHAKE_READY and HANDSHAKE_COMMIT: a packet of another member. -/
def execHandshakeReady (member : BitVec 8) (gen : BitVec 16) (s : State) : Host.Outcome State Fault Refusal :=
  let x := member.toNat + 256 * gen.toNat
  event s (if s.gangLast < member.toNat || s.readySet.contains x then none else some { s with readySet := s.readySet ++ [x] })

def execHandshakeCommit (member : BitVec 8) (gen : BitVec 16) (s : State) : Host.Outcome State Fault Refusal :=
  let x := member.toNat + 256 * gen.toNat
  event s (if s.gangLast < member.toNat || s.commitSet.contains x then none else some { s with commitSet := s.commitSet ++ [x] })

/-- Restores a saved area on the first core that takes it. -/
def State.restoreAnywhere (s : State) (area : DWord) : Option State :=
  (s.scan.flatMap fun cl => (List.range 16).map fun i => 16 * cl + i).findSome? fun core =>
    match s.restore core area with | .ok (_, s) => some s | .error _ => none

/-- Restores every area that fits; gives those that do not. -/
def State.restoreAll (s : State) : List DWord → List DWord × State
  | [] => ([], s)
  | a :: as =>
    match s.restoreAnywhere a with
    | some s => s.restoreAll as
    | none => let (l, s) := s.restoreAll as; (a :: l, s)

/-- The head switch is done. -/
def State.popSwitch (s : State) (w : Switch) (tab : List DWord) : State :=
  { s with switches := s.switches.drop 1, lastSwitch := some (SwitchRec.t w.record, SwitchRec.gen w.record, SwitchRec.inCtx w.record),
           lastTab := tab }

/-- SWITCH_RELEASED: incoming workgroups are restored, and with the last of them the context admits work again. -/
def execSwitchReleased (s : State) : Host.Outcome State Fault Refusal :=
  event s (do
    let w ← s.headSwitch
    let r : SwitchRec := w.record
    if w.phase != 3 then none
    else
      let (left, s') := s.restoreAll w.inTab
      if left.isEmpty then
        let s' := s'.popSwitch w w.tab
        some { s' with heldCtxs := s'.heldCtxs.filter fun c => c != r.inCtx }
      else if left.length = w.inTab.length then none
      else some (s'.setHead { w with inTab := left }))

/-- GANG_STRAGGLER (R408): not ready at T + 20 µs. The event names T and GEN (log 25). -/
def execGangStraggler (s : State) : Host.Outcome State Fault Refusal :=
  event s (do
    let w ← s.headSwitch
    let r : SwitchRec := w.record
    if w.straggler || 3 ≤ w.phase || decide (s.clockNs < r.t + 20000) || (s.outSaved w && !w.short) then none
    else
      let s := (s.setHead { w with straggler := true }).logNamed 0x1c0 0 r.outCtx (BitVec.ofNat 64 r.t) (BitVec.ofNat 64 r.gen)
      some (s.emit (.straggler r.outCtx r.gen)))

/-! ### Faulted contexts (R409, R410) -/

/-- A context is marked faulted, with an event; its resident workgroups are brought to rest. -/
def State.faultCtx (s : State) (ctx : Nat) : State :=
  if ctx = 0 then s
  else (({ s with gfaulted := if s.gfaulted.contains ctx then s.gfaulted else s.gfaulted ++ [ctx],
                  gangCtx := if s.gangCtx = ctx then 0 else s.gangCtx }).holdCtx ctx).logOpen 0x1c2 0 ctx

/-- The context of the workgroup to which a held packet goes. -/
def State.packetCtx (s : State) (p : Packet) : Option Nat :=
  match p with
  | .message _ m _ _ => (s.anyWg? (s.instKey (m.target.extractLsb' 32 32).toNat)).map (·.ctx)
  | .access .. | .reply .. => none

/-- Contexts become faulted. Their resident workgroups that no area waits for are saved into areas of the switch's INTAB, as it was read
at pre-stage, in order; an area that holds a saved workgroup is passed over (log 85). Held messages for them are delivered. A member
that has not switched takes the generation with no context. -/
def State.faultSwitch (s : State) (outCtx inCtx : Nat) (both : Bool) : State :=
  let ctxs := if both then [outCtx, inCtx] else [inCtx]
  let late := match s.headSwitch with
    | some w => if SwitchRec.inCtx w.record = inCtx && decide (1 ≤ w.phase) then some w else none
    | none => none
  let tab := match late with | some w => w.tab | none => s.lastTab
  let s := ctxs.foldl State.faultCtx s
  let left := (ctxs.filter (· != 0)).flatMap s.residentsOf
  let (_, _, s) := s.saveInto (tab.filter fun a => !s.saved.any fun e => e.1 == a) left
  let s := s.releaseHeld fun h => match s.packetCtx h.pkt with | some c => ctxs.contains c | none => false
  match late with
  | some w => (s.popSwitch w tab).advanceTo (SwitchRec.gen w.record) 0
  | none => s

/-- SWITCH_FAULT_TIMEOUT: not switched at T + 500 µs. -/
def execSwitchFaultTimeout (s : State) : Host.Outcome State Fault Refusal :=
  event s (do
    let w ← s.headSwitch
    let r : SwitchRec := w.record
    if decide (s.clockNs < r.t + 500000) || w.phase == 0 then none
    else
      let both := !(s.outSaved w)
      let s := s.faultSwitch r.outCtx r.inCtx both
      some (s.emit (.faultNotice (if both then r.outCtx else 0) r.inCtx r.gen)))

/-- FAULT_NOTICE_RECEIVE. -/
def execFaultNoticeReceive (outCtx inCtx : BitVec 12) (both : Bool) (s : State) : Host.Outcome State Fault Refusal :=
  event s (some (s.faultSwitch outCtx.toNat inCtx.toNat both))

/-! ### Arriving packets (R406) -/

/-- One more packet dropped, by age or by generation; the counts saturate. -/
def State.countDrop (s : State) (byGen : Bool) : State :=
  let inc := fun (x : BitVec 32) => if x = BitVec.allOnes 32 then x else x + 1
  let age : BitVec 32 := s.gdrop.extractLsb' 0 32
  let old : BitVec 32 := s.gdrop.extractLsb' 32 32
  { s with gdrop := if byGen then inc old ++ age else old ++ inc age }

/-- The account word of a message. -/
def messageAcct (m : Message) : Word := m.acct.setWidth 32

/-- A packet is dropped: a message's grains are lost, and a notice goes to the sender. -/
def State.dropPacket (s : State) (p : Packet) (byGen : Bool) : State :=
  let s := s.countDrop byGen
  match p with
  | .message _ m from_ sendId =>
    (s.countGrains (messageAcct m) .lost m.grains.toNat []).emit (.dropped from_.toNat sendId)
  | .access _ from_ _ _ _ | .reply _ from_ _ => s.emit (.dropped from_.toNat 0)

/-- The member that sent a packet, and the packet's length: the header, and the message or the data of an access (log 86). -/
def packetSender : Packet → Nat
  | .message _ _ f _ | .access _ f _ _ _ | .reply _ f _ => f.toNat

def packetBytes : Packet → Nat
  | .message .. => 7 + 32
  | .access _ _ _ n _ => 7 + n
  | .reply _ _ bs => 7 + (bs.getD []).length

/-- The hold buffer of the port at which a member's packets come in has room for one more (R408). -/
def State.holdRoom (s : State) (p : Packet) : Bool :=
  let there := (s.held.filter fun h => !h.ready && packetSender h.pkt == packetSender p).map fun h => packetBytes h.pkt
  decide (there.sum + packetBytes p ≤ 262144)

/-- GANG_PACKET_ARRIVE: the checks of R406 in order. While the buffer that would hold it is full, the packet waits in its sender's
port. -/
def State.arrive (s : State) (p : Packet) (h : PktHead) : State :=
  let age := (s.clockNs / 1000 % 2 ^ 24 + 2 ^ 24 - h.stamp.toNat) % 2 ^ 24
  let ahead := (h.gen.toNat + 65536 - s.gen) % 65536
  let behind := (s.gen + 65536 - h.gen.toNat) % 65536
  if h.gang.toNat ≠ s.gangId || !s.gangOn then
    match p with
    | .message _ _ from_ sendId => s.emit (.refusal from_.toNat sendId)
    | .access _ from_ _ _ _ => s.emit (.reply from_.toNat none)
    | .reply .. => s
  else if 1000 < age then s.dropPacket p false
  else if 1 ≤ ahead && ahead ≤ 20 then if !s.holdRoom p then s else { s with held := s.held ++ [⟨p, h.gen.toNat, false⟩] }
  else if 20 < behind then s.dropPacket p true
  else s.deliverPacket p h.gen.toNat

def execGangPacketArrive (p : Packet) (s : State) : Host.Outcome State Fault Refusal :=
  event s (some (match p with
    | .message h _ _ _ => s.arrive p h
    | .access h _ _ _ _ | .reply h _ _ => s.arrive p h))

/-! ### Fabric messages (R277, R278, R413, R443) -/

/-- The sender of a message learns its outcome: its flag falls, with a cause unless the message was accepted. -/
def State.sendEnd (s : State) (f : Flight) (err : Option Detail) : State :=
  match f.sender.bind fun x => x.1.warp?.map fun w => (w, x.2) with
  | some ((inst, w), flag) =>
    s.modAnyWarp inst w fun x =>
      let x := (x.land f.sendId).flagDone flag f.clk
      match err with
      | none => x
      | some d => if flag = 0 then x else x.flagError flag ⟨f.sendId, d, 0, none⟩
  | none => s

/-- A message of this module frees its entry of the fabric send buffer. -/
def State.freeSend (s : State) (f : Flight) : State :=
  match f.sender with
  | some (p, _) =>
    match p.inst? with
    | some inst => s.modAnyWg inst fun g => { g with fabBuf := { g.fabBuf with filled := g.fabBuf.filled.filter fun e => e.2 != f.sendId } }
    | none => s
  | none => s

def State.dropFlight (s : State) (i : Nat) : State := { s with flights := s.flights.eraseIdx i }

/-- The eight words of a message. -/
def messageWords (m : Message) : List Word :=
  let x : BitVec 256 := m.payload ++ m.rsvd ++ m.acct ++ m.grains ++ m.target
  (List.range 8).map fun i => x.extractLsb' (32 * i) 32

/-- INSTANCE and GEN that a message addresses. -/
def messageInst (m : Message) : Nat := (m.target.extractLsb' 32 32).toNat
def messageGen (m : Message) : Nat := (m.target.extractLsb' 16 16).toNat

/-- What becomes of a message at its destination. -/
inductive Arrival where
  | accept
  | wait
  | refuse
  | lost
  deriving DecidableEq, Repr

/-- R278 and R413. Until a team is saved or restored whole, messages to its inboxes wait (R371). -/
def State.arrival (s : State) (m : Message) : Arrival :=
  let inst := s.instKey (messageInst m)
  let mine := fun (g : Wg) => g.gen % 65536 == messageGen m
  if m.rsvd != 0 || m.target.extractLsb' 8 8 != 0 then .refuse
  else
    match s.anyWg? inst with
    | some g =>
      if !mine g then (if s.lostInst.contains (messageInst m, messageGen m) then .lost else .refuse)
      else
        let settled := if (s.wg? inst).isSome then !g.frozen else !(s.mates inst g.team).any fun i => (s.wg? i).isSome
        if settled && decide (g.inbox.length < 64) then .accept else .wait
    | none => if s.lostInst.contains (messageInst m, messageGen m) then .lost else .refuse

/-- Earlier messages of the same sender to the same inbox go first (R417). -/
def State.firstOf (s : State) (i : Nat) (f : Flight) : Bool :=
  !(s.flights.take i).any fun e =>
    !e.refused && e.toMember == f.toMember && e.msg.target == f.msg.target && e.from_ == f.from_ &&
    (e.sender.map (·.1)) == (f.sender.map (·.1))

/-- FABRIC_MESSAGE_DELIVER. -/
def execFabricMessageDeliver (i : Nat) (s : State) : Host.Outcome State Fault Refusal :=
  event s (do
    let f ← s.flights[i]?
    if f.refused || f.toMember != s.member || !s.firstOf i f then none
    else
      let local_ := f.from_ == s.member
      match s.arrival f.msg with
      | .wait => none
      | .accept =>
        let inst := s.instKey (messageInst f.msg)
        let cyc := match s.wg? inst with | some g => (s.core g.core).cycle | none => 0
        let e : QEntry := ⟨messageWords f.msg, 0, match f.sender with | some (p, _) => p | none => .gang f.from_, f.clk, cyc, 0⟩
        let s := ((s.dropFlight i).freeSend f).enterInbox inst e
        some (if local_ then s.sendEnd f none else s.emit (.accepted f.from_ f.sendId))
      | .refuse => some { s.freeSend f with flights := s.flights.set i { f with refused := true } }
      | .lost =>
        let s := ((s.dropFlight i).freeSend f).countGrains (messageAcct f.msg) .lost f.msg.grains.toNat []
        some (if local_ then s.sendEnd f (some ⟨0x1c1, BitVec.ofNat 32 (messageInst f.msg), 0, 7, 0, none, none, none⟩)
          else s.emit (.gone f.from_ f.sendId)))

/-- REFUSAL_RETURN: a refusal comes back to its sender, here or on another member: the grains count as returned, and the flag
completes with 0x103. -/
def execRefusalReturn (i : Nat) (s : State) : Host.Outcome State Fault Refusal :=
  event s (do
    let f ← s.flights[i]?
    if !f.refused && f.toMember == s.member then none
    else
      let s := s.dropFlight i
      some (if f.from_ = s.member then (s.countGrains (messageAcct f.msg) .returned f.msg.grains.toNat f.clk).sendEnd f (some (.code_ 0x103))
        else s.emit (.refusal f.from_ f.sendId)))

/-- The message of a send that has left for another member. -/
def State.sentFlight (s : State) (sendId : Nat) : Option (Nat × Flight) :=
  (List.range s.flights.length).findSome? fun i =>
    match s.flights[i]? with
    | some f => if f.sendId = sendId && f.from_ = s.member && f.toMember != s.member then some (i, f) else none
    | none => none

/-- DROP_NOTICE_RECEIVE: message expired (R406). -/
def execDropNoticeReceive (sendId : Nat) (s : State) : Host.Outcome State Fault Refusal :=
  event s (do
    let (i, f) ← s.sentFlight sendId
    some ((s.dropFlight i).sendEnd f (some (.code_ 0x1c8))))

/-- Another member has accepted a message, or its destination is lost (log 10). -/
def State.sendOutcome (s : State) (sendId : Nat) (lost : Bool) : State :=
  match s.sentFlight sendId with
  | some (i, f) =>
    (s.dropFlight i).sendEnd f (if lost then some ⟨0x1c1, BitVec.ofNat 32 (messageInst f.msg), 0, 7, 0, none, none, none⟩ else none)
  | none => s

/-- The flag on which a send counts. -/
def State.sendFlag (s : State) (p : Party) (id : Nat) : Nat :=
  match p.warp?.bind fun w => (s.anyWg? w.1).bind fun g => g.warps[w.2]? with
  | some x => (match x.inflight.find? fun f => f.id == id with | some f => f.flag | none => 0)
  | none => 0

/-- FABRIC_SEND_DEPART, for the workgroup that `State.cur` names: its oldest message to another member leaves at the port, unless the
link to that member applies back-pressure (R408). To a member that is none of the gang it is refused. -/
def execFabricSendDepart (s : State) : Host.Outcome State Fault Refusal :=
  event s (match s.cur with
    | .wg inst => do
      let g ← s.anyWg? inst
      let (e, id) ← g.fabBuf.filled.find? fun (e : QEntry × Nat) => messageMember (messageOf e.1.data) != s.member
      let m := messageOf e.data
      let bad := !s.gangOn || decide (s.gangLast < messageMember m)
      let to_ := messageMember m
      let f : Flight := ⟨m, s.member, some (e.party, s.sendFlag e.party id), id, to_, bad, e.clk⟩
      if !bad && s.slowLinks.contains to_ then none
      else
        let s := { s.freeSend f with flights := s.flights ++ [f] }
        some (if bad then { s with sendHeads := s.sendHeads.filter fun h => h.1 != id }
          else { s.sendMessage to_ m id with memberClk := s.memberClk.upd [] to_ fun c => Clock.join c e.clk })
    | _ => none)

/-! ### Peer accesses (R416) -/

/-- The member that asks, and the access, of a packet that may be performed. -/
def Held.access? (h : Held) : Option (Nat × Nat × Nat × PeerReq) :=
  match h.pkt with
  | .access _ from_ off n r => if h.ready then some (from_.toNat, off, n, r) else none
  | .message .. | .reply .. => none

def PeerReq.kind : PeerReq → AccKind
  | .read _ => .load
  | .write .. => .store
  | .atomic .. | .cas .. => .atomic

/-- SCOPE of a peer access: a release, an acquire, or with an atomic both, of the member that asks (R138, R416). -/
def PeerReq.scope : PeerReq → Nat
  | .read sc | .write sc _ | .atomic sc _ _ _ | .cas sc _ _ => sc.toNat

def PeerReq.isAtomic : PeerReq → Bool
  | .atomic .. | .cas .. => true
  | _ => false

/-- The bytes of the word of an atomic. -/
def PeerReq.width (n : Nat) : PeerReq → Nat
  | .atomic _ _ wide _ | .cas _ wide _ => if wide then 8 else 4
  | _ => n

/-- The operands of a request of atomics, applied one by one in order at a word of `w` bytes (R147): the old value before each, the last
value, and whether a mark of the word stays, which each step says with its new value. -/
def peerSteps (w : Nat) (f : Nat → Nat × Nat → Nat × Bool) : Nat → Bool → List (Nat × Nat) → List Byte × Nat × Bool
  | old, keeps, [] => ([], old, keeps)
  | old, keeps, v :: vs =>
    let (new, stays) := f old v
    let (bs, last) := peerSteps w f new (keeps && stays) vs
    (leBytes w old ++ bs, last)

/-- Performs a peer access at an exported place; gives the reply's data: what a read gives, or the old value before each operand. -/
def State.peerPerform (s : State) (p : Piece) (r : PeerReq) : List Byte × State :=
  let rmw := fun (f : Nat → Nat × Nat → Nat × Bool) (vs : List (DWord × DWord)) =>
    let (bs, s) := s.readPiece p
    let low := fun (v : DWord) => v.toNat % 2 ^ (8 * p.bytes)
    let (olds, x, keeps) := peerSteps p.bytes f (leNat bs) true (vs.map fun v => (low v.1, low v.2))
    (olds, s.writePiece p (leBytes p.bytes x) fun i => keeps && s.markAt (p.place.plus (4 * i)) 0)
  match r with
  | .read _ => s.readPiece p
  | .write _ bs => ([], s.writePiece p bs fun _ => false)
  | .atomic _ aop _ vs => rmw (fun old v => (applyAop aop.toNat (8 * p.bytes) old v.1, aop != 8)) (vs.map fun v => (v, 0))
  | .cas _ _ vs => rmw (fun old v => if old = v.1 then (v.2, false) else (old, true)) vs

/-- What a peer access orders (R138, R416): with a SCOPE, a read or atomic acquires for the member that asks, and a write or atomic leaves
the member's release, at gang scope what it has done here so far; any write ends the releases that it overwrites. -/
def State.peerOrder (s : State) (m : Nat) (p : Piece) (r : PeerReq) : State :=
  let sc := PeerReq.scope r
  let reads := match r with | .write .. => false | _ => true
  let writes := match r with | .read _ => false | _ => true
  let s := if sc = 0 || !reads then s
    else { s with memberClk := s.memberClk.upd [] m fun c => Clock.join c (s.acquired (.gang m) sc (s.relsOf p)) }
  if !writes then s
  else if sc = 0 then s.setRels p [] (PeerReq.isAtomic r)
  else
    let (clk, s) := s.gangPast m
    s.setRels p [⟨.gang m, sc, clk, 0⟩] (PeerReq.isAtomic r)

/-- The locations of a peer access that have a history: those that accesses through RACE-TRACKED leaves have made (R142). -/
def State.peerLocs (s : State) (p : Piece) : List Loc :=
  ({ p with tracked := true } : Piece).locs.filter fun l => s.histAt l != .empty

/-- The peer's access in the histories of words that have one (R142): an access here that no message orders after it races. -/
def State.notePeer (s : State) (m : Nat) (p : Piece) (r : PeerReq) : State :=
  let a : Acc := ⟨.gang m, .gang m, Clock.epoch (s.memberClk.get [] m) (.gang m), PeerReq.isAtomic r, s.nextId⟩
  s.addHist a (match r with | .read _ => false | _ => true) (s.peerLocs p)

/-- A peer access would race with an earlier one (R142): it has no effect, and is answered as a refused one (log 84). -/
def State.peerRaces (s : State) (m : Nat) (p : Piece) (r : PeerReq) : Bool :=
  let reads := match r with | .write .. => false | _ => true
  let clk := s.memberClk.get [] m
  let clk := if (PeerReq.scope r) = 0 || !reads then clk else Clock.join clk (s.acquired (.gang m) (PeerReq.scope r) (s.relsOf p))
  (s.raceOf (.gang m) clk (match r with | .read _ => false | _ => true) (PeerReq.isAtomic r) (s.peerLocs p)).isSome

/-- PEER_ACCESS_ARRIVE: the earliest access of a member is checked and performed, or refused; one that would race has no effect (R142). -/
def execPeerAccessArrive (i : Nat) (s : State) : Host.Outcome State Fault Refusal :=
  event s (do
    let h ← s.held[i]?
    let (from_, off, n, r) ← h.access?
    let earlier := (s.held.take i).any fun e => match e.access? with | some (f, _) => f == from_ | none => false
    if earlier then none
    else
      let s := { s with held := s.held.eraseIdx i }
      some (match s.aperture off (PeerReq.kind r) with
        | none => s.emit (.reply from_ none)
        | some (pa, key) =>
          let p : Piece := ⟨s.placeOfPa pa, PeerReq.width n r, false, key, 0⟩
          if s.peerRaces from_ p r then s.emit (.reply from_ none)
          else
            let s := (s.notePeer from_ p r).peerOrder from_ p r
            let (bs, s) := s.peerPerform p r
            s.emit (.reply from_ (some bs))))

/-! ### Loss notices (R412, R413) -/

/-- LOSS_NOTICE_RECEIVE: the notice counts; the grains of the lost workgroups come as account updates. -/
def execLossNoticeReceive (gang : BitVec 16) (_lost : List LostWg) (s : State) : Host.Outcome State Fault Refusal :=
  event s (if gang.toNat = s.gangId then some { s with gloss := if s.gloss = 2 ^ 32 - 1 then s.gloss else s.gloss + 1 } else none)

/-! ### The gang clock (R399 to R401) -/

/-- An offset is measured; the events of a sync message carry it (R401; log 25). -/
def State.sync (s : State) (o : Int) : State :=
  let note := fun (s : State) (code : Nat) => s.logNamed code 0 0 (BitVec.ofInt 64 o) 0
  let s := { s with gangOffset := o, measured := true, lastSync := s.clockNs, syncCount := if o.natAbs ≤ 200 then s.syncCount + 1 else 0 }
  if s.clockState = 0 then
    if 1000 < o.natAbs then note { s with clockState := 1, holdoverAt := s.clockNs, syncCount := 0 } 0x1c3
    else if 200 < o.natAbs then note s 0x1c5
    else s
  else if 16 ≤ s.syncCount then note { s with clockState := 0 } 0x1c5
  else s

/-- PTP_SYNC_MESSAGE. -/
def execPtpSyncMessage (offset : BitVec 32) (s : State) : Host.Outcome State Fault Refusal := event s (some (s.sync offset.toInt))

/-- PPS_EDGE: the edge marks a whole second of a grandmaster, and measures the distance from it. A gang of one member is its own
grandmaster. -/
def execPpsEdge (s : State) : Host.Outcome State Fault Refusal :=
  event s (if s.timeKnown && (s.gangLast = 0 || s.grandmaster) then some (s.sync (((s.clockNs + 500000000) % 1000000000 : Nat) - 500000000 : Int)) else none)

/-- SYNC_LOSS_TIMEOUT. -/
def execSyncLossTimeout (s : State) : Host.Outcome State Fault Refusal :=
  event s (if s.clockState = 0 && decide (s.lastSync + 1000000000 ≤ s.clockNs) then
      some ({ s with clockState := 1, holdoverAt := s.clockNs, syncCount := 0 }.logOpen 0x1c3 0 0)
    else none)

/-- HOLDOVER_TIMEOUT. -/
def execHoldoverTimeout (s : State) : Host.Outcome State Fault Refusal :=
  event s (if s.clockState = 1 && decide (s.holdoverAt + 10000000000 ≤ s.clockNs) then
      some ({ s with clockState := 2 }.logOpen 0x1c4 0 0)
    else none)

/-- gstat (R398). -/
def State.gstat (s : State) : DWord := BitVec.ofNat 64 ((BitVec.ofInt 32 s.gangOffset).toNat * 2 ^ 16 + s.clockState % 4)

end Sys2Proof.Machine
end

