-- ==== Sys2Proof/Machine/Gate.lean ====
section
/-! DEFINITION. The gate unit (R293, R329, R375, R392) and the binding of a tape (R447). -/

namespace Sys2Proof.Machine

/-! ### Scores (R329) -/

/-- The score of an expert: the sum rule over its weights and the token (R102). -/
def gateScore (weights x : List Word) : Word := sumGroups 0 x.length (List.zipWith (fun g v => (f32 g).mul (f32 v)) weights x)

/-- A score stands before another: a NaN last, −0 equal to +0, a tie to the lower index. -/
def scoreBefore (a b : Nat × Word) : Bool :=
  let x := f32 a.2
  let y := f32 b.2
  if x.isNan then y.isNan && decide (a.1 ≤ b.1)
  else if y.isNan then true
  else if y.lt x then true
  else if x.lt y then false
  else decide (a.1 ≤ b.1)

/-- Enters a score in descending order. -/
def insertScore (a : Nat × Word) : List (Nat × Word) → List (Nat × Word)
  | [] => [a]
  | b :: bs => if scoreBefore a b then a :: b :: bs else b :: insertScore a bs

/-- The scores in descending order. -/
def sortScores (xs : List Word) : List (Nat × Word) :=
  (List.range xs.length).foldl (fun l i => insertScore (i, xs.getD i 0) l) []

/-- A gate weight: a chosen score over the exact sum of the chosen scores, rounded once. -/
def gateWeight (chosen : List (Nat × Word)) (s : Word) : Word :=
  let total := match chosen with
    | [] => Num.zero
    | c :: cs => cs.foldl (fun t e => t.add false (f32 e.2)) (f32 c.2)
  round32 .rne ((f32 s).div 64 total)

/-- A tape entry (R293): the fields of the expert's template with its index and with the token's; reserved bits are zero. -/
def gateEntry (template : BitVec 256) (expert : Nat) (token : BitVec 16) (addr1 : DWord) (w : Word) : BitVec 256 :=
  w ++ (0 : BitVec 16) ++ token ++ addr1 ++ template.extractLsb' 64 64 ++ (0 : BitVec 8) ++ template.extractLsb' 16 40 ++ BitVec.ofNat 8 expert ++
    template.extractLsb' 0 8

/-! ### Tokens -/

/-- The page of a token's vector. -/
def Gate.addr (g : Gate) (token : BitVec 16) : DWord := g.addr1 + g.stride1 * token.setWidth 64

/-- A word of a vector is written, recorded, and brought to the stacks before the entry that names it (R294, R116). -/
def State.gateStore (s : State) (p : Piece) (x : Word) : State :=
  let s := ((s.writePiece p (leBytes 4 x.toNat) fun _ => false).setRels p [] false).addHist ⟨.gate, .gate, s.gate.tokens + 1, false, s.nextId⟩ true p.locs
  s.settleCells fun c => p.cells.contains c

/-- Writes the elements of a vector, one word after another, as the gate unit. -/
def State.gateWrite (s : State) (g : Gate) : DWord → List Word → Except Detail State
  | _, [] => .ok s
  | a, x :: xs =>
    match (if canonical a then s.translate g.core g.ctx 7 .gate a else .error ⟨0x080, 0, 0, 7, a, none, none, none⟩) with
    | .error d => .error d
    | .ok (l, s) => (s.gateStore (s.leafPiece l 4) x).gateWrite g (a + 4) xs

/-- The entries of a token, one for each chosen expert. -/
def Gate.entries (g : Gate) (token : BitVec 16) (x : List Word) : List (BitVec 256) :=
  let chosen := (sortScores (g.experts.map fun e => gateScore e.1 x)).take g.choose
  chosen.map fun c => gateEntry (match g.experts[c.1]? with | some e => e.2 | none => 0) c.1 token (g.addr token) (gateWeight chosen c.2)

/-- A failed access stops the layer, with an event (R384). -/
def State.gateFails (s : State) (d : Detail) : State :=
  { s with gate := { s.gate with stopped := true } }.logCause s.gate.core s.gate.ctx d

/-- GATE_TOKEN_ARRIVE: the vector is written, and the token's entries wait for room. The token crosses the gate unit's checks as an
access of the host, completed with Unsupported Request and an event where the access table denies it (R384, R392), and the unit reads its
own memory for the scores (R390). A write that fails stops the layer, and nothing of it is
written (R392). -/
def execGateTokenArrive (token : BitVec 16) (x : List Word) (s : State) : Host.Outcome State Fault Refusal :=
  event s (
    let g := s.gate
    if !g.bound || g.stopped || !s.up then none
    else if !s.mayAccess 4 g.ctx 8 2 then some ((s.logCause g.core g.ctx (denied 4 8 (g.addr token))).answer none)
    else if !s.mayAccess 4 g.ctx 7 1 then some (s.gateFails (denied 4 7 (g.addr token)))
    else
      match s.gateWrite g (g.addr token) x with
      | .error d => some (s.gateFails d)
      | .ok s => some { s with gate := { g with pending := g.pending ++ [g.entries token x], tokens := g.tokens + 1 } })

/-! ### Entries on the tape -/

/-- Entries that a tape holds. -/
def Tape.count (t : Tape) : Nat := (t.tail + 4096 - t.head) % 4096

/-- Entries of token `n` go on a tape in order. -/
def Tape.append (t : Tape) (n : Nat) : List (BitVec 256) → Tape
  | [] => t
  | e :: es =>
    { t with ring := t.ring.put 0 (t.tail % 2048) e, gateAt := t.gateAt.put 0 (t.tail % 2048) n, tail := (t.tail + 1) % 4096 }.append n es

/-- All of a token's entries fit. -/
def Tape.takes (t : Tape) (es : List (BitVec 256)) : Bool := decide (t.count + es.length ≤ 2048)

/-- GATE_TAPE_ENTRY_WRITE: the entries of the oldest token go on the tape, all of them together; those of a saved owner on the
tape in its area (R375). -/
def execGateTapeEntryWrite (s : State) : Host.Outcome State Fault Refusal :=
  event s (
    match s.gate.pending with
    | [] => none
    | es :: rest =>
      let g := s.gate
      let n := g.tokens + 1 - g.pending.length
      let done := { s with gate := { g with pending := rest } }
      let saved := match g.owner with | some i => s.saved.find? fun (e : DWord × Saved) => e.2.inst == i && e.2.tape.isSome | none => none
      match saved with
      | some (area, x) =>
        match x.tape with
        | some t =>
          let x := { x with tape := some (t.append n es) }
          if t.takes es then some ({ done with saved := assocPut s.saved area x }.rewriteTape area x) else none
        | none => none
      | none =>
        let core := match g.owner.bind s.wg? with | some w => w.core | none => g.core
        let t := (s.core core).tape
        if t.takes es then some (done.modCore core fun k => { k with tape := t.append n es }) else none)

/-! ### tapeown (R447) -/

/-- The workgroup resident in a slot of a core. -/
def State.inSlot (s : State) (core slot : Nat) : Option Nat := ((s.residents core).find? fun e => e.2.slot == slot).map (·.1)

/-- A write with V = 1 binds an unbound tape to a resident workgroup. -/
def State.bindTape (s : State) (core : Nat) (val : DWord) : State :=
  match s.inSlot core (val.extractLsb' 0 4).toNat, (s.core core).tape.owner with
  | some inst, none =>
    let s := s.modCore core fun k => { k with tape := { k.tape with owner := some inst } }
    if s.gate.bound && s.gate.core == core && s.gate.owner.isNone then { s with gate := { s.gate with owner := some inst } } else s
  | _, _ => s

/-- A write with V = 0 unbinds it: ring, slots and counters are empty. -/
def State.unbindTape (s : State) (core : Nat) : State := s.modCore core fun k => { k with tape := .zero }

/-- Writes tapeown. -/
def State.writeTapeown (s : State) (core : Nat) (val : DWord) : State :=
  if val.getLsbD 63 then s.bindTape core val else s.unbindTape core

/-- TAPEOWN_BIND: a write of tapeown with V = 1. -/
def execTapeownBind (core : Nat) (val : DWord) (s : State) : Host.Outcome State Fault Refusal :=
  event s (if val.getLsbD 63 then some (s.bindTape core val) else none)

/-- TAPEOWN_UNBIND: a write of tapeown with V = 0. -/
def execTapeownUnbind (core : Nat) (val : DWord) (s : State) : Host.Outcome State Fault Refusal :=
  event s (if val.getLsbD 63 then none else some (s.unbindTape core))

/-- tapeown as it reads. -/
def State.tapeown (s : State) (core : Nat) : DWord :=
  match (s.core core).tape.owner.bind s.wg? with
  | some g => BitVec.ofNat 64 (2 ^ 63 + g.slot % 16)
  | none => 0

end Sys2Proof.Machine
end

