-- ==== Sys2Proof/Machine/Lane.lean ====
section
/-! DEFINITION. Lane operations (R215 to R220). -/

namespace Sys2Proof.Machine

/-- The source lane of LXCH for lane `l` (R216). -/
def exchangeLane (mode : Nat) (b : Word) (l : Nat) : Nat :=
  match mode with
  | 0 => b.toNat % 32
  | 1 => let t := (l : Int) + b.toInt; if 0 ≤ t ∧ t ≤ 31 then t.toNat else l
  | 2 => (l + b.toNat) % 32
  | _ => l ^^^ (b.toNat % 32)

/-- LXCH reads elements of other lanes of its group, of other groups and of exited lanes. -/
def execLxch (h : Head) (b : BodyA) (s : State) : Host.Outcome State Fault Refusal :=
  runOp s h fun c => do
    let na := namesOf b.sa 1 1
    let nb := namesOf b.sb 1 2
    let nd := namesOf b.dst 1 0
    checkNames (s.warp c.ref) (nd ++ na ++ nb)
    let act := c.active s h
    let s1 ← s.rowAccess c act false nb
    let src := fun l => exchangeLane b.mod.toNat ((s1.opnd c b.sb false l).1.setWidth 32) l
    let srcs := (Lanes.list act).foldl (fun m l => m ||| Mask.one (src l)) 0
    let s2 ← s1.rowAccess c srcs false na
    let s3 ← s2.rowAccess c act true nd
    .ok (s3.writeV c b.dst.idx false act (c.guardMarks s h) fun l =>
      let x := s2.opnd c b.sa false (src l)
      (x.1, x.2 || (s1.opnd c b.sb false l).2))

/-- PAGR (R217). -/
def execPagr (h : Head) (b : BodyA) (s : State) : Host.Outcome State Fault Refusal :=
  runOp s h fun c =>
    let act := Lanes.list (c.active s h)
    alu s c h b.dst false [] fun s _ =>
      let holds := fun l => (s.opnd c b.sa false l).1 != 0
      let r := match b.mod.toNat with
        | 0 => act.all holds
        | 1 => act.any holds
        | _ => act.all holds || act.all fun l => !holds l
      (truth r, act.any fun l => (s.opnd c b.sa false l).2)

/-- PMSK (R217). -/
def execPmsk (h : Head) (b : BodyA) (s : State) : Host.Outcome State Fault Refusal :=
  runOp s h fun c =>
    let act := c.active s h
    alu s c h b.dst false [] fun s _ =>
      ((Lanes.mask fun l => act.has l && (s.opnd c b.sa false l).1 != 0).setWidth 64,
        (Lanes.list act).any fun l => (s.opnd c b.sa false l).2)

/-- LEQM (R218). -/
def execLeqm (h : Head) (b : BodyA) (s : State) : Host.Outcome State Fault Refusal :=
  runOp s h fun c =>
    let w := intWide b.mod
    let act := c.active s h
    alu s c h b.dst false [(b.sa, wideN w, 1)] fun s l =>
      let x := (s.opnd c b.sa w l).1
      ((Lanes.mask fun k => act.has k && (s.opnd c b.sa w k).1 == x).setWidth 64,
        (Lanes.list act).any fun k => (s.opnd c b.sa w k).2)

/-- The operators of LRED (R219). -/
def reduceOp (m : Nat) (x y : Word) : Word :=
  match m with
  | 0 => x + y
  | 1 => if x.toInt ≤ y.toInt then x else y
  | 2 => if x.toInt ≤ y.toInt then y else x
  | 3 => if x.toNat ≤ y.toNat then x else y
  | 4 => if x.toNat ≤ y.toNat then y else x
  | 5 => x &&& y
  | 6 => x ||| y
  | _ => x ^^^ y

/-- The combination of values in order. -/
def reduceList (m : Nat) : List Word → Word
  | [] => 0
  | x :: xs => xs.foldl (reduceOp m) x

/-- LRED (R219). -/
def execLred (h : Head) (b : BodyA) (s : State) : Host.Outcome State Fault Refusal :=
  runOp s h fun c =>
    let scan := b.sb.immNat == 1
    let act := Lanes.list (c.active s h)
    alu s c h b.dst false [(b.sa, 1, 1)] fun s l =>
      let ls := if scan then act.filter (· ≤ l) else act
      ((reduceList b.mod.toNat (ls.map fun k => (s.opnd c b.sa false k).1.setWidth 32)).setWidth 64,
        ls.any fun k => (s.opnd c b.sa false k).2)

/-- RFAL (R220) reads only the lowest-numbered active lane. -/
def execRfal (h : Head) (b : BodyA) (s : State) : Host.Outcome State Fault Refusal :=
  runOp s h fun c => do
    let w := intWide b.mod
    let na := namesOf b.sa (wideN w) 1
    checkNames (s.warp c.ref) na
    match Lanes.low (c.active s h) with
    | none => .ok (s.keepU c b.dst.idx w (c.guardMarks s h != 0))
    | some l =>
      let s1 ← s.rowAccess c (Mask.one l) false na
      let x := s1.opnd c b.sa w l
      .ok (s1.writeU c b.dst.idx w x.1 (x.2 || (c.guardMarks s h).has l))

end Sys2Proof.Machine
end

