-- ==== Sys2Proof/Machine/Reliab.lean ====
section
/-! DEFINITION. Strikes and replays (R421 to R425), machine errors (R412, R413, R426), and errors in memory (R352, R427). -/

namespace Sys2Proof.Machine

/-! ### Replays (R422 to R425) -/

/-- The key of a zone in its core's tables; a slice of the shared level is a zone of no core (R421). -/
def zoneKey : Zone → Option Nat
  | .quarter q => if q < 4 then some q else none
  | .matrix => some 4
  | .beryl => some 5
  | .slice _ => none

/-- A record that is younger than 64 cycles: a replay withdraws it (R425). -/
def TrapRec.young (r : TrapRec) (now : Nat) : Bool := !r.aged && decide (now < r.cycle + 64)

/-- SRC of a record (R339). -/
def TrapRec.src (r : TrapRec) : Nat := (r.cause.extractLsb' 12 3).toNat

/-- A replay withdraws a young record. An instruction that trapped at its issue runs again from where it stands; any other cause comes
again, as re-execution brings it, when the warp next turns (R422, R425). -/
def Warp.replay (w : Warp) (now : Nat) : Warp :=
  match w.trap with
  | some r => if r.young now then { w with trap := none, again := if r.src = 0 then none else some r } else w
  | none => w

/-- The same of a Beryl core: its program runs on from its pc. -/
def Beryl.replay (b : Beryl) (now : Nat) : Beryl :=
  match b.trap with
  | some r => if r.young now then { b with st := 1, trap := none, again := if r.src = 3 then none else some r } else b
  | none => b

/-- A replay in a zone: what re-execution computes is what was computed, so only time passes, and young trap records are
withdrawn. -/
def State.replayZone (s : State) (core key : Nat) : State :=
  let now := (s.core core).cycle
  let (b, s) := s.free
  let s := s.modCore core fun k => { k with stallTo := k.stallTo.put 0 key (now + b.toNat % 17) }
  if key < 4 then
    { s with wgs := s.wgs.map fun (e : Nat × Option Wg) =>
      (e.1, e.2.map fun g =>
        if g.core != core then g
        else { g with warps := (List.range g.warps.length).map fun w =>
          let x := g.warps.getD w Warp.init
          if w % 4 = key then x.replay now else x }) }
  else if key = 5 then s.modCore core fun k => { k with loader := k.loader.replay now, storer := k.storer.replay now }
  else s

/-- The zones of a core that have received a result from a replaying zone within 64 cycles replay with it (R422). Which they are is
free (log 62). -/
def State.replayOthers (s : State) (core key : Nat) : State :=
  let (m, s) := s.free
  (List.range 6).foldl (fun s k => if k != key && m.getLsbD k then s.replayZone core k else s) s

/-- A zone of a core replays, and with it those that it passed results to. -/
def State.replay (s : State) (core key : Nat) : State := (s.replayZone core key).replayOthers core key

/-- A zone of a core replays and counts toward a saturating half of relcnt. -/
def State.countReplay (s : State) (core : Nat) (timing : Bool) : State :=
  let inc := fun (x : BitVec 32) => if x = BitVec.allOnes 32 then x else x + 1
  s.modCore core fun k =>
    let lo : BitVec 32 := k.relcnt.extractLsb' 0 32
    let hi : BitVec 32 := k.relcnt.extractLsb' 32 32
    { k with relcnt := if timing then inc hi ++ lo else hi ++ inc lo }

/-! ### Machine errors (R426) -/

/-- The cores that go offline with a core: a borrower and its lenders, under the mode of their quad. -/
def State.tied (s : State) (core : Nat) : List Nat :=
  let mode := s.quadMode (quadOf core)
  let groups := (List.range 4).filterMap fun i =>
    let b := 4 * quadOf core + i
    let n := partsUnder mode b
    if n ≤ 1 then none else some ((List.range n).map (lender b))
  match groups.find? fun g => g.contains core with
  | some g => g
  | none => [core]

/-- Grains of operations that never leave a lost core. -/
def State.loseOps (s : State) (core inst : Nat) (g : Wg) : State :=
  ((s.core core).ops.filter fun o => o.party.isOf inst).foldl (fun s o =>
    match o.eff with
    | .record _ _ _ n => if n = 0 then s else s.countGrains (BitVec.ofNat 32 (LaunchRec.acct (s.launchOf g.grid))) .lost n []
    | .entry p _ ws => if p.kind = 6 then s.countGrains (messageAcct (messageOf ws)) .lost (messageOf ws).grains.toNat [] else s
    | _ => s) s

/-- A resident workgroup is lost (R412, R413): its grains count as lost, its grid counts a fault, its team goes on without it. -/
def State.loseWg (s : State) (inst : Nat) (g : Wg) : State :=
  let s := (g.warps.foldl (fun s w => s.loseGrains g.core g.ctx (w.kGet 63) (w.kGet 62) w.clk) s).loseOps g.core inst g
  let s := g.inbox.foldl (fun s e => let m := messageOf e.data; s.countGrains (messageAcct m) .lost m.grains.toNat []) s
  let s := (s.leaveGrid inst g true (s.wgClock inst g)).modTeam g.team fun t => { t with lost := t.lost ++ [(inst, g.rank)] }
  { s.endWg inst g with lostInst := s.lostInst ++ [(inst % 2 ^ 32, g.gen % 65536)] }

/-- A core goes offline with the workgroups resident on it; a screen copy ends with its own event (R440). -/
def State.loseCore (s : State) (core : Nat) : State :=
  if (s.core core).offline then s
  else
    let here := s.residents core
    let lost := (here.filter fun e => e.2.copyOf.isNone).map fun e => (⟨BitVec.ofNat 12 e.2.ctx, BitVec.ofNat 32 e.1, BitVec.ofNat 16 e.2.gen⟩ : LostWg)
    let s := s.modCore core fun k => { k with offline := true }
    let s := here.foldl (fun s e => if e.2.copyOf.isSome then s.endCopy e.1 e.2 true else s.loseWg e.1 e.2) s
    let s := (s.logOpen 0x184 core 0).report core 0x184
    { (s.emit (.loss s.gangId s.member core lost)) with gloss := if s.gloss = 2 ^ 32 - 1 then s.gloss else s.gloss + 1 }

/-- An uncorrectable machine error on a core. -/
def State.machineError (s : State) (core : Nat) : State := (s.tied core).foldl State.loseCore s

/-- MACHINE_ERROR, on the core that `State.cur` names. -/
def execMachineError (s : State) : Host.Outcome State Fault Refusal :=
  event s (match s.cur with
    | .core n => if (s.core n).offline then none else some (s.machineError n)
    | _ => none)

/-- A report for a zone of a core: it replays, and the fourth within 256 cycles is a machine error (R424). -/
def State.zoneReport (s : State) (core key : Nat) (z : Zone) (timing : Bool) : State :=
  let now := (s.core core).cycle
  let s := (s.countReplay core timing).modCore core fun k =>
    { k with reports := (k.reports.filter fun r => decide (now < r.2 + 256)) ++ [(z, now)] }
  if 4 ≤ ((s.core core).reports.filter fun r => r.1 == z).length then
    ((s.logOpen 0x182 core 0).report core 0x182).machineError core
  else s.replay core key

/-- A report for slice `n`: it answers nothing for up to 16 cycles, counted on the first core of its die. Its fourth within 256 cycles
is reported; no rule says which core goes offline with a slice (log 87). -/
def State.sliceReport (s : State) (n : Nat) : State :=
  let now := (s.core (256 * (n / 16))).cycle
  let s := { s with sliceReports := (s.sliceReports.filter fun (r : Nat × Nat) => decide (now < r.2 + 256)) ++ [(n, now)] }
  if 4 ≤ (s.sliceReports.filter fun (r : Nat × Nat) => r.1 == n).length then
    (s.logNamed 0x182 (256 * (n / 16)) 0 (BitVec.ofNat 64 n) 0).report (256 * (n / 16)) 0x182
  else
    let (b, s) := s.free
    let s := { s with sliceStall := s.sliceStall.put 0 n (now + b.toNat % 17) }
    -- its replies are results that the zones of its die's cores have received
    (s.cores.filter fun e => dieOf e.1 == n / 16).foldl (fun s e => if e.2.offline then s else s.replayOthers e.1 6) s

/-- A report for a zone: of a core that is on line, or of one of the 32 slices. -/
def State.reported (s : State) (core : Nat) (z : Zone) (timing : Bool) : Option State :=
  match z with
  | .slice n => if n < 32 then some (s.sliceReport n) else none
  | _ => match zoneKey z with
    | some key => if (s.core core).offline then none else some (s.zoneReport core key z timing)
    | none => none

/-- STRIKE_REPORT. -/
def execStrikeReport (core : Nat) (z : Zone) (s : State) : Host.Outcome State Fault Refusal := event s (s.reported core z false)

/-- TIMING_NEAR_MISS. -/
def execTimingNearMiss (core : Nat) (z : Zone) (s : State) : Host.Outcome State Fault Refusal := event s (s.reported core z true)

/-! ### Errors in memory (R352, R427) -/

/-- LAYOUT of a Vrelith frame, by a cached translation that names it; 0 when none does (R427; log 62). -/
def State.frameLayout (s : State) (frame : Nat) : Nat :=
  let names := fun (t : TlbEntry) =>
    let e : Pte := t.entry
    decide (e.frame ≤ frame) && decide (frame < e.frame + (if t.large then 8192 else 1))
  let all := (s.cores.flatMap fun e => e.2.tlb) ++ s.tlb2.flatMap fun e => e.2
  match all.find? names with | some t => Pte.layout t.entry | none => 0

/-- The physical address of a cell: `cellOf` the other way, under the LAYOUT of its frame (R121, R427). -/
def State.cellPa (s : State) (cell : Nat) : Nat :=
  if cached cell && s.frameLayout (cell / 65536) = 0 then
    let p := cell % 65536 / 2048
    let q := cell % 2048
    cell / 65536 * 65536 + q / 256 * 8192 + p * 256 + q % 256
  else cell

/-- An uncorrectable read marks words of a sector, at least one; which is not stated. The event names the sector's physical address. -/
def State.markSector (s : State) (sector : Nat) : State :=
  let (b, s) := s.free
  let m := if b = 0 then 1 else b.toNat
  let s := (List.range 8).foldl (fun s i => if m.testBit i then s.markCell (32 * sector + 4 * i) true else s) s
  (s.logNamed 0x183 0 0 (BitVec.ofNat 64 (s.cellPa (32 * sector))) 0).report 0 0x183

/-- PATROL_SCRUB: a sector is read; what is corrected is written back, which changes no value. -/
def execPatrolScrub (sector : Nat) (uncorrectable : Bool) (s : State) : Host.Outcome State Fault Refusal :=
  event s (some (if uncorrectable then s.markSector sector else s))

/-- A correctable error is counted for its core or slice; every 1024th makes an event. -/
def State.corrected (s : State) (unit : Nat) : State :=
  let n := s.corrections.get 0 unit + 1
  let s := { s with corrections := s.corrections.put 0 unit n }
  let core := if unit < 512 then unit else 0
  if n % 1024 = 0 then (s.logNamed 0x185 core 0 (BitVec.ofNat 64 unit) 0).report core 0x185 else s

end Sys2Proof.Machine
end

