-- ==== Sys2Proof/Machine/Power.lean ====
section
/-! DEFINITION. Power and clocks (R432 to R434), the thermal trip (R435, R436), bring-up (R437, R438), the management mailbox
(R439), and the host port (R418). -/

namespace Sys2Proof.Machine

/-! ### Clocks and grants (R432 to R434) -/

def State.cluster (s : State) (c : Nat) : Power := s.power.get Power.reset c

/-- What a cluster applies at an interval boundary. -/
def Power.apply (p : PowerIn) : Power :=
  let want := if p.boost then p.btgt.toNat else 100
  let f := min (min p.tcap.toNat p.icap.toNat) want
  { tcap := p.tcap.toNat, icap := p.icap.toNat, boost := p.boost, btgt := p.btgt.toNat
    grant := min p.ig.toNat p.pg.toNat
    freq := f
    limit := if f = p.tcap.toNat then 2 else if f = p.icap.toNat then 3 else if p.boost then 1 else 0
    temp := p.temp.toNat }

/-- Inputs as the controller writes them: frequencies of 40 to 116 units, grants of 1 to 4. -/
def Power.legal (p : PowerIn) : Bool :=
  [p.tcap, p.icap, p.btgt].all (fun f => decide (40 ≤ f.toNat) && decide (f.toNat ≤ 116)) &&
  [p.ig, p.pg].all fun g => decide (1 ≤ g.toNat) && decide (g.toNat ≤ 4)

/-- A grant of the rail limiter under G: never above it, and none when the limiter does not lower it (R433). -/
def capGrant (limit g : Nat) : Option Nat := if limit ≤ g then none else some (max 1 g)

/-- POWER_INTERVAL. A quarter whose grant the rail limiter had lowered to no less than the new G runs at it. -/
def execPowerInterval (cluster : Nat) (p : PowerIn) (s : State) : Host.Outcome State Fault Refusal :=
  event s (if cluster < clusterCount && Power.legal p then some { s with
        power := s.power.put Power.reset cluster (Power.apply p)
        cores := s.cores.map fun (e : Nat × Core) =>
          if clusterOf e.1 = cluster then (e.1, { e.2 with rail := e.2.rail.filterMap fun r => (r.2.bind (capGrant (Power.apply p).grant)).map fun g => (r.1, some g) }) else e }
    else none)

/-- RAIL_DROOP: the limiter lowers the grant of a quarter, to no less than 1 and never above G. -/
def execRailDroop (core quarter : Nat) (g : BitVec 3) (s : State) : Host.Outcome State Fault Refusal :=
  let limit := (s.cluster (clusterOf core)).grant
  event s (if quarter < 4 then
      some (s.modCore core fun k =>
        { k with rail := k.rail.put none quarter (capGrant limit g.toNat) })
    else none)

/-- pwrstat (R434). -/
def Power.word (p : Power) : DWord :=
  BitVec.ofNat 64 (p.temp % 1024 * 2 ^ 38 + p.limit % 8 * 2 ^ 35 + p.grant % 8 * 2 ^ 32 + (if p.boost then 2 ^ 31 else 0) + p.btgt % 128 * 2 ^ 24 +
    p.icap % 128 * 2 ^ 16 + p.tcap % 128 * 2 ^ 8 + p.freq % 128)

/-! ### Loss of state (R435, R438) -/

/-- All state of the dies and memories is lost. The always-on domain keeps the clock, the trip record and what the controller
holds; host memory is the host's. -/
def State.cleared (s : State) (up : Bool) : State :=
  { State.reset with
    mem := s.mem.filter fun c => decide (hostBase ≤ c.1)
    up := up
    clockNs := s.clockNs
    timeKnown := s.timeKnown
    trip := s.trip
    railsOff := s.railsOff
    reports := s.reports
    haltReports := s.haltReports
    eventHold := s.eventHold
    outbox := s.outbox
    accessReset := s.accessReset
    tiercap := s.tiercap
    agenda := s.agenda
    cur := s.cur
    fresh := s.fresh
    nextId := s.nextId }

/-- The trip record of a trip now. -/
def tripRecord (now : DWord) (cluster : BitVec 5) (sensor : BitVec 2) (temp : BitVec 10) : BitVec 128 :=
  BitVec.ofNat 128 (2 ^ 127 + temp.toNat * 2 ^ 76 + sensor.toNat * 2 ^ 74 + cluster.toNat * 2 ^ 69 + now.toNat)

/-- Every workgroup of the module, resident or saved, in a loss notice (R436). -/
def State.lostAll (s : State) : List LostWg :=
  let one := fun (i : Nat) (g : Wg) => (⟨BitVec.ofNat 12 g.ctx, BitVec.ofNat 32 i, BitVec.ofNat 16 g.gen⟩ : LostWg)
  (s.wgs.filterMap fun (e : Nat × Option Wg) => e.2.map (one e.1)) ++ s.saved.map fun (e : DWord × Saved) => one e.2.inst e.2.wg

/-- THERMAL_TRIP: a diode at 118 °C cuts the rails of the module. -/
def execThermalTrip (cluster : BitVec 5) (sensor : BitVec 2) (temp : BitVec 10) (s : State) : Host.Outcome State Fault Refusal :=
  event s (
    if temp.toNat < 0x2d8 || !s.up then none
    else
      let t := (s.emit (.loss s.gangId s.member 0 s.lostAll)).cleared false
      some { t with
        railsOff := true
        trip := if s.trip.getLsbD 127 then s.trip else tripRecord s.now cluster sensor temp
        eventHold := s.eventHold ++ [0x188]
        reports := s.reports ++ [(0, 0x188)] })

/-- An image is accepted (R437): MAGIC, KIND and the reserved bits of its header, both signatures, and SVN at its floor. -/
def imageOk (x : Image) (kind : Nat) (floor : BitVec 32) : Bool :=
  x.header.extractLsb' 0 16 == 0x5f3a && (x.header.extractLsb' 16 16).toNat == kind && x.header.extractLsb' 128 128 == 0 && x.signed &&
  decide (floor.toNat ≤ (x.header.extractLsb' 32 32).toNat)

/-- Every step of bring-up succeeds (R438): the firmware at the ROM's floor, the others at that of the configuration image. -/
def bootOk (b : BootIn) : Bool :=
  imageOk b.firmware 1 b.romFloor && imageOk b.config 2 b.floor && b.trained && imageOk b.identity 3 b.floor &&
  imageOk b.attestation 4 b.floor

/-- The access table as the configuration image gives it: the reserved bits are zero (R391). -/
def bootAccess (b : BootIn) : List DWord := b.access.map fun (x : DWord) => x &&& 0xfffffffffff

/-- The second tier has at most 1024 GB (R15). -/
def maxTierFrames : Nat := 15625000

/-- After a trip the rails stay off until every diode reads below 100 °C (R436). -/
def State.railsHeld (s : State) (b : BootIn) : Bool := s.railsOff && decide (0x290 ≤ b.hottest.toNat)

/-- BRING_UP: the images are verified, memories trained and SRAM zeroed; a failure leaves the module in recovery with 0x18a. -/
def execBringUp (b : BootIn) (s : State) : Host.Outcome State Fault Refusal :=
  event s (
    if s.railsHeld b then none
    else if bootOk b then
      some { s.cleared true with
        railsOff := false, clockNs := (b.timeOfDay.getD 0).toNat, timeKnown := b.timeOfDay.isSome, tiercap := min b.tierFrames.toNat maxTierFrames, accessReset := bootAccess b }
    else some { s.cleared false with reports := s.reports ++ [(0, 0x18a)] })

/-! ### The mailbox (R439) -/

/-- The supervisor warp may command the management target (R390). -/
def State.mbxMay (s : State) : Bool := s.mayAccess 5 0 2 8

/-- Writing mbxcmd: the command at an address of context 0 makes the mailbox busy. One that comes while it is busy, or that is
no command, is refused. -/
def State.writeMbx (s : State) (addr : DWord) : State :=
  if s.mbxstat = 1 then s
  else
    match s.readCtx 0 addr.toNat 64 2 with
    | .error _ => { s with mbxstat := 3 }
    | .ok bs =>
      let c : BitVec 512 := BitVec.ofNat 512 (leNat bs)
      let op := (c.extractLsb' 0 8).toNat
      if 1 ≤ op && op ≤ 4 then { s with mbxCmd := c, mbxstat := 1 } else { s with mbxstat := 3 }

/-- The command that the mailbox is busy with. -/
def State.mbxBusy (s : State) (op : Nat) : Bool := s.mbxstat == 1 && (s.mbxCmd.extractLsb' 0 8).toNat == op

/-- The command ends. -/
def State.mbxDone (s : State) (ok : Bool) : State := { s with mbxstat := if ok then 2 else 3 }

/-- KEYGEN: a key of a free index 1 to 4095 is loaded for an owner. -/
def execKeygen (index owner : BitVec 12) (s : State) : Host.Outcome State Fault Refusal :=
  event s (
    if !s.mbxBusy 1 then none
    else if index = 0 || (s.keys.get none index.toNat).isSome then some (s.mbxDone false)
    else some ({ s with keys := s.keys.put none index.toNat (some owner.toNat) }.mbxDone true))

/-- A value written under a key is still on its way to the stacks, or waits for the eviction of its line. -/
def State.keyDirty (s : State) (tag : Nat) : Bool :=
  s.arrays.any fun e => e.2.isSome && (s.sectorKey.get 0 (e.1 / 32) == tag ||
    match e.2 with | some x => x.way.any (fun v => v.tag == tag) | none => false)

/-- KEYCLR: the lines of a key leave the shared level and are written back, while the mailbox stays busy; once nothing of them is on its way
to the stacks, the key is cleared. -/
def execKeyclr (index : BitVec 12) (s : State) : Host.Outcome State Fault Refusal :=
  event s (
    if !s.mbxBusy 2 then none
    else
      let tag := s.keyTag index.toNat
      let before := s
      let s := (s.sendDirty fun c => s.sectorKey.get 0 (c / 32) == tag).evict fun l => l.tag == tag
      if s.keyDirty tag then (if s = before then none else some s)
      else some ({ s with keys := s.keys.put none index.toNat none, keyGens := s.keyGens.upd 0 index.toNat fun n => n + 1 }.mbxDone true))

/-- TRIPRD: the trip record is written at an address of context 0. -/
def execTriprd (reply : DWord) (s : State) : Host.Outcome State Fault Refusal :=
  event s (
    if !s.mbxBusy 3 then none
    else if s.writable reply.toNat 16 then some ((s.writeCtx 0 reply.toNat (leBytes 16 s.trip.toNat)).mbxDone true)
    else some (s.mbxDone false))

/-- BOOSTREQ: the controller's policy decides; a grant shows in pwrstat. -/
def execBoostreq (_cluster : BitVec 5) (_target : BitVec 7) (s : State) : Host.Outcome State Fault Refusal :=
  event s (if !s.mbxBusy 4 then none else some ({ s with fresh := s.fresh + 1 }.mbxDone (Config.boostPolicy s.fresh)))

/-! ### Launch queues by register (R357, R418) -/

/-- Register `r` of a queue: 1 lqbase, 2 lqctl, 3 lqhead, 4 lqtail, 5 lqfree. -/
def State.lqRead (s : State) (q r : Nat) : DWord :=
  let l := s.lq q
  match r with
  | 1 => l.base
  | 2 => l.ctl
  | 3 => BitVec.ofNat 64 l.head
  | 4 => BitVec.ofNat 64 l.tail
  | 5 => BitVec.ofNat 64 l.free
  | _ => 0

/-- Writes lqbase, lqctl or lqtail. While entries are untaken a write to lqctl changes only QPRIO and EN. -/
def State.lqWrite (s : State) (q r : Nat) (val : DWord) : State :=
  match r with
  | 1 => s.modLq q fun l => { l with base := val &&& ~~~0xfff }
  | 2 =>
    let v := val &&& 0x3fffff
    s.modLq q fun l => { l with ctl := if l.waiting = 0 then v else (l.ctl &&& ~~~0xf000) ||| (v &&& 0xf000) }
  | 4 => s.writeTail q val
  | _ => s

/-! ### The host port (R418) -/

/-- The register of a BAR0 offset: queue and number. -/
def bar0Reg (off : Nat) : Option (Nat × Nat) :=
  if off / 4096 < 64 && off % 4096 ≤ 0x20 && off % 8 = 0 then some (off / 4096, off % 4096 / 8 + 1) else none

/-- Translates an access of the host in the context of BAR2, as class 8. -/
def State.hostLeaf (s : State) (kind : AccKind) (va : DWord) : Except Detail (Leaf × State) :=
  if !canonical va || va.getLsbD 54 then .error ⟨0x080, 0, 0, 7, va, none, none, none⟩
  else s.translate 0 s.bar2ctx 8 kind va

/-- The pieces of an access of the host, one for each page that it touches. -/
def State.hostPieces (s : State) (kind : AccKind) : List (Nat × Nat) → Except Detail (List Piece × State)
  | [] => .ok ([], s)
  | (a, n) :: t =>
    match s.hostLeaf kind (BitVec.ofNat 64 a) with
    | .error d => .error d
    | .ok (l, s) =>
      match s.hostPieces kind t with
      | .error d => .error d
      | .ok (ps, s) => .ok (s.leafPiece l n :: ps, s)

/-- The host's access in the histories of words that have one (R142). -/
def State.noteHost (s : State) (ps : List Piece) (writes : Bool) : State :=
  s.addHist ⟨.host, .host, Clock.epoch s.hostClk .host, false, s.nextId⟩ writes (ps.flatMap Piece.locs)

/-- An access of the host would race with an earlier one (R142): it has no effect, and completes with Unsupported Request and an event. A
read acquires first what it reads. -/
def State.hostRaces (s : State) (va : DWord) (ps : List Piece) (writes : Bool) : Option Detail :=
  let clk := if writes then s.hostClk else Clock.join s.hostClk (s.acquired .host 4 (ps.flatMap s.relsOf))
  (s.raceOf .host clk writes false (ps.flatMap Piece.locs)).map fun p => ⟨0x090, 0, 0, 7, va, none, some p, none⟩

/-- What the host has done so far is published at gang scope (R418; log 88). -/
def State.hostRelease (s : State) : Clock × State := (Clock.release s.hostClk .host, { s with hostClk := Clock.release s.hostClk .host })

/-- A read of the host acquires at gang scope. -/
def State.hostRead (s : State) (ps : List Piece) : List Byte × State :=
  let s := { s with hostClk := Clock.join s.hostClk (s.acquired .host 4 (ps.flatMap s.relsOf)) }
  (s.noteHost ps false).readPieces 4 ps

/-- A write of the host releases at gang scope. -/
def State.hostWrite (s : State) (ps : List Piece) (bs : List Byte) : State :=
  let (clk, s) := (s.noteHost ps true).hostRelease
  let s := s.writePieces 4 (fun _ => false) ps bs
  ps.foldl (fun s p => s.setRels p [⟨.host, 4, clk, 15⟩] false) s

/-- A write of a register of a launch queue: the doorbell orders what the host has done before the launch (R138). -/
def State.hostLq (s : State) (q n : Nat) (val : DWord) : State :=
  if n = 4 then
    let (clk, s) := s.hostRelease
    (s.lqWrite q n val).modLq q fun l => { l with clk := Clock.join l.clk clk }
  else s.lqWrite q n val

/-- A host access. The registers behind the mailbox pages are not laid out: they read as free bytes and take no writes (log 16).
In recovery every other page reads as zero. -/
def State.hostAccess (s : State) (r : HostReq) : State :=
  match r with
  | .bar0Read off =>
    if 64 ≤ off / 4096 && off / 4096 < 128 then let (bs, s) := s.freeBytes 8; s.answer (some bs)
    else
      match bar0Reg off with
      | some (q, n) => s.answer (some (leBytes 8 (if s.up then s.lqRead q n else 0).toNat))
      | none => s.answer (some (leBytes 8 0))
  | .bar0Write off val =>
    match bar0Reg off with
    | some (q, n) => if s.up then s.hostLq q n val else s
    | none => s
  | .bar2Read off =>
    if !s.up then s.answer (some (leBytes 8 0))
    else
      let va := s.bar2base + BitVec.ofNat 64 off
      match s.hostPieces .load (pageParts va.toNat 8) with
      | .error d => (s.logCause 0 s.bar2ctx d).answer none
      | .ok (ps, s) =>
        match s.hostRaces va ps false with
        | some d => (s.logCause 0 s.bar2ctx d).answer none
        | none => let (bs, s) := s.hostRead ps; s.answer (some bs)
  | .bar2Write off val =>
    if !s.up then s
    else
      let va := s.bar2base + BitVec.ofNat 64 off
      match s.hostPieces .store (pageParts va.toNat 8) with
      | .error d => (s.logCause 0 s.bar2ctx d).answer none
      | .ok (ps, s) =>
        match s.hostRaces va ps true with
        | some d => (s.logCause 0 s.bar2ctx d).answer none
        | none => s.hostWrite ps (leBytes 8 val.toNat)

/-- HOST_INBOUND_ACCESS. -/
def execHostInboundAccess (r : HostReq) (s : State) : Host.Outcome State Fault Refusal := event s (some (s.hostAccess r))

end Sys2Proof.Machine
end

