-- ==== Sys2Proof/Machine/System.lean ====
section
/-! DEFINITION. The system instructions of the supervisor warp (R335 to R350): system registers, ERET, engine faults, saving and
restoring, and the events of the supervisor's core. -/

namespace Sys2Proof.Machine

/-! ### Pending traps (R338, R341) -/

/-- The pending trap records of the user warps of a core, with slot, INSTANCE and warp. -/
def State.pendingWarps (s : State) (core : Nat) : List (Nat × Nat × Nat × TrapRec) :=
  (s.residents core).flatMap fun e =>
    (List.range e.2.warps.length).filterMap fun w =>
      let x := e.2.warps.getD w Warp.init
      x.trap.map fun r => (x.slot, e.1, w, r)

/-- tpend. -/
def State.tpend (s : State) (core : Nat) : DWord := (s.pendingWarps core).foldl (fun m e => m ||| (1 <<< e.1 : DWord)) 0

/-- tpendb. -/
def State.tpendb (s : State) (core : Nat) : DWord :=
  let k := s.core core
  BitVec.ofNat 64 ((if k.loader.trap.isSome then 1 else 0) + (if k.storer.trap.isSome then 2 else 0))

/-- The party whose pending trap tsel selects, and the trap. -/
def State.selected (s : State) (core : Nat) : Option (Party × TrapRec) :=
  let k := s.core core
  let n := k.tsel.toNat
  if n = 64 then k.loader.trap.map fun r => (.beryl k.loader.inst 0, r)
  else if n = 65 then k.storer.trap.map fun r => (.beryl k.storer.inst 1, r)
  else ((s.pendingWarps core).find? fun e => e.1 == n).map fun e => (.warp e.2.1 e.2.2.1, e.2.2.2)

/-- Changes the trap record of a party of a core. -/
def State.modTrap (s : State) (core : Nat) (p : Party) (f : Option TrapRec → Option TrapRec) : State :=
  match p with
  | .warp inst w => s.modWarp (.user inst w) fun x => { x with trap := f x.trap }
  | .beryl _ which => s.modBeryl core which fun b => { b with trap := f b.trap }
  | _ => s

/-- The record is 64 cycles old, and no replay can withdraw it any more (R425). -/
def TrapRec.settled (r : TrapRec) (cycle : Nat) : Bool := r.aged || decide (r.cycle + 64 ≤ cycle)

/-- A field of a trap record by SREG 0x005 to 0x00c; tword is zero for SRC 2 to 4 (R338). -/
def TrapRec.reg (r : TrapRec) (n : Nat) : DWord :=
  let src := (r.cause.extractLsb' 12 3).toNat
  match n with
  | 0x005 => r.cause
  | 0x006 => r.pc
  | 0x007 => r.resume
  | 0x008 => if 2 ≤ src && src ≤ 4 then 0 else r.word
  | 0x009 => r.addr
  | 0x00a => r.info
  | 0x00b => r.lanes
  | _ => r.eng

/-! ### Engine faults (R345) -/

/-- The parked operation goes on: its flag rises in each warp that counted it. -/
def State.resumeParked (s : State) (core inst : Nat) (p : Parked) : State :=
  let k := s.core core
  match k.mats.find? fun m => m.id == p.id && m.parked with
  | some m =>
    let s := s.setMat core { m with parked := false }
    m.flags.foldl (fun s f => s.modWarp (wref inst f.1) fun x => x.flagUp f.2) s
  | none =>
    match s.wg? inst with
    | none => s
    | some g =>
      let raise := fun (q : Party) (f : Nat) (s : State) => match q with
        | .warp .. | .sup _ => (match q.warp? with | some (i, w) => s.modWarp (wref i w) fun x => x.flagUp f | none => s)
        | _ => s
      match g.bankOps.find? fun o => o.id == p.id && o.parked with
      | some o => raise o.party o.flag (s.modBank inst o.id fun o => { o with parked := false })
      | none =>
        match g.chans.findSome? fun c => (c.2.ops.find? fun o => o.id == p.id && o.parked).map fun o => (c.1, o) with
        | some (n, o) => raise o.party o.flag (s.setCopy inst n { o with parked := false })
        | none => s

/-- The parked operation is abandoned: its locks are released, a bank operation or a copy posts STATUS 2. -/
def State.abandonParked (s : State) (core inst : Nat) (p : Parked) : State :=
  let k := s.core core
  match k.mats.find? fun m => m.id == p.id && m.parked with
  | some m => s.endMat core m
  | none =>
    match s.wg? inst with
    | none => s
    | some g =>
      match g.bankOps.find? fun o => o.id == p.id && o.parked with
      | some o => s.endBank inst { o with abandoned := true }
      | none =>
        match g.chans.findSome? fun c => (c.2.ops.find? fun o => o.id == p.id && o.parked).map fun o => (c.1, o) with
        | some (n, o) =>
          ((s.setCopy inst n { o with status := 2, posting := true, parked := false }).freeLocks core o.id).settleCopies inst n 64
        | none => s

/-- A write of ectl: 1 resumes, 2 abandons the operation that teng names, other values do nothing. -/
def State.writeEctl (s : State) (core : Nat) (val : DWord) : State :=
  if val ≠ 1 && val ≠ 2 then s
  else
    match s.selected core with
    | none => s
    | some (p, r) =>
      let s := s.modTrap core p fun r => r.map fun (r : TrapRec) => { r with ectlWritten := true }
      match r.parked, p.inst? with
      | some k, some inst => if val = 1 then s.resumeParked core inst k else s.abandonParked core inst k
      | _, _ => s

/-- ECTL_RESUME and ECTL_ABANDON: writes of 1 and 2 on the core that `State.cur` names. -/
def execEctlResume (s : State) : Host.Outcome State Fault Refusal :=
  event s (match s.cur with | .core n => some (s.writeEctl n 1) | _ => none)

def execEctlAbandon (s : State) : Host.Outcome State Fault Refusal :=
  event s (match s.cur with | .core n => some (s.writeEctl n 2) | _ => none)

/-! ### Reading system registers (R338, R344) -/

/-- Registers of the supervisor's core. -/
def State.coreReg (s : State) (core n : Nat) : Option DWord :=
  let k := s.core core
  match n with
  | 0x001 => some k.tvec
  | 0x002 => some (s.tpend core)
  | 0x003 => some (s.tpendb core)
  | 0x004 => some k.tsel
  | 0x00e => some (BitVec.ofNat 64 k.wgsel)
  | 0x00f => some (BitVec.ofNat 64 k.ctxsel)
  | 0x010 => some (BitVec.ofNat 64 k.lqsel)
  | 0x011 | 0x012 | 0x013 | 0x014 | 0x015 => some (s.lqRead k.lqsel (n - 0x010))
  | 0x018 => some (BitVec.ofNat 64 (s.ctxs.get CtxRegs.zero k.ctxsel).blklim)
  | 0x019 => some (s.ctxs.get CtxRegs.zero k.ctxsel).fillbud
  | 0x01a => some (BitVec.ofNat 64 k.pcand)
  | 0x01b => some (s.tapeown core)
  | _ => none

/-- Registers of translation, gang, reliability and power. -/
def State.moduleReg (s : State) (core n : Nat) : Option DWord :=
  let k := s.core core
  match n with
  | 0x020 => some (s.ctxs.get CtxRegs.zero k.ctxsel).root
  | 0x021 => some s.tagbase
  | 0x022 => some k.atsel
  | 0x023 =>
    let t := (k.atsel.extractLsb' 16 3).toNat
    some (if t ≤ 5 then s.accessEntry t (k.atsel.extractLsb' 0 12).toNat else 0)
  | 0x024 => some (BitVec.ofNat 64 k.keysel)
  | 0x025 => some (match s.keys.get none k.keysel with | some o => BitVec.ofNat 64 (1 + o * 2 ^ 32) | none => 0)
  | 0x026 => some s.sdstat
  | 0x027 => some (BitVec.ofNat 64 s.tiercap)
  | 0x030 => some s.gangcfg
  | 0x031 => some s.gstat
  | 0x032 => some (BitVec.ofNat 64 (s.gen + s.gangCtx * 65536))
  | 0x034 => some (BitVec.ofNat 64 (s.switches.length * 16 + s.swStatus))
  | 0x035 => some s.gdrop
  | 0x036 => some (BitVec.ofNat 64 (k.gfsel + (if s.gfaulted.contains k.gfsel then 2 ^ 63 else 0)))
  | 0x037 => some s.paptbase
  | 0x038 => some (BitVec.ofNat 64 s.gloss)
  | 0x040 => some s.evbase
  | 0x041 => some (BitVec.ofNat 64 s.evhead)
  | 0x042 => some (BitVec.ofNat 64 s.evtail)
  | 0x043 => some (BitVec.ofNat 64 s.evlost)
  | 0x044 => some (BitVec.ofNat 64 k.pwrsel)
  | 0x045 => some (s.cluster k.pwrsel).word
  | 0x046 => some (s.ctxs.get CtxRegs.zero k.ctxsel).scrctl
  | 0x048 => some (BitVec.ofNat 64 s.mbxstat)
  | 0x049 => some k.relcnt
  | _ => none

/-- The trap registers that a record fills. -/
def trapReg (n : Nat) : Bool := decide (0x005 ≤ n) && decide (n ≤ 0x00c)

/-- Registers that are only written: ectl, swq, mbxcmd. They read as zero (R5). -/
def writeOnly (n : Nat) : Bool := n == 0x00d || n == 0x033 || n == 0x047

/-- Registers that are only read. -/
def readOnlyReg (n : Nat) : Bool :=
  [0x002, 0x003, 0x005, 0x006, 0x008, 0x009, 0x00a, 0x00b, 0x00c, 0x013, 0x015, 0x025, 0x026, 0x027, 0x031, 0x032, 0x034, 0x035, 0x038,
   0x041, 0x043, 0x045, 0x048, 0x049].contains n

/-- The registers of the management controller. -/
def management (n : Nat) : Bool := decide (0x0c0 ≤ n) && decide (n ≤ 0x0ff)

/-- The value of a register; none where RDSR waits for the record to settle. -/
def readReg (s : State) (core n : Nat) : M (Option DWord) :=
  if management n then trapCode 0x1e1
  else if writeOnly n then .ok (some 0)
  else if trapReg n then
    match s.selected core with
    | none => .ok (some 0)
    | some (_, r) => .ok (if r.settled (s.core core).cycle then some (r.reg n) else none)
  else
    match s.coreReg core n, s.moduleReg core n with
    | some x, _ => .ok (some x)
    | none, some x => .ok (some x)
    | none, none => trapCode 0x000

/-! ### Writing system registers -/

def State.modCtx (s : State) (ctx : Nat) (f : CtxRegs → CtxRegs) : State := { s with ctxs := s.ctxs.upd CtxRegs.zero ctx f }

/-- Writes the access-table entry that atsel selects: CLASS10 and the management target stay (R391). -/
def State.writeAtval (s : State) (core : Nat) (val : DWord) : State :=
  let sel := (s.core core).atsel
  let t := (sel.extractLsb' 16 3).toNat
  let ctx := (sel.extractLsb' 0 12).toNat
  if 5 ≤ t then s
  else
    let v := (val &&& 0xffffffffff) ||| (s.accessEntry t ctx &&& 0xf0000000000)
    { s with access := s.access.put none (t * 4096 + ctx) (some v) }

/-- ATVAL_WRITE. -/
def execAtvalWrite (core : Nat) (val : DWord) (s : State) : Host.Outcome State Fault Refusal := event s (some (s.writeAtval core val))

/-- Writes evbase; events that waited for the log enter it once it is enabled (R436). -/
def State.writeEvbase (s : State) (val : DWord) : State :=
  let s := { s with evbase := val &&& 0xfffffffff03f }
  if val.getLsbD 0 then s.eventHold.foldl (fun s code => s.logOpen code 0 0) { s with eventHold := [] } else s

/-- A write of LOG 1 to 3 or 17 to 31 to scrctl is ignored (R428). -/
def State.writeScrctl (s : State) (ctx : Nat) (val : DWord) : State :=
  let l := (val.extractLsb' 0 5).toNat
  if (1 ≤ l && l ≤ 3) || 17 ≤ l then s else s.modCtx ctx fun c => { c with scrctl := val &&& 0x3f }

/-- Writes of registers that do nothing more than keep the value, in the bits that the register has. -/
def State.plainWrite (s : State) (core n : Nat) (val : DWord) : Option State :=
  let low := fun (w : Nat) => val.toNat % 2 ^ w
  let onCore := fun (f : Core → Core) => some (s.modCore core f)
  let ctx := (s.core core).ctxsel
  match n with
  | 0x001 => onCore fun k => { k with tvec := val }
  | 0x004 => onCore fun k => { k with tsel := val &&& 0x7f }
  | 0x007 =>
    match s.selected core with
    | some (p, _) => some (s.modTrap core p fun r => r.map fun (r : TrapRec) => { r with resume := val })
    | none => some s
  | 0x00e => onCore fun k => { k with wgsel := low 4 }
  | 0x00f => onCore fun k => { k with ctxsel := low 12 }
  | 0x010 => onCore fun k => { k with lqsel := low 6 }
  | 0x011 => some (s.lqWrite (s.core core).lqsel 1 val)
  | 0x012 => some (s.lqWrite (s.core core).lqsel 2 val)
  | 0x018 => some (s.modCtx ctx fun c => { c with blklim := low 32 })
  | 0x019 => some (s.modCtx ctx fun c => { c with fillbud := val })
  | 0x01a => onCore fun k => { k with pcand := (BitVec.ofNat 16 k.pcand &&& ~~~(val.setWidth 16)).toNat }
  | 0x020 => some (s.modCtx ctx fun c => { c with root := val &&& 0xffffffff0001 })
  | 0x021 => some { s with tagbase := val &&& 0xffffffff0001 }
  | 0x022 => onCore fun k => { k with atsel := val &&& 0x70fff }
  | 0x024 => onCore fun k => { k with keysel := low 12 }
  | 0x037 => some { s with paptbase := val &&& 0xffffffff0001 }
  | 0x040 => some (s.writeEvbase val)
  | 0x042 => some { s with evtail := low 32 }
  | 0x044 => onCore fun k => { k with pwrsel := low 5 }
  | 0x046 => some (s.writeScrctl ctx val)
  | _ => none

/-- SYSREG_WRITE: a write to a register that has no behaviour of its own. -/
def execSysregWrite (core : Nat) (sreg : BitVec 12) (val : DWord) (s : State) : Host.Outcome State Fault Refusal :=
  event s (s.plainWrite core sreg.toNat val)

/-- Writes gfault: selects a context, and clears its fault with bit 62. -/
def State.writeGfault (s : State) (core : Nat) (val : DWord) : State :=
  let ctx := val.toNat % 4096
  let s := s.modCore core fun k => { k with gfsel := ctx }
  if val.getLsbD 62 then s.clearFault ctx else s

/-- Writes a register. -/
def writeReg (s : State) (core n : Nat) (val : DWord) : M State :=
  if management n || readOnlyReg n then trapCode 0x1e1
  else
    match n with
    | 0x00d => .ok (s.writeEctl core val)
    | 0x014 => .ok (s.writeTail (s.core core).lqsel val)
    | 0x01b => .ok (s.writeTapeown core val)
    | 0x023 => .ok (s.writeAtval core val)
    | 0x030 => .ok (s.writeGangcfg val)
    | 0x033 => .ok (s.queueSwitch val)
    | 0x036 => .ok (s.writeGfault core val)
    | 0x047 => if s.mbxMay then .ok (s.writeMbx val) else trapWith (denied 5 2 val)
    | _ => match s.plainWrite core n val with | some s => .ok s | none => trapCode 0x000

/-! ### The instructions (R337, R343, R344, R346 to R349) -/

/-- Runs a system instruction where it executes (R59), as the supervisor warp of a core; in a user warp it traps. The second
argument of the body says that its destination is marked, by a poisoned guard (R353). -/
def system (s : State) (c : Ctx) (h : Head) (dst : Option (Nat × Bool)) (body : Nat → Bool → M State) : M State :=
  match c.ref with
  | .user .. => trapCode 0x1e0
  | .sup n =>
    let mark := c.guardMarks s h != 0
    if c.executes s h then body n mark
    else .ok (match dst with | some (d, wide) => s.keepU c d wide mark | none => s)

def execRdsr (h : Head) (b : BodyS) (s : State) : Host.Outcome State Fault Refusal :=
  runOp s h fun c => system s c h (some (b.dst.idx, true)) fun n mark => do
    match ← readReg s n b.sreg.toNat with
    | some x => .ok (s.writeU c b.dst.idx true x mark)
    | none => .error (.block s)

def execWrsr (h : Head) (b : BodyS) (s : State) : Host.Outcome State Fault Refusal :=
  runOp s h fun c => system s c h none fun n _ =>
    writeReg s n b.sreg.toNat (match b.sa with | .imm x => x.signExtend 64 | o => s.uni64 c o)

/-- The party of a trap resumes (R343, mode 0). Where the handler has moved the resume point, it leaves the instruction at which it may
have waited, and its place among those that wait. -/
def State.resumeParty (s : State) (core : Nat) (p : Party) (r : TrapRec) : State :=
  let cyc := (s.core core).cycle
  match p with
  | .warp inst w =>
    let s := if r.resume != r.resume0 then s.dropWaits p r.group else s
    s.modWarp (.user inst w) fun x => { x.resume r cyc with readySince := cyc }
  | .beryl _ which =>
    let s := if r.resume != r.resume0 then s.dropWaits p 0 else s
    s.modBeryl core which fun b => { b with st := 1, pc := r.resume, trap := none, blocked := false, sleep := if r.resume != r.resume0 then none else b.sleep }
  | _ => s

/-- The party of a trap ends with fault status (R343, mode 1). -/
def State.endParty (s : State) (core : Nat) (p : Party) : State :=
  match p with
  | .warp inst w =>
    let s := (s.modWarp (.user inst w) fun x => { x with trap := none }).exitThreads (.user inst w) Mask.all .fault
    s.modWg inst fun g => { g with faulted := true }
  | .beryl inst which =>
    let ds := (s.beryl core which).deferred
    let s := s.modBeryl core which fun b => { b with st := 2, trap := none, deferred := [] }
    (s.passOn inst p ds).modWg inst fun g => { g with faulted := true }
  | _ => s

/-- ERET: the selected trap is served; the supervisor warp is idle. -/
def State.eret (s : State) (core mode : Nat) : State :=
  let s := match s.selected core with
    | none => s
    | some (p, r) =>
      let s := match r.parked, p.inst? with
        | some k, some inst => if (r.cause.extractLsb' 12 3).toNat = 2 && !r.ectlWritten then s.abandonParked core inst k else s
        | _, _ => s
      if mode = 0 then s.resumeParty core p r else s.endParty core p
  s.modCore core fun k => { k with sup := { k.sup with awake := false, running := 0 } }

def execEret (h : Head) (b : BodyS) (s : State) : Host.Outcome State Fault Refusal :=
  runNav s h fun c =>
    match c.ref with
    | .user .. => trapCode 0x1e0
    | .sup n =>
      if c.executes s h then .ok (s.eret n b.sa.immNat)
      else .ok ((s.modWarp c.ref fun x => x.unblock c.group).advance c c.group [])

/-- The instructions that are a FENCE.gang for the supervisor warp wait for what it has issued (R264). -/
def fenced (s : State) (n : Nat) (body : State → M State) : M State :=
  if (s.core n).ops.any fun o => o.party == .sup n then .error (.block s)
  else
    let seen := (s.core n).sup.seen
    body ((s.acquire (.sup n) (s.acquired (.sup n) 4 seen) none).modWarp (.sup n) fun w => { w with fenced := 4 })

/-- What the blocking instruction of a core's supervisor waits for. -/
def State.setWait (s : State) (n : Nat) (x : Option SupWait) : State := s.modCore n fun k => { k with supWait := x }

/-- What the group that issues waits for in a blocking instruction of a kind. -/
def State.waitsOn (s : State) (c : Ctx) (n kind : Nat) : Option Nat :=
  match (s.core n).supWait with
  | some w => if w.group = c.group ∧ w.kind = kind then some w.arg else none
  | none => none

/-- A STATUS, and a slot, in a k register. -/
def sysStatus (s : State) (c : Ctx) (d : Nat) (mark : Bool) (x : Nat) : State := s.writeU c d false (BitVec.ofNat 64 x) mark

/-- SAVEWG: the workgroup in slot wgsel is brought to rest and saved. -/
def execSavewg (h : Head) (b : BodyS) (s : State) : Host.Outcome State Fault Refusal :=
  runOp s h fun c => system s c h (some (b.dst.idx, false)) fun n mark =>
    match s.waitsOn c n 1 with
    | some inst =>
      if (s.wg? inst).isSome then .error (.block s)
      else
        let ok := s.saved.any fun (e : DWord × Saved) => e.2.inst == inst
        .ok (sysStatus (s.setWait n none) c b.dst.idx mark (if ok then 0 else 1))
    | none => fenced s n fun s =>
      let area := s.uni64 c b.sa
      match (s.inSlot n (s.core n).wgsel).bind fun i => (s.wg? i).map fun g => (i, g) with
      | none => .ok (sysStatus s c b.dst.idx mark 1)
      | some (inst, g) =>
        if !s.areaOk area inst g then .ok (sysStatus s c b.dst.idx mark 2)
        else if g.saveTo.isSome then .error (.block s)
        else
          let s := s.beginSave inst area
          if (s.wg? inst).isSome then .error (.block (s.setWait n (some ⟨c.group, 1, inst⟩))) else .ok (sysStatus s c b.dst.idx mark 0)

/-- RESTWG: a saved workgroup is placed on this core. -/
def execRestwg (h : Head) (b : BodyS) (s : State) : Host.Outcome State Fault Refusal :=
  runOp s h fun c => system s c h (some (b.dst.idx, false)) fun n mark => fenced s n fun s =>
    match s.restore n (s.uni64 c b.sa) with
    | .ok (slot, s) => .ok (sysStatus s c b.dst.idx mark (slot * 256))
    | .error e => .ok (sysStatus s c b.dst.idx mark e)

/-- TLBI: completes when every holder has let go. -/
def execTlbi (h : Head) (b : BodyS) (s : State) : Host.Outcome State Fault Refusal :=
  runOp s h fun c => system s c h none fun n _ =>
    let end_ := fun (s : State) (x : Shoot) =>
      if s.shootDone x then Except.ok ({ s with shoots := s.shoots.filter fun y => y != x }.setWait n none)
      else Except.error (Stop.block s)
    match s.waitsOn c n 2 with
    | some before =>
      match s.shoots.find? fun x => x.core == n && x.before == before with
      | some x => end_ s x
      | none => .ok (s.setWait n none)
    | none => fenced s n fun s =>
      let x := s.uni64 c b.sa
      if x.extractLsb' 0 2 = 3 || x.extractLsb' 2 14 != 0 then .ok s
      else
        let before := s.nextId
        let s := ({ s.beginShoot n (x.extractLsb' 0 2).toNat (x &&& ~~~0xffff) with nextId := before + 1 }).setWait n (some ⟨c.group, 2, before⟩)
        match s.shoots.getLast? with
        | some y => end_ s y
        | none => .ok s

/-- FLUSHS: blocks until what it writes back has reached the stacks. -/
def execFlushs (h : Head) (b : BodyS) (s : State) : Host.Outcome State Fault Refusal :=
  runOp s h fun c => system s c h none fun n _ =>
    let x := s.uni64 c b.sa
    match s.waitsOn c n 3, s.flushScope x with
    | some due, some f => if s.onWay f due then .error (.block s) else .ok (s.setWait n none)
    | some _, none => .ok (s.setWait n none)
    | none, scope => fenced s n fun s =>
      match scope with
      | none => .ok s
      | some f =>
        let t := s.flushs x f
        if t.onWay f s.flushDue then .error (.block (t.setWait n (some ⟨c.group, 3, s.flushDue⟩))) else .ok t

/-- HALT: every warp of the core stops at its next boundary, and the management controller hears of it. -/
def execHalt (h : Head) (_b : BodyS) (s : State) : Host.Outcome State Fault Refusal :=
  runOp s h fun c => system s c h none fun n _ => fenced s n fun s =>
    .ok { (s.modCore n fun k => { k with halted := true }) with haltReports := s.haltReports ++ [n] }

/-! ### Events of the supervisor's core -/

/-- SUPERVISOR_WAKE (R342), on the core that `State.cur` names: a trap is pending and the supervisor warp is idle. -/
def State.wakeSup (s : State) (n : Nat) : Option State :=
  let k := s.core n
  let low := (List.range 64).find? fun i => (s.tpend n).getLsbD i
  let sel := match low with
    | some i => some i
    | none => if k.loader.trap.isSome then some 64 else if k.storer.trap.isSome then some 65 else none
  match sel with
  | none => none
  | some i =>
    if k.sup.awake || k.halted || k.offline then none
    else
      some (s.modCore n fun k =>
        { k with
          tsel := BitVec.ofNat 64 i
          supWait := none
          sup := { k.sup with
            awake := true
            running := 0
            readySince := k.cycle
            yielding := 0
            threads := List.replicate 32 ⟨k.tvec, none, none, [], .ready, k.cycle, false, 0, k.cycle⟩ } })

def execSupervisorWake (s : State) : Host.Outcome State Fault Refusal :=
  event s (match s.cur with | .core n => s.wakeSup n | _ => none)

/-- CORE_RESTART (R349, R350), on the core that `State.cur` names: the management controller restarts a halted core. -/
def execCoreRestart (s : State) : Host.Outcome State Fault Refusal :=
  event s (match s.cur with
    | .core n =>
      if (s.core n).halted && !(s.core n).offline then
        some (s.modCore n fun k => { k with halted := false, sup := { k.sup with trap := none } })
      else none
    | _ => none)

/-- TRAP_RECORD_AGED (R425), on the core that `State.cur` names: the selected record is 64 cycles old. -/
def execTrapRecordAged (s : State) : Host.Outcome State Fault Refusal :=
  event s (match s.cur with
    | .core n => do
      let (p, r) ← s.selected n
      if !r.aged && r.settled (s.core n).cycle then
        some (s.modTrap n p fun r => r.map fun (r : TrapRec) => { r with aged := true })
      else none
    | _ => none)

end Sys2Proof.Machine
end

