-- ==== Sys2Proof/Machine/Dispatch.lean ====
section
/-! DEFINITION. The meaning of each operation and event: one arm a constructor of `Instr`. -/

namespace Sys2Proof.Machine

open Sys2Proof

def exec (i : Instr) (s : State) : Host.Outcome State Fault Refusal :=
  match i with
  | .bra h b => Sys2Proof.Machine.execBra h b s
  | .brc h b => Sys2Proof.Machine.execBrc h b s
  | .call h b => Sys2Proof.Machine.execCall h b s
  | .brx h b => Sys2Proof.Machine.execBrx h b s
  | .callx h b => Sys2Proof.Machine.execCallx h b s
  | .ret h b => Sys2Proof.Machine.execRet h b s
  | .exit h => Sys2Proof.Machine.execExit h s
  | .nop h => Sys2Proof.Machine.execNop h s
  | .yield h => Sys2Proof.Machine.execYield h s
  | .sleep h n => Sys2Proof.Machine.execSleep h n s
  | .setmPush h tgt => Sys2Proof.Machine.execSetmPush h tgt s
  | .popm h => Sys2Proof.Machine.execPopm h s
  | .getm h vd clr => Sys2Proof.Machine.execGetm h vd clr s
  | .setmRestore h vs => Sys2Proof.Machine.execSetmRestore h vs s
  | .trap h n => Sys2Proof.Machine.execTrap h n s
  | .bkpt h n => Sys2Proof.Machine.execBkpt h n s
  | .map h b => Sys2Proof.Machine.execMap h b s
  | .unmap h b => Sys2Proof.Machine.execUnmap h b s
  | .aliasName h b => Sys2Proof.Machine.execAliasName h b s
  | .give h b => Sys2Proof.Machine.execGive h b s
  | .giveRowPark core op => Sys2Proof.Machine.execGiveRowPark core op s
  | .take h b => Sys2Proof.Machine.execTake h b s
  | .swapn h b => Sys2Proof.Machine.execSwapn h b s
  | .mapq h b => Sys2Proof.Machine.execMapq h b s
  | .lxch h b => Sys2Proof.Machine.execLxch h b s
  | .pagr h b => Sys2Proof.Machine.execPagr h b s
  | .pmsk h b => Sys2Proof.Machine.execPmsk h b s
  | .leqm h b => Sys2Proof.Machine.execLeqm h b s
  | .lred h b => Sys2Proof.Machine.execLred h b s
  | .rfal h b => Sys2Proof.Machine.execRfal h b s
  | .iadd h b => Sys2Proof.Machine.execIadd h b s
  | .isub h b => Sys2Proof.Machine.execIsub h b s
  | .imul h b => Sys2Proof.Machine.execImul h b s
  | .imulh h b => Sys2Proof.Machine.execImulh h b s
  | .imad h b => Sys2Proof.Machine.execImad h b s
  | .idiv h b => Sys2Proof.Machine.execIdiv h b s
  | .irem h b => Sys2Proof.Machine.execIrem h b s
  | .imin h b => Sys2Proof.Machine.execImin h b s
  | .imax h b => Sys2Proof.Machine.execImax h b s
  | .iabs h b => Sys2Proof.Machine.execIabs h b s
  | .ltab h b => Sys2Proof.Machine.execLtab h b s
  | .shl h b => Sys2Proof.Machine.execShl h b s
  | .shr h b => Sys2Proof.Machine.execShr h b s
  | .sar h b => Sys2Proof.Machine.execSar h b s
  | .catsh h b => Sys2Proof.Machine.execCatsh h b s
  | .popc h b => Sys2Proof.Machine.execPopc h b s
  | .clz h b => Sys2Proof.Machine.execClz h b s
  | .brev h b => Sys2Proof.Machine.execBrev h b s
  | .bfe h b => Sys2Proof.Machine.execBfe h b s
  | .bfi h b => Sys2Proof.Machine.execBfi h b s
  | .bytep h b => Sys2Proof.Machine.execBytep h b s
  | .iset h b => Sys2Proof.Machine.execIset h b s
  | .sel h b => Sys2Proof.Machine.execSel h b s
  | .mov h b => Sys2Proof.Machine.execMov h b s
  | .movi h b => Sys2Proof.Machine.execMovi h b s
  | .rds h b => Sys2Proof.Machine.execRds h b s
  | .fadd h b => Sys2Proof.Machine.execFadd h b s
  | .fmul h b => Sys2Proof.Machine.execFmul h b s
  | .ffma h b => Sys2Proof.Machine.execFfma h b s
  | .fmin h b => Sys2Proof.Machine.execFmin h b s
  | .fmax h b => Sys2Proof.Machine.execFmax h b s
  | .fset h b => Sys2Proof.Machine.execFset h b s
  | .dset h b => Sys2Proof.Machine.execDset h b s
  | .frnd h b => Sys2Proof.Machine.execFrnd h b s
  | .fclass h b => Sys2Proof.Machine.execFclass h b s
  | .phadd h b => Sys2Proof.Machine.execPhadd h b s
  | .phmul h b => Sys2Proof.Machine.execPhmul h b s
  | .phfma h b => Sys2Proof.Machine.execPhfma h b s
  | .pbfma h b => Sys2Proof.Machine.execPbfma h b s
  | .dadd h b => Sys2Proof.Machine.execDadd h b s
  | .dmul h b => Sys2Proof.Machine.execDmul h b s
  | .dfma h b => Sys2Proof.Machine.execDfma h b s
  | .frcp h b => Sys2Proof.Machine.execFrcp h b s
  | .frsq h b => Sys2Proof.Machine.execFrsq h b s
  | .fsqrt h b => Sys2Proof.Machine.execFsqrt h b s
  | .fex2 h b => Sys2Proof.Machine.execFex2 h b s
  | .flg2 h b => Sys2Proof.Machine.execFlg2 h b s
  | .fsin h b => Sys2Proof.Machine.execFsin h b s
  | .fcos h b => Sys2Proof.Machine.execFcos h b s
  | .ftanh h b => Sys2Proof.Machine.execFtanh h b s
  | .cvt h b => Sys2Proof.Machine.execCvt h b s
  | .cvtw h b => Sys2Proof.Machine.execCvtw h b s
  | .cvts h b => Sys2Proof.Machine.execCvts h b s
  | .cvtn h b => Sys2Proof.Machine.execCvtn h b s
  | .bscale h b => Sys2Proof.Machine.execBscale h b s
  | .plsplit h b => Sys2Proof.Machine.execPlsplit h b s
  | .pljoin h b => Sys2Proof.Machine.execPljoin h b s
  | .ld h b => Sys2Proof.Machine.execLd h b s
  | .ldFill h b => Sys2Proof.Machine.execLdFill h b s
  | .st h b => Sys2Proof.Machine.execSt h b s
  | .stSpill h b => Sys2Proof.Machine.execStSpill h b s
  | .lds h b => Sys2Proof.Machine.execLds h b s
  | .sts h b => Sys2Proof.Machine.execSts h b s
  | .ldt h b => Sys2Proof.Machine.execLdt h b s
  | .stt h b => Sys2Proof.Machine.execStt h b s
  | .ldc h b => Sys2Proof.Machine.execLdc h b s
  | .prf h b => Sys2Proof.Machine.execPrf h b s
  | .ainit h b => Sys2Proof.Machine.execAinit h b s
  | .aset h b => Sys2Proof.Machine.execAset h b s
  | .aadv h b => Sys2Proof.Machine.execAadv h b s
  | .aget h b => Sys2Proof.Machine.execAget h b s
  | .atom h b => Sys2Proof.Machine.execAtom h b s
  | .atoms h b => Sys2Proof.Machine.execAtoms h b s
  | .red h b => Sys2Proof.Machine.execRed h b s
  | .cas h b => Sys2Proof.Machine.execCas h b s
  | .redv h b => Sys2Proof.Machine.execRedv h b s
  | .fence h scope => Sys2Proof.Machine.execFence h scope s
  | .fenceb h scope => Sys2Proof.Machine.execFenceb h scope s
  | .fenceConditionsMet core op => Sys2Proof.Machine.execFenceConditionsMet core op s
  | .bars h b => Sys2Proof.Machine.execBars h b s
  | .bara h b => Sys2Proof.Machine.execBara h b s
  | .barw h b => Sys2Proof.Machine.execBarw h b s
  | .tbara h b => Sys2Proof.Machine.execTbara h b s
  | .tbarw h b => Sys2Proof.Machine.execTbarw h b s
  | .tbarx h b => Sys2Proof.Machine.execTbarx h b s
  | .barrierArrivalRegister core op => Sys2Proof.Machine.execBarrierArrivalRegister core op s
  | .barrierWaiterRelease inst w => Sys2Proof.Machine.execBarrierWaiterRelease inst w s
  | .acq h => Sys2Proof.Machine.execAcq h s
  | .qbind h b => Sys2Proof.Machine.execQbind h b s
  | .qsend h b => Sys2Proof.Machine.execQsend h b s
  | .qrecv h b => Sys2Proof.Machine.execQrecv h b s
  | .qtry h b => Sys2Proof.Machine.execQtry h b s
  | .qstat h b => Sys2Proof.Machine.execQstat h b s
  | .queueEntryLand core op => Sys2Proof.Machine.execQueueEntryLand core op s
  | .poll h b => Sys2Proof.Machine.execPoll h b s
  | .pollRetry w => Sys2Proof.Machine.execPollRetry w s
  | .hget h b => Sys2Proof.Machine.execHget h b s
  | .hfree h b => Sys2Proof.Machine.execHfree h b s
  | .hwait h b => Sys2Proof.Machine.execHwait h b s
  | .hset h b => Sys2Proof.Machine.execHset h b s
  | .wptr h b => Sys2Proof.Machine.execWptr h b s
  | .wwait h b => Sys2Proof.Machine.execWwait h b s
  | .cpy h kgrp => Sys2Proof.Machine.execCpy h kgrp s
  | .cpyt h kgrp dlk => Sys2Proof.Machine.execCpyt h kgrp dlk s
  | .copyCompletionPost inst chan => Sys2Proof.Machine.execCopyCompletionPost inst chan s
  | .wgsend h b => Sys2Proof.Machine.execWgsend h b s
  | .recordArriveBin core op => Sys2Proof.Machine.execRecordArriveBin core op s
  | .binTimerExpire grid cluster node => Sys2Proof.Machine.execBinTimerExpire grid cluster node s
  | .qsplit h b => Sys2Proof.Machine.execQsplit h b s
  | .qret h b => Sys2Proof.Machine.execQret h b s
  | .qborrow h b => Sys2Proof.Machine.execQborrow h b s
  | .waitq h b => Sys2Proof.Machine.execWaitq h b s
  | .accountUpdate acct f g => Sys2Proof.Machine.execAccountUpdate acct f g s
  | .waitqWake w => Sys2Proof.Machine.execWaitqWake w s
  | .tapef h b => Sys2Proof.Machine.execTapef h b s
  | .depinc h b => Sys2Proof.Machine.execDepinc h b s
  | .time h b => Sys2Proof.Machine.execTime h b s
  | .waitt h b => Sys2Proof.Machine.execWaitt h b s
  | .waittWake w => Sys2Proof.Machine.execWaittWake w s
  | .sleepWake w => Sys2Proof.Machine.execSleepWake w s
  | .launch h b => Sys2Proof.Machine.execLaunch h b s
  | .mma h b => Sys2Proof.Machine.execMma h b s
  | .mmac h b => Sys2Proof.Machine.execMmac h b s
  | .msign h conv src => Sys2Proof.Machine.execMsign h conv src s
  | .mzero h acc => Sys2Proof.Machine.execMzero h acc s
  | .accld h b => Sys2Proof.Machine.execAccld h b s
  | .accst h b => Sys2Proof.Machine.execAccst h b s
  | .accmv h b => Sys2Proof.Machine.execAccmv h b s
  | .mepi h b => Sys2Proof.Machine.execMepi h b s
  | .mrpq h kd acc => Sys2Proof.Machine.execMrpq h kd acc s
  | .matrixBlockComplete core slot => Sys2Proof.Machine.execMatrixBlockComplete core slot s
  | .bmv h kgrp => Sys2Proof.Machine.execBmv h kgrp s
  | .bmva h kgrp => Sys2Proof.Machine.execBmva h kgrp s
  | .bred h kgrp => Sys2Proof.Machine.execBred h kgrp s
  | .bstat h kd => Sys2Proof.Machine.execBstat h kd s
  | .rdsr h b => Sys2Proof.Machine.execRdsr h b s
  | .wrsr h b => Sys2Proof.Machine.execWrsr h b s
  | .eret h b => Sys2Proof.Machine.execEret h b s
  | .savewg h b => Sys2Proof.Machine.execSavewg h b s
  | .restwg h b => Sys2Proof.Machine.execRestwg h b s
  | .tlbi h b => Sys2Proof.Machine.execTlbi h b s
  | .flushs h b => Sys2Proof.Machine.execFlushs h b s
  | .halt h b => Sys2Proof.Machine.execHalt h b s
  | .clauseBoundary w lane => Sys2Proof.Machine.execClauseBoundary w lane s
  | .clauseWaitPass w lane => Sys2Proof.Machine.execClauseWaitPass w lane s
  | .groupWaitPromote w lane => Sys2Proof.Machine.execGroupWaitPromote w lane s
  | .warpStarvationPromote w => Sys2Proof.Machine.execWarpStarvationPromote w s
  | .resultWriteback w id => Sys2Proof.Machine.execResultWriteback w id s
  | .releaseBufferLeave core quarter => Sys2Proof.Machine.execReleaseBufferLeave core quarter s
  | .storePerformed core op k => Sys2Proof.Machine.execStorePerformed core op k s
  | .loadComplete core op => Sys2Proof.Machine.execLoadComplete core op s
  | .atomicRequestApply core op k => Sys2Proof.Machine.execAtomicRequestApply core op k s
  | .redvElementApply core op k => Sys2Proof.Machine.execRedvElementApply core op k s
  | .sysregWrite core sreg val => Sys2Proof.Machine.execSysregWrite core sreg val s
  | .atvalWrite core val => Sys2Proof.Machine.execAtvalWrite core val s
  | .tapeownBind core val => Sys2Proof.Machine.execTapeownBind core val s
  | .tapeownUnbind core val => Sys2Proof.Machine.execTapeownUnbind core val s
  | .lqtailWrite q val => Sys2Proof.Machine.execLqtailWrite q val s
  | .launchEntryTake q => Sys2Proof.Machine.execLaunchEntryTake q s
  | .timedStartReached grid => Sys2Proof.Machine.execTimedStartReached grid s
  | .workgroupAdmit cluster => Sys2Proof.Machine.execWorkgroupAdmit cluster s
  | .teamAdmit cluster => Sys2Proof.Machine.execTeamAdmit cluster s
  | .nodeWorkgroupAdmit grid cluster node => Sys2Proof.Machine.execNodeWorkgroupAdmit grid cluster node s
  | .headGridReserve grid => Sys2Proof.Machine.execHeadGridReserve grid s
  | .gridComplete grid => Sys2Proof.Machine.execGridComplete grid s
  | .gateTokenArrive token x => Sys2Proof.Machine.execGateTokenArrive token x s
  | .pageWalkComplete core ctx va => Sys2Proof.Machine.execPageWalkComplete core ctx va s
  | .swqWrite core addr => Sys2Proof.Machine.execSwqWrite core addr s
  | .faultNoticeReceive outCtx inCtx both => Sys2Proof.Machine.execFaultNoticeReceive outCtx inCtx both s
  | .handshakeReady member gen => Sys2Proof.Machine.execHandshakeReady member gen s
  | .handshakeCommit member gen => Sys2Proof.Machine.execHandshakeCommit member gen s
  | .gangcfgWrite val => Sys2Proof.Machine.execGangcfgWrite val s
  | .gfaultClear ctx => Sys2Proof.Machine.execGfaultClear ctx s
  | .gangPacketArrive p => Sys2Proof.Machine.execGangPacketArrive p s
  | .fabricMessageDeliver j => Sys2Proof.Machine.execFabricMessageDeliver j s
  | .refusalReturn j => Sys2Proof.Machine.execRefusalReturn j s
  | .dropNoticeReceive sendId => Sys2Proof.Machine.execDropNoticeReceive sendId s
  | .peerAccessArrive j => Sys2Proof.Machine.execPeerAccessArrive j s
  | .lossNoticeReceive gang lost => Sys2Proof.Machine.execLossNoticeReceive gang lost s
  | .ptpSyncMessage offset => Sys2Proof.Machine.execPtpSyncMessage offset s
  | .hostInboundAccess r => Sys2Proof.Machine.execHostInboundAccess r s
  | .powerInterval cluster p => Sys2Proof.Machine.execPowerInterval cluster p s
  | .railDroop core quarter g => Sys2Proof.Machine.execRailDroop core quarter g s
  | .thermalTrip cluster sensor temp => Sys2Proof.Machine.execThermalTrip cluster sensor temp s
  | .strikeReport core z => Sys2Proof.Machine.execStrikeReport core z s
  | .timingNearMiss core z => Sys2Proof.Machine.execTimingNearMiss core z s
  | .patrolScrub sector uncorrectable => Sys2Proof.Machine.execPatrolScrub sector uncorrectable s
  | .screenCopyAdmit j => Sys2Proof.Machine.execScreenCopyAdmit j s
  | .keygen index owner => Sys2Proof.Machine.execKeygen index owner s
  | .keyclr index => Sys2Proof.Machine.execKeyclr index s
  | .triprd reply => Sys2Proof.Machine.execTriprd reply s
  | .boostreq cluster target => Sys2Proof.Machine.execBoostreq cluster target s
  | .bringUp b => Sys2Proof.Machine.execBringUp b s
  | .fqbindWrite f rd src port => Sys2Proof.Machine.execFqbindWrite f rd src port s
  | .berylInstruction j c => Sys2Proof.Machine.execBerylInstruction j c s
  | .fqSend b => Sys2Proof.Machine.execFqSend b s
  | .fqSendTry b => Sys2Proof.Machine.execFqSendTry b s
  | .fqRecv b => Sys2Proof.Machine.execFqRecv b s
  | .fqRecvTry b => Sys2Proof.Machine.execFqRecvTry b s
  | .fhGet b => Sys2Proof.Machine.execFhGet b s
  | .fhWait b => Sys2Proof.Machine.execFhWait b s
  | .fcpIssue b => Sys2Proof.Machine.execFcpIssue b s
  | .fcpIssueT b => Sys2Proof.Machine.execFcpIssueT b s
  | .fwpRead b => Sys2Proof.Machine.execFwpRead b s
  | .fwpReadWait b => Sys2Proof.Machine.execFwpReadWait b s
  | .ftime b => Sys2Proof.Machine.execFtime b s
  | .ftimeWait b => Sys2Proof.Machine.execFtimeWait b s
  | .fpollEq b => Sys2Proof.Machine.execFpollEq b s
  | .fpollNe b => Sys2Proof.Machine.execFpollNe b s
  | .fpollLt b => Sys2Proof.Machine.execFpollLt b s
  | .fpollLe b => Sys2Proof.Machine.execFpollLe b s
  | .fpollGt b => Sys2Proof.Machine.execFpollGt b s
  | .fpollGe b => Sys2Proof.Machine.execFpollGe b s
  | .acqGrant => Sys2Proof.Machine.execAcqGrant s
  | .copyBurst => Sys2Proof.Machine.execCopyBurst s
  | .matrixOpStart => Sys2Proof.Machine.execMatrixOpStart s
  | .supervisorWake => Sys2Proof.Machine.execSupervisorWake s
  | .ectlResume => Sys2Proof.Machine.execEctlResume s
  | .ectlAbandon => Sys2Proof.Machine.execEctlAbandon s
  | .acqWaitReserve => Sys2Proof.Machine.execAcqWaitReserve s
  | .machineError => Sys2Proof.Machine.execMachineError s
  | .coreRestart => Sys2Proof.Machine.execCoreRestart s
  | .trapRecordAged => Sys2Proof.Machine.execTrapRecordAged s
  | .copyCommandTake => Sys2Proof.Machine.execCopyCommandTake s
  | .bankCommandTake => Sys2Proof.Machine.execBankCommandTake s
  | .bankRowBlock => Sys2Proof.Machine.execBankRowBlock s
  | .bankResultPost => Sys2Proof.Machine.execBankResultPost s
  | .workgroupAtRest => Sys2Proof.Machine.execWorkgroupAtRest s
  | .workgroupRetire => Sys2Proof.Machine.execWorkgroupRetire s
  | .blockedTimeLimit => Sys2Proof.Machine.execBlockedTimeLimit s
  | .screenCopyEnd => Sys2Proof.Machine.execScreenCopyEnd s
  | .fabricSendDepart => Sys2Proof.Machine.execFabricSendDepart s
  | .gateTapeEntryWrite => Sys2Proof.Machine.execGateTapeEntryWrite s
  | .shootdownTimeout => Sys2Proof.Machine.execShootdownTimeout s
  | .switchPrestage => Sys2Proof.Machine.execSwitchPrestage s
  | .switchSaveStart => Sys2Proof.Machine.execSwitchSaveStart s
  | .switchAdvance => Sys2Proof.Machine.execSwitchAdvance s
  | .switchReleased => Sys2Proof.Machine.execSwitchReleased s
  | .gangStraggler => Sys2Proof.Machine.execGangStraggler s
  | .switchFaultTimeout => Sys2Proof.Machine.execSwitchFaultTimeout s
  | .ppsEdge => Sys2Proof.Machine.execPpsEdge s
  | .syncLossTimeout => Sys2Proof.Machine.execSyncLossTimeout s
  | .holdoverTimeout => Sys2Proof.Machine.execHoldoverTimeout s

end Sys2Proof.Machine
end

