-- ==== Sys2Proof/Machine/Issue.lean ====
section
/-! DEFINITION. The issue of Farale instructions: what is checked of a word when it issues (R161, R162, R166, R167, R181),
what an issue counts, and the choice of R370 among the warps of a quarter. -/

namespace Sys2Proof

/-! ### Pairs (R162) -/

/-- A lane operation reads values from several lanes: it runs in the vector pipe whatever its destination (R216). -/
def Instr.isLane : Instr → Bool
  | .lxch .. | .pagr .. | .pmsk .. | .leqm .. | .lred .. | .rfal .. => true
  | _ => false

/-- It runs on the uniform datapath: a map instruction, or one whose destination is a k or kp register (R59, R442). -/
def Instr.uniformPipe (i : Instr) : Bool :=
  i.isMap || (!i.isLane && !i.writes.isEmpty && i.writes.all fun r => match r with | .k _ | .kp _ => true | _ => false)

/-- The pipes: 0 vector, 1 special-function, 2 load-store, 3 uniform, 4 engine, 5 control. -/
def Instr.pipe (i : Instr) : Nat :=
  match i.admitted with
  | [.sfu, .mix] => 1
  | [.mem, .mix] | [.mem, .ctl, .mix] => 2
  | [.eng, .mix] | [.eng, .ctl, .mix] => 4
  | [.alu, .mix] | [.alu, .ctl, .mix] => if i.uniformPipe then 3 else 0
  | _ => 5

end Sys2Proof

namespace Sys2Proof.Machine

/-- The k registers of the entry that a queue instruction sends or receives: the binding of its port says how many (R275). -/
def Warp.entryOf (w : Warp) (i : Instr) : List Reg :=
  let entry := fun (port first : Opnd) =>
    match w.q.get none (port.idx - 0x10) with
    | some p => (List.range (entryRegs p.kind)).map fun n => Reg.k (first.idx + n)
    | none => []
  match i with
  | .qsend _ b | .qtry _ b => entry b.sa b.sb
  | .qrecv _ b => entry b.sa b.dst
  | _ => []

/-- The k registers of an entry that the instruction receives. -/
def Warp.entryWrites (w : Warp) (i : Instr) : List Reg :=
  match i with
  | .qsend .. => []
  | .qtry _ b => if (w.q.get none (b.sa.idx - 0x10)).any fun p => !p.recv then [] else w.entryOf i
  | _ => w.entryOf i

/-- An instruction may issue in the cycle of its predecessor `i`: they go to different pipes, and it touches no register that the
predecessor writes (R162). -/
def Warp.pairs (w : Warp) (i j : Instr) : Bool :=
  i.pipe != j.pipe && (i.writes ++ w.entryWrites i).all fun r => !(j.touched ++ w.entryOf j).contains r

/-! ### Results in flight (R167) -/

/-- An instruction touches a destination of an instruction in flight: a register, or a row by any name. -/
def InFlight.touches (f : InFlight) (w : Warp) (i : Instr) : Bool :=
  (i.regs.map regOf ++ w.entryOf i).any fun r =>
    f.dests.any fun d =>
      match d, r with
      | .v n, .v m => m == n || ((w.nameRow n).isSome && w.nameRow n == w.nameRow m)
      | d, r => d == r

/-- What the results in flight do to an instruction that is about to issue. -/
inductive Hold where
  | free
  | wait
  /-- lookahead hazard -/
  | hazard
  /-- it needs the result of an operation that failed -/
  | failed (f : InFlight)
  deriving DecidableEq, Repr

def Warp.hold (w : Warp) (i : Instr) : Hold :=
  if w.holding then .wait
  else
    match w.inflight.find? fun f => f.failed && f.holds && f.window == some 0 with
    | some f => .failed f
    | none =>
      match w.inflight.find? fun f => f.touches w i with
      | none => .free
      | some f =>
        if f.window.isSome then (if i.isMap then (if f.failed then .failed f else .wait) else .hazard)
        else if f.failed then .failed f
        else .wait

/-! ### Issue -/

/-- What has been found out about the next instruction of a group. -/
structure Next where
  hdrAddr : DWord
  hdr : DWord
  word : DWord
  instr : Option Instr
  deriving DecidableEq, Repr

/-- Reads the instruction at the PC of a group in its clause. -/
def State.next? (s : State) (w : WRef) (t : Thread) : Option (Except Detail (Next × State)) := do
  let (ha, hdr) ← t.clause
  match s.fetch (s.coreOf w) (s.ctxOf w) (warpClass w) t.pc with
  | .error d => some (.error d)
  | .ok (word, s) => some (.ok (⟨ha, hdr, word, decodeFarale word⟩, s))

/-- The number of an instruction in its clause. -/
def Next.index (n : Next) (pc : DWord) : Nat := (pc - n.hdrAddr).toNat / 8 - 1

/-- The word is legal in its place (R159, R161, R343): its clause admits it, and a transfer stands last. -/
def Next.legal (n : Next) (pc : DWord) (i : Instr) : Bool :=
  (match ClauseClass.of (hdrClass n.hdr) with | some k => i.admitted.contains k | none => false) &&
  (!(i.isTransfer || i.isEret) || n.index pc == hdrCount n.hdr)

/-- The cycle allows the issue (R162, R370): DIST is met, the quarter's slot is free or the instruction pairs with its
predecessor in it, and the warp does not skip the cycle. -/
def State.cycleAllows (s : State) (w : WRef) (x : Warp) (t : Thread) (n : Next) (i : Instr) (resumed : Bool) : Bool :=
  let k := s.core (s.coreOf w)
  let idx := n.index t.pc
  let d := hdrDist n.hdr idx
  let used := k.slotUse.get (0, 0) w.quarter
  let count := if used.1 = k.cycle then used.2 else 0
  let pair :=
    !resumed && d == 0 && idx != 0 && hdrClass n.hdr != 5 && x.lastIssue == k.cycle && count == 1 &&
    match s.fetch (s.coreOf w) (s.ctxOf w) (warpClass w) (t.pc - 8) with
    | .ok (p, _) => (match decodeFarale p with | some j => x.pairs j i | none => false)
    | .error _ => false
  x.skipCycle != some k.cycle &&
  (pair || (count == 0 && (resumed || x.issues == 0 || decide (x.lastIssue + (if d = 0 then 1 else d) ≤ k.cycle))))

/-- What an issue counts: the slot of its quarter, and, unless the instruction trapped or completes after a wait, the
windows of the instructions in flight before it (R167). -/
def State.countIssue (before after : State) (w : WRef) (fresh : Bool) : State :=
  let n := before.coreOf w
  let cyc := (before.core n).cycle
  let old := (before.warp w).inflight.map (·.id)
  let after := after.modCore n fun k =>
    let used := k.slotUse.get (0, 0) w.quarter
    { k with slotUse := k.slotUse.put (0, 0) w.quarter (cyc, (if used.1 = cyc then used.2 else 0) + 1) }
  let after := match w with | .user inst _ => after.runs inst | .sup _ => after
  match after.warp? w with
  | none => after
  | some y =>
    let counts := fresh && y.trap.isNone
    after.setWarp w { y with
      lastIssue := cyc
      recency := if y.recency < 2 * cyc then 2 * cyc else y.recency
      readySince := cyc
      starved := false
      issues := if counts then y.issues + 1 else y.issues
      inflight := if counts then y.inflight.map fun f =>
          if old.contains f.id then { f with window := f.window.map (· - 1) } else f
        else y.inflight }

/-- A trap at an instruction of a group: it logs the lanes whose predicate, as the word names it, holds; without a word, the group (R340). -/
def State.issueTrap (s : State) (w : WRef) (g : Mask) (t : Thread) (word : DWord) (src code : Nat) (d : Detail) : State :=
  let c : Ctx := ⟨w, g, 0, 0, word, t.pc, s.coreOf w, s.ctxOf w⟩
  s.takeTrap w ⟨src, { d with code := code }, if src = 1 then g else c.held s, g, t.pc, t.pc, word, none, 0⟩ t.clause

/-- The group of lanes `g` issues its next instruction if it is free to issue; none if it waits. `resumed`: its clause was
suspended at this instruction. A lookahead hazard is raised before the instruction's own checks of slots and names (R239 does not
say; log 82: DESIGN CHOICE). -/
def State.tryIssue (s : State) (w : WRef) (g : Mask) (resumed : Bool) : Option (Host.Outcome State Fault Refusal) := do
  let x ← s.warp? w
  let l ← Lanes.low g
  let t := x.thread l
  let late := if resumed then s.deliverDeferred w g t.pc t.clause else none
  match late with
  | some s' => some (.next s')
  | none =>
    let r ← s.next? w t
    match r with
    | .error d => some (.next (s.issueTrap w g t 0 1 d.code d))
    | .ok (n, s) =>
      let illegal := s.issueTrap w g t n.word 0 0x000 (.code_ 0)
      match n.instr with
      | none => some (.next illegal)
      | some i =>
        if !n.legal t.pc i then some (.next illegal)
        else
          match x.hold i with
          | .wait => none
          | .hazard => some (.next (s.issueTrap w g t n.word 0 0x003 (.code_ 3)))
          | .failed f =>
            if f.flag = 0 then (s.deliverDeferred w g t.pc t.clause).map .next
            else
              match (x.errq.get [] (f.flag - 1)).find? fun e => e.op == f.id with
              | some e => some (.next (s.flagTrap w g t.pc t.clause (f.flag - 1) e
                  ((x.errq.get [] (f.flag - 1)).filter fun e => e.op != f.id)))
              | none => none
          | .free =>
            let full := match i.head? with
              | some h => h.flag != 0 && x.cf.get 0 (h.flag.toNat - 1) == 63
              | none => false
            let stall := s.stalled w && (waitFind w.party g (s.core (s.coreOf w)).engWait).isNone
            if full || stall || !s.cycleAllows w x t n i resumed then none
            else
              match exec i { s with cur := .warp w g n.hdrAddr n.hdr n.word } with
              | .next s' =>
                let still := match t.st with
                  | .blocked k => (match s'.warp? w with | some y => (y.thread l).st == ThreadSt.blocked k && y.trap.isNone | none => false)
                  | _ => false
                if still then none else some (.next (s.countIssue s' w (t.st == ThreadSt.ready)))
              | o => some o

/-! ### The choice of R370 -/

/-- The groups of a warp that stand at a flag wait or sleep, while a cause waits for the warp to stop (R444, R446). -/
def State.stoppedGroups (s : State) (w : WRef) : List GroupKey :=
  match s.warp? w with
  | none => []
  | some x =>
    if x.deferred.isEmpty then []
    else (List.range 32).filterMap fun l =>
      let t := x.thread l
      if (t.st == .flagWait || t.asleep) && Lanes.low (x.groupOf l) == some l then some (x.key (s.cycleOf w) l) else none

/-- The groups of a warp that are blocked at an instruction. -/
def State.blockedGroups (s : State) (w : WRef) : List GroupKey :=
  match s.warp? w with
  | none => []
  | some x =>
    (List.range 32).filterMap fun l =>
      match (x.thread l).st with
      | .blocked _ => if Lanes.low (x.groupOf l) = some l then some (x.key (s.cycleOf w) l) else none
      | _ => none

/-- A group that has slept behind the last instruction of its clause completes it (R158, R160, R192). -/
def State.endClause (s : State) (w : WRef) (g : Mask) (ha hdr : DWord) : State :=
  let x := s.warp w
  let c : Ctx := ⟨w, g, ha, hdr, 0, ha + BitVec.ofNat 64 (8 * (hdrCount hdr + 1)), s.coreOf w, s.ctxOf w⟩
  (s.advance c g []).modWarp w fun y => y.modThreads g fun l t => { t with since := (x.thread l).since }

/-- What a group does when the warp turns to it. A clause that was suspended is in progress again (R158). -/
def State.groupTurn (s : State) (w : WRef) (k : GroupKey) : Option (Host.Outcome State Fault Refusal) := do
  let l ← Lanes.low k.mask
  let x ← s.warp? w
  if (x.thread l).st = .flagWait then (s.passWait w l).map .next
  else if (x.thread l).asleep then (s.deliverDeferred w k.mask (x.thread l).pc (x.thread l).clause).map .next
  else
    match (x.thread l).clause with
    | some (ha, hdr) =>
      if (x.thread l).pc = ha + BitVec.ofNat 64 (8 * (hdrCount hdr + 2)) then some (.next (s.endClause w k.mask ha hdr))
      else (s.modWarp w fun x => { x with running := k.mask }).tryIssue w k.mask true
    | none => none

/-- What a warp does if its quarter turns to it: the next instruction of the clause in progress, or at a boundary the group
that R30 chooses among those that may go on. -/
def State.warpTurn (s : State) (w : WRef) : Option (Host.Outcome State Fault Refusal) := do
  let x ← s.warp? w
  if x.trap.isSome then none
  else if x.again.isSome then some (.next (s.setWarp w (x.retrap (s.cycleOf w))))
  else if x.inClause != 0 then s.tryIssue w x.inClause false
  else if !s.mayResume w then none
  else
    -- on a halted core only the clauses that are suspended go on, to their end (R349)
    let inside := fun (k : GroupKey) => match Lanes.low k.mask with | some l => (x.thread l).clause.isSome | none => false
    -- while a QRET or a blocking system instruction is not complete, only its own group may go on
    let waiter := fun (k : GroupKey) => match w with
      | .sup n => (match (s.core n).supWait with | some x => k.mask &&& x.group != 0 | none => true)
      | .user .. => true
    let free := fun (k : GroupKey) => waiter k && match s.qretOf w with | some o => k.mask &&& o.group != 0 | none => true
    let groups := (s.readyGroups w ++ s.stoppedGroups w ++ s.blockedGroups w).filter fun k => (s.mayIssue w || inside k) && free k
    let acts := groups.filterMap fun k => (s.groupTurn w k).map fun o => (k, o)
    let k ← GroupKey.best (acts.map (·.1))
    (acts.find? fun a => a.1 == k).map (·.2)

/-- The warps of a quarter of a core. -/
def State.quarterWarps (s : State) (core q : Nat) : List WRef :=
  (if q = 0 then [WRef.sup core] else []) ++
  s.wgs.flatMap fun e =>
    match e.2 with
    | some g => if g.core = core then ((List.range g.warps.length).filter fun w => w % 4 == q).map (WRef.user e.1) else []
    | none => []

/-- What decides between two warps (R370). -/
structure WarpKey where
  w : WRef
  starved : Bool
  readySince : Nat
  sup : Bool
  prio : Nat
  recency : Nat
  deriving DecidableEq, Repr

def State.warpKey (s : State) (w : WRef) : WarpKey :=
  let x := s.warp w
  ⟨w, x.starved || decide (x.readySince + 64 ≤ s.cycleOf w), x.readySince, w.isSup, x.prio, x.recency⟩

/-- R370: a starved warp that has waited longest, then the supervisor warp, then the highest priority, then the longest
since its last issue. -/
def WarpKey.before (a b : WarpKey) : Bool :=
  if a.starved != b.starved then a.starved
  else if a.starved then decide (a.readySince ≤ b.readySince)
  else if a.sup != b.sup then a.sup
  else if a.prio = b.prio then decide (a.recency ≤ b.recency)
  else decide (b.prio < a.prio)

def WarpKey.best : List WarpKey → Option WarpKey
  | [] => none
  | k :: ks => match WarpKey.best ks with | none => some k | some j => some (if k.before j then k else j)

/-- What a quarter does with its issue slot: the choice of R370, if a warp may go on. -/
def State.quarterTurn (s : State) (core q : Nat) : Option (Host.Outcome State Fault Refusal) := do
  let acts := (s.quarterWarps core q).filterMap fun w => (s.warpTurn w).map fun o => (s.warpKey w, o)
  let k ← WarpKey.best (acts.map (·.1))
  (acts.find? fun a => a.1 == k).map (·.2)

/-! ### What waits, cycle by cycle (R30, R53) -/

/-- The group of a lane would go on if its warp turned to it: it is at a boundary that it would pass, or its clause was suspended and
what it waited for has arisen. -/
def State.groupReady (s : State) (w : WRef) (x : Warp) (l : Nat) : Bool :=
  let t := x.thread l
  match t.st with
  | .ready | .flagWait =>
    t.clause.isSome ||
    match s.header (s.coreOf w) (s.ctxOf w) (warpClass w) t.pc with
    | .ok (h, _) => t.m != some t.pc && x.flagsZero h || t.st == .flagWait && x.flagsZero h
    | .error _ => true
  | .blocked _ => (s.groupTurn w (x.key (s.cycleOf w) l)).isSome
  | _ => false

/-- The warp could issue in this cycle if its quarter's slot were free (R370). -/
def State.warpReady (s : State) (w : WRef) : Bool :=
  ((s.modCore (s.coreOf w) fun k => { k with slotUse := [] }).warpTurn w).isSome

/-- Notes at the end of a cycle which groups and whether the warp wait from the next one on. -/
def State.noteWaits (s : State) (w : WRef) (next : Nat) : Warp → Warp := fun x =>
  let slotFree := s.modCore (s.coreOf w) fun k => { k with slotUse := [] }
  let x := x.modThreads Mask.all fun l t =>
    if slotFree.groupReady w x l then t else { t with readyAt := next, promoted := false }
  if s.warpReady w then x else { x with readySince := next, starved := false }

/-- The turn of the group that `State.cur` names. -/
def State.curTurn (s : State) : Host.Outcome State Fault Refusal :=
  match s.cur with
  | .warp w g _ _ _ => (s.tryIssue w g false).getD (.next s)
  | _ => .next s

end Sys2Proof.Machine
end

