-- ==== Sys2Proof/Machine/Turns.lean ====
section
/-! DEFINITION. What a turn of the module does (log 1): an issue slot, a Beryl core, an event, the passing of time, and what the
environment changes. -/

namespace Sys2Proof.Machine

/-! ### Beryl cores (R317) -/

/-- The instruction of a Beryl core at its pc, or the exception with its mcause and mtval. -/
def Beryl.fetch (b : Beryl) : Except Detail Instr :=
  let inside := fun (n : Nat) => decide (b.pc.toNat + n ≤ 0x4000)
  if b.pc.getLsbD 0 then .error (berylExc 0 b.pc)
  else if !inside 2 then .error (berylExc 1 b.pc)
  else
    let w := b.wordAt
    if w % 4 = 3 then
      if !inside 4 then .error (berylExc 1 b.pc)
      else match decodeBeryl (BitVec.ofNat 32 w) with | some i => .ok i | none => .error (berylExc 2 (BitVec.ofNat 64 w))
    else match decodeCompressed (BitVec.ofNat 16 w) with | some i => .ok i | none => .error (berylExc 2 (BitVec.ofNat 64 w))

/-- The next instruction of a Beryl core. -/
def State.berylStep (s : State) (core which : Nat) : Host.Outcome State Fault Refusal :=
  match (s.beryl core which).fetch with
  | .error d => .next (s.berylTrap core which 3 d none)
  | .ok i => exec i { s.runs (s.beryl core which).inst with cur := .beryl core which }

/-- The core may go on: its program runs, nothing has stopped it, and its zone does not replay. -/
def State.berylGoes (s : State) (core which : Nat) : Bool :=
  let k := s.core core
  let b := s.beryl core which
  b.st == 1 && !k.halted && !k.offline && decide (k.stallTo.get 0 5 ≤ k.cycle) &&
  match s.wg? b.inst with
  | some g => g.beryl && g.core == core && !g.resting && !g.frozen && !s.gfaulted.contains g.ctx
  | none => false

/-- What a Beryl core does if it has its turn: a cause that waits for it is delivered where it stops (R444), else it issues. -/
def State.berylNext (s : State) (core which : Nat) : Host.Outcome State Fault Refusal :=
  if !s.berylGoes core which then .next s
  else
    match (s.beryl core which).again with
    | some r => .next (s.modBeryl core which fun b =>
        { b with st := 3, again := none, trap := some { r with cycle := (s.core core).cycle } })
    | none =>
    match (s.beryl core which).deferred with
    | [] => s.berylStep core which
    | d :: ds => .next ((s.modBeryl core which fun b => { b with deferred := ds }).berylTrap core which 2 d.cause d.parked)

/-! ### Receives before reservations (R274) -/

/-- The named queues of a workgroup in which a turn has reserved a slot. -/
def State.reservedIn (s t : State) (inst : Nat) : List Nat :=
  match s.wg? inst, t.wg? inst with
  | some a, some b => (List.range 16).filter fun n => decide ((a.queue_ n).reserved < (b.queue_ n).reserved)
  | _, _ => []

/-- A turn takes an entry from a queue. -/
def State.receives (s : State) (o : Host.Outcome State Fault Refusal) (inst queue : Nat) : Bool :=
  match o with
  | .next t => (match s.wg? inst, t.wg? inst with
    | some a, some b => decide ((b.queue_ queue).entries.length < (a.queue_ queue).entries.length)
    | _, _ => false)
  | _ => false

/-- What a quarter does if it has its turn, while its zone does not replay. -/
def State.quarterNext (s : State) (core q : Nat) : Option (Host.Outcome State Fault Refusal) :=
  if (s.core core).stallTo.get 0 q ≤ (s.core core).cycle then s.quarterTurn core q else none

/-- The other parties of a core, numbered as its quarters and 4 and 5 for its Beryl cores, would take an entry from a queue in this cycle. -/
def State.receiveDue (s : State) (core skip inst queue : Nat) : Bool :=
  (List.range 6).any fun r => r != skip &&
    (if r < 4 then (match s.quarterNext core r with | some o => s.receives o inst queue | none => false)
     else s.receives (s.berylNext core (r - 4)) inst queue)

/-- A turn in which a party would reserve a slot of a queue does not take place while a receive from that queue is due: in one cycle a
queue serves receives before reservations. -/
def State.afterReceives (s : State) (core self inst : Nat) (o : Host.Outcome State Fault Refusal) : Host.Outcome State Fault Refusal :=
  match o with
  | .next t => if (s.reservedIn t inst).any (s.receiveDue core self inst) then .next s else o
  | o => o

/-- The workgroup whose party has its turn in the state after it. -/
def State.curInst (s : State) : Nat := match s.cur with | .warp (.user inst _) _ _ _ _ => inst | .warp (.sup n) _ _ _ _ => supInst n | _ => 0

/-- The turn of a quarter's issue slot. -/
def State.issueTurn (s : State) (core q : Nat) : Host.Outcome State Fault Refusal :=
  match s.quarterNext core q with
  | none => .next s
  | some (.next t) => s.afterReceives core q t.curInst (.next t)
  | some o => o

/-- The turn of a Beryl core. -/
def State.berylTurn (s : State) (core which : Nat) : Host.Outcome State Fault Refusal :=
  s.afterReceives core (4 + which) (s.beryl core which).inst (s.berylNext core which)

/-- The turn of the party that `State.cur` names. -/
def State.ownTurn (s : State) : Host.Outcome State Fault Refusal :=
  match s.cur with
  | .beryl core which => s.berylStep core which
  | _ => s.curTurn

/-! ### Time -/

/-- The workgroups of a core count the cycles in which they are resident (R214). -/
def State.countResident (s : State) (core n : Nat) : State :=
  { s with wgs := s.wgs.map fun (e : Nat × Option Wg) =>
      match e.2 with
      | some g => if g.core = core then (e.1, some { g with cycles := g.cycles + n }) else e
      | none => e }

/-- A cycle of a core passes. Groups and warps that could not go on in it wait from the next cycle on (R30, R53). -/
def State.tickOnce (s : State) (core : Nat) : State :=
  let next := (s.core core).cycle + 1
  let warps := (List.range 4).flatMap fun q => s.quarterWarps core q
  let noted := warps.foldl (fun t w => t.modWarp w (s.noteWaits w next)) s
  (noted.modCore core fun k => { k with cycle := next }).countResident core 1

/-- Cycles of a core pass. -/
def State.tick (s : State) (core : Nat) : Nat → State
  | 0 => s
  | n + 1 => (s.tickOnce core).tick core n

/-- A group of a workgroup that is blocked at an instruction would go on if its warp turned to it: what it awaits has arisen, and its
threads are ready (R47). -/
def State.unblocks (s : State) (inst : Nat) (g : Wg) : Bool :=
  (List.range g.warps.length).any fun w => s.mayResume (.user inst w) && (s.blockedGroups (.user inst w)).any fun k => (s.groupTurn (.user inst w) k).isSome

/-- Notes since when workgroups are stuck: held, blocked or asleep in all their parties (R48). -/
def State.noteStuck (s : State) : State :=
  { s with wgs := s.wgs.map fun (e : Nat × Option Wg) =>
    match e.2 with
    | some g =>
      let moves := !s.stuck g || (!g.frozen && s.unblocks e.1 g)
      (e.1, some { g with stuckSince := if moves then none else some (g.stuckSince.getD s.clockNs) })
    | none => e }

/-- Gang time passes: what has waited until now is noted first (R48, R366). -/
def State.passTime (s : State) (ns : Nat) : State :=
  let s := s.noteHeads.noteStuck
  { s with clockNs := s.clockNs + ns }

/-! ### Other changes -/

/-- An increment of a dependence counter takes effect once its release registers (R146, R294). -/
def State.registerDep (s : State) (core op : Nat) : Option State := do
  let o ← s.registers? core op
  match o.eff with
  | .depinc ctr n =>
    let s := s.modCore core fun k =>
      { k with tape := if k.tape.owner != o.party.inst? then k.tape else
          { k.tape with
            ctr := k.tape.ctr.upd 0 ctr fun x => (x + n) % 65536
            ctrClk := k.tape.ctrClk.upd [] ctr fun c => Clock.join c o.clk } }
    some (s.dropOp core op)
  | _ => none

/-- The gang clock takes its one step to the grandmaster's time: while it is unsynchronised, by the offset just measured (R399). -/
def State.clockStep (s : State) : State :=
  if s.clockState = 3 && !s.stepped && s.measured && s.lastSync == s.clockNs then
    { s with clockNs := ((s.clockNs : Int) - s.gangOffset).toNat, stepped := true }
  else s

/-- A new configuration of the gate unit, which supervisor software makes (R390), as far as its 12 MiB memory holds it (R15). -/
def State.setGate (s : State) (g : Gate) : State :=
  let bytes := g.experts.foldl (fun n e => n + 4 * e.1.length + 32) 0
  if s.mayAccess 4 0 2 2 && decide (bytes ≤ 12 * 2 ^ 20) then
    { s with gate := { g with owner := (s.core g.core).tape.owner, pending := [], stopped := false, tokens := s.gate.tokens } }
  else s

/-- The caches of translations of a core, its cluster and its die lose what they hold, as they may at any time (R385). -/
def State.loseTranslations (s : State) (core : Nat) : State :=
  let s := s.modCore core fun k => { k with tlb := [] }
  { s with tlb2 := s.tlb2.put [] (clusterOf core) [], walkCache := s.walkCache.put [] (dieOf core) [] }

/-- What the environment changes. -/
def State.env (s : State) (e : Env) : State :=
  match e with
  | .account n a => if n < 1024 then { s with accounts := s.accounts.put Account.zero n a } else s
  | .gate g => s.setGate g
  | .bar2 base ctx => { s with bar2base := base, bar2ctx := ctx % 4096 }
  | .hostMem a b => if hostBase ≤ a then s.writeCell 0 a b else s
  | .sent sendId lost => s.sendOutcome sendId lost
  | .clockStep => s.clockStep
  | .grandmaster b => { s with grandmaster := b }
  | .timeOfDay b => { s with timeKnown := b }
  | .tripClear => { s with trip := 0 }
  | .stall m b => { s with slowLinks := if b then (if s.slowLinks.contains m then s.slowLinks else s.slowLinks ++ [m]) else s.slowLinks.filter (· != m) }
  | .corrected unit => s.corrected unit

/-- Sets the mark of a granule. -/
def State.markGranule (s : State) (g : Granule) : State :=
  let rowMark := fun (i : RowId) (lane : Nat) => let r := s.getRow i; s.setRow i { r with poison := r.poison ||| Mask.one (lane % 32) }
  match g with
  | .cell a => s.markCell a true
  | .row core r lane => rowMark (.phys core r) lane
  | .supRow core r lane => rowMark (.sup core r) lane
  | .scratch core w => s.modCore core fun k => { k with smarks := k.smarks.put false w true }
  | .tile core t w => s.modCore core fun k => { k with tiles := k.tiles.upd Tile.zero t fun x => { x with marks := x.marks.put false w true } }
  | .k w n => s.modWarp w fun x => { x with kMark := x.kMark.put false (n % 64) true }
  | .kp w n => s.modWarp w fun x => { x with kpMark := x.kpMark.put false (n % 4) true }
  | .p w n lane => s.modWarp w fun x => { x with pMark := x.pMark.upd 0 (n % 7) fun m => m ||| Mask.one (lane % 32) }
  | .areg w n => s.modWarp w fun x => { x with a := x.a.upd AReg.zero (n % 16) fun r => { r with mark := true } }

/-- The core that holds a granule; 0 for memory. -/
def Granule.core (s : State) : Granule → Nat
  | .cell _ => 0
  | .row n _ _ | .supRow n _ _ | .scratch n _ | .tile n _ _ => n
  | .k w _ | .kp w _ | .p w _ _ | .areg w _ => s.coreOf w

/-- The physical address or the row that an event names; of other granules, their number (R427). -/
def Granule.number (s : State) : Granule → Nat
  | .cell a => s.cellPa a
  | .row _ r _ | .supRow _ r _ => r
  | .scratch _ w | .tile _ _ w => 4 * w
  | .k _ n | .kp _ n | .p _ n _ | .areg _ n => n

/-- An uncorrectable read marks the granule and is logged (R352, R427). -/
def State.uncorrectable (s : State) (g : Granule) : State :=
  ((s.markGranule g).logNamed 0x183 (g.core s) 0 (BitVec.ofNat 64 (g.number s)) 0).report (g.core s) 0x183

/-- One turn. While the module is down no party of it moves. -/
def State.turn (s : State) (t : Turn) : Host.Outcome State Fault Refusal :=
  match t with
  | .issue core q =>
    if s.up then s.issueTurn core q else .next s
  | .beryl core which => if s.up then s.berylTurn core which else .next s
  | .event a i => exec i { (if i = .blockedTimeLimit then s.noteStuck else s) with cur := a }
  | .loadPerform core op k => .next ((s.loadPerform core op k).getD s)
  | .writeBack cell => .next (s.drainCell cell)
  | .tlbDrop core => .next (s.loseTranslations core)
  | .walkBegin core ctx va => .next (s.walkBegin core ctx va)
  | .walkStep i => .next (s.walkStep i)
  | .tick core n => .next (s.tick core n)
  | .clock ns => .next (s.passTime ns)
  | .uncorrectable g => .next (s.uncorrectable g)
  | .register core op => .next ((s.registerDep core op).getD s)
  | .heldPerform core op => .next ((s.heldPerform core op).getD s)
  | .env e => .next (s.env e)

end Sys2Proof.Machine
end

