-- ==== Sys2Proof/Safety.lean ====
section
/-! DEFINITION. What counts as a safe run, and the terms in which claims say what an instruction does and what it leaves
unchanged. -/

namespace Sys2Proof.Machine

/-- A step answers a next state. -/
def State.stepsOn (s : State) : Prop := ∃ s', step s = .next s'

/-- `n` steps answer next states. -/
def State.runsFor (s : State) : Nat → Prop
  | 0 => True
  | n + 1 => ∃ s', step s = .next s' ∧ s'.runsFor n

/-! ### Completion -/

/-- The instruction of the group `c` completes: `t` holds its effect, and the group stands behind it. -/
def State.finish (t : State) (c : Ctx) : State := (t.modWarp c.ref fun x => x.unblock c.group).advance c c.group []

/-! ### Names and rows -/

/-- The name is mapped, and an access to its row in the lanes of `m` is no race, where the row is or was shared (R65, R82). -/
def State.nameFree (s : State) (c : Ctx) (m : Mask) (write : Bool) (n : Nat) : Prop :=
  ∃ r, (s.warp c.ref).nameRow n = some r ∧
    (∀ l < 32, m.has l = true → s.watched c.ref r l = true →
      (s.histAt ((s.rowId c.ref r).loc l)).race c.party (s.warp c.ref).clk write false = none)

/-- Every name of a list is free to access. -/
def State.namesFree (s : State) (c : Ctx) (m : Mask) (write : Bool) (ns : List (Nat × Nat)) : Prop :=
  ∀ e ∈ ns, s.nameFree c m write e.1

/-- An instruction with these sources and this destination meets no unmapped name and no race. -/
def State.aluReady (s : State) (c : Ctx) (h : Head) (dst : Opnd) (wide : Bool) (reads : List (Opnd × Nat × Nat)) : Prop :=
  s.namesFree c (c.active s h) false (reads.flatMap fun r => namesOf r.1 r.2.1 r.2.2) ∧
  s.namesFree c (c.active s h) true (namesOf dst (if wide then 2 else 1) 0)

/-! ### Results -/

/-- The lane elements of a name after a write: the active lanes hold `f`, the others are kept, and a poisoned guard
marks what it reaches (R67, R353). -/
def State.wroteName (s t : State) (c : Ctx) (act guard : Mask) (n : Nat) (f : Nat → Word × Bool) : Prop :=
  ∀ l < 32, t.laneVal c n l =
    if act.has l then ((f l).1, (f l).2 || guard.has l) else ((s.laneVal c n l).1, (s.laneVal c n l).2 || guard.has l)

/-- The destination of an instruction holds `val` (R59, R67): per active lane in a vector register or a per-thread
predicate, once in a uniform register or predicate when the instruction executes. The low half of a pair whose two
names select one row is overwritten by the high half. -/
def State.result (s t : State) (c : Ctx) (h : Head) (dst : Opnd) (wide : Bool) (val : Nat → DWord × Bool) : Prop :=
  let act := c.active s h
  let guard := c.guardMarks s h
  match dst with
  | .v n =>
    (wide = false ∨ s.nameId c n.toNat ≠ s.nameId c (n.toNat + 1) →
      s.wroteName t c act guard n.toNat fun l => ((val l).1.setWidth 32, (val l).2)) ∧
    (wide = true → s.wroteName t c act guard (n.toNat + 1) fun l => ((val l).1.extractLsb' 32 32, (val l).2))
  | .u n =>
    let w := t.warp c.ref
    if c.executes s h then
      w.kGet n.toNat = (val 0).1.setWidth 32 ∧ w.kMarked n.toNat = ((val 0).2 || guard != 0) ∧
      (wide = true → w.kGet (n.toNat + 1) = (val 0).1.extractLsb' 32 32 ∧ w.kMarked (n.toNat + 1) = ((val 0).2 || guard != 0))
    else
      ∀ j, w.kGet j = (s.warp c.ref).kGet j
  | .sp i =>
    let w := t.warp c.ref
    if i.toNat < 0x60 then
      ∀ l < 32, ((w.p.get 0 (i.toNat - 0x58)).has l =
          if act.has l then (val l).1 != 0 else ((s.warp c.ref).p.get 0 (i.toNat - 0x58)).has l) ∧
        ((w.pMark.get 0 (i.toNat - 0x58)).has l =
          ((if act.has l then (val l).2 else ((s.warp c.ref).pMark.get 0 (i.toNat - 0x58)).has l) || guard.has l))
    else
      w.kpGet (i.toNat - 0x60) = if c.executes s h then (val 0).1 != 0 else (s.warp c.ref).kpGet (i.toNat - 0x60)
  | .imm _ => True

/-! ### Frames -/

/-- A core but for its rows and its supervisor warp. -/
def Core.bare (k : Core) : Core := { k with rows := [], supRows := [], sup := .init, halted := false }

/-- A workgroup but for its warps, and for what ends a screened copy (R429). -/
def Wg.bare (g : Wg) : Wg := { g with warps := [], copyFault := false, frozen := false }

/-- A warp but for what moving on changes: its threads and which of them run, its trap record, its YIELD. -/
def Warp.still (w : Warp) : Warp :=
  { w with threads := [], trap := none, yielding := 0, skipCycle := none, lastIssue := 0, recency := 0, running := 0 }

/-- What of a warp no arithmetic instruction writes: beside what moving on changes, its registers and predicates, and its
completion flags with the instructions in flight. -/
def Warp.settled (w : Warp) : Warp :=
  { w.still with k := [], kMark := [], kp := [], kpMark := [], p := [], pMark := [], cf := [], inflight := [] }

/-- Memory, the special registers, accumulators, scratchpads, engines, tables and every other warp are unchanged;
the cores, workgroups, race histories and reports may change only in what `Core.bare` and `Wg.bare` leave out. -/
structure State.outside (s t : State) (c : Ctx) : Prop where
  memory : ∀ a, t.mem.read a = s.mem.read a
  rest : { t with cores := s.cores, wgs := s.wgs, supWgs := s.supWgs, hist := s.hist, reports := s.reports, haltReports := s.haltReports, nextId := s.nextId } = s
  cores : ∀ n, (t.core n).bare = (s.core n).bare
  groups : ∀ i, (t.wg? i).map Wg.bare = (s.wg? i).map Wg.bare
  warps : ∀ w, w ≠ c.ref → t.warp? w = s.warp? w

/-- Every row keeps its contents but the rows of the names `ns`; a row of another context that is accessed is zeroed
(R78). -/
def State.rowsKept (s t : State) (c : Ctx) (ns : List Nat) : Prop :=
  ∀ i, (∀ n ∈ ns, s.nameId c n ≠ some i) → t.getRow i = s.getRow i ∨ t.getRow i = (s.getRow i).seenBy c.ctx

/-- The names that a destination writes. -/
def dstNames (dst : Opnd) (wide : Bool) : List Nat := (namesOf dst (if wide then 2 else 1) 0).map (·.1)

/-- The frame of an instruction whose only destination is `dst`: registers, predicates, flags, special registers,
accumulators and all of memory are unchanged but for it, and for its warp's place in the program. -/
structure State.frame (s t : State) (c : Ctx) (dst : Opnd) (wide : Bool) : Prop where
  outside : s.outside t c
  rows : s.rowsKept t c (dstNames dst wide)
  k : ∀ j, (∀ n, dst = .u n → j ≠ n.toNat ∧ (wide = true → j ≠ n.toNat + 1)) →
    (t.warp c.ref).kGet j = (s.warp c.ref).kGet j ∧ (t.warp c.ref).kMarked j = (s.warp c.ref).kMarked j
  p : ∀ j, (∀ i, dst = .sp i → i.toNat < 0x60 → j ≠ i.toNat - 0x58) →
    (t.warp c.ref).p.get 0 j = (s.warp c.ref).p.get 0 j ∧ (t.warp c.ref).pMark.get 0 j = (s.warp c.ref).pMark.get 0 j
  kp : ∀ j, (∀ i, dst = .sp i → ¬ i.toNat < 0x60 → j ≠ i.toNat - 0x60) →
    (t.warp c.ref).kpGet j = (s.warp c.ref).kpGet j ∧ (t.warp c.ref).kpMark.get false j = (s.warp c.ref).kpMark.get false j
  others : (t.warp c.ref).settled = (s.warp c.ref).settled

/-- No completion flag and no instruction in flight changes. -/
def State.quiet (s t : State) (c : Ctx) : Prop :=
  (t.warp c.ref).cf = (s.warp c.ref).cf ∧ (t.warp c.ref).inflight = (s.warp c.ref).inflight

/-- The instruction has gone into flight (R166, R167): its flag counts one more, or its window opens; `dests` are the
registers it will have written in the cycle `at_`, none where the cycle is not known. -/
def State.flew (s t : State) (c : Ctx) (h : Head) (dests : List Reg) (at_ : Option Nat) : Prop :=
  (t.warp c.ref).cf = ((s.warp c.ref).flagUp h.flag.toNat).cf ∧
  ∃ f, (t.warp c.ref).inflight = (s.warp c.ref).inflight ++ [f] ∧ f.dests = dests ∧ f.flag = h.flag.toNat ∧
    f.window = (if h.flag = 0 then some h.lk.toNat else none) ∧ f.readyAt = at_ ∧ f.failed = false

/-- The instruction completes: its destination holds `val`, and nothing else changes. -/
def State.writes (s : State) (c : Ctx) (h : Head) (i : Instr) (dst : Opnd) (wide : Bool) (val : Nat → DWord × Bool) : Prop :=
  ∃ t, exec i s = .next t ∧ s.result t c h dst wide val ∧ s.frame t c dst wide ∧ s.quiet t c

/-- The instruction changes nothing but the place of its warp in the program. -/
structure State.only (s t : State) (c : Ctx) : Prop where
  outside : s.outside t c
  rows : s.rowsKept t c []
  warp : (t.warp c.ref).still = (s.warp c.ref).still

/-! ### Places in the program -/

/-- The thread of a lane of the group. -/
def State.lane (s : State) (c : Ctx) (l : Nat) : Thread := (s.warp c.ref).thread l

/-- The lane is of the group, and its thread has not exited; nor is it one that an access may yet end (R245), which no group that
issues holds. -/
def State.live (s : State) (c : Ctx) (l : Nat) : Prop :=
  l < 32 ∧ c.group.has l = true ∧ (s.lane c l).exited = false ∧ (s.lane c l).doomed = false

/-- The threads of the group stand at the next instruction (R155); at the end of a clause with END they trap instead
(R160). Other threads stay. -/
def State.movedOn (s t : State) (c : Ctx) : Prop :=
  ((c.isLast && c.endBit) = false → ∀ l, s.live c l → (t.lane c l).pc = c.nextPc) ∧
  ∀ l < 32, c.group.has l = false → t.lane c l = s.lane c l

/-- A transfer (R188, R189): the lanes of `go` stand at a boundary at their targets, the others of the group at the
fall-through header, and those of no group stay. -/
def State.jumped (s t : State) (c : Ctx) (go : Nat → Bool) (target : Nat → DWord) : Prop :=
  (∀ l, s.live c l → go l = true → (t.lane c l).pc = target l ∧ (t.lane c l).clause = none) ∧
  (c.endBit = false → ∀ l, s.live c l → go l = false → (t.lane c l).pc = c.fallThrough ∧ (t.lane c l).clause = none) ∧
  ∀ l < 32, c.group.has l = false → t.lane c l = s.lane c l

/-- The warp is a screened copy, which ends where another would trap (R429). -/
def State.inCopy (s : State) (c : Ctx) : Bool :=
  match c.ref with
  | .user i _ => s.copyWg i
  | .sup _ => false

/-- The warp has a pending trap with this record (R341). -/
def State.trapped (t : State) (c : Ctx) (f : TrapRec → Prop) : Prop := ∃ r, (t.warp c.ref).trap = some r ∧ f r

/-- The workgroup slot of the group's warp. -/
def State.slotOfCtx (s : State) (c : Ctx) : Nat :=
  match c.ref with
  | .user i _ => (match s.wg? i with | some g => g.slot | none => 0)
  | .sup _ => 0

/-- A precise trap of the instruction (R182, R341): the record holds its cause, PC and word, its group stands at it, and
nothing else has changed. -/
def State.trapsPrecisely (s t : State) (c : Ctx) (h : Head) (d : Detail) : Prop :=
  t.trapped c (fun r =>
    r.cause = causeWord c.ctx (s.slotOfCtx c) c.ref.index (TrapReq.srcOf ⟨0, d, c.active s h, c.group, c.pc, c.pc, c.word, none, 0⟩) d.code ∧
    r.pc = c.pc ∧ r.resume = c.pc ∧ r.word = c.word ∧ r.addr = d.addr ∧ r.info = infoWord d ∧
    r.lanes = lanesWord (c.active s h) d.lane ∧ r.group = c.group) ∧
  s.only t c ∧ (∀ l < 32, c.group.has l = true → (t.lane c l).pc = c.pc) ∧
  ∀ l < 32, c.group.has l = false → t.lane c l = s.lane c l

/-- An operation of the group has entered its core's list, behind every earlier one. -/
def State.queued (s t : State) (c : Ctx) (f : MemOp → Prop) : Prop :=
  ∃ o, (t.core c.core).ops = (s.core c.core).ops ++ [o] ∧ o.party = c.party ∧ o.id = s.nextId ∧ o.group = c.group ∧ f o

/-! ### Accesses -/

/-- The checks of an operation that pass kill no thread (R245). -/
def State.doomsNone (s : State) (core : Nat) (o : MemOp) : Prop :=
  ∀ c, o.ctx_ core = some c → (s.warp c.ref).doomedBy o.id (fun _ => true) = 0

/-- A core but for its rows, its supervisor warp, its pending operations and its cached translations. -/
def Core.busy (k : Core) : Core := { k.bare with ops := [], tlb := [] }

/-- A warp but for what moving on and the issue of an access change: address registers, flags, what is in flight, its
clock. -/
def Warp.steady (w : Warp) : Warp := { w.still with a := [], cf := [], inflight := [], clk := [], fenced := 0 }

/-- The frame of an instruction that enters an operation in its core's list: memory, rows, registers, predicates,
accumulators, scratchpads, special registers and every other warp are unchanged. Cached translations and walks may
change. -/
structure State.entered (s t : State) (c : Ctx) : Prop where
  memory : ∀ a, t.mem.read a = s.mem.read a
  rest : { t with
    cores := s.cores, wgs := s.wgs, supWgs := s.supWgs, hist := s.hist, reports := s.reports, haltReports := s.haltReports,
    nextId := s.nextId, fresh := s.fresh, tlb2 := s.tlb2, walkCache := s.walkCache, walks := s.walks } = s
  cores : ∀ n, (t.core n).busy = (s.core n).busy
  groups : ∀ i, (t.wg? i).map Wg.bare = (s.wg? i).map Wg.bare
  warps : ∀ w, w ≠ c.ref → t.warp? w = s.warp? w
  rows : s.rowsKept t c []
  warp : (t.warp c.ref).steady = (s.warp c.ref).steady

/-- The address registers keep their contents. -/
def State.aregsKept (s t : State) (c : Ctx) : Prop := ∀ n, (t.warp c.ref).aGet n = (s.warp c.ref).aGet n

/-- The address register of an access takes its new PTR (R125); no other changes. -/
def State.stepped_ (s t : State) (c : Ctx) (x : Acces) : Prop :=
  ∀ n, (t.warp c.ref).aGet n =
    if n = x.areg then { (s.warp c.ref).aGet n with ptr := ((s.warp c.ref).aGet n).newPtr x.mode x.off } else (s.warp c.ref).aGet n

/-- The access that an instruction of format M names. -/
def bodyAccess (b : BodyM) (kind : AccKind) : Acces :=
  ⟨kind, b.areg.toNat, b.mode.toNat, scaledOff b (sizeOf b.sz), sizeOf b.sz⟩

/-- The lanes of an access with their data. -/
def accesses (rs : List (Nat × DWord × List Piece)) (data : Nat → List Byte) : List LaneAcc :=
  rs.map fun r => ⟨r.1, r.2.1, r.2.2, data r.1, false⟩

/-- The instruction completes its issue: its operation enters the list with these lanes, counts on its flag, and PTR
moves; with no executing thread nothing enters. -/
def State.issues (s : State) (c : Ctx) (h : Head) (i : Instr) (x : Acces) (eff : Eff) (lanes : List LaneAcc) (dests : List Reg) :
    Prop :=
  ∃ t, exec i s = .next t ∧ s.entered t c ∧ s.stepped_ t c x ∧ s.movedOn t c ∧
    (c.active s h = 0 → s.quiet t c ∧ (t.core c.core).ops = (s.core c.core).ops) ∧
    (c.active s h ≠ 0 → s.flew t c h dests none ∧
      s.queued t c fun o => o.eff = eff ∧ o.lanes = lanes ∧ o.done = [] ∧ o.left = !eff.external ∧
        o.born = (s.core c.core).cycle ∧ o.flag = h.flag.toNat)

/-- No address register, guard or data of an access is poisoned. -/
def State.clean (s : State) (c : Ctx) (h : Head) (b : BodyM) : Prop :=
  ((s.warp c.ref).aGet b.areg.toNat).mark = false ∧ c.guardMarks s h = 0

/-! ### Instructions on per-warp state (R59, R266) -/

/-- The instruction of a group of a workgroup's warp runs, once, and no guard is poisoned. -/
structure State.once (s : State) (c : Ctx) (h : Head) (inst w : Nat) (g : Wg) : Prop where
  here : s.ctx? = some c
  runs : c.executes s h = true
  group : c.group ≠ 0
  guard : c.guardMarks s h = 0
  warp : c.ref = .user inst w
  wg : s.wg? inst = some g

/-- Memory, rows, the warp's names, address registers, per-thread predicates, and its other k and kp registers are
unchanged. -/
structure State.regsKept (s t : State) (c : Ctx) (ks kps : List Nat) : Prop where
  memory : ∀ a, t.mem.read a = s.mem.read a
  rows : s.rowsKept t c []
  k : ∀ j, j ∉ ks → (t.warp c.ref).kGet j = (s.warp c.ref).kGet j ∧ (t.warp c.ref).kMarked j = (s.warp c.ref).kMarked j
  kp : ∀ j, j ∉ kps → (t.warp c.ref).kpGet j = (s.warp c.ref).kpGet j
  p : (t.warp c.ref).p = (s.warp c.ref).p ∧ (t.warp c.ref).pMark = (s.warp c.ref).pMark
  a : (t.warp c.ref).a = (s.warp c.ref).a
  map : (t.warp c.ref).map = (s.warp c.ref).map

/-- The instruction completes: it changes no register but those of `ks` and `kps`, its group moves on, and `f` holds. -/
def State.completes (s : State) (c : Ctx) (i : Instr) (ks kps : List Nat) (f : State → Prop) : Prop :=
  ∃ t, exec i s = .next t ∧ s.regsKept t c ks kps ∧ s.movedOn t c ∧ f t

/-- The group waits at the instruction: its threads are blocked under one ticket, nothing is written, and `f` holds. -/
def State.waits (s : State) (c : Ctx) (i : Instr) (f : State → Prop) : Prop :=
  ∃ t, exec i s = .next t ∧ s.regsKept t c [] [] ∧ f t ∧
    (c.retries s = false → ∃ id, ∀ l, s.live c l → (t.lane c l).st = .blocked id ∧ (t.lane c l).pc = (s.lane c l).pc)

/-- The warp that issues, as the issuer of an operation of its workgroup. -/
def State.agentHere (s : State) (c : Ctx) (inst : Nat) : Agent := ⟨c.party, inst, c.core, c.ctx, c.group, (s.warp c.ref).stage, c.held s⟩

/-- No external effect, no access and nothing that a fence holds of the party is listed, and identities are fresh: a release registers at
once. -/
def State.settledParty (s : State) (c : Ctx) : Prop :=
  ∀ o ∈ (s.core c.core).ops, o.id < s.nextId ∧ (o.party = c.party → o.eff.external = false ∧ o.eff.access = false ∧ o.eff.isHeld = false)

/-! ### Beryl cores (R317 to R320) -/

/-- Nothing but the Beryl core that runs changes. -/
def State.berylOnly (s t : State) (core which : Nat) : Prop :=
  { t with cores := s.cores } = s ∧ (∀ n, n ≠ core → t.core n = s.core n) ∧
  (if which = 0 then { t.core core with loader := (s.core core).loader } else { t.core core with storer := (s.core core).storer }) =
    s.core core

/-- Of a Beryl core, what an ordinary instruction leaves alone: its stores of instructions, ports, bindings, state and trap. -/
def Beryl.settled (b : Beryl) : Beryl :=
  { b with x := [], pc := 0, dstore := [], reservation := none, blocked := false, sleep := none }

/-- The instruction of a Beryl core completes: rd holds `v` and every other register what it held, pc is `pc`, memory is
unchanged, and `f` holds. -/
def State.berylDoes (s : State) (x : BCtx) (i : Instr) (pc : DWord) (rd : BitVec 5) (v : DWord) (f : State → Prop) : Prop :=
  ∃ t, exec i s = .next t ∧ (∀ a, t.mem.read a = s.mem.read a) ∧ (t.beryl x.core x.which).pc = pc ∧
    (t.beryl x.core x.which).blocked = false ∧ (t.beryl x.core x.which).st = x.b.st ∧
    (∀ r, (t.beryl x.core x.which).reg r = if r = rd ∧ rd ≠ 0 then v else x.b.reg r) ∧ f t

/-- The Beryl core waits at its instruction, with nothing written. -/
def State.berylWaits (s : State) (x : BCtx) (i : Instr) (f : State → Prop) : Prop :=
  ∃ t, exec i s = .next t ∧ (∀ a, t.mem.read a = s.mem.read a) ∧ (t.beryl x.core x.which).pc = x.b.pc ∧
    (t.beryl x.core x.which).blocked = true ∧ (∀ r, (t.beryl x.core x.which).reg r = x.b.reg r) ∧ f t

/-- The Beryl core stops with a trap (R317, R341): its record holds the cause with SRC 3, and nothing else changes. -/
def State.berylTraps (s : State) (x : BCtx) (i : Instr) (d : Detail) : Prop :=
  ∃ t r, exec i s = .next t ∧ s.berylOnly t x.core x.which ∧
    t.beryl x.core x.which = { x.b with st := 3, trap := some r } ∧
    r.cause = causeWord x.agent.ctx (match s.wg? x.b.inst with | some g => g.slot | none => 0) 0 3 d.code ∧
    r.pc = x.b.pc ∧ r.resume = x.b.pc ∧ r.word = BitVec.ofNat 64 x.b.wordAt ∧ r.addr = d.addr ∧ r.info = infoWord d

end Sys2Proof.Machine
end

