-- ==== Sys2Proof/Certificates/Slice0/Obligations.lean ====
section
/-! DEFINITION. The statements about the machine, for the provers. -/

open Sys2Proof Sys2Proof.Machine

/-! ### Integer and uniform instructions (R199 to R214) -/

/-- The results of two sources of one type (R199, R202): the exact integer result, reduced modulo 2^w and extended to its
element, in every active lane, or once for a uniform destination; nothing else changes. -/
def Claims.IntegerBinaryResult : Prop :=
  ∀ p ∈ [(Instr.iadd, fun x y : Int => x + y), (.isub, fun x y => x - y), (.imul, fun x y => x * y),
      (.imin, fun x y => if x ≤ y then x else y), (.imax, fun x y => if x ≤ y then y else x)],
  ∀ (s : State) (c : Ctx) (h : Head) (b : BodyA), s.ctx? = some c →
    let w := intWide b.mod
    s.aluReady c h b.dst w [(b.sa, wideN w, 1), (b.sb, wideN w, 2)] →
    s.writes c h (p.1 h b) b.dst w fun l =>
      (extendW b.mod (p.2 (valW b.mod (s.opnd c b.sa w l).1) (valW b.mod (s.opnd c b.sb w l).1)),
        (s.opnd c b.sa w l).2 || (s.opnd c b.sb w l).2)

/-- IMULH writes the upper w bits of the exact product (R202), IMAD the low w bits of x × y + z (R203). -/
def Claims.MultiplyResult : Prop :=
  ∀ (s : State) (c : Ctx) (h : Head) (b : BodyA), s.ctx? = some c →
    let w := intWide b.mod
    let x := fun l => s.opnd c b.sa w l
    let y := fun l => s.opnd c b.sb w l
    let z := fun l => s.opnd c b.sc w l
    (s.aluReady c h b.dst w [(b.sa, wideN w, 1), (b.sb, wideN w, 2)] →
      s.writes c h (.imulh h b) b.dst w fun l =>
        (extendW b.mod (valW b.mod (x l).1 * valW b.mod (y l).1 / 2 ^ intWidth b.mod), (x l).2 || (y l).2)) ∧
    (s.aluReady c h b.dst w [(b.sa, wideN w, 1), (b.sb, wideN w, 2), (b.sc, wideN w, 3)] →
      s.writes c h (.imad h b) b.dst w fun l =>
        (extendW b.mod (valW b.mod (x l).1 * valW b.mod (y l).1 + valW b.mod (z l).1), (x l).2 || (y l).2 || (z l).2))

/-- IDIV writes the quotient truncated toward zero, all ones for a divisor of zero; IREM writes x − q × y, and x for a
divisor of zero (R204). Neither traps on any operands; both go into flight (R167), with the result held at issue already (the
model's choice: log 5). -/
def Claims.DivisionResult : Prop :=
  ∀ p ∈ [(Instr.idiv, fun x y : Int => if y = 0 then -1 else x.tdiv y),
      (.irem, fun x y => if y = 0 then x else x - x.tdiv y * y)],
  ∀ (s : State) (c : Ctx) (h : Head) (b : BodyA), s.ctx? = some c →
    let w := intWide b.mod
    s.aluReady c h b.dst w [(b.sa, wideN w, 1), (b.sb, wideN w, 2)] →
    ∃ t, exec (p.1 h b) s = .next t ∧
      s.result t c h b.dst w (fun l =>
        (extendW b.mod (p.2 (valW b.mod (s.opnd c b.sa w l).1) (valW b.mod (s.opnd c b.sb w l).1)),
          (s.opnd c b.sa w l).2 || (s.opnd c b.sb w l).2)) ∧
      s.frame t c b.dst w ∧
      s.flew t c h (b.dst.destRegs (wideN w)) (some ((s.core c.core).cycle + if w then 36 else 20))

/-- The instructions of one source (R205), and MOV: the absolute value modulo 2^w, the count of ones, the zeros above the
highest one, the bits in reverse, the low w bits. A mark of either half of a 64-bit source marks both halves of the result
(the model's choice: log 82). -/
def Claims.IntegerUnaryResult : Prop :=
  ∀ (s : State) (c : Ctx) (h : Head) (b : BodyA), s.ctx? = some c →
    let w := intWide b.mod
    let n := intWidth b.mod
    let x := fun l => s.opnd c b.sa w l
    (s.aluReady c h b.dst w [(b.sa, wideN w, 1)] →
      s.writes c h (.iabs h b) b.dst w (fun l => (extendW b.mod (Int.ofNat (valW b.mod (x l).1).natAbs), (x l).2)) ∧
      s.writes c h (.brev h b) b.dst w (fun l => (reverseBits n (x l).1, (x l).2)) ∧
      s.writes c h (.mov h b) b.dst w (fun l => (lowBits w (x l).1, (x l).2))) ∧
    (s.aluReady c h b.dst false [(b.sa, wideN w, 1)] →
      s.writes c h (.popc h b) b.dst false (fun l => (BitVec.ofNat 64 ((List.range n).countP (x l).1.getLsbD), (x l).2)) ∧
      s.writes c h (.clz h b) b.dst false (fun l => (BitVec.ofNat 64 (zerosAbove (x l).1 n), (x l).2)))

/-- SHL, SHR and SAR by an unsigned 32-bit count (R207): a count of w or more gives 0, and for SAR copies of the sign. -/
def Claims.ShiftResult : Prop :=
  ∀ (s : State) (c : Ctx) (h : Head) (b : BodyA), s.ctx? = some c →
    let w := intWide b.mod
    let x := fun l => s.opnd c b.sa w l
    let n := fun l => ((s.opnd c b.sb false l).1.setWidth 32 : Word).toNat
    let mark := fun l => (x l).2 || (s.opnd c b.sb false l).2
    s.aluReady c h b.dst w [(b.sa, wideN w, 1), (b.sb, 1, 2)] →
    s.writes c h (.shl h b) b.dst w (fun l =>
      (if n l ≥ intWidth b.mod then 0 else lowBits w ((x l).1 <<< n l), mark l)) ∧
    s.writes c h (.shr h b) b.dst w (fun l =>
      (if n l ≥ intWidth b.mod then 0 else lowBits w (x l).1 >>> n l, mark l)) ∧
    s.writes c h (.sar h b) b.dst w (fun l =>
      (extendW b.mod (valW b.mod (x l).1 / 2 ^ (if n l < intWidth b.mod then n l else intWidth b.mod)), mark l))

/-- LTAB reads each result bit from a table of eight at the bits of SA, SB and the old DST (R206); CATSH moves a joined pair
(R208); BFE and BFI extract and insert a field, BFI into the old DST (R209); BYTEP selects bytes (R210). The one mark of a 64-bit
pair is the model's choice (log 82). -/
def Claims.FieldResult : Prop :=
  ∀ (s : State) (c : Ctx) (h : Head) (b : BodyA), s.ctx? = some c →
    let w := intWide b.mod
    let d := fun l => s.opnd c b.dst w l
    let x := fun l => s.opnd c b.sa w l
    let n := fun (o : Opnd) l => s.opnd c o false l
    let word := fun (o : Opnd) l => ((n o l).1.setWidth 32 : Word)
    (s.aluReady c h b.dst w [(b.dst, wideN w, 0), (b.sa, wideN w, 1), (b.sb, wideN w, 2)] →
      s.writes c h (.ltab h b) b.dst w fun l =>
        (lowBits w (tableBits (BitVec.ofNat 8 b.sc.immNat) (x l).1 (s.opnd c b.sb w l).1 (d l).1),
          (d l).2 || (x l).2 || (s.opnd c b.sb w l).2)) ∧
    (s.aluReady c h b.dst w [(b.dst, wideN w, 0), (b.sa, wideN w, 1), (b.sb, 1, 2), (b.sc, 1, 3)] →
      s.writes c h (.bfi h b) b.dst w fun l =>
        (lowBits w (insertField (d l).1 (x l).1 (low8 (n b.sb l).1) (low8 (n b.sc l).1)),
          (d l).2 || (x l).2 || (n b.sb l).2 || (n b.sc l).2)) ∧
    (s.aluReady c h b.dst w [(b.sa, wideN w, 1), (b.sb, 1, 2), (b.sc, 1, 3)] →
      s.writes c h (.bfe h b) b.dst w fun l =>
        (extendW b.mod (extractField (intSigned b.mod) (intWidth b.mod) (x l).1 (low8 (n b.sb l).1) (low8 (n b.sc l).1)),
          (x l).2 || (n b.sb l).2 || (n b.sc l).2)) ∧
    (s.aluReady c h b.dst false [(b.sa, 1, 1), (b.sb, 1, 2), (b.sc, 1, 3)] →
      s.writes c h (.catsh h b) b.dst false (fun l =>
        ((catShift b.mod (word b.sa l) (word b.sb l) (word b.sc l).toNat).setWidth 64,
          (n b.sa l).2 || (n b.sb l).2 || (n b.sc l).2)) ∧
      s.writes c h (.bytep h b) b.dst false (fun l =>
        ((bytePermute (word b.sa l) (word b.sb l) (word b.sc l)).setWidth 64,
          (n b.sa l).2 || (n b.sb l).2 || (n b.sc l).2)))

/-- ISET writes all ones or zero, or a predicate (R211); SEL chooses by a predicate or a register (R212); MOVI writes its
immediate, sign-extended into a pair (R213); RDS reads the state of the warp and its workgroup that its selector names, with MOD 3 for
selector 0 and 1 for the others (R214; what a supervisor warp reads of a workgroup is free: log 2). SEL marks its result also for a mark
of the element that it does not choose (the model's choice: log 82). -/
def Obligations.CompareAndConstantResult : Prop :=
  ∀ (s : State) (c : Ctx) (h : Head), s.ctx? = some c →
    (∀ b : BodyA,
      let w := intWide b.mod
      let x := fun l => s.opnd c b.sa w l
      let y := fun l => s.opnd c b.sb w l
      let p := fun l => s.opnd c b.sc false l
      (s.aluReady c h b.dst false [(b.sa, wideN w, 1), (b.sb, wideN w, 2)] →
        s.writes c h (.iset h b) b.dst false fun l =>
          (truth (compareInt b.sc.immNat (valW b.mod (x l).1) (valW b.mod (y l).1)), (x l).2 || (y l).2)) ∧
      (s.aluReady c h b.dst w [(b.sa, wideN w, 1), (b.sb, wideN w, 2)] →
        s.writes c h (.sel h b) b.dst w fun l =>
          (lowBits w (if (p l).1 = 0 then (y l).1 else (x l).1), (x l).2 || (y l).2 || (p l).2)) ∧
      (s.aluReady c h b.dst (b.mod == 3) [] →
        s.writes c h (.rds h b) b.dst (b.mod == 3) (fun _ => (s.rds c b.sb.immNat, false)) ∧
        ∀ inst j g, c.ref = .user inst j → s.wg? inst = some g →
          let x := s.warp c.ref
          let bits := fun (f : Nat → Bool) (n : Nat) => ((List.range n).map fun i => if f i then 2 ^ i else 0).sum
          s.writes c h (.rds h b) b.dst (b.mod == 3) fun _ =>
            (match b.sb.immNat with
              | 0 => BitVec.ofNat 64 g.cycles
              | 1 => BitVec.ofNat 64 (bits (fun i => !(x.errq.get [] i).isEmpty) 12 * 2 ^ 16 + bits (fun i => x.cf.get 0 i != 0) 12)
              | 2 => BitVec.ofNat 64 (16 * (x.launchPrio % 8) + x.prio % 8)
              | 3 => BitVec.ofNat 64 (g.pool.countP fun r => (s.getRow (rowHome g.core r)).ref == 0)
              | 4 => BitVec.ofNat 64 g.pool.length
              | 5 => c.group.setWidth 64
              | 6 => BitVec.ofNat 64 (bits (fun l => (x.thread l).exited) 32)
              | _ => BitVec.ofNat 64 (s.cluster (clusterOf c.core)).freq, false))) ∧
    (∀ b : BodyI, s.aluReady c h b.dst b.wide [] →
      s.writes c h (.movi h b) b.dst b.wide fun _ => (b.imm.signExtend 64, false))

/-! ### Lane operations (R215 to R220) -/

/-- PAGR, PMSK, LEQM and LRED over the active lanes (R217 to R219): agreement of a predicate, its mask, the lanes with an
equal value, and the combination of values in lane order, inclusive up to the lane in the scan form. A poisoned guard marks the element
of its own lane alone (the model's choice: log 82). -/
def Claims.LaneVoteResult : Prop :=
  ∀ (s : State) (c : Ctx) (h : Head) (b : BodyA), s.ctx? = some c →
    let act := c.active s h
    let lanes := Lanes.list act
    let holds := fun l => (s.opnd c b.sa false l).1 != 0
    let marked := fun l => (s.opnd c b.sa false l).2
    let w := intWide b.mod
    let upTo := fun l => if b.sb.immNat == 1 then lanes.filter (· ≤ l) else lanes
    (s.aluReady c h b.dst false [] →
      s.writes c h (.pagr h b) b.dst false (fun _ =>
        (truth (match b.mod.toNat with
          | 0 => lanes.all holds
          | 1 => lanes.any holds
          | _ => lanes.all holds || lanes.all fun l => !holds l), lanes.any marked)) ∧
      s.writes c h (.pmsk h b) b.dst false (fun _ =>
        ((Lanes.mask fun l => act.has l && holds l).setWidth 64, lanes.any marked))) ∧
    (s.aluReady c h b.dst false [(b.sa, wideN w, 1)] →
      s.writes c h (.leqm h b) b.dst false fun l =>
        ((Lanes.mask fun k => act.has k && (s.opnd c b.sa w k).1 == (s.opnd c b.sa w l).1).setWidth 64,
          lanes.any fun k => (s.opnd c b.sa w k).2)) ∧
    (s.aluReady c h b.dst false [(b.sa, 1, 1)] →
      s.writes c h (.lred h b) b.dst false fun l =>
        ((reduceList b.mod.toNat ((upTo l).map fun k => (s.opnd c b.sa false k).1.setWidth 32)).setWidth 64,
          (upTo l).any marked))

/-- LXCH gives each active lane the element of the lane that its mode names (R216), whatever group or state that lane is
in; RFAL gives a uniform register the value and the mark of the lowest-numbered active lane (R220), and none keeps it. Of the guard only
that lane's mark counts (the model's choice: log 82). -/
def Claims.LaneExchangeResult : Prop :=
  ∀ (s : State) (c : Ctx) (h : Head) (b : BodyA), s.ctx? = some c →
    let act := c.active s h
    (∀ d, b.dst = .v d →
      let src := fun l => exchangeLane b.mod.toNat ((s.opnd c b.sb false l).1.setWidth 32) l
      s.namesFree c act false (namesOf b.sb 1 2) →
      s.namesFree c Mask.all false (namesOf b.sa 1 1) →
      s.namesFree c act true (namesOf b.dst 1 0) →
      s.writes c h (.lxch h b) b.dst false fun l =>
        ((s.opnd c b.sa false (src l)).1, (s.opnd c b.sa false (src l)).2 || (s.opnd c b.sb false l).2)) ∧
    (∀ d, b.dst = .u d →
      let w := intWide b.mod
      s.namesFree c act false (namesOf b.sa (wideN w) 1) →
      ∃ t, exec (.rfal h b) s = .next t ∧ s.frame t c b.dst w ∧ s.quiet t c ∧
        match Lanes.low act with
        | none => ∀ j, (t.warp c.ref).kGet j = (s.warp c.ref).kGet j
        | some l => (t.warp c.ref).kGet d.toNat = (s.opnd c b.sa w l).1.setWidth 32 ∧
            (w = true → (t.warp c.ref).kGet (d.toNat + 1) = (s.opnd c b.sa w l).1.extractLsb' 32 32) ∧
            (t.warp c.ref).kMarked d.toNat = ((s.opnd c b.sa w l).2 || (c.guardMarks s h).has l))

/-! ### Floating point (R222 to R231) -/

/-- FP32 addition, multiplication and fused multiply-add with one rounding in the direction of MOD (R222, R223), and minimum
and maximum (R224). -/
def Claims.FloatArithmeticResult : Prop :=
  ∀ (s : State) (c : Ctx) (h : Head) (b : BodyA), s.ctx? = some c →
    let x := fun l => s.fp c b.sa l
    let y := fun l => s.fp c b.sb l
    let z := fun l => s.fp c b.sc l
    let round := fun n : Machine.Num => (round32 (.ofMod b.mod.toNat) n).setWidth 64
    (s.aluReady c h b.dst false [(b.sa, 1, 1), (b.sb, 1, 2)] →
      s.writes c h (.fadd h b) b.dst false (fun l => (round (addDir b.mod (x l).1 (y l).1), (x l).2 || (y l).2)) ∧
      s.writes c h (.fmul h b) b.dst false (fun l => (round ((x l).1.mul (y l).1), (x l).2 || (y l).2)) ∧
      s.writes c h (.fmin h b) b.dst false (fun l =>
        ((round32 .rne (minMax false (b.mod == 1) (x l).1 (y l).1)).setWidth 64, (x l).2 || (y l).2)) ∧
      s.writes c h (.fmax h b) b.dst false (fun l =>
        ((round32 .rne (minMax true (b.mod == 1) (x l).1 (y l).1)).setWidth 64, (x l).2 || (y l).2))) ∧
    (s.aluReady c h b.dst false [(b.sa, 1, 1), (b.sb, 1, 2), (b.sc, 1, 3)] →
      s.writes c h (.ffma h b) b.dst false fun l =>
        (round (addDir b.mod ((x l).1.mul (y l).1) (z l).1), (x l).2 || (y l).2 || (z l).2))

/-- FP64 arithmetic (R229) in pairs. -/
def Claims.DoubleArithmeticResult : Prop :=
  ∀ (s : State) (c : Ctx) (h : Head) (b : BodyA), s.ctx? = some c →
    let x := fun l => s.fpd c b.sa l
    let y := fun l => s.fpd c b.sb l
    let z := fun l => s.fpd c b.sc l
    let round := fun n : Machine.Num => round64 (.ofMod b.mod.toNat) n
    (s.aluReady c h b.dst true [(b.sa, 2, 1), (b.sb, 2, 2)] →
      s.writes c h (.dadd h b) b.dst true (fun l => (round (addDir b.mod (x l).1 (y l).1), (x l).2 || (y l).2)) ∧
      s.writes c h (.dmul h b) b.dst true (fun l => (round ((x l).1.mul (y l).1), (x l).2 || (y l).2))) ∧
    (s.aluReady c h b.dst true [(b.sa, 2, 1), (b.sb, 2, 2), (b.sc, 2, 3)] →
      s.writes c h (.dfma h b) b.dst true fun l =>
        (round (addDir b.mod ((x l).1.mul (y l).1) (z l).1), (x l).2 || (y l).2 || (z l).2))

/-- Comparison, rounding to an integral value and classification (R225 to R227). -/
def Claims.FloatCompareResult : Prop :=
  ∀ (s : State) (c : Ctx) (h : Head) (b : BodyA), s.ctx? = some c →
    (s.aluReady c h b.dst false [(b.sa, 1, 1), (b.sb, 1, 2)] →
      s.writes c h (.fset h b) b.dst false fun l =>
        (truth (compareNum b.sc.immNat (s.fp c b.sa l).1 (s.fp c b.sb l).1), (s.fp c b.sa l).2 || (s.fp c b.sb l).2)) ∧
    (s.aluReady c h b.dst false [(b.sa, 2, 1), (b.sb, 2, 2)] →
      s.writes c h (.dset h b) b.dst false fun l =>
        (truth (compareNum b.sc.immNat (s.fpd c b.sa l).1 (s.fpd c b.sb l).1), (s.fpd c b.sa l).2 || (s.fpd c b.sb l).2)) ∧
    (s.aluReady c h b.dst false [(b.sa, 1, 1)] →
      s.writes c h (.frnd h b) b.dst false fun l =>
        ((round32 .rne (integral (.ofMod b.mod.toNat) (s.fp c b.sa l).1)).setWidth 64, (s.fp c b.sa l).2)) ∧
    (s.aluReady c h b.dst false [(b.sa, wideN (b.mod == 1), 1)] →
      let f := match b.mod.toNat with | 0 => fp32 | 1 => fp64 | 2 => fp16 | _ => bf16
      let x : Nat → Nat × Bool := fun l => match b.sa with
        | .imm i => (f.round .rne false (.ofInt i.toInt), false)
        | _ => ((s.opnd c b.sa (b.mod == 1) l).1.toNat % 2 ^ f.width, (s.opnd c b.sa (b.mod == 1) l).2)
      s.writes c h (.fclass h b) b.dst false fun l => (BitVec.ofNat 64 (2 ^ classOf f (x l).1), (x l).2))

/-- The packed 16-bit instructions work on the two halves of a lane element apart (R228). -/
def Claims.PackedResult : Prop :=
  ∀ (s : State) (c : Ctx) (h : Head) (b : BodyA), s.ctx? = some c →
    let half := fun (f : FloatFmt) (three : Bool) (g : Machine.Num → Machine.Num → Machine.Num → Machine.Num) (l i : Nat) =>
      (f.round (.ofMod b.mod.toNat) false
          (g (s.fph f c b.sa l i).1 (s.fph f c b.sb l i).1 (if three then (s.fph f c b.sc l i).1 else .zero)),
        (s.fph f c b.sa l i).2 || (s.fph f c b.sb l i).2 || (if three then (s.fph f c b.sc l i).2 else false))
    let both := fun (f : FloatFmt) (three : Bool) (g : Machine.Num → Machine.Num → Machine.Num → Machine.Num) (l : Nat) =>
      ((BitVec.ofNat 64 ((half f three g l 1).1 * 65536 + (half f three g l 0).1), (half f three g l 0).2 || (half f three g l 1).2) :
        DWord × Bool)
    (s.aluReady c h b.dst false [(b.sa, 1, 1), (b.sb, 1, 2)] →
      s.writes c h (.phadd h b) b.dst false (both fp16 false fun x y _ => addDir b.mod x y) ∧
      s.writes c h (.phmul h b) b.dst false (both fp16 false fun x y _ => x.mul y)) ∧
    (s.aluReady c h b.dst false [(b.sa, 1, 1), (b.sb, 1, 2), (b.sc, 1, 3)] →
      s.writes c h (.phfma h b) b.dst false (both fp16 true fun x y z => addDir b.mod (x.mul y) z) ∧
      s.writes c h (.pbfma h b) b.dst false (both bf16 true fun x y z => addDir b.mod (x.mul y) z))

/-- The special functions write their correctly rounded value (R230, R231) and go into flight for the cycles of R442, with the result
held at issue already (the model's choice: log 5). -/
def Claims.SpecialFunctionResult : Prop :=
  ∀ p ∈ [(Instr.frcp, recip, 18), (.frsq, rsqrt, 18), (.fsqrt, sqrt, 20), (.fex2, exp2, 14), (.flg2, log2, 14),
      (.fsin, sinPi, 18), (.fcos, cosPi, 18), (.ftanh, tanh, 18)],
  ∀ (s : State) (c : Ctx) (h : Head) (b : BodyA), s.ctx? = some c →
    s.aluReady c h b.dst false [(b.sa, 1, 1)] →
    ∃ t, exec (p.1 h b) s = .next t ∧
      s.result t c h b.dst false (fun l => ((round32 .rne (p.2.1 (s.fp c b.sa l).1)).setWidth 64, (s.fp c b.sa l).2)) ∧
      s.frame t c b.dst false ∧ s.flew t c h (b.dst.destRegs 1) (some ((s.core c.core).cycle + p.2.2))

/-! ### Conversions (R232 to R238) -/

/-- CVT and CVTW convert between the types of their fields with one rounding (R232 to R234); CVTS and BSCALE work in the
format of a slot that fits them (R235, R237). -/
def Claims.ConversionResult : Prop :=
  ∀ (s : State) (c : Ctx) (h : Head) (b : BodyA), s.ctx? = some c →
    let t := b.sb.immNat / 16
    let u := b.sb.immNat % 16
    let f := s.slotOf c (fsNo b.sb)
    let g := s.slotOf c (fsNo b.sc)
    (s.aluReady c h b.dst (cvtWide t) [(b.sa, wideN (cvtWide u), 1)] →
      let x : Nat → Machine.Num × Bool := fun l => match b.sa, cvtFloat u with
        | .imm i, some _ => (.ofInt i.toInt, false)
        | _, _ => (cvtSource u (s.opnd c b.sa (cvtWide u) l).1, (s.opnd c b.sa (cvtWide u) l).2)
      s.writes c h (.cvt h b) b.dst (cvtWide t) fun l => (cvtResult t (.ofMod b.mod.toNat) (x l).1, (x l).2)) ∧
    (s.aluReady c h b.dst false [(b.sa, 1, 1), (b.sb, 1, 2)] →
      let k := if b.mod.getLsbD 2 then bf16 else fp16
      let r := Rnd.ofMod (b.mod.toNat % 4)
      s.writes c h (.cvtw h b) b.dst false fun l =>
        (BitVec.ofNat 64 (k.round r false (s.fp c b.sb l).1 * 65536 + k.round r false (s.fp c b.sa l).1),
          (s.fp c b.sa l).2 || (s.fp c b.sb l).2)) ∧
    (f.format.isSome → f.elem ≠ 3 → s.aluReady c h b.dst false [(b.sa, 1, 1)] →
      s.writes c h (.cvts h b) b.dst false fun l =>
        if b.mod = 0 then
          (BitVec.ofNat 64 (f.convert (slotHash (laneDiscard f (c.active s h) (fun k => (s.fp c b.sa k).1) 0) l)
            (s.fp c b.sa l).1),
            (s.fp c b.sa l).2 || slotHashMark f (laneMarked (c.active s h) (fun k => (s.fp c b.sa k).2) 0) l)
        else
          ((round32 .rne (f.value ((s.opnd c b.sa false l).1.toNat % 2 ^ f.bits))).setWidth 64, (s.opnd c b.sa false l).2)) ∧
    (g.scale = 1 ∨ g.scale = 2 → s.aluReady c h b.dst false [(b.sa, 1, 1), (b.sb, 1, 2)] →
      s.writes c h (.bscale h b) b.dst false fun l =>
        let sc := scaleValue g.scale ((s.opnd c b.sb false l).1.toNat % 256)
        let r := if b.mod = 0 then scaleElem (s.fp c b.sa l).1 sc else if sc.isNan then .nan else (s.fp c b.sa l).1.div 64 sc
        ((round32 .rne r).setWidth 64, (s.fp c b.sa l).2 || (s.opnd c b.sb false l).2))

/-- CVTN packs an active lane's element at its place of a row of narrow elements, and unpacks it (R236). PLSPLIT parts the
six-bit codes of the active lanes into a row of high and a row of low bits, PLJOIN joins them again (R238). -/
def Claims.PackedRowResult : Prop :=
  ∀ (s : State) (c : Ctx) (h : Head) (b : BodyA), s.ctx? = some c →
    ∀ d a e : BitVec 8, b.dst = .v d → b.sa = .v a →
    let act := c.active s h
    (let f := s.slotOf c (fsNo b.sb)
      let w := f.container
      let part := b.sc.immNat
      f.format.isSome → w < 32 → part < 32 / w →
      s.namesFree c Mask.all false (namesOf b.sa 1 1) → s.namesFree c Mask.all true (namesOf b.dst 1 0) →
      ∃ t, exec (.cvtn h b) s = .next t ∧ s.frame t c b.dst false ∧ s.quiet t c ∧
        ∀ l < 32, act.has l = true →
          if b.mod = 0 then
            (t.readPacked c d.toNat w (32 * part + l)).1 =
              f.convert (slotHash (laneDiscard f act (fun k => (s.fp c b.sa k).1) (32 * part)) (32 * part + l))
                (s.fp c b.sa l).1 % 2 ^ w
          else
            (t.laneVal c d.toNat l).1 = round32 .rne (f.value (s.readPacked c a.toNat w (32 * part + l)).1)) ∧
    (b.sb = .v e → s.nameId c d.toNat ≠ s.nameId c e.toNat →
      let q := b.sc.immNat
      q < 4 → s.namesFree c Mask.all true (namesOf b.dst 1 0 ++ namesOf b.sb 1 2) →
      s.namesFree c Mask.all false (namesOf b.sa 1 1 ++ namesOf b.sb 1 2) →
      (∃ t, exec (.plsplit h b) s = .next t ∧ s.outside t c ∧ s.rowsKept t c [d.toNat, e.toNat] ∧
          (t.warp c.ref).still = (s.warp c.ref).still ∧
        ∀ l < 32, act.has l = true → ∀ j ∈ containersOf l,
          (t.readPacked c d.toNat 4 (planeElem q j)).1 = (s.readPacked c a.toNat 8 j).1 % 64 / 4 ∧
          (t.laneVal c e.toNat (lowPlane (q / 2) (planeElem q j)).1).1.toNat / 2 ^ (lowPlane (q / 2) (planeElem q j)).2 % 4 =
            (s.readPacked c a.toNat 8 j).1 % 4)) ∧
    (b.sb = .v e →
      let q := b.sc.immNat
      q < 4 → s.namesFree c (c.active s h) true (namesOf b.dst 1 0) →
      s.namesFree c Mask.all false (namesOf b.sa 1 1 ++ namesOf b.sb 1 2) →
      ∃ t, exec (.pljoin h b) s = .next t ∧ s.frame t c b.dst false ∧ s.quiet t c ∧
        ∀ l < 32, act.has l = true → ∀ i < 4,
          (t.readPacked c d.toNat 8 (4 * l + i)).1 =
            (s.readPacked c a.toNat 4 (planeElem q (4 * l + i))).1 * 4 +
              (s.laneVal c e.toNat (lowPlane (q / 2) (planeElem q (4 * l + i))).1).1.toNat /
                2 ^ (lowPlane (q / 2) (planeElem q (4 * l + i))).2 % 4)

/-- The words that R203 and R204 write out for IMAD.s32 v4, v1, v2, v3, IDIV.s32 v5, v1, v2 la=3 and IREM.n32 v6, v1, v2 set=cf0
decode to these instructions. -/
def Claims.DivisionWords : Prop :=
  decodeTableWord 64 0x2238000800804018 = some (.imad ⟨false, 7, 0, 0⟩ ⟨.v 4, .v 1, .v 2, .v 3, 0⟩) ∧
  decodeTableWord 64 0x22b8180a00804000 = some (.idiv ⟨false, 7, 0, 3⟩ ⟨.v 5, .v 1, .v 2, .v 0, 0⟩) ∧
  decodeTableWord 64 0x2338f80c00804001 = some (.irem ⟨false, 7, 1, 15⟩ ⟨.v 6, .v 1, .v 2, .v 0, 1⟩)

/-- The words that R207 writes out for SHL.b32 v4, v4, 3, SHR.b64 v4:v5, v6:v7, k0 and SAR.s32 v9, v9, v10 decode to these
instructions. -/
def Claims.ShiftWords : Prop :=
  decodeTableWord 64 0x25b8000802406001 = some (.shl ⟨false, 7, 0, 0⟩ ⟨.v 4, .v 4, .imm 3, .v 0, 1⟩) ∧
  decodeTableWord 64 0x2638000803200003 = some (.shr ⟨false, 7, 0, 0⟩ ⟨.v 4, .v 6, .u 0, .v 0, 3⟩) ∧
  decodeTableWord 64 0x26b8001204814000 = some (.sar ⟨false, 7, 0, 0⟩ ⟨.v 9, .v 9, .v 10, .v 0, 0⟩)

/-- The words that R217 and R218 write out for PAGR.any kp0, p1, PMSK k6, p1 and LEQM.b32 v4, v2 decode to these instructions. -/
def Claims.LaneWords : Prop :=
  decodeTableWord 64 0x10b806c1ac800001 = some (.pagr ⟨false, 7, 0, 0⟩ ⟨.sp 0x60, .sp 0x59, .v 0, .v 0, 1⟩) ∧
  decodeTableWord 64 0x1138020dac800000 = some (.pmsk ⟨false, 7, 0, 0⟩ ⟨.u 6, .sp 0x59, .v 0, .v 0, 0⟩) ∧
  decodeTableWord 64 0x11b8000801000001 = some (.leqm ⟨false, 7, 0, 0⟩ ⟨.v 4, .v 2, .v 0, .v 0, 1⟩)

/-- Integer addition, subtraction, products, minima, maxima, multiply-add, division and remainder. -/
def Obligations.IntegerArithmetic : Prop :=
  Claims.IntegerBinaryResult ∧ Claims.MultiplyResult ∧ Claims.DivisionResult ∧ Claims.DivisionWords

/-- Shifts, one-source integer instructions, bit tables, fields and byte permutation. -/
def Obligations.IntegerBits : Prop := Claims.IntegerUnaryResult ∧ Claims.ShiftResult ∧ Claims.FieldResult ∧ Claims.ShiftWords

/-- Votes, reductions and exchange between the lanes of a warp. -/
def Obligations.LaneOperations : Prop := Claims.LaneVoteResult ∧ Claims.LaneExchangeResult ∧ Claims.LaneWords

/-- FP32, FP64 and packed 16-bit arithmetic with one rounding. -/
def Obligations.FloatArithmetic : Prop := Claims.FloatArithmeticResult ∧ Claims.DoubleArithmeticResult ∧ Claims.PackedResult

/-- Float comparison, rounding, classification and the special functions. -/
def Obligations.FloatFunctions : Prop := Claims.FloatCompareResult ∧ Claims.SpecialFunctionResult

/-- Conversions between types, slot formats and packed rows. -/
def Obligations.Conversions : Prop := Claims.ConversionResult ∧ Claims.PackedRowResult

/-! ### Control flow, meetings and user traps (R188 to R196) -/

/-- Where a transfer, the last instruction of its clause, leaves the threads of its group when no operand is poisoned
(R188 to R190). CALL and CALLX write the fall-through header into their link pair, CALLX after it has read its target. -/
def Obligations.TransferTargets : Prop :=
  ∀ (s : State) (c : Ctx) (h : Head), s.ctx? = some c → c.isLast = true → c.guardMarks s h = 0 →
    let act := c.active s h
    (∀ b : BodyJ,
      (∃ t, exec (.bra h b) s = .next t ∧ s.only t c ∧ s.jumped t c act.has fun _ => c.label b.tgt) ∧
      ((∀ l < 32, act.has l = true → (s.condition c b l).2 = false) →
        ∃ t, exec (.brc h b) s = .next t ∧ s.only t c ∧
          s.jumped t c (fun l => act.has l && (s.condition c b l).1) fun _ => c.label b.tgt) ∧
      (s.namesFree c act true [(254, 0), (255, 0)] →
        ∃ t, exec (.call h b) s = .next t ∧ s.result t c h (.v 254) true (fun _ => (c.fallThrough, false)) ∧
          s.frame t c (.v 254) true ∧ s.jumped t c act.has fun _ => c.label b.tgt)) ∧
    ∀ b : BodyA, (∀ l < 32, act.has l = true → (s.opnd c b.sa true l).2 = false) → s.namesFree c act false (namesOf b.sa 2 1) →
      (∃ t, exec (.brx h b) s = .next t ∧ s.only t c ∧ s.jumped t c act.has fun l => (s.opnd c b.sa true l).1) ∧
      (∃ t, exec (.ret h b) s = .next t ∧ s.only t c ∧ s.jumped t c act.has fun l => (s.opnd c b.sa true l).1) ∧
      ∀ d, b.dst = .v d → s.namesFree c act true [(d.toNat, 0), (d.toNat + 1, 0)] →
        ∃ t, exec (.callx h b) s = .next t ∧ s.result t c h (.v d) true (fun _ => (c.fallThrough, false)) ∧
          s.frame t c (.v d) true ∧ s.jumped t c act.has fun l => (s.opnd c b.sa true l).1

/-- NOP completes and has no effect; YIELD completes and takes effect at the end of its clause: the warp then does not issue in the
next cycle and counts as the one that issued in it (R160, R191). SLEEP completes: with n = 0, or where no thread executes, it has no
effect, and otherwise its executing threads sleep for n cycles at the next instruction (R192). -/
def Claims.NopYieldSleep : Prop :=
  ∀ (s : State) (c : Ctx) (h : Head), s.ctx? = some c →
    (∃ t, exec (.nop h) s = .next t ∧ s.only t c ∧ s.movedOn t c) ∧
    (∃ t, exec (.yield h) s = .next t ∧ s.only t c ∧ s.movedOn t c ∧
      (c.executes s h = true → c.group ≠ 0 →
        (c.isLast = false → (t.warp c.ref).yielding = (s.warp c.ref).yielding ||| c.group) ∧
        (c.isLast = true → (t.warp c.ref).skipCycle = some (s.cycleOf c.ref + 1) ∧
          (t.warp c.ref).recency = 2 * (s.cycleOf c.ref + 1) + 1))) ∧
    ∀ n : BitVec 20, ∃ t, exec (.sleep h n) s = .next t ∧ s.only t c ∧ s.movedOn t c ∧
      (n = 0 ∨ c.active s h = 0 → ∀ l, s.live c l → (t.lane c l).st = (s.lane c l).st) ∧
      (n ≠ 0 → ∀ l, s.live c l → (c.active s h).has l = true →
        (t.lane c l).st = .asleep (.cycle ((s.core c.core).cycle + n.toNat)))

/-- EXIT ends its executing threads, and the others go on with their registers, names and memory as they were (R191); a warp whose
threads have all ended has no name mapped and no port bound (R49, R75), and its weight is lost: LOST of the account of k63 grows by
k62, of this member or of the one that a message tells, and where k63 is not valid event 0x10b is logged (R288). -/
def Claims.ExitEndsThreads : Prop :=
  ∀ (s : State) (c : Ctx) (h : Head), s.ctx? = some c →
    ∃ t, exec (.exit h) s = .next t ∧
      (∀ l, s.live c l → (c.active s h).has l = true → (t.lane c l).st = .exited .normal) ∧
      ((∃ l < 32, (s.lane c l).exited = false ∧ (c.active s h).has l = false) →
        (∀ a, t.mem.read a = s.mem.read a) ∧ (∀ i, { t.getRow i with ref := 0 } = { s.getRow i with ref := 0 }) ∧
        (∀ n, (t.warp c.ref).nameRow n = (s.warp c.ref).nameRow n) ∧ (∀ j, (t.warp c.ref).kGet j = (s.warp c.ref).kGet j) ∧ (t.warp c.ref).p = (s.warp c.ref).p ∧
        (t.warp c.ref).a = (s.warp c.ref).a ∧
        ((c.isLast && c.endBit) = false → ∀ l, s.live c l → (c.active s h).has l = false → (t.lane c l).pc = c.nextPc)) ∧
      ((s.warp c.ref).live ≠ 0 → (∀ l < 32, (s.lane c l).exited = false → (c.active s h).has l = true) →
        (∀ n, (t.warp c.ref).nameRow n = none) ∧ (∀ n, (t.warp c.ref).q.get none n = none) ∧
        (∀ i w, c.ref = .user i w → (t.warp c.ref).kGet 62 = 0 ∧
          let k62 := (s.warp c.ref).kGet 62
          let k63 := (s.warp c.ref).kGet 63
          let ctx := s.ctxOf c.ref
          (k62 ≠ 0 → s.acctValid k63 ctx = true →
            (acctMember k63 = s.member →
              (t.account (acctIndex k63)).lost = ((s.account (acctIndex k63)).lost + k62.toNat) % 2 ^ 64) ∧
            (acctMember k63 ≠ s.member → (s.warp c.ref).deferred = [] →
              t.outbox = s.outbox ++ [⟨some s.pktHead, .account (k63.setWidth 18) .lost k62.toNat⟩])) ∧
          (k62 ≠ 0 → s.acctValid k63 ctx = false → (s.warp c.ref).deferred = [] →
            let u := s.logEvent 0x10b (s.coreOf c.ref) ctx ((k62 ++ k63 : BitVec 64).setWidth 128)
            t.evhead = u.evhead ∧ t.evlost = u.evlost ∧ ∀ a, t.mem.read a = u.mem.read a)))

/-- The meeting instructions (R193, R194): SETM pushes where no executing thread is at depth 4; POPM pops; GETM writes the five
words of a thread's state, and with .clr empties its stack; SETM restores a valid state. POPM starts no meeting, and so leaves the other
threads as they are (the model's reading: log 30). -/
def Obligations.MeetingState : Prop :=
  ∀ (s : State) (c : Ctx) (h : Head), s.ctx? = some c →
    let act := c.active s h
    let kept := fun t : State => ∀ l < 32, act.has l = false →
      (t.lane c l).m = (s.lane c l).m ∧ (t.lane c l).stack = (s.lane c l).stack
    (∀ tgt, (∀ l < 32, act.has l = true → (s.lane c l).stack.length ≠ 4) →
      ∃ t, exec (.setmPush h tgt) s = .next t ∧ s.only t c ∧ kept t ∧
        ∀ l < 32, act.has l = true →
          (t.lane c l).m = some (c.label tgt) ∧ (t.lane c l).stack = (s.lane c l).m :: (s.lane c l).stack) ∧
    (∃ t, exec (.popm h) s = .next t ∧ s.only t c ∧ kept t ∧
      ∀ l < 32, act.has l = true →
        (t.lane c l).m = (s.lane c l).stack.headD none ∧ (t.lane c l).stack = (s.lane c l).stack.tail) ∧
    (∀ (d : BitVec 8) (clr : Bool), d.toNat ≤ 246 → s.namesFree c act true (namesOf (.v d) 10 0) →
      (∀ i < 10, ∀ j < 10, i ≠ j → s.nameId c (d.toNat + i) ≠ s.nameId c (d.toNat + j)) →
      ∃ t, exec (.getm h (.v d) clr) s = .next t ∧ s.outside t c ∧
        s.rowsKept t c ((List.range 10).map (d.toNat + ·)) ∧ (t.warp c.ref).still = (s.warp c.ref).still ∧ kept t ∧
        ∀ l < 32, act.has l = true →
          (∀ i < 5, (t.laneVal c (d.toNat + 2 * i) l).1 = ((s.lane c l).meetWords i).setWidth 32 ∧
            (t.laneVal c (d.toNat + 2 * i + 1) l).1 = ((s.lane c l).meetWords i).extractLsb' 32 32) ∧
          (t.lane c l).m = (s.lane c l).m ∧ (t.lane c l).stack = if clr then [] else (s.lane c l).stack) ∧
    (∀ v : BitVec 8, v.toNat ≤ 246 → s.namesFree c act false (namesOf (.v v) 10 1) →
      let word := fun (l i : Nat) => (s.opnd c (.v (BitVec.ofNat 8 (v.toNat + 2 * i))) true l).1
      (∀ l < 32, act.has l = true → ∀ i < 5, meetValid (meetDepth (word l 0)) i (word l i) = true) →
      ∃ t, exec (.setmRestore h (.v v)) s = .next t ∧ s.only t c ∧ kept t ∧
        ∀ l < 32, act.has l = true →
          (t.lane c l).m = meetAddr (word l 0) ∧
          (t.lane c l).stack = (List.range (meetDepth (word l 0))).map fun i => meetAddr (word l (i + 1)))

/-- TRAP and BKPT take the traps 0x006 and 0x007 with their immediate as VALUE; the recorded resume point is the next
instruction (R196). When no thread executes, they have no effect. -/
def Obligations.UserTraps : Prop :=
  ∀ p ∈ [(Instr.trap, 0x006), (.bkpt, 0x007)],
  ∀ (s : State) (c : Ctx) (h : Head) (n : BitVec 20), s.ctx? = some c →
    (c.active s h = 0 → ∃ t, exec (p.1 h n) s = .next t ∧ s.only t c ∧ s.movedOn t c) ∧
    (c.active s h ≠ 0 → s.inCopy c = false →
      ∃ t, exec (p.1 h n) s = .next t ∧ s.only t c ∧ (∀ l < 32, c.group.has l = true → (t.lane c l).pc = c.pc) ∧
        t.trapped c fun r =>
          r.cause = causeWord c.ctx (s.slotOfCtx c) c.ref.index 0 p.2 ∧ r.pc = c.pc ∧ r.resume = c.nextPc ∧ r.word = c.word ∧
          r.addr = 0 ∧ r.info = BitVec.ofNat 64 (n.toNat * 2 ^ 32 + 7 * 2 ^ 8) ∧ r.lanes = (c.active s h).setWidth 64 ∧
          r.group = c.group)

/-! ### The rename map (R65 to R77) -/

/-- MAP gives an unmapped name the lowest-numbered free row (R64, R69); UNMAP takes a name away and drops its reference;
ALIAS adds a name and a reference to a row with fewer than 15; SWAPN exchanges two names. Contents of rows stay. -/
def Claims.RenameMapUpdates : Prop :=
  ∀ (s : State) (c : Ctx) (h : Head) (b : BodyA), s.ctx? = some c → c.executes s h = true →
    let d := b.dst.idx
    let v := b.sa.idx
    let w := s.warp c.ref
    let rest := fun t : State => s.outside t c ∧ ({ (t.warp c.ref).still with map := [] } = { w.still with map := [] }) ∧
      ∀ i, { t.getRow i with ref := 0 } = { s.getRow i with ref := 0 }
    let refs := fun (t : State) (r : Nat) (f : Nat → Nat) => ∀ i,
      (t.getRow i).ref = if i = s.rowId c.ref r then f (s.getRow i).ref else (s.getRow i).ref
    (∀ r, w.nameRow d = none → r ∈ s.freeRowsOf c.ref → (∀ r' ∈ s.freeRowsOf c.ref, r ≤ r') →
      ∃ t, exec (.map h b) s = .next t ∧ rest t ∧ refs t r (fun _ => 1) ∧
        ∀ n, (t.warp c.ref).nameRow n = if n = d then some r else w.nameRow n) ∧
    (∀ r, w.nameRow d = some r →
      ∃ t, exec (.unmap h b) s = .next t ∧ rest t ∧ refs t r (· - 1) ∧
        ∀ n, (t.warp c.ref).nameRow n = if n = d then none else w.nameRow n) ∧
    (∀ r, w.nameRow v = some r → w.nameRow d = none → (s.getRow (s.rowId c.ref r)).ref ≠ 15 →
      ∃ t, exec (.aliasName h b) s = .next t ∧ rest t ∧ refs t r (· + 1) ∧
        ∀ n, (t.warp c.ref).nameRow n = if n = d then some r else w.nameRow n) ∧
    (∃ t, exec (.swapn h b) s = .next t ∧ rest t ∧ (∀ i, t.getRow i = s.getRow i) ∧
      ∀ n, (t.warp c.ref).nameRow n = if n = v then w.nameRow d else if n = d then w.nameRow v else w.nameRow n)

/-- The faults of the map (R69, R83): a mapped destination, no free row, a reference count of 15, and an unmapped name. -/
def Claims.RenameMapFaults : Prop :=
  ∀ (s : State) (c : Ctx) (h : Head) (b : BodyA), s.ctx? = some c → c.executes s h = true → s.inCopy c = false →
    let d := b.dst.idx
    let v := b.sa.idx
    let w := s.warp c.ref
    (∀ r, w.nameRow d = some r → ∃ t, exec (.map h b) s = .next t ∧ s.trapsPrecisely t c h ⟨0x041, 0, d, 0, 0, none, none, none⟩) ∧
    (w.nameRow d = none → s.freeRowsOf c.ref = [] →
      ∃ t, exec (.map h b) s = .next t ∧ s.trapsPrecisely t c h ⟨0x042, BitVec.ofNat 32 (s.poolSize c.ref), d, 0, 0, none, none, none⟩) ∧
    (w.nameRow d = none → ∃ t, exec (.unmap h b) s = .next t ∧ s.trapsPrecisely t c h ⟨0x040, 0, d, 0, 0, none, none, none⟩) ∧
    (w.nameRow v = none → ∃ t, exec (.aliasName h b) s = .next t ∧ s.trapsPrecisely t c h ⟨0x040, 0, v, 1, 0, none, none, none⟩) ∧
    (∀ r, w.nameRow v = some r → w.nameRow d = none → (s.getRow (s.rowId c.ref r)).ref = 15 →
      ∃ t, exec (.aliasName h b) s = .next t ∧ s.trapsPrecisely t c h ⟨0x043, BitVec.ofNat 32 r, v, 1, 0, none, none, none⟩)

/-- MAPQ reads a map entry without trapping (R70): zero for an unmapped name, else validity, distance, sharing, references
and row. -/
def Obligations.MapQuery : Prop :=
  ∀ (s : State) (c : Ctx) (h : Head) (b : BodyA) (d : BitVec 8), s.ctx? = some c → b.dst = .u d →
    s.writes c h (.mapq h b) b.dst false fun _ =>
      ((match (s.warp c.ref).nameRow b.sa.idx with
        | none => 0
        | some r => BitVec.ofNat 32 (2 ^ 31 + (if 3072 ≤ r then 2 ^ 30 else 0) + (if s.shared c.ref r then 2 ^ 29 else 0) +
            (s.getRow (s.rowId c.ref r)).ref % 16 * 2 ^ 24 + r % 2 ^ 14) : Word).setWidth 64, false)

/-- A row goes through a hand-off slot (R69, R73): GIVE takes its name away and reserves an empty slot; the row is parked
once the GIVE's release registers; TAKE of an occupied slot gives the row a new name and empties the slot. The row keeps
its contents and its references. -/
def Obligations.HandOff : Prop :=
  (∀ (s : State) (c : Ctx) (h : Head) (b : BodyA) (i j r : Nat) (g : Wg), s.ctx? = some c → c.executes s h = true →
    c.ref = .user i j → s.wg? i = some g →
    let n := slotNo b.sb
    ((s.warp c.ref).nameRow b.sa.idx = some r → g.slots.get HandOff.zero n = HandOff.zero →
      ∃ t, exec (.give h b) s = .next t ∧ s.movedOn t c ∧ (t.warp c.ref).nameRow b.sa.idx = none ∧
        (∀ k, t.getRow k = s.getRow k) ∧ s.queued t c (fun o => o.eff = .give n r) ∧
        ∃ g', t.wg? i = some g' ∧ g'.slots.get HandOff.zero n = ⟨.reserved, [], []⟩) ∧
    (∀ clk, (s.warp c.ref).nameRow b.dst.idx = none → g.slots.get HandOff.zero n = ⟨.occupied r clk, [], []⟩ →
      ∃ t, exec (.take h b) s = .next t ∧ s.movedOn t c ∧ (t.warp c.ref).nameRow b.dst.idx = some r ∧
        (∀ k, t.getRow k = s.getRow k) ∧ ∃ g', t.wg? i = some g' ∧ g'.slots.get HandOff.zero n = ⟨.empty, [], []⟩)) ∧
  (∀ (s : State) (core op i j n r : Nat) (o : MemOp) (g : Wg), s.registers? core op = some o → o.eff = .give n r →
    o.party = .warp i j → s.wg? i = some g → s.getsRow core o.party op = false →
    ∃ t, exec (.giveRowPark core op) s = .next t ∧ t.op? core op = none ∧ (∀ k, t.getRow k = s.getRow k) ∧
      ∃ g', t.wg? i = some g' ∧ (g'.slots.get HandOff.zero n).st = .occupied r o.clk)

/-! ### Clauses and groups (R30, R53, R157, R163, R167) -/

/-- CLAUSE_BOUNDARY checks the word at a group's PC as a header and lets each thread wait for its flags, but holds those whose
meeting address it is while another thread of their meeting is on its way (R31, R157). -/
def Claims.ClauseBoundary : Prop :=
  ∀ (s s' : State) (w : WRef) (x : Warp) (lane : Nat) (hdr : DWord), s.warp? w = some x → lane < 32 →
    s.mayIssue w = true → s.zoneStalls w = false → x.inClause = 0 → x.holding = false → (x.thread lane).st = .ready →
    (x.thread lane).clause = none →
    x.deferred = [] → s.header (s.coreOf w) (s.ctxOf w) (warpClass w) (x.thread lane).pc = .ok (hdr, s') →
    let pc := (x.thread lane).pc
    ∃ t y, exec (.clauseBoundary w lane) s = .next t ∧ t.warp? w = some y ∧
      (∀ l < 32, (x.groupOf lane).has l = true → (x.thread l).m ≠ some pc → (y.thread l).st = .flagWait ∧ (y.thread l).pc = pc) ∧
      ((∃ k < 32, (x.thread k).exited = false ∧ (x.thread k).m = some pc ∧ (x.thread k).pc ≠ pc) →
        ∀ l < 32, (x.groupOf lane).has l = true → (x.thread l).m = some pc → (y.thread l).st = .held)

/-- CLAUSE_WAIT_PASS: when the flags of WAIT read zero, with no error, the group that R30 chooses enters its clause (R163). -/
def Claims.ClauseEntry : Prop :=
  ∀ (s s' : State) (w : WRef) (x : Warp) (lane : Nat) (hdr : DWord) (k : GroupKey), s.warp? w = some x → lane < 32 →
    s.mayIssue w = true → s.zoneStalls w = false → x.deferred = [] → x.inClause = 0 → x.holding = false →
    (x.thread lane).st = .flagWait → s.qretOf w = none →
    GroupKey.best (s.readyGroups w) = some k → k.mask.has lane = true →
    s.header (s.coreOf w) (s.ctxOf w) (warpClass w) (x.thread lane).pc = .ok (hdr, s') →
    x.flagsZero hdr = true → x.flagErrorAt hdr = none →
    let pc := (x.thread lane).pc
    ∃ t y, exec (.clauseWaitPass w lane) s = .next t ∧ t.warp? w = some y ∧ y.running = x.groupOf lane ∧
      ∀ l < 32, (x.groupOf lane).has l = true →
        (y.thread l).st = .ready ∧ (y.thread l).clause = some (pc, hdr) ∧ (y.thread l).pc = pc + 8

/-- Promotion after 64 cycles (R30, R53), waking of sleepers whose cycles have passed (R192), and the end of a result's latency,
at which its instruction leaves flight and its flag falls (R166, R167); its result was written at issue (the model's choice: log 5). -/
def Claims.WarpEvents : Prop :=
  ∀ (s : State) (w : WRef) (x : Warp), s.warp? w = some x →
    (∀ lane < 32, (x.thread lane).st = .flagWait → (x.thread lane).promoted = false →
      (x.thread lane).waitsFrom + 64 ≤ s.cycleOf w →
      ∃ t y, exec (.groupWaitPromote w lane) s = .next t ∧ t.warp? w = some y ∧ y.still = x.still ∧
        ∀ l < 32, y.thread l = if (x.groupOf lane).has l then { x.thread l with promoted := true } else x.thread l) ∧
    (s.isReady w = true → x.starved = false → x.readySince + 64 ≤ s.cycleOf w →
      ∃ t, exec (.warpStarvationPromote w) s = .next t ∧ t.warp? w = some { x with starved := true }) ∧
    (∀ lane < 32, ∀ n, (x.thread lane).st = .asleep (.cycle n) → n ≤ s.cycleOf w →
      ∃ t y, exec (.sleepWake w) s = .next t ∧ t.warp? w = some y ∧ (y.thread lane).st = .ready ∧
        (y.thread lane).pc = (x.thread lane).pc) ∧
    (∀ f ∈ x.inflight, ∀ n, x.inflight.find? (fun g => g.id == f.id) = some f → f.readyAt = some n → n ≤ s.cycleOf w →
      ∃ t y, exec (.resultWriteback w f.id) s = .next t ∧ t.warp? w = some y ∧
        y.inflight = x.inflight.filter (fun g => g.id != f.id) ∧ y.k = x.k ∧ y.map = x.map ∧
        (f.flag ≠ 0 → y.cf.get 0 (f.flag - 1) = x.cf.get 0 (f.flag - 1) - 1))

/-- NOP, YIELD, SLEEP and EXIT. -/
def Obligations.ThreadProgress : Prop := Claims.NopYieldSleep ∧ Claims.ExitEndsThreads

/-- MAP, UNMAP, ALIAS and SWAPN on the rename map, and their faults. -/
def Obligations.RenameMap : Prop := Claims.RenameMapUpdates ∧ Claims.RenameMapFaults

/-- Boundaries and entries of clauses, promotion, waking and latency. -/
def Obligations.ClausesAndWarps : Prop := Claims.ClauseBoundary ∧ Claims.ClauseEntry ∧ Claims.WarpEvents

/-! ### Memory instructions (R240 to R264) -/

/-- The addresses of an access (R125) pass the checks of R126 and R243 in every lane: inside BASE and LIMIT, aligned,
canonical, in a window that the instruction admits; the pieces of a lane have its size. -/
def Claims.AccessAddresses : Prop :=
  ∀ (s s1 : State) (c : Ctx) (x : Acces) (windows : Option Nat → Bool) (uniform : Bool) (lanes : List Nat)
    (rs : List (Nat × DWord × List Piece)), checkAccess s c x windows uniform lanes = .ok (rs, s1) →
    let a := (s.warp c.ref).aGet x.areg
    rs.map (fun r => (r.1, r.2.1)) = lanes.map (fun l => (l, a.addr x.mode x.off x.size l)) ∧
    a.permits x.kind = true ∧ (x.mode = 2 → a.inRing = true) ∧
    a.base.toNat ≤ (a.newPtr x.mode x.off).toNat ∧ (a.newPtr x.mode x.off).toNat ≤ a.limit.toNat ∧
    ∀ r ∈ rs, a.base.toNat ≤ r.2.1.toNat ∧ r.2.1.toNat + x.size ≤ a.limit.toNat ∧ r.2.1.toNat % x.size = 0 ∧
      canonical r.2.1 = true ∧ windows (windowOf r.2.1) = true ∧
      (4 ∣ x.size ∨ x.size ≤ 4 → (r.2.2.map (·.bytes)).sum = x.size)

/-- The first checks of a load or store (R126): the ring of mode 2 (0x087), the permission (0x085), the bounds of the first
lane that leaves them (0x084), alignment (0x086). Each is a precise trap that has no other effect. VALUE of 0x085 is the access kind as
R381 numbers it (the model's reading: log 22). -/
def Claims.AccessTraps : Prop :=
  ∀ p ∈ [(Instr.ld, AccKind.load), (.lds, .load), (.ldt, .load), (.ldc, .load), (.st, .store), (.sts, .store), (.stt, .store)],
  ∀ (s : State) (c : Ctx) (h : Head) (b : BodyM), s.ctx? = some c → s.inCopy c = false →
    (∀ e ∈ namesOf b.data b.dataRegs 4, ((s.warp c.ref).nameRow e.1).isSome = true) →
    let a := (s.warp c.ref).aGet b.areg.toNat
    let x := bodyAccess b p.2
    let uniform := b.data.uniformData
    let lanes := accessLanes s c h uniform
    let addr := fun l => a.addr x.mode x.off x.size l
    let name := fun l => if uniform then none else some l
    let traps := fun d => ∃ t, exec (p.1 h b) s = .next t ∧ s.trapsPrecisely t c h d
    (x.mode = 2 → a.inRing = false → traps ⟨0x087, 0, b.areg.toNat, 7, 0, none, none, none⟩) ∧
    ((x.mode = 2 → a.inRing = true) →
      (a.permits p.2 = false → traps ⟨0x085, BitVec.ofNat 32 p.2.num, b.areg.toNat, 7, 0, none, none, none⟩) ∧
      (a.permits p.2 = true →
        (∀ l ∈ lanes, a.covers (addr l).toNat x.size = false → (∀ k ∈ lanes, k < l → a.covers (addr k).toNat x.size = true) →
          traps ⟨0x084, 0, b.areg.toNat, 7, addr l, name l, none, none⟩) ∧
        ((∀ l ∈ lanes, a.covers (addr l).toNat x.size = true) → a.base.toNat ≤ (a.newPtr x.mode x.off).toNat →
          (a.newPtr x.mode x.off).toNat ≤ a.limit.toNat →
          ∀ l ∈ lanes, (addr l).toNat % x.size ≠ 0 → (∀ k ∈ lanes, k < l → (addr k).toNat % x.size = 0) →
            traps ⟨0x086, BitVec.ofNat 32 x.size, b.areg.toNat, 7, addr l, name l, none, none⟩)))

/-- LD, LDS, LDT and LDC (R240 to R247) issue: for the executing lanes whose checks pass, an operation that will read the pieces
of each lane enters the list, the flag rises, and PTR moves (R125). -/
def Claims.LoadIssue : Prop :=
  ∀ p ∈ [(Instr.ld, fun w : Option Nat => w != some 4), (.lds, (· == some 0)), (.ldt, (· == some 1)), (.ldc, (· == some 4))],
  ∀ (s s1 : State) (c : Ctx) (h : Head) (b : BodyM) (rs : List (Nat × DWord × List Piece)), s.ctx? = some c →
    let uniform := b.data.uniformData
    let x := bodyAccess b .load
    s.clean c h b → s.namesFree c (if uniform then 0 else c.active s h) true (namesOf b.data b.dataRegs 4) →
    checkAccess s c x p.2 uniform (accessLanes s c h uniform) = .ok (rs, s1) →
    s.issues c h (p.1 h b) x (.load b.data (Machine.sizeOf b.sz) (b.mod.getLsbD 0) b.scope.toNat) (accesses rs fun _ => [])
      (dataDests b.data b.dataRegs)

/-- ST, STS and STT (R240 to R246) issue: the data of each executing lane leave with its operation through the release buffer
(R146). -/
def Claims.StoreIssue : Prop :=
  ∀ p ∈ [(Instr.st, fun w : Option Nat => w != some 2 && w != some 3 && w != some 4), (.sts, (· == some 0)), (.stt, (· == some 1))],
  ∀ (s s1 : State) (c : Ctx) (h : Head) (b : BodyM) (rs : List (Nat × DWord × List Piece)), s.ctx? = some c →
    let uniform := b.data.uniformData
    let x := bodyAccess b .store
    let data := fun l => s.dataBytes c b.data b.dataRegs (Machine.sizeOf b.sz) l
    s.clean c h b → s.namesFree c (if uniform then 0 else c.active s h) false (namesOf b.data b.dataRegs 4) →
    (∀ l ∈ accessLanes s c h uniform, (data l).2 = false) →
    checkAccess s c x p.2 uniform (accessLanes s c h uniform) = .ok (rs, s1) →
    s.issues c h (p.1 h b) x (.store b.scope.toNat) (accesses rs fun l => (data l).1) []

/-- ATOM, ATOMS, RED, CAS and REDV (R259 to R263) issue with the operand of each executing lane; CAS carries the value that it
compares and the new one, REDV parts a lane of sixteen bytes into four elements. -/
def Obligations.AtomicIssue : Prop :=
  ∀ (s s1 : State) (c : Ctx) (h : Head) (b : BodyM) (rs : List (Nat × DWord × List Piece)), s.ctx? = some c →
    let uniform := b.data.uniformData
    let act := if uniform then 0 else c.active s h
    let x := bodyAccess b .atomic
    let data := fun regs l => s.dataBytes c b.data regs (4 * regs) l
    let ready := fun (regs wr : Nat) (windows : Option Nat → Bool) =>
      s.clean c h b ∧ s.namesFree c act false (namesOf b.data regs 4) ∧ s.namesFree c act true (namesOf b.data wr 4) ∧
      (∀ l ∈ accessLanes s c h uniform, (data regs l).2 = false) ∧
      checkAccess s c x windows uniform (accessLanes s c h uniform) = .ok (rs, s1)
    let n := b.dataRegs
    let m := b.casRegs
    let lanes := fun regs => accesses rs fun l => (data regs l).1
    (ready n n (·.isNone) →
      s.issues c h (.atom h b) x (.atomic b.aop (b.sz == 3) (some b.data) b.scope.toNat) (lanes n) (dataDests b.data n)) ∧
    (ready n n (fun w => w == some 0 || w == some 1) →
      s.issues c h (.atoms h b) x (.atomic b.aop (b.sz == 3) (some b.data) b.scope.toNat) (lanes n) (dataDests b.data n)) ∧
    (ready n 0 (·.isNone) → s.issues c h (.red h b) x (.atomic b.aop (b.sz == 3) none 0) (lanes n) []) ∧
    (ready m (m / 2) (·.isNone) →
      s.issues c h (.cas h b) x (.cas (b.sz == 3) b.data b.scope.toNat) (lanes m) (dataDests b.data (m / 2))) ∧
    (ready n 0 (·.isNone) →
      s.issues c h (.redv h b) x (.redv b.aop (if Machine.sizeOf b.sz = 8 then 8 else 4)) (splitElements (Machine.sizeOf b.sz) (lanes n)) [])

/-- A spill takes all 32 lane elements of its row with their poison to the slot of its private offset, a fill brings them back
(R256); where no thread executes they write PTR alone (R125; that the checks of BASE and LIMIT are made then is log 52). PRF completes
and changes nothing that an access sees (R258); a poisoned address register ends its threads (R245). -/
def Claims.SpillFillIssue : Prop :=
  ∀ (s : State) (c : Ctx) (h : Head) (b : BodyM), s.ctx? = some c →
    let free := c.executes s h = true → s.fencePending c.core c.party s.nextId = false
    (free → s.clean c h b → ∃ t u, exec (.prf h b) s = .next t ∧ { t with lines := u.lines, l1 := u.l1, arrays := u.arrays } = u ∧
      s.entered u c ∧ s.aregsKept u c ∧ s.quiet u c ∧ s.movedOn u c ∧ (u.core c.core).ops = (s.core c.core).ops) ∧
    (free → ((s.warp c.ref).aGet b.areg.toNat).mark = true → ∃ t, exec (.prf h b) s = .next t ∧
      ∀ l, s.live c l → (c.active s h).has l = true → (t.lane c l).st = .exited .poison) ∧
    let x := fun kind => (⟨kind, b.areg.toNat, b.mode.toNat, scaledOff b 4, 4⟩ : Acces)
    let idle := fun (kind : AccKind) (i : Instr) => checkAReg ((s.warp c.ref).aGet b.areg.toNat) (x kind) (fun _ => none) [] = .ok () →
      ∃ t, exec i s = .next t ∧ s.entered t c ∧ s.stepped_ t c (x kind) ∧ s.quiet t c ∧ s.movedOn t c ∧
        (t.core c.core).ops = (s.core c.core).ops
    ((∀ e ∈ namesOf b.data 1 4, ((s.warp c.ref).nameRow e.1).isSome = true) → c.executes s h = false →
      idle .store (.stSpill h b) ∧ (c.guardMarks s h = 0 → idle .load (.ldFill h b))) ∧
    ∀ (s1 : State) (p : DWord) (pc : Piece) (n : BitVec 8), c.executes s h = true → b.data = .v n →
      let issued := fun (kind : AccKind) (i : Instr) (eff : Eff) (data : List Byte) (dests : List Reg) =>
        ∃ t, exec i s = .next t ∧ s.entered t c ∧ s.stepped_ t c (x kind) ∧ s.movedOn t c ∧ s.flew t c h dests none ∧
          s.queued t c fun o => o.eff = eff ∧ o.lanes = [⟨0, p, [pc], data, false⟩] ∧ o.flag = h.flag.toNat
      (s.namesFree c Mask.all false [(n.toNat, 4)] → checkSlot s c (x .store) = .ok (p, pc, s1) →
        ∀ i, s.nameId c n.toNat = some i →
        issued .store (.stSpill h b) .spill (rowBytes ((s.getRow i).seenBy c.ctx)) []) ∧
      (s.namesFree c Mask.all true [(n.toNat, 4)] → checkSlot s c (x .load) = .ok (p, pc, s1) →
        issued .load (.ldFill h b) (.fill b.data) (fillMarks (c.guardMarks s h)) (dataDests b.data 1))

/-- AINIT, ASET, AADV and AGET on an address register (R252 to R255): each completes; where no thread executes it keeps the register
(R59), and a poisoned guard marks it (R353). Any program may set any field to any value (R251): no privilege or range is checked;
that ASET of one field keeps the mark of the register is log 82. An instruction that a fence holds runs later (log 4). AADV that
leaves BASE to LIMIT raises 0x084, and in mode 2 with no ring 0x087. -/
def Obligations.AddressRegisterResult : Prop :=
  ∀ (s : State) (c : Ctx) (h : Head) (b : BodyA), s.ctx? = some c →
    (c.executes s h = true → s.fencePending c.core c.party s.nextId = false) →
    let w := s.warp c.ref
    let d := aregNo b.dst
    let old := w.aGet d
    let sets := fun (i : Instr) (f : AReg) =>
      ∃ t, exec i s = .next t ∧ s.outside t c ∧ s.rowsKept t c [] ∧ s.movedOn t c ∧
        { (t.warp c.ref).still with a := [] } = { w.still with a := [] } ∧
        ∀ n, (t.warp c.ref).aGet n = if n = d then
          (let f := if c.executes s h then f else old; { f with mark := f.mark || c.guardMarks s h != 0 }) else w.aGet n
    let traps := fun (x : Detail) => ∃ t, exec (.aadv h b) s = .next t ∧ s.trapsPrecisely t c h x
    let len := match b.sb with | .imm x => x.toNat | o => (s.uni64 c o).toNat
    let base := s.uni64 c b.sa
    let x := b.sc.immNat
    let delta := if b.mod.getLsbD 1 then s.uni64 c b.sa else (s.uni c b.sa).signExtend 64
    let mark := old.mark || s.uniMark c b.sa (b.mod.getLsbD 1)
    let dest := (old.ptr.toNat : Int) + delta.toInt
    (c.executes s h = false → ∀ i ∈ [Instr.ainit h b, .aset h b, .aadv h b], sets i old) ∧
    (c.executes s h = true → s.inCopy c = false →
      (b.mod.getLsbD 0 = true → old.inRing = false → traps ⟨0x087, 0, d, 0, 0, none, none, none⟩) ∧
      (b.mod.getLsbD 0 = false → dest < old.base.toNat ∨ old.limit.toNat < dest →
        traps ⟨0x084, 0, d, 0, BitVec.ofInt 64 dest, none, none, none⟩)) ∧
    sets (.ainit h b)
      { ptr := base, base := base, limit := BitVec.ofNat 64 (min (base.toNat + len) (2 ^ 64 - 1)), modlen := 0, step := 0,
        r := x.testBit 0, w := x.testBit 1, a := x.testBit 2, e := x.testBit 3,
        mark := s.uniMark c b.sa true || s.uniMark c b.sb true } ∧
    (b.sb.immNat ≤ 2 → sets (.aset h b)
      { old with
        ptr := if b.sb.immNat = 0 then base else old.ptr, base := if b.sb.immNat = 1 then base else old.base,
        limit := if b.sb.immNat = 2 then base else old.limit, mark := old.mark || s.uniMark c b.sa true }) ∧
    (∀ k, b.sa = .u k →
      let v := w.kGet k.toNat
      let m := old.mark || w.kMarked k.toNat
      (b.sb.immNat = 3 → sets (.aset h b) { old with modlen := v, mark := m }) ∧
      (b.sb.immNat = 4 → sets (.aset h b) { old with step := v.setWidth 16, mark := m }) ∧
      (b.sb.immNat = 5 → sets (.aset h b)
        { old with r := v.getLsbD 0, w := v.getLsbD 1, a := v.getLsbD 2, e := v.getLsbD 3, mark := m })) ∧
    (∀ k, b.sa = .imm k →
      (b.sb.immNat = 3 → sets (.aset h b) { old with modlen := k.setWidth 32 }) ∧
      (b.sb.immNat = 4 → sets (.aset h b) { old with step := k.signExtend 16 }) ∧
      (b.sb.immNat = 5 → sets (.aset h b) { old with r := k.getLsbD 0, w := k.getLsbD 1, a := k.getLsbD 2, e := k.getLsbD 3 })) ∧
    (6 ≤ b.sb.immNat → sets (.aset h b) (w.aGet (aregNo b.sa))) ∧
    (b.mod.getLsbD 0 = false → (old.base.toNat : Int) ≤ dest → dest ≤ old.limit.toNat →
      sets (.aadv h b) { old with ptr := old.ptr + delta, mark := mark }) ∧
    (b.mod.getLsbD 0 = true → old.inRing = true → sets (.aadv h b) { old with ptr := old.ring delta, mark := mark }) ∧
    (∀ k, b.dst = .u k →
      let a := w.aGet (aregNo b.sa)
      let sel := b.sb.immNat
      s.writes c h (.aget h b) b.dst (sel ≤ 2) fun _ =>
        (match sel with
          | 0 => a.ptr
          | 1 => a.base
          | 2 => a.limit
          | 3 => a.modlen.setWidth 64
          | 4 => a.step.signExtend 64
          | _ => BitVec.ofNat 64 (a.r.toNat + 2 * a.w.toNat + 4 * a.a.toNat + 8 * a.e.toNat), a.mark))

/-- RELEASE_BUFFER_LEAVE: the oldest effect of a quarter leaves the buffer when it is 64 cycles old (R146), with the header of its
packet where it goes to another member (R405). Behind a pending fence the instructions on address registers issue and are held
(R264; log 4). FENCE and FENCEB enter
the list as an operation of their party, and leave it once all earlier accesses and effects have been performed and, for
FENCEB, its bank operations are complete and the stacks hold its stores (R150, R264). -/
def Obligations.BufferAndFences : Prop :=
  (∀ (s : State) (core quarter : Nat) (o : MemOp), (s.core core).ops.find? (fun o => o.quarter == quarter && !o.left) = some o →
    o.born + 64 ≤ (s.core core).cycle →
    exec (.releaseBufferLeave core quarter) s =
      .next ((if s.toPeer o then { s with sendHeads := s.sendHeads ++ [(o.id, s.pktHead)] } else s).setOp core { o with left := true })) ∧
  (∀ (s : State) (c : Ctx) (h : Head) (b : BodyA), s.ctx? = some c → c.executes s h = true →
    s.fencePending c.core c.party s.nextId = true →
    let held := fun (i : Instr) => ∃ t, exec i s = .next t ∧ s.entered t c ∧ s.aregsKept t c ∧ s.movedOn t c ∧
      s.queued t c fun o => o.eff.isHeld = true ∧ o.flag = h.flag.toNat
    held (.ainit h b) ∧ held (.aset h b) ∧ ∀ k, b.dst = .u k → held (.aget h b)) ∧
  (∀ p ∈ [(Instr.fence, false), (.fenceb, true)],
    ∀ (s : State) (c : Ctx) (h : Head) (scope : BitVec 3), s.ctx? = some c →
      (c.executes s h = false → ∃ t, exec (p.1 h scope) s = .next t ∧ s.only t c ∧ s.movedOn t c) ∧
      (c.executes s h = true → ∃ t, exec (p.1 h scope) s = .next t ∧ s.entered t c ∧ s.aregsKept t c ∧ s.quiet t c ∧ s.movedOn t c ∧
        s.queued t c fun o => o.eff = .fence scope.toNat p.2 ∧ o.left = true)) ∧
  ∀ (s : State) (core op scope : Nat) (bank : Bool) (o : MemOp), s.op? core op = some o → o.eff = .fence scope bank →
    (∀ e ∈ opsBefore (s.core core).ops o,
      e.handed (s.core core).ops = true ∨ (e.unperformed = false ∧ e.eff.external = false ∧ e.eff.isFence = false ∧ e.eff.isHeld = false)) →
    (bank = true → s.bankPending o.party o.id = false ∧ s.tiledDrained = true) →
    ∃ t, exec (.fenceConditionsMet core op) s = .next t ∧ t.op? core op = none ∧ ∀ a, t.mem.read a = s.mem.read a

/-- LOAD_COMPLETE (R248): when every lane has read, the elements of the lanes that read are written with the marks of their words to
the rows selected at issue (R71, R352), or to k registers, and the operation ends; the other lanes keep theirs, and memory stays. -/
def Claims.LoadCompletes : Prop :=
  ∀ (s : State) (core op : Nat) (o : MemOp) (c : Ctx) (size : Nat) (signed : Bool), s.op? core op = some o →
    o.ctx_ core = some c → (s.warp? c.ref).isSome = true → (∀ l ∈ o.lanes, o.done.contains l.lane = true) →
    let n := (size + 3) / 4
    let word := fun (bs : List Byte) (i : Nat) => extendBytes (if size < 4 then size else 4) signed ((bs.drop (4 * i)).take 4)
    let completes := fun (f : State → Prop) => ∃ t, exec (.loadComplete core op) s = .next t ∧ t.op? core op = none ∧
      (∀ a, t.mem.read a = s.mem.read a) ∧
      (o.flag ≠ 0 → (t.warp c.ref).cf.get 0 (o.flag - 1) = (s.warp c.ref).cf.get 0 (o.flag - 1) - 1) ∧ f t
    (∀ v : BitVec 8, ((∃ scope, o.eff = .load (.v v) size signed scope) ∨ (o.eff = .fill (.v v) ∧ size = 4 ∧ signed = false)) →
      (∀ i < n, s.nameId c (v.toNat + i) = some (s.rowId c.ref (o.rows.getD i 0))) →
      (∀ i < n, ∀ j < n, i ≠ j → s.nameId c (v.toNat + i) ≠ s.nameId c (v.toNat + j)) →
      completes fun t => s.rowsKept t c ((List.range n).map (v.toNat + ·)) ∧
        ∀ i < n, ∀ l < 32, t.laneVal c (v.toNat + i) l =
          match assoc? o.got l with
          | some g => (word g.1 i, g.2.getD i false)
          | none => s.laneVal c (v.toNat + i) l) ∧
    ∀ (u : BitVec 8) (scope l : Nat) (bs : List Byte) (ms : List Bool), o.eff = .load (.u u) size signed scope →
      o.got = [(l, bs, ms)] → completes fun t => (∀ i, t.getRow i = s.getRow i) ∧
        ∀ j, ((t.warp c.ref).kGet j, (t.warp c.ref).kMarked j) =
          if u.toNat ≤ j ∧ j < u.toNat + n then (word bs (j - u.toNat), ms.getD (j - u.toNat) false)
          else ((s.warp c.ref).kGet j, (s.warp c.ref).kMarked j)

/-- STORE_PERFORMED (R145): the bytes of a lane's pieces become its data, and every other byte of memory reads as before. -/
def Claims.StorePerforms : Prop :=
  ∀ (s s' : State) (core op k : Nat) (o o' : MemOp) (l : LaneAcc), s.op? core op = some o →
    o.lanes.find? (fun l => l.lane == k) = some l → o.eff.isStore = true → s.mayPerform core o l = true →
    (∀ m ∈ o.lanes, m.lane < k → o.done.contains m.lane = false → m.meets l = false) →
    s.commitOp core o = .ok (o', s') → s.mute o = false → s.doomsNone core o → l.ghost = false →
    let cells := l.pieces.flatMap fun p =>
      match p.place with
      | .pa a => (List.range p.bytes).map fun i => cellOf p.layout (a + i)
      | _ => []
    ∃ t, exec (.storePerformed core op k) s = .next t ∧
      (∀ cell, (∀ x ∈ cells, x / 32 ≠ cell / 32) → t.mem.read cell = s.mem.read cell) ∧
      (∀ key, (∀ p ∈ l.pieces, p.key = key) →
        (∀ cell, cell ∉ cells → s.isPeer cell = false → t.readCell key cell = s.readCell key cell) ∧
        (∀ scope, o.eff = .store scope → cells.Nodup → (∀ p ∈ l.pieces, ∃ a, p.place = .pa a) →
          ∀ e ∈ cells.zip l.data, s.isPeer e.1 = false → t.readCell key e.1 = e.2)) ∧
      (∀ scope inst off n tr key lay, o.eff = .store scope → l.pieces = [⟨.scratch inst off, n, tr, key, lay⟩] →
        l.data.length = n → off % 4096 + n ≤ 4096 → (s.scratchAt inst off).isSome = true →
        ∀ i < n, (t.readAt (.scratch inst (off + i)) key lay).1 = l.data.getD i 0) ∧
      if (o'.lanes.all fun m => (o'.done ++ [k]).contains m.lane) then t.op? core op = none
      else ∃ o2, t.op? core op = some o2 ∧ o2.done = o'.done ++ [k]

/-- ATOMIC_REQUEST_APPLY and REDV_ELEMENT_APPLY (R147, R261, R263): the operands of the lanes that address one word are applied to
it in ascending order of lane, each to what the one before left, and no other byte of memory changes. -/
def Claims.AtomicApplies : Prop :=
  ∀ (s s' : State) (core op k a n key lay : Nat) (tr : Bool) (o o' : MemOp) (l : LaneAcc), s.op? core op = some o →
    o.lanes.find? (fun l => l.lane == k) = some l → s.mayPerform core o l = true →
    s.commitOp core o = .ok (o', s') → s.mute o' = false → s.doomsNone core o → l.ghost = false → n = 4 ∨ n = 8 → a % n = 0 → s.isPeer a = false →
    (∀ m ∈ o'.request l, m.pieces = [⟨.pa a, n, tr, key, lay⟩]) →
    let cell := fun i => cellOf lay (a + i)
    let operand := fun m : LaneAcc => leNat (m.data.take n)
    let old := leNat ((List.range n).map fun i => s.readCell key (cell i))
    let holds := fun (t : State) (v : Nat) =>
      (∀ i < n, t.readCell key (cell i) = BitVec.ofNat 8 (v / 2 ^ (8 * i))) ∧
      (∀ x, (∀ i < n, x ≠ cell i) → s.isPeer x = false → t.readCell key x = s.readCell key x) ∧
      ∀ x, (∀ i < n, x / 32 ≠ cell i / 32) → t.mem.read x = s.mem.read x
    ((∀ m ∈ o.lanes, m.lane < k → m.addr ≠ l.addr) →
      (∀ aop wide dst scope, o.eff = .atomic aop wide dst scope →
        ∃ t, exec (.atomicRequestApply core op k) s = .next t ∧
          holds t ((o'.request l).foldl (fun v m => applyAop aop (8 * n) v (operand m)) old)) ∧
      (∀ wide dst scope, o.eff = .cas wide dst scope →
        ∃ t, exec (.atomicRequestApply core op k) s = .next t ∧
          holds t ((o'.request l).foldl
            (fun v m => if v = operand m then leNat ((m.data.drop n).take n) else v) old))) ∧
    (∀ aop size, o.eff = .redv aop size → l ∈ o'.request l →
      ∃ t, exec (.redvElementApply core op k) s = .next t ∧ holds t (applyAop aop (8 * n) old (operand l)))

/-- A fill gives back the row that a spill left in its slot, whatever form of R132 the spill took: every lane element, and every
poison mark where the slot's words were unmarked. -/
def Claims.SpillFillRoundTrip : Prop :=
  ∀ (s : State) (r : Row) (a key lay : Nat) (tr : Bool), a % 128 = 0 → s.isPeer a = false →
    (∀ i < 128, s.cellMark (cellOf lay (a + i)) = false) →
    let p : Piece := ⟨.pa a, 128, tr, key, lay⟩
    ((s.doSpill p (rowBytes r)).doFill p).1 = (List.range 32).map fun l => (r.lane l, r.poison.has l)

/-- The addresses of an access pass the checks, and the first failing check traps. -/
def Obligations.AccessChecks : Prop := Claims.AccessAddresses ∧ Claims.AccessTraps

/-- Loads and stores issue with the pieces of their executing lanes. -/
def Obligations.LoadStoreIssue : Prop := Claims.LoadIssue ∧ Claims.StoreIssue

/-- Spills, fills and prefetches; a fill gives back what a spill left. -/
def Obligations.SpillAndFill : Prop := Claims.SpillFillIssue ∧ Claims.SpillFillRoundTrip

/-- Loads complete, stores and atomics are performed. -/
def Obligations.AccessesPerformed : Prop := Claims.LoadCompletes ∧ Claims.StorePerforms ∧ Claims.AtomicApplies

/-! ### Barriers and ACQ (R42, R267 to R272) -/

/-- BARA and TBARA join the open phase of their barrier, or the following one when the open phase no longer takes the warp
(R268, R269). The first arrival fixes EXPECT; the phase's number is written; the arrival counts once its release
registers. -/
def Claims.BarrierArrivals : Prop :=
  ∀ p ∈ [(Instr.bara, false), (.tbara, true)],
  ∀ (s : State) (c : Ctx) (h : Head) (b : BodyA) (inst w : Nat) (g : Wg), s.once c h inst w g → s.uniMark c b.sb false = false →
    let n := barNo p.2 b.sa
    let r := s.barRef inst p.2 n
    let m := s.barMember r inst w
    let k := s.bar r
    let count := countOf s c b.sb
    (p.2 = true → ∀ tm, s.team? g.team = some tm → tm.lost = []) → 0 < count → count ≤ s.barLimit r → k.arrivers = [] →
    let joins := fun (ph : Phase) (number : Nat) (after : Barrier → Phase) =>
      ph.expect = 0 ∨ ph.expect = count →
      s.completes c (p.1 h b) [b.dst.idx] [] fun t =>
        (t.warp c.ref).kGet b.dst.idx = BitVec.ofNat 32 (number % 65536) ∧
        (after (t.bar r)).joined = ph.joined ++ [m] ∧ (after (t.bar r)).expect = (if ph.expect = 0 then count else ph.expect) ∧
        (t.bar r).phase = k.phase ∧ s.queued t c fun o => o.eff = .arrive p.2 n number
    (k.cur.accepts m = true → joins k.cur k.phase (·.cur)) ∧
    (k.cur.accepts m = false → k.next.accepts m = true → joins k.next (k.phase + 1) (·.next))

/-- BARS arrives and waits for the phase that it joined; BARW and TBARW go on when the phase they name has completed, and wait else:
a number has completed when it lies 1 to 2^15 behind PHASE modulo 2^16 (R269). TBARX adds the bytes that a phase expects (R270). -/
def Claims.BarrierWaits : Prop :=
  ∀ (s : State) (c : Ctx) (h : Head) (b : BodyA) (inst w : Nat) (g : Wg), s.once c h inst w g → s.uniMark c b.sb false = false →
    (∀ tm, s.team? g.team = some tm → tm.lost = []) →
    (let n := barNo false b.sa
      let r := BarRef.nb inst n
      let k := s.bar r
      let count := countOf s c b.sb
      0 < count → count ≤ 32 → k.arrivers = [] → k.awaits (0, w) c.group = false → k.cur.accepts (0, w) = true →
      k.cur.expect = 0 ∨ k.cur.expect = count →
      s.waits c (.bars h b) fun t =>
        (t.bar r).cur.joined = k.cur.joined ++ [(0, w)] ∧ ⟨0, w, c.group, k.phase⟩ ∈ (t.bar r).waiters ∧
        s.queued t c fun o => o.eff = .arrive false n k.phase) ∧
    (∀ p ∈ [(Instr.barw, false), (.tbarw, true)],
      let r := s.barRef inst p.2 (barNo p.2 b.sa)
      let m := s.barMember r inst w
      let k := s.bar r
      -- how far the low 16 bits that are named lie behind PHASE
      let d := (k.phase + 65536 - (s.uni c b.sb).toNat % 65536) % 65536
      k.awaits m c.group = false → (p.2 = true → (s.team? g.team).isSome = true) →
      (1 ≤ d → d ≤ 32768 → s.completes c (p.1 h b) [] [] fun t => t.bar r = k) ∧
      (d = 0 ∨ 32768 < d → s.waits c (p.1 h b) fun t =>
        (t.bar r).waiters = k.waiters ++ [⟨m.1, m.2, c.group, k.phase + (65536 - d) % 65536⟩])) ∧
    (let r := s.barRef inst true (barNo true b.sa)
      let k := s.bar r
      let bytes := match b.sb with | .imm i => i.toInt | o => (s.uni c o).toInt
      0 ≤ bytes → (bytes ≠ 0 ∨ b.sb.isImm = false) → (s.team? g.team).isSome = true →
      s.completes c (.tbarx h b) [] [] fun t => t.bar r = { k with tx := (k.tx + bytes + 2 ^ 31) % 2 ^ 32 - 2 ^ 31 })

/-- BARRIER_ARRIVAL_REGISTER counts an arrival, and a phase whose conditions then hold completes (R146, R268);
BARRIER_WAITER_RELEASE lets a waiter of a completed phase go on (R268, R271). -/
def Obligations.BarrierEvents : Prop :=
  (∀ (s : State) (core op inst w n ph : Nat) (team : Bool) (o : MemOp) (g : Wg), s.registers? core op = some o →
    o.eff = .arrive team n ph → o.party = .warp inst w → s.wg? inst = some g → (team = true → (s.team? g.team).isSome = true) →
    let r := s.barRef inst team n
    let k := s.bar r
    let m := s.barMember r inst w
    let k' := if ph = k.phase then { k with cur := k.cur.register m o.clk } else { k with next := k.next.register m o.clk }
    ph = k.phase ∨ ph = k.phase + 1 →
    ∃ t, exec (.barrierArrivalRegister core op) s = .next t ∧ t.op? core op = none ∧ (∀ a, t.mem.read a = s.mem.read a) ∧
      (k'.complete (s.barLive r) team = false → t.bar r = k') ∧
      (k'.complete (s.barLive r) team = true → k.phase < (t.bar r).phase ∧
        ∀ x ∈ k.waiters, x.phase = k.phase → ∃ cyc, (x, cyc) ∈ (t.bar r).wake)) ∧
  ∀ (s : State) (inst w : Nat) (g : Wg) (r : BarRef) (x : BarWait) (c : Ctx), s.wg? inst = some g →
    s.mayIssue (wref inst w) = true →
    ((List.range 16).map (BarRef.nb inst) ++ (List.range 8).map (BarRef.tb g.team)).findSome?
      (fun r => (s.dueWaiter r (s.barMember r inst w) (s.core g.core).cycle).map fun x => (r, x)) = some (r, x) →
    s.standing (wref inst x.warp) x.group = some c →
    ∃ t, exec (.barrierWaiterRelease inst w) s = .next t ∧ s.movedOn t c ∧ ∀ a, t.mem.read a = s.mem.read a

/-- ACQ gives a team member the allotment reserved for it at once, with the lowest-numbered tiles that are free now (R57); another
workgroup waits in its core's queue with its prologue kept (R42, R43). ACQ_GRANT gives the head of the queue all that it lacks,
beside what it holds; ACQ_WAIT_RESERVE marks a core whose head has waited 100 µs (R368). Which rows, blocks and table entries a grant
takes is the model's choice (log 43: the lowest free). -/
def Obligations.AcqAllotment : Prop :=
  (∀ (s : State) (c : Ctx) (h : Head) (inst w : Nat) (g : Wg), s.once c h inst w g → c.retries s = false →
    (∀ a, g.acq = .none → g.reserve = some a → s.completes c (.acq h) [] [] fun t => ∃ g', t.wg? inst = some g' ∧
      g'.acq = .granted ∧ g'.pool = a.rows ∧ g'.near = a.near ∧ g'.far = a.far ∧
      g'.tiles = (s.unboundTiles g.core).take a.tiles.length ∧ g'.hents = a.hents) ∧
    (g.acq = .none → g.reserve = none → s.waits c (.acq h) fun t => inst ∈ (t.core g.core).acqQ ∧ ∃ g', t.wg? inst = some g' ∧
      g'.acq = .waiting ∧ g'.pool = g.pool ∧ g'.near = g.near) ∧
    (g.acq ≠ .none → s.inCopy c = false → ∃ t, exec (.acq h) s = .next t ∧ s.trapsPrecisely t c h (.code_ 0x110))) ∧
  ∀ (s : State) (n inst : Nat) (is : List Nat) (g : Wg), s.cur = .core n → (s.core n).acqQ = inst :: is → s.wg? inst = some g →
    let free := s.freeOn n (partsUnder (s.quadMode (quadOf n)) n)
    let need := g.missing (s.launchOf g.grid) free
    (free.covers need = true → ∃ t g', exec .acqGrant s = .next t ∧ t.wg? inst = some g' ∧ g'.acq = .granted ∧
      g'.pool = g.pool ++ free.rows.take need.rows ∧ g'.near = g.near ++ free.near.take need.near ∧
      g'.far = g.far ++ free.far.take need.far ∧ g'.tiles = free.tiles.take need.tiles ∧
      g'.hents = free.hents.take need.hnd ∧ (t.core n).acqQ = is) ∧
    (g.acqReserved = false → g.acqSince + 100000 ≤ s.clockNs → ∃ t g', exec .acqWaitReserve s = .next t ∧
      t.wg? inst = some g' ∧ g'.acqReserved = true ∧ (t.core n).acqReserved = true ∧ (t.core n).acqQ = inst :: is)

/-! ### Queue ports, the tape (R273 to R277, R293, R294) -/

/-- QBIND binds a port (R273), and changes no register where no group of the warp waits at a port. -/
def Claims.QueueBinding : Prop :=
  ∀ (s : State) (c : Ctx) (h : Head) (b : BodyA) (inst w : Nat) (g : Wg), s.once c h inst w g → s.uniMark c b.sa false = false →
    let n := portNo b.dst
    let kind := b.sb.immNat
    let recv := b.mod.getLsbD 0
    let arg := (s.uni c b.sa).toNat
    let allow := arg / 16 % 128
    let stage := (s.warp c.ref).stage
    let binds := fun (p : Port) (f : State → Prop) => ∃ t, exec (.qbind h b) s = .next t ∧ s.movedOn t c ∧
      (∀ v, t.mem.read v = s.mem.read v) ∧ ((∀ l < 32, ∀ id, (s.lane c l).st ≠ .blocked id) → s.regsKept t c [] []) ∧
      (∀ j, (t.warp c.ref).q.get none j = if j = n then some p else (s.warp c.ref).q.get none j) ∧ f t
    (kind = 0 → arg < 2 ^ 11 → allow ≤ 64 → binds ⟨0, recv, arg % 16⟩ fun t =>
      ∃ g', t.wg? inst = some g' ∧ (g'.queue_ (arg % 16)).entries = (g.queue_ (arg % 16)).entries ∧
        (g'.queue_ (arg % 16)).limit.get 64 stage =
          if recv = false ∧ allow ≠ 0 then allow else (g.queue_ (arg % 16)).limit.get 64 stage) ∧
    (kind ≠ 0 → kind ≤ 7 → kindRecv kind = some recv → arg = 0 → (kind = 5 → s.ownsTape c.core inst = true) →
      binds ⟨kind, recv, 0⟩ fun _ => True)

/-- QSEND and QTRY on a sending port put an entry of k registers on its way when an entry of the endpoint can be reserved
(R274, R276); QRECV, QTRY and TAPEF take the next entry of a receiving endpoint into k registers (R275, R294). Without room or
without an entry QSEND, QRECV and TAPEF wait, and QTRY answers false. -/
def Claims.QueueTransfers : Prop :=
  ∀ (s : State) (c : Ctx) (h : Head) (b : BodyA) (inst w : Nat) (g : Wg) (p : Port), s.once c h inst w g →
    let a := s.agentHere c inst
    let n := portNo b.sa
    let kpd := b.dst.idx - 0x60
    let size := entryRegs p.kind
    let sent := fun t : State => s.flew t c h [] none ∧ s.queued t c fun o =>
      o.eff = .entry p a.stage ((List.range size).map fun i => (s.warp c.ref).kGet (b.sb.idx + i)) ∧ o.left = false
    let took := fun (k : Nat) (ws : List Word) (t : State) => ∀ i < ws.length, (t.warp c.ref).kGet (k + i) = ws.getD i 0
    let regs := fun (k : Nat) (ws : List Word) => (List.range ws.length).map (k + ·)
    ((s.warp c.ref).q.get none n = some p → (∀ i < size, (s.warp c.ref).kMarked (b.sb.idx + i) = false) → p.recv = false →
      b.sb.idx % size = 0 →
      ((p.kind = 6 → h.flag ≠ 0) →
        (g.maySend a p = true → s.completes c (.qsend h b) [] [] sent) ∧
        (g.maySend a p = false → s.waits c (.qsend h b) fun t => (t.core c.core).ops = (s.core c.core).ops)) ∧
      (p.kind ≠ 6 → p.kind ≠ 5 →
        (g.maySend a p = true → s.completes c (.qtry h b) [] [kpd] fun t => sent t ∧ (t.warp c.ref).kpGet kpd = true) ∧
        (g.maySend a p = false → s.completes c (.qtry h b) [] [kpd] fun t => (t.warp c.ref).kpGet kpd = false))) ∧
    ((s.warp c.ref).q.get none n = some p → p.recv = true → (p.kind = 5 → s.ownsTape c.core inst = true) →
      (b.dst.idx % size = 0 →
        (∀ ws clk s1, s.popEntry a p = some (ws, clk, s1) →
          s.completes c (.qrecv h b) (regs b.dst.idx ws) [] (took b.dst.idx ws)) ∧
        (s.popEntry a p = none → s.waits c (.qrecv h b) fun _ => True)) ∧
      (b.sb.idx % size = 0 → p.kind ≠ 6 →
        (∀ ws clk s1, s.popEntry a p = some (ws, clk, s1) →
          s.completes c (.qtry h b) (regs b.sb.idx ws) [kpd] fun t => took b.sb.idx ws t ∧ (t.warp c.ref).kpGet kpd = true) ∧
        (s.popEntry a p = none → s.completes c (.qtry h b) [] [kpd] fun t => (t.warp c.ref).kpGet kpd = false))) ∧
    (s.ownsTape c.core inst = true →
      (∀ ws clk s1, s.popEntry a ⟨5, true, 0⟩ = some (ws, clk, s1) →
        s.completes c (.tapef h b) (regs b.dst.idx ws) [] (took b.dst.idx ws)) ∧
      (s.popEntry a ⟨5, true, 0⟩ = none → s.waits c (.tapef h b) fun _ => True))

/-- What an endpoint gives: a named queue and the completion queues give their oldest entry and lose it (R274); the tape gives
the entry at HEAD when its counter has reached its threshold, and HEAD moves on (R294). -/
def Claims.EndpointOrder : Prop :=
  ∀ (s : State) (a : Agent) (g : Wg), s.wg? a.inst = some g →
    (∀ qidx recv e es, (g.queue_ qidx).entries = e :: es → (g.queue_ qidx).receivers = [] → e.landed < (s.core a.core).cycle →
      ∃ s1 g', s.popEntry a ⟨0, recv, qidx⟩ = some (e.data, e.clk, s1) ∧ s1.wg? a.inst = some g' ∧
        (g'.queue_ qidx).entries = es ∧ (g'.queue_ qidx).out.get 0 e.stage = (g.queue_ qidx).out.get 0 e.stage - 1 ∧
        ∀ j, j ≠ qidx → g'.queue_ j = g.queue_ j) ∧
    (∀ qidx recv, (g.queue_ qidx).entries = [] → s.popEntry a ⟨0, recv, qidx⟩ = none) ∧
    (∀ e es, g.copyDone = e :: es → ∃ s1 g', s.popEntry a ⟨2, true, 0⟩ = some (e.data, e.clk, s1) ∧
      s1.wg? a.inst = some g' ∧ g'.copyDone = es ∧ g'.bankDone = g.bankDone ∧ g'.inbox = g.inbox) ∧
    (∀ e es, g.bankDone = e :: es → ∃ s1 g', s.popEntry a ⟨4, true, 0⟩ = some (e.data, e.clk, s1) ∧
      s1.wg? a.inst = some g' ∧ g'.bankDone = es ∧ g'.copyDone = g.copyDone ∧ g'.inbox = g.inbox) ∧
    (∀ e es, g.inbox = e :: es → ∃ s1 g', s.popEntry a ⟨7, true, 0⟩ = some (e.data, e.clk, s1) ∧
      s1.wg? a.inst = some g' ∧ g'.inbox = es ∧ g'.copyDone = g.copyDone ∧ g'.bankDone = g.bankDone) ∧
    let t := (s.core a.core).tape
    let e := t.ring.get 0 (t.head % 2048)
    let have_ := t.ctr.get 0 (e.extractLsb' 32 8).toNat
    let wants := (e.extractLsb' 40 16).toNat
    t.waiters = [] → t.head ≠ t.tail →
    ((have_ + 65536 - wants) % 65536 < 32768 → ∃ clk s1, s.popEntry a ⟨5, true, 0⟩ =
        some ((List.range 8).map (fun i => e.extractLsb' (32 * i) 32), clk, s1) ∧
      (s1.core a.core).tape.head = (t.head + 1) % 4096 ∧ (s1.core a.core).tape.tail = t.tail) ∧
    (32768 ≤ (have_ + 65536 - wants) % 65536 → s.popEntry a ⟨5, true, 0⟩ = none)

/-- QUEUE_ENTRY_LAND places an entry at the tail of its endpoint (R276); QSTAT reports a port or the inbox handle (R275, R277);
DEPINC sends an increment of a dependence counter after its release (R294). -/
def Claims.QueueState : Prop :=
  (∀ (s : State) (core op inst stage : Nat) (o : MemOp) (p : Port) (data : List Word) (g : Wg), s.registers? core op = some o →
    o.eff = .entry p stage data → o.party.inst? = some inst → s.wg? inst = some g → s.isCopy o.party = false →
    let e : QEntry := ⟨data, stage, o.party, o.clk, (s.core core).cycle, o.active⟩
    ∃ t g', exec (.queueEntryLand core op) s = .next t ∧ t.op? core op = none ∧ t.wg? inst = some g' ∧
      (∀ a, t.mem.read a = s.mem.read a) ∧
      (p.kind = 0 → (g'.queue_ p.qidx).entries = (g.queue_ p.qidx).entries ++ [e] ∧
        (g'.queue_ p.qidx).reserved = (g.queue_ p.qidx).reserved - 1) ∧
      (p.kind ≠ 0 → (g'.buf p.kind).filled = (g.buf p.kind).filled ++ [(e, o.id)] ∧
        (g'.buf p.kind).reserved = (g.buf p.kind).reserved - 1)) ∧
  ∀ (s : State) (c : Ctx) (h : Head) (b : BodyA) (inst w : Nat) (g : Wg), s.once c h inst w g →
    let a := s.agentHere c inst
    let d := b.dst.idx
    (b.mod.getLsbD 0 = true → s.completes c (.qstat h b) [d, d + 1] [] fun t =>
      (t.warp c.ref).kPair d = BitVec.ofNat 64 (inst * 2 ^ 32 + g.gen % 65536 * 2 ^ 16 + s.member)) ∧
    (b.mod.getLsbD 0 = false →
      ((s.warp c.ref).q.get none (portNo b.sa) = none → s.completes c (.qstat h b) [d] [] fun t => (t.warp c.ref).kGet d = 0) ∧
      (∀ p, (s.warp c.ref).q.get none (portNo b.sa) = some p →
        s.completes c (.qstat h b) [d] [] fun t =>
          (s.portCounts a p).1 ≤ 127 → (s.portCounts a p).2 ≤ 64 → (t.warp c.ref).kGet d =
            BitVec.ofNat 32 (2 ^ 31 + (if p.recv then 2 ^ 19 else 0) + p.kind * 2 ^ 16 + (s.portCounts a p).1 * 128 +
              (s.portCounts a p).2))) ∧
    (s.uniMark c b.sa false = false → s.uniMark c b.sb false = false → s.ownsTape c.core inst = true →
      s.completes c (.depinc h b) [] [] fun t => s.queued t c fun o =>
        o.eff = .depinc ((s.uni c b.sa).toNat % 256) ((s.uni c b.sb).toNat % 65536))

/-- Arrivals and waits at named and team barriers. -/
def Obligations.Barriers : Prop := Claims.BarrierArrivals ∧ Claims.BarrierWaits

/-- Binding of ports, landing of entries, QSTAT and DEPINC. -/
def Obligations.QueueEndpoints : Prop := Claims.QueueBinding ∧ Claims.QueueState

/-- Entries are sent and received in the order of their endpoint. -/
def Obligations.QueueTransfer : Prop := Claims.QueueTransfers ∧ Claims.EndpointOrder

/-! ### Handles and copies (R127 to R131, R280 to R287) -/

/-- HGET takes the first Free entry of the buffer table for a range of the workgroup's scratchpad, HFREE gives an entry back with a
new generation, HWAIT waits for a state, HSET changes Full to Draining and the like once its release registers (R280, R281);
WPTR reads a channel's write pointer and WWAIT waits for it (R287). -/
def Obligations.HandleInstructions : Prop :=
  ∀ (s : State) (c : Ctx) (h : Head) (b : BodyA) (inst w : Nat) (g : Wg), s.once c h inst w g →
    s.uniMark c b.sa false = false → s.uniMark c b.sa true = false → s.uniMark c b.sb false = false →
    let d := b.dst.idx
    let off := (s.uni c b.sa).toNat
    let len := (s.uni c b.sb).toNat
    let x := handleOf s c b.sa
    let i := handleIndex x
    let st := b.sb.immNat
    let ch := g.chan_ b.sb.immNat
    (g.hents ≠ [] → off % 128 = 0 → len % 128 = 0 → 128 ≤ len → len ≤ 0x200000 → g.ownRange off len = true →
      (∀ j e, j < g.hents.length → s.handleAt inst j = some e → e.state = 0 →
        (∀ k < j, (s.handleAt inst k).map (·.state) ≠ some 0) →
        s.completes c (.hget h b) [d] [] fun t => (t.warp c.ref).kGet d = BitVec.ofNat 32 (e.gen * 1024 + j) ∧
          t.handleAt inst j = some { e with state := 1, offset := off, length := len }) ∧
      ((∀ k < g.hents.length, (s.handleAt inst k).map (·.state) ≠ some 0) → s.waits c (.hget h b) fun _ => True)) ∧
    (∀ e, s.handle? inst x = some e →
      (e.state ≠ 0 → g.namesHandle i = false → s.completes c (.hfree h b) [] [] fun t =>
        t.handleAt inst i = some { e with state := 0, gen := (e.gen + 1) % 64, clk := [] }) ∧
      (e.state = st → s.completes c (.hwait h b) [] [] fun _ => True) ∧
      (e.state ≠ st → s.waits c (.hwait h b) fun _ => True) ∧
      (s.settledParty c → s.hsetOp c = none → (st = 2 ∧ (e.state = 1 ∨ e.state = 3)) ∨ (st = 3 ∧ e.state = 2) →
        s.completes c (.hset h b) [] [] fun t => ∃ clk, t.handleAt inst i = some { e with state := st, clk := clk })) ∧
    (s.completes c (.wptr h b) [d, d + 1] [] fun t => (t.warp c.ref).kPair d = BitVec.ofNat 64 ch.wp) ∧
    ((s.uni64 c b.sa).toNat ≤ ch.wp → s.completes c (.wwait h b) [] [] fun _ => True) ∧
    (ch.wp < (s.uni64 c b.sa).toNat → s.waits c (.wwait h b) fun _ => True)

/-- CPY and CPYT check their command and lock its ranges, and it joins its channel; its operation leaves through the release
buffer (R146, R148, R284). Behind a pending fence it joins without its locks (R264). CPYT's command carries its deadline. -/
def Obligations.CopyIssue : Prop :=
  ∀ (s s1 : State) (c : Ctx) (h : Head) (kgrp : BitVec 3) (dlk : BitVec 5) (inst w : Nat) (g : Wg), s.once c h inst w g →
    let x := s.warp c.ref
    let a := s.agentHere c inst
    let raw : BitVec 256 := BitVec.ofNat 256 (leNat ((List.range 8).flatMap fun i => leBytes 4 (x.kGet (8 * kgrp.toNat + i)).toNat))
    let accepted := fun (i : Instr) (cmd : CopyCmd) =>
      s.checkCopy inst cmd = none → s.engineFirst a = true → g.copyCompletes cmd.chan = none →
      let joins := fun (f : State → Prop) => ∃ t g' o, exec i s = .next t ∧ s.movedOn t c ∧ (∀ v, t.mem.read v = s.mem.read v) ∧ s.flew t c h [] none ∧
        (s.queued t c fun o => o.eff = .copy cmd ∧ o.left = false) ∧ t.wg? inst = some g' ∧
        (g'.chan_ cmd.chan).ops = (g.chan_ cmd.chan).ops ++ [o] ∧ (g'.chan_ cmd.chan).wp = (g.chan_ cmd.chan).wp ∧
        o.id = s.nextId ∧ o.cmd = cmd ∧ o.sent = 0 ∧ o.flag = h.flag.toNat ∧ o.party = c.party ∧ f t
      (s.fencePending c.core c.party s.nextId = true → joins fun _ => True) ∧
      (s.fencePending c.core c.party s.nextId = false → s.unlocked c.core c.party s.nextId = false →
        (s.engineGo a).takeLocks a s.nextId cmd.spans = some s1 →
        joins fun t => ∀ y ∈ cmd.spans, s.spanLock a s.nextId y ∈ (t.core c.core).locks)
    blockMark s c kgrp.toNat 8 = false →
    accepted (.cpy h kgrp) ⟨raw, none⟩ ∧
    (x.kMarked (2 * dlk.toNat) = false → x.kMarked (2 * dlk.toNat + 1) = false →
      let dl := (x.kPair (2 * dlk.toNat)).toNat
      s.tooLate c.ctx (CopyOp.new s.nextId h.flag.toNat a ⟨raw, some dl⟩ false false [] s.clockNs) = false →
      accepted (.cpyt h kgrp dlk) ⟨raw, some dl⟩)

/-- The copy engine (R285, R443): it takes the oldest command of a workgroup's buffer and locks its ranges; a burst of the command
that R285 chooses moves units of 16 bytes, as far as nothing earlier holds them (R136); a completed command posts its entry behind
the earlier ones. -/
def Claims.CopyEngine : Prop :=
  (∀ (s s1 : State) (inst id : Nat) (g : Wg) (e : QEntry) (rest : List (QEntry × Nat)), s.cur = .wg inst → s.wg? inst = some g →
    g.copyBuf.filled = (e, id) :: rest → g.resting = false → s.lockFull g.core 2 = false →
    let cmd : CopyCmd := ⟨entryBits e.data, none⟩
    s.checkCopy inst cmd = none →
    (s.modWg inst fun g => { g with copyBuf := { g.copyBuf with filled := rest } }).takeLocks (s.agentOf inst e.party) id cmd.spans
      = some s1 →
    ∃ t g' o, exec .copyCommandTake s = .next t ∧ t.wg? inst = some g' ∧ g'.copyBuf.filled = rest ∧
      (g'.chan_ cmd.chan).ops = (g.chan_ cmd.chan).ops ++ [o] ∧ o.id = id ∧ o.cmd = cmd ∧ o.sent = 0 ∧ o.fromPort = true ∧
      ∀ v, t.mem.read v = s.mem.read v) ∧
  (∀ (s s1 : State) (n : Nat) (timed : Bool) (x : CopyHead) (o : CopyOp) (fault : Option Detail), s.cur = .core n →
    (s.core n).offline = false → s.chooseCopy n = some (timed, x) → s.hasLocks n x.op.id = true →
    (s.agentOf x.inst x.op.party).core = n →
    let units := min (x.op.cmd.len - x.op.sent) 4096 / 16
    (s.dropOp n x.op.id).copyUnits (s.agentOf x.inst x.op.party) x.op units = (o, fault, s1) →
    (o.sent ≤ x.op.sent + 16 * units ∧ (fault = none → o.sent = x.op.sent + 16 * units ∨ s1.unitReady (s.agentOf x.inst x.op.party) o = false)) ∧
    (fault = none ∨ x.op.fromPort = false → ∃ t, exec .copyBurst s = .next t ∧ (∀ v, t.mem.read v = s1.mem.read v) ∧
      ∀ core, (t.core core).scratch = (s1.core core).scratch ∧ (t.core core).rows = (s.core core).rows)) ∧
  ∀ (s : State) (inst chan : Nat) (g : Wg) (o : CopyOp), s.wg? inst = some g → g.copyCompletes chan = some o →
    o.cmd.post = true →
    ∃ t g', exec (.copyCompletionPost inst chan) s = .next t ∧ t.wg? inst = some g' ∧
      g'.copyDone = g.copyDone ++ [⟨o.entry, 0, o.party, o.done, (s.core g.core).cycle, 0⟩] ∧
      (∀ p ∈ (g'.chan_ chan).ops, p.id ≠ o.id) ∧ (g.chan_ chan).wp + (o.cmd.len - o.sent) ≤ (g'.chan_ chan).wp ∧
      ∀ v, t.mem.read v = s.mem.read v

/-- One unit of a copy: sixteen bytes of the source appear at the destination, and no other byte of memory changes under the key of
the destination (R130, R285). -/
def Claims.CopyUnitMoves : Prop :=
  ∀ (s s1 s2 s' : State) (a : Agent) (o o' : CopyOp) (ps pd : Piece) (h1 h2 : List TlbEntry),
    s.engPiece a 3 .engineSrc o.holds (o.cmd.src + BitVec.ofNat 64 o.sent) 16 = .ok (ps, h1, s1) →
    s1.engPiece a 3 .engineDst h1 (o.cmd.dst + BitVec.ofNat 64 o.sent) 16 = .ok (pd, h2, s2) →
    s.copyUnit a o = .ok (o', s') → s.isCopy o.party = false →
    o'.sent = o.sent + 16 ∧ ps.bytes = 16 ∧ pd.bytes = 16 ∧
    (∀ d, pd.place = .pa d → s.isPeer d = false → d % 16 = 0 →
      (∀ p, ps.place = .pa p → s.isPeer p = false → p % 16 = 0 → ∀ i < 16,
        s'.readCell pd.key (cellOf pd.layout (d + i)) = s.readCell ps.key (cellOf ps.layout (p + i))) ∧
      ∀ cell, s.isPeer cell = false → (∀ i < 16, cell ≠ cellOf pd.layout (d + i)) →
        s'.readCell pd.key cell = s.readCell pd.key cell) ∧
    ((∀ d, pd.place ≠ .pa d) → ∀ cell, s'.mem.read cell = s.mem.read cell)

/-! ### Weight, accounts and records (R288 to R292) -/

/-- QSPLIT, QRET and QBORROW move grains between k62, a register and an account (R290), WAITQ answers once its account is
quiescent and sleeps else; ACCOUNT_UPDATE counts what another member sends (R289). -/
def Obligations.QuiescenceWeight : Prop :=
  (∀ (s : State) (c : Ctx) (h : Head) (b : BodyA) (inst w : Nat) (g : Wg), s.once c h inst w g → s.uniMark c b.sa false = false →
    weightMark s c = false →
    let k := grains s c
    let word := acctWord s c
    let n := s.uni c b.sa
    let d := b.dst.idx
    let acct := acctIndex word
    (d ≠ 62 → 0 < n.toNat → n.toNat < k.toNat → s.completes c (.qsplit h b) [d, 62] [] fun t =>
      (t.warp c.ref).kGet 62 = k - n ∧ (t.warp c.ref).kGet d = n) ∧
    (n = 0 ∨ k.toNat ≤ n.toNat → s.inCopy c = false →
      ∃ t, exec (.qsplit h b) s = .next t ∧ s.trapsPrecisely t c h (.code_ 0x109)) ∧
    (s.acctValid word c.ctx = true → s.isCopy c.party = false →
      (s.settledParty c → s.qretOp c = none →
        (b.mod.getLsbD 0 = false → n.toNat ≤ k.toNat → s.completes c (.qret h b) [62] [] fun t =>
          (t.warp c.ref).kGet 62 = k - n ∧
          (acctMember word = s.member → (t.account acct).returned = ((s.account acct).returned + n.toNat) % 2 ^ 64) ∧
          (acctMember word ≠ s.member → t.outbox = s.outbox ++ [⟨some s.pktHead, .account (word.setWidth 18) .returned n.toNat⟩])) ∧
        (b.mod.getLsbD 0 = true → k ≠ 0 → s.completes c (.qret h b) [62] [] fun t => (t.warp c.ref).kGet 62 = 0 ∧
          (acctMember word = s.member → (t.account acct).returned = ((s.account acct).returned + k.toNat) % 2 ^ 64))) ∧
      (k.toNat < 2 ^ 31 → acctMember word = s.member →
        ((s.account acct).issued ≠ 2 ^ 32 - 1 → s.completes c (.qborrow h b) [62] [] fun t =>
          (t.warp c.ref).kGet 62 = k + 0x80000000 ∧ (t.account acct).issued = ((s.account acct).issued + 1) % 2 ^ 32) ∧
        ((s.account acct).issued = 2 ^ 32 - 1 → s.inCopy c = false →
          ∃ t, exec (.qborrow h b) s = .next t ∧ s.trapsPrecisely t c h (.code_ 0x10c)))) ∧
    (b.mod.getLsbD 0 = true → k = 0 → s.completes c (.qret h b) [] [] fun t => t.accounts = s.accounts) ∧
    ((∀ l, s.live c l → (s.lane c l).asleep = false) → s.acctValid n c.ctx = true → acctMember n = s.member →
      ((s.account (acctIndex n)).quiescent = true → s.completes c (.waitq h b) [d] [] fun t =>
        (t.warp c.ref).kGet d = if (s.account (acctIndex n)).lost = 0 then 0 else 1) ∧
      ((s.account (acctIndex n)).quiescent = false → ∃ t, exec (.waitq h b) s = .next t ∧ s.regsKept t c [] [] ∧
        ∀ l, s.live c l → (t.lane c l).st = .asleep (.account n.toNat) ∧ (t.lane c l).pc = (s.lane c l).pc))) ∧
  ∀ (s : State) (acct : Nat) (g : DWord), acct < 1024 →
    let old := s.account acct
    (∃ t, exec (.accountUpdate acct .issued g) s = .next t ∧ (t.account acct).issued = (old.issued + g.toNat) % 2 ^ 32 ∧
      ∀ j, j ≠ acct → t.account j = s.account j) ∧
    (∃ t, exec (.accountUpdate acct .returned g) s = .next t ∧ (t.account acct).returned = (old.returned + g.toNat) % 2 ^ 64 ∧
      ∀ j, j ≠ acct → t.account j = s.account j) ∧
    (∃ t, exec (.accountUpdate acct .lost g) s = .next t ∧ (t.account acct).lost = (old.lost + g.toNat) % 2 ^ 64 ∧
      ∀ j, j ≠ acct → t.account j = s.account j)

/-- WGSEND sends a record with its header to a node of the graph (R291). RECORD_ARRIVE_BIN adds it to the bin of its cluster,
BIN_TIMER_EXPIRE closes an open batch when its time has passed (R292). -/
def Claims.WorkRecords : Prop :=
  (∀ (s s1 s2 : State) (c : Ctx) (h : Head) (b : BodyA) (inst w : Nat) (g : Wg) (gr : Grid) (e : NodeEnt) (lanes : List LaneAcc)
    (ws : List (List Byte × Bool)), s.once c h inst w g → s.grid? g.grid = some gr →
    ((s.warp c.ref).aGet b.sa.idx).mark = false → s.uniMark c b.sb false = false → s.uniMark c b.sc false = false →
    (s.warp c.ref).kMarked 63 = false →
    let node := (s.uni c b.sb).toNat
    let word := acctWord s c
    s.fencePending c.core c.party s.nextId = false → gr.nodes[node]? = some e → e.entry ≠ 0 → word = BitVec.ofNat 32 (s.launchOf g.grid).acct → s.acctValid word c.ctx = true →
    recordLanes s c b.sa.idx e.size = .ok (lanes, s1) → loadWordsNow s1 c lanes = .ok (some (ws, s2)) →
    ∃ t, exec (.wgsend h b) s = .next t ∧ s.movedOn t c ∧ (∀ a, t.mem.read a = s.mem.read a) ∧
      (∃ o, o ∈ (t.core c.core).ops ∧ o.party = c.party ∧ o.eff = .record node
        (recordHeader word (s.uni c b.sc) ++ (ws.flatMap (·.1)).drop 8) ([false, false] ++ (ws.map (·.2)).drop 2)
        (s.uni c b.sc).toNat) ∧
      s.flew t c h [] none) ∧
  (∀ (s : State) (core op node grains inst : Nat) (data : List Byte) (marks : List Bool) (o : MemOp) (g : Wg) (gr : Grid)
    (e : NodeEnt), s.registers? core op = some o → o.eff = .record node data marks grains → o.party.inst? = some inst →
    s.wg? inst = some g → g.copyOf = none → s.grid? g.grid = some gr → gr.nodes[node]? = some e →
    let bin := gr.bin (clusterOf core) node
    (bin.overflows data.length = true → gr.backing.get 0 node < e.backrec) →
    ∃ t gr', exec (.recordArriveBin core op) s = .next t ∧ t.op? core op = none ∧ t.grid? g.grid = some gr' ∧
      gr'.bin (clusterOf core) node = bin.add ⟨data, marks, grains, s.clockNs, bin.overflows data.length, o.party, o.clk⟩ e.count ∧
      gr'.backing.get 0 node = gr.backing.get 0 node + (if bin.overflows data.length then 1 else 0)) ∧
  ∀ (s : State) (grid cluster node : Nat) (gr : Grid) (e : NodeEnt) (r : BinRec) (rs : List BinRec), s.grid? grid = some gr →
    gr.nodes[node]? = some e → (gr.bin cluster node).batch = r :: rs → r.arrived + e.timer ≤ s.clockNs →
    ∃ t gr', exec (.binTimerExpire grid cluster node) s = .next t ∧ t.grid? grid = some gr' ∧
      (gr'.bin cluster node).batch = [] ∧ (gr'.bin cluster node).closed = (gr.bin cluster node).closed ++ [r :: rs]

/-! ### POLL, time and LAUNCH (R279, R295, R296) -/

/-- POLL loads a word: when its comparison holds the word is written and the warp's priority restored, else the threads sleep, 16
cycles at first, and the priority falls (R279). TIME reads the gang clock or its state, WAITT sleeps until a time (R295). -/
def Claims.PollAndTime : Prop :=
  ∀ (s : State) (c : Ctx) (h : Head) (b : BodyA) (inst w : Nat) (g : Wg), s.once c h inst w g →
    let d := b.dst.idx
    (∀ (word : Word) (m : Bool) (s1 : State), (∀ l, s.live c l → (s.lane c l).asleep = false) → ((s.warp c.ref).aGet b.sa.idx).mark = false → s.uniMark c b.sb false = false →
      s.fencePending c.core c.party s.nextId = false →
      loadNow s c ⟨.load, b.sa.idx, 0, 0, 4⟩ b.mod.toNat (fun w => w != some 4) = .ok (some (word, m, s1)) →
      (pollTest b.sc.immNat word (s.uni c b.sb) = true → s.completes c (.poll h b) [d] [] fun t =>
        (t.warp c.ref).kGet d = word ∧ (t.warp c.ref).prio = (s.warp c.ref).launchPrio) ∧
      (pollTest b.sc.immNat word (s.uni c b.sb) = false → ∃ t, exec (.poll h b) s = .next t ∧ s.regsKept t c [] [] ∧
        (t.warp c.ref).prio = (s.warp c.ref).prio - 1 ∧
        ∀ l, s.live c l → (t.lane c l).st = .asleep (.poll ((s.core c.core).cycle + 16) 32) ∧ (t.lane c l).pc = (s.lane c l).pc)) ∧
    (b.mod.getLsbD 0 = false → s.completes c (.time h b) [d, d + 1] [] fun t =>
      (t.warp c.ref).kPair d = BitVec.ofNat 64 s.clockNs) ∧
    (b.mod.getLsbD 0 = true → s.completes c (.time h b) [d] [] fun t => (t.warp c.ref).kGet d = BitVec.ofNat 32 s.clockState) ∧
    (s.uniMark c b.sa true = false → s.completes c (.waitt h b) [] [] fun t =>
      s.now.toNat < (s.uni64 c b.sa).toNat →
        ∀ l, s.live c l → (t.lane c l).st = .asleep (.time (s.uni64 c b.sa).toNat))

/-- POLL_RETRY, WAITQ_WAKE and WAITT_WAKE: a sleeper whose time has come, or whose account is quiescent, goes on. -/
def Claims.SleepersWake : Prop :=
  ∀ (s : State) (w : WRef) (x : Warp), s.warp? w = some x →
    (∀ lane < 32, ∀ n, (x.thread lane).st = .asleep (.time n) → n ≤ s.now.toNat →
      ∃ t y, exec (.waittWake w) s = .next t ∧ t.warp? w = some y ∧ (y.thread lane).st = .ready ∧
        (y.thread lane).pc = (x.thread lane).pc) ∧
    (∀ lane < 32, s.mayIssue w = true → s.zoneStalls w = false →
      ∀ (c : Ctx) (word : DWord) (s1 : State) (h : Head) (b : BodyA), s.standing w (x.groupOf lane) = some c →
        s.fetch c.core c.ctx (warpClass w) c.pc = .ok (word, s1) →
      (∀ k, (x.thread lane).st = .asleep (.account k) → acctMember (BitVec.ofNat 32 k) = s.member →
        (s.account (acctIndex (BitVec.ofNat 32 k))).quiescent = true →
        (∀ l < lane, ∀ j, (x.thread l).st = .asleep (.account j) → s.quiesced (BitVec.ofNat 32 j) = none) →
        decodeFarale word = some (.waitq h b) →
        ∃ t, exec (.waitqWake w) s = .next t ∧ s.movedOn t c ∧
          (t.warp w).kGet b.dst.idx = if (s.account (acctIndex (BitVec.ofNat 32 k))).lost = 0 then 0 else 1) ∧
      (∀ n k, (x.thread lane).st = .asleep (.poll n k) → n ≤ s.cycleOf w →
        (∀ l < lane, ∀ m j, (x.thread l).st = .asleep (.poll m j) → s.cycleOf w < m) →
        decodeFarale word = some (.poll h b) →
        let c' := { c with word := word }
        let awake := s1.modWarp w fun y => y.modThreads (x.groupOf lane) fun _ t => { t with st := .ready }
        ∀ v m s2, c'.executes awake h = true → c'.guardMarks awake h = 0 → ((awake.warp w).aGet b.sa.idx).mark = false →
          awake.uniMark c' b.sb false = false →
          loadNow awake c' ⟨.load, b.sa.idx, 0, 0, 4⟩ b.mod.toNat (fun w => w != some 4) = .ok (some (v, m, s2)) →
          (pollTest b.sc.immNat v (awake.uni c' b.sb) = true →
            ∃ t, exec (.pollRetry w) s = .next t ∧ s.movedOn t c ∧ (t.warp w).kGet b.dst.idx = v) ∧
          (pollTest b.sc.immNat v (awake.uni c' b.sb) = false →
            ∃ t, exec (.pollRetry w) s = .next t ∧ ∀ l, s.live c l →
              (t.lane c l).st = .asleep (.poll (s.cycleOf w + k) (min (2 * k) 16384)))))

/-- LAUNCH writes the answer of the checks of its record, and an accepted record enters the ring of its queue (R296); a refused one
leaves every queue as it was (log 39). -/
def Claims.LaunchAnswers : Prop :=
  ∀ (s : State) (c : Ctx) (h : Head) (b : BodyA) (inst w va : Nat) (g : Wg), s.once c h inst w g →
    ((s.warp c.ref).aGet b.sa.idx).mark = false → s.uniMark c b.sb false = false →
    let q := match b.sb with | .imm x => x.toNat | o => (s.uni c o).toNat
    let l := s.lq q
    let d := b.dst.idx
    q < 64 → l.en = true → l.dev = true → l.ctx = c.ctx → launchAddr s c b.sa.idx = .ok va → s.isCopy c.party = false →
    s.fencePending c.core c.party s.nextId = false → s.launchFree c = true → l.free ≠ 0 →
    (∀ off status r, s.checkRecord l.ctx va = .error ((off, status), r) → s.completes c (.launch h b) [d] [] fun t =>
      (t.warp c.ref).kGet d = BitVec.ofNat 32 (status % 256 + off % 256 * 256) ∧ t.lqs = s.lqs) ∧
    (∀ a, s.checkRecord l.ctx va = .ok a → ∃ t, exec (.launch h b) s = .next t ∧ s.movedOn t c ∧ (t.warp c.ref).kGet d = 0 ∧
      (t.lq q).tail = (l.tail + 1) % 2 ^ 32 ∧ (t.lq q).head = l.head ∧
      ∃ clk, (t.lq q).pre = l.pre ++ [(l.tail, va, { a with clk := clk })])

/-- The copy engine takes, moves and completes commands. -/
def Obligations.Copying : Prop := Claims.CopyEngine ∧ Claims.CopyUnitMoves

/-- Work records, their bins, and launches by a program. -/
def Obligations.RecordsAndLaunch : Prop := Claims.WorkRecords ∧ Claims.LaunchAnswers

/-- Polls, the gang clock, and the waking of sleepers. -/
def Obligations.PollTimeAndWake : Prop := Claims.PollAndTime ∧ Claims.SleepersWake

/-! ### Matrix engine (R35 to R38, R298 to R310) -/

/-- MSIGN declares the warps of a round (R305). MMA and MMAC sign it (R36): the flag of the warp rises and its threads go on; when the
last thread signs, the round closes and the operation with the values of the last signer enters tile order. Threads that have
signed the open round stall (R38). -/
def Claims.MatrixSigning : Prop :=
  (∀ (s : State) (c : Ctx) (h : Head) (conv : BitVec 3) (src : Opnd) (inst w : Nat) (g : Wg), s.once c h inst w g →
    s.uniMark c src false = false → s.fencePending c.core c.party s.nextId = false → (g.conv_ conv.toNat).isOpen = false →
    s.completes c (.msign h conv src) [] [] fun t => ∃ g', t.wg? inst = some g' ∧
      (g'.conv_ conv.toNat).isOpen = false ∧ (g'.conv_ conv.toNat).signed = (g.conv_ conv.toNat).signed ∧
      ∀ i < 32, (g'.conv_ conv.toNat).mask.has i = (Mask.has (s.uni c src) i && decide (i < g.warps.length))) ∧
  ∀ p ∈ [(Instr.mma, false, MatKind.mma), (.mmac, true, .mmac)],
  ∀ (s : State) (c : Ctx) (h : Head) (b : BodyMma) (inst w : Nat) (g : Wg) (op : MatOp) (spans : List Span),
    s.once c h inst w g → c.active s h ≠ 0 → checkMma s c (s.agentHere c inst) g p.2.1 b = .ok (op, spans) →
    op.aA.mark = false → op.aB.mark = false → (∀ i < 8, (s.warp c.ref).kMarked (b.kop.toNat + i) = false) →
    let n := b.conv.toNat
    let v := g.conv_ n
    let signed := v.signed.upd 0 w fun x => x ||| c.active s h
    v.mask.has w = true → (v.isOpen = true → v.word = c.word) →
    ((v.isOpen = true → c.active s h &&& v.signed.get 0 w = 0) →
      ∃ t g', exec (p.1 h b) s = .next t ∧ s.movedOn t c ∧ s.regsKept t c [] [] ∧ t.wg? inst = some g' ∧
        (t.warp c.ref).cf = ((s.warp c.ref).flagUp h.flag.toNat).cf ∧
        ({ v with signed := signed }.full g = false →
          (g'.conv_ n).isOpen = true ∧ (g'.conv_ n).signed = signed ∧ (g'.conv_ n).word = c.word ∧
          (t.core c.core).mats = (s.core c.core).mats) ∧
        ({ v with signed := signed }.full g = true →
          (g'.conv_ n).isOpen = false ∧ (g'.conv_ n).signed = [] ∧ (g'.conv_ n).mask = v.mask ∧
          ∃ o ∈ (t.core g.core).mats, o.kind = p.2.2 ∧ o.id = s.nextId ∧ o.acc = b.acc.toNat ∧ o.aA = op.aA ∧ o.aB = op.aB ∧
            o.fsA = op.fsA ∧ o.fsB = op.fsB ∧ o.block = op.block ∧ o.kk = 16 * (b.kf.toNat + 1) ∧ o.z = b.z ∧ o.progress = 0 ∧
            o.flags = v.flags ++ [(w, h.flag.toNat)])) ∧
    (v.isOpen = true → c.active s h &&& v.signed.get 0 w = c.group →
      s.waits c (p.1 h b) fun t => (t.core c.core).mats = (s.core c.core).mats)

/-- MZERO, ACCLD, ACCST, ACCMV and MEPI check their operands, register their ranges, count on their flag and enter tile order
(R298, R299, R306 to R309). MRPQ reads the latest operation of a tile (R310). -/
def Claims.MatrixIssue : Prop :=
  ∀ (s s1 : State) (c : Ctx) (h : Head) (inst w acc tile : Nat) (g : Wg), s.once c h inst w g →
    s.engineFirst (s.agentHere c inst) = true → s.fencePending c.core c.party s.nextId = false →
    s.unlocked c.core c.party s.nextId = false → g.tiles[acc]? = some tile →
    let a := s.agentHere c inst
    let x := s.warp c.ref
    let enters := fun (i : Instr) (spans : List Span) (dests : List Reg) (f : MatOp → Prop) =>
      (s.engineGo a).takeLocks a s.nextId spans = some s1 →
      ∃ t o, exec i s = .next t ∧ s.movedOn t c ∧ s.regsKept t c [] [] ∧ s.flew t c h dests none ∧
        (t.core c.core).mats = ((s.core c.core).mats.filter fun m => !(m.complete && m.inst == inst && m.acc == acc)) ++ [o] ∧
        (∀ y ∈ spans, s.spanLock a s.nextId y ∈ (t.core c.core).locks) ∧
        o.id = s.nextId ∧ o.inst = inst ∧ o.acc = acc ∧ o.tile = tile ∧ o.locked = true ∧ o.slot = none ∧ o.progress = 0 ∧
        o.flags = (if h.flag = 0 then [] else [(w, h.flag.toNat)]) ∧ f o
    let operand := fun (r : AReg) (dst : Bool) (len : Nat) =>
      r.mark = false ∧ r.e = true ∧ (if dst then r.w else r.r) = true ∧ r.covers r.ptr.toNat len = true
    (∀ k : BitVec 4, acc = k.toNat → enters (.mzero h k) [] [] fun o => o.kind = .mzero) ∧
    (∀ p ∈ [(Instr.accld, false, MatKind.accld), (.accst, true, .accst)], ∀ b : BodyAcc, acc = b.acc.toNat →
      let r := x.aGet b.areg.toNat
      let stride := (x.kGet b.ks.toNat).toNat
      let len := rowsLen 64 stride 256
      operand r p.2.1 len → x.kMarked b.ks.toNat = false → r.ptr.toNat % 16 = 0 → stride % 16 = 0 →
      needSpan s inst ⟨r.ptr, len, p.2.1⟩ = .ok () →
      enters (p.1 h b) [⟨r.ptr, len, p.2.1⟩] [] fun o => o.kind = p.2.2 ∧ o.aA = r ∧ o.kk = stride) ∧
    (∀ (b : BodyAccmv) (n : BitVec 8) (r : Nat), acc = b.acc.toNat → b.vec = .v n → x.nameRow n.toNat = some r →
      s.uniMark c b.idx false = false → (s.uni c b.idx).toNat < 128 → s.namesFree c Mask.all (!b.put) [(n.toNat, 0)] →
      enters (.accmv h b) [] (if b.put then [] else [.v n.toNat]) fun o => o.kind = .accmv ∧ o.kk = (s.uni c b.idx).toNat ∧
        o.put = b.put ∧ o.row = r ∧ (b.put = true → ∀ l < 32, (o.staged.word l, o.staged.mark l) = s.laneVal c n.toNat l)) ∧
    (∀ (b : BodyMepi) (op : MatOp) (s2 : State), acc = b.acc.toNat →
      let f := s.slotOf c b.fs.toNat
      let cols := if f.elem = 3 then 32 else 64
      let rD := x.aGet b.aregD.toNat
      let rB := x.aGet b.aregB.toNat
      let stride := (x.kGet b.ks.toNat).toNat
      let len := rowsLen 64 stride (f.rowBytes cols)
      let spans := ⟨rD.ptr, len, true⟩ :: if b.bv then [⟨rB.ptr, 4 * cols, false⟩] else []
      let op0 := { MatOp.new 0 .mepi a acc tile (s.clockOf a.party) with
        aA := rD, aB := rB, fsA := f, kk := stride, int := b.int, act := b.act.toNat, bv := b.bv,
        scale := (mepiScale s c b.scale).setWidth 64 }
      let e : Eng := ⟨a, 4, s.nextId, op0.clk, 1⟩
      s.barred c.core c.party s.nextId = false → (b.int = true → f.elem ≠ 3) → operand rD true len → (b.bv = true → operand rB false (4 * cols)) →
      x.kMarked b.ks.toNat = false → s.uniMark c b.scale false = false → rD.ptr.toNat % 16 = 0 → stride % 16 = 0 →
      needSpans s inst spans = .ok () → (∃ r, s.commitMepi e op0 = .ok r) →
      s1.commitMepi e op0 = .ok (op, s2) →
      enters (.mepi h b) spans [] fun o => o.kind = .mepi ∧ o.aA = rD ∧ o.fsA = f ∧ o.pieces = op.pieces ∧ o.bias = op.bias) ∧
    ∀ (kd : BitVec 6) (k : BitVec 4), acc = k.toNat → s.completes c (.mrpq h kd k) [kd.toNat] [] fun t =>
      (t.warp c.ref).kGet kd.toNat =
        match ((s.core c.core).mats.filter fun m => m.inst == inst && m.acc == acc).getLast? with
        | none => 0
        | some m => BitVec.ofNat 32 ((if m.complete then 4 else if m.parked then 3 else if m.slot.isSome then 2 else 1) * 2 ^ 29 +
            (if m.complete then 0 else m.slot.getD 0) * 2 ^ 24 + m.code * 2 ^ 20 + m.progress)

/-- MATRIX_OP_START gives the lowest free slot to the first operation that nothing before it on its tile, and no acquire or fence of
its party, holds (R145, R299); an MEPI that has its ranges translated then has read its tile (R308). MATRIX_BLOCK_COMPLETE performs
sixteen rows of an operation, and finishes it after the last: its flags fall and its locks are free (R303); an operation that meets
a fault parks at the start of its block (R304). -/
def Claims.MatrixEngine : Prop :=
  (∀ (s : State) (n i : Nat) (m : MatOp), s.cur = .core n → (s.core n).stallTo.get 0 4 ≤ (s.core n).cycle →
    let s' := s.lockMats n
    let free := fun (m : MatOp) => !s'.barred n m.party m.id
    (s'.core n).freeMatSlot = some i → firstReady free [] ((s'.core n).mats.filter fun m => s'.moves m.inst) = some m →
    (m.kind = .mepi → m.progress = 0 → m.pieces ≠ []) →
    ∃ t o, exec .matrixOpStart s = .next t ∧ o ∈ (t.core n).mats ∧ o.id = m.id ∧ o.slot = some i ∧ o.kind = m.kind ∧
      o.progress = m.progress ∧ (m.kind = .mepi → m.progress = 0 → o.staged = s.tileOf n m.tile (s.agentOf m.inst m.party).ctx) ∧
      (∀ a, t.mem.read a = s.mem.read a) ∧ (t.core n).tiles = (s.core n).tiles) ∧
  ∀ (s s1 : State) (core slot : Nat) (op op' : MatOp) (d : Detail),
    (s.core core).mats.find? (fun m => m.slot == some slot && !m.complete) = some op → op.parked = false →
    (op.owed = true ∨ s.moves op.inst = true) → (s.core core).offline = false →
    (s.core core).stallTo.get 0 4 ≤ (s.core core).cycle → s.blockReady (s.agentOf op.inst op.party) op = true →
    let a := s.agentOf op.inst op.party
    (s.matBlock core a op = .ok (op', s1) → ∃ t, exec (.matrixBlockComplete core slot) s = .next t ∧
      (∀ v, t.mem.read v = s1.mem.read v) ∧ (t.core core).tiles = (s1.core core).tiles ∧
      (op'.progress ≠ 64 → ∃ o ∈ (t.core core).mats, o.id = op'.id ∧ o.progress = op'.progress ∧ o.slot = op'.slot) ∧
      (op'.progress = 64 → (∀ o ∈ (t.core core).mats, o.id = op'.id → o.complete = true ∧ o.slot = none) ∧
        ∀ l ∈ (t.core core).locks, l.op ≠ op'.id)) ∧
    (s.matBlock core a op = .error d → ∃ t, exec (.matrixBlockComplete core slot) s = .next t ∧
      (∀ v, t.mem.read v = s.mem.read v) ∧ (t.core core).tiles = (s.core core).tiles ∧
      ∃ o ∈ (t.core core).mats, o.id = op.id ∧ o.parked = true ∧ o.progress = op.progress)

/-- What a block does. MZERO clears its tile (R306); ACCMV puts 32 words of a row, or gets them into the row that its name selected
(R307); ACCLD loads sixteen rows of the tile, ACCST stores them (R306); MEPI stores sixteen rows of converted values, with the bias as it
is read then (R308); MMA and MMAC read B in block 0 and add to each output of sixteen rows the products of a row of A and a row of B in the
format of the slots (R102 to R106, R303). No other word of the tile changes, and no other tile. -/
def Claims.MatrixBlockResult : Prop :=
  (∀ (s s1 : State) (core : Nat) (a : Agent) (op op' : MatOp), s.matBlock core a op = .ok (op', s1) →
    let t := s1.tileOf core op.tile a.ctx
    let t0 := s.tileOf core op.tile a.ctx
    let e : Eng := ⟨a, 4, op.id, op.clk, op.progress / 16 + 1⟩
    let kept := ∀ i, (t.word i, t.mark i) = (t0.word i, t0.mark i)
    let row := fun (m : Nat) => op.aA.ptr.toNat + m * op.kk
    (∀ j, j ≠ op.tile → (s1.core core).tiles.get Tile.zero j = (s.core core).tiles.get Tile.zero j) ∧
    (op.kind = .mzero → op'.progress = 64 ∧ ∀ i, t.word i = 0 ∧ t.mark i = false) ∧
    (op.kind = .accmv → op'.progress = 64 ∧ (∀ v, s1.mem.read v = s.mem.read v) ∧
      let first := 64 * (op.kk / 2) + 32 * (op.kk % 2)
      (op.put = true → (∀ r, s1.getRow r = s.getRow r) ∧
        ∀ i, (t.word i, t.mark i) = if first ≤ i ∧ i < first + 32 then (op.staged.word (i - first), op.staged.mark (i - first))
          else (t0.word i, t0.mark i)) ∧
      (op.put = false → kept ∧ ∀ inst w, op.party.warp? = some (inst, w) → ∀ r, s1.getRow r =
        if r = s.rowId (wref inst w) op.row then
          ((s.getRow r).seenBy a.ctx).write fun l => some (t0.word (first + l), t0.mark (first + l))
        else s.getRow r)) ∧
    (op.kind = .accld → op'.progress = op.progress + 16 ∧ ∃ rows h s2,
      s.readRows e op.holds 0 64 op.aA.ptr.toNat 0 0 op.kk op.progress 16 = .ok (rows, h, s2) ∧ (∀ v, s1.mem.read v = s2.mem.read v) ∧
      let ws := rows.flatMap fun r => wordsOf r.1
      ws.length = 1024 ∧ ∀ i, (t.word i, t.mark i) =
        if 64 * op.progress ≤ i ∧ i < 64 * op.progress + 1024 then ws.getD (i - 64 * op.progress) (0, false) else (t0.word i, t0.mark i)) ∧
    (op.kind = .accst → op'.progress = op.progress + 16 ∧ kept ∧ ∃ f : Nat → List TlbEntry × State, f 0 = (op.holds, s) ∧
      (f 16).2 = s1 ∧ ∀ i < 16, let m := op.progress + i
        ∃ ps s2 s3, (f i).2.engPieces a 4 .engineDst (f i).1 (row m) 256 256 = .ok (ps, (f (i + 1)).1, s2) ∧
          s2.engTouch a.party op.id e.epoch op.clk true ps = .ok s3 ∧ (f (i + 1)).2 = s3.storeRow a.party (row m) ps
            ((List.range 64).flatMap fun j => (leBytes 4 (t0.word (64 * m + j)).toNat).map fun b => (b, t0.mark (64 * m + j)))) ∧
    (op.kind = .mepi →
      let n := op.slotA.rowBytes op.cols
      let bytes := op.bias.foldl (fun (x : List Byte × State) p => (x.1 ++ (x.2.readPiece p).1, (x.2.readPiece p).2)) ([], s)
      op.pieces ≠ [] → op.pieces.length = 64 * (n / 16) → op'.progress = op.progress + 16 ∧ kept ∧ ∃ (bias : Marked) (f : Nat → State),
        bias.map (·.1) = bytes.1 ∧ f 0 = bytes.2 ∧ f 16 = s1 ∧ ∀ i < 16, let m := op.progress + i
          f (i + 1) = (f i).storeRow a.party (row m) ((op.pieces.drop (n / 16 * m)).take (n / 16)) ((mepiRow op bias m).take n)) ∧
    (op.kind = .mma ∨ op.kind = .mmac → op'.progress = op.progress + 16 ∧
      (∀ i, i < 64 * op.progress ∨ 64 * (op.progress + 16) ≤ i → (t.word i, t.mark i) = (t0.word i, t0.mark i)) ∧
      ∃ bRows h1 s2 rows h2 s3,
        (if op.bRows = [] then s.readRows e op.holds op.slotB op.kk op.aB.ptr.toNat (OpBlock.bscl op.block).toNat (OpBlock.bsstr op.block)
            (OpBlock.bstr op.block) 0 op.cols = .ok (bRows, h1, s2)
          else bRows = op.bRows ∧ h1 = op.holds ∧ s2 = s) ∧
        s2.readRows e h1 op.slotA op.kk op.aA.ptr.toNat (OpBlock.ascl op.block).toNat (OpBlock.asstr op.block) (OpBlock.astr op.block)
          op.progress 16 = .ok (rows, h2, s3) ∧ (∀ v, s1.mem.read v = s3.mem.read v) ∧ op'.bRows = bRows ∧
        ∀ i < 16, ∀ n < op.cols, ∀ j, (h : j < (outWords op.twoWords (op.progress + i) n).length) →
          let ix := outWords op.twoWords (op.progress + i) n
          let ra := matRow op.slotA op.kk (rows.getD i ([], []))
          let rb := (bRows.map (matRow op.slotB op.kk)).getD n ⟨⟨0, 0⟩, [], false⟩
          let old := if op.z then ix.map fun _ => (0 : Word) else ix.map t0.word
          let out := outValue op old ra rb
          t.word ix[j] = out.getD j (t0.word ix[j]) ∧
          (j < out.length → t.mark ix[j] = (ra.marked || rb.marked ||
            (!op.z && if op.kind = .mmac then t0.mark ix[j] else ix.any t0.mark))))) ∧
  ∀ (s : State) (p : Party) (addr key : Nat) (ps : List Piece) (m : Marked), s.isCopy p = false →
    (∀ x ∈ ps, x.key = key ∧ ∃ a, x.place = .pa a) →
    let cells := ps.flatMap fun x => match x.place with
      | .pa a => (List.range x.bytes).map fun i => cellOf x.layout (a + i)
      | _ => []
    cells.Nodup → (∀ x ∈ cells, s.isPeer x = false) →
    let t := s.storeRow p addr ps m
    (∀ e ∈ cells.zip (m.map (·.1)), t.readCell key e.1 = e.2) ∧
    ∀ cell, cell ∉ cells → s.isPeer cell = false → t.readCell key cell = s.readCell key cell

/-! ### Bank engines (R311 to R315) -/

/-- BMV, BMVA and BRED check their command, lock its ranges and join the operations of their workgroup (R312, R313); BSTAT reads the
oldest (R315). -/
def Claims.BankIssue : Prop :=
  ∀ (s s1 : State) (c : Ctx) (h : Head) (kgrp : BitVec 3) (kd : BitVec 6) (inst w : Nat) (g : Wg), s.once c h inst w g →
    (s.fencePending c.core c.party s.nextId = false → s.completes c (.bstat h kd) [kd.toNat, kd.toNat + 1] [] fun t =>
      (t.warp c.ref).kPair kd.toNat = match g.bankOps with
        | [] => 0
        | o :: _ => BitVec.ofNat 64 (o.progress * 2 ^ 32 + (if o.parked then 2 ^ 31 else 0) + g.bankOps.length % 64 * 2 ^ 16 +
            o.cmd.tag)) ∧
    ∀ p ∈ [(Instr.bmv, 0), (.bmva, 1), (.bred, 2)],
      let a := s.agentHere c inst
      let cmd : BankCmd := ⟨(s.warp c.ref).kBlock (8 * kgrp.toNat), p.2⟩
      let spans := cmd.spans (s.wgSlot inst cmd.fs)
      blockMark s c kgrp.toNat 8 = false → s.checkBank inst false cmd = none → g.bankOps.length < 63 → s.engineFirst a = true →
      s.fencePending c.core c.party s.nextId = false → s.unlocked c.core c.party s.nextId = false →
      (s.engineGo a).takeLocks a s.nextId spans = some s1 →
      ∃ t g' o, exec (p.1 h kgrp) s = .next t ∧ s.movedOn t c ∧ s.regsKept t c [] [] ∧ s.flew t c h [] none ∧
        (s.queued t c fun o => o.eff = .bank cmd ∧ o.left = false) ∧ t.wg? inst = some g' ∧ g'.bankOps = g.bankOps ++ [o] ∧
        o.id = s.nextId ∧ o.cmd = cmd ∧ o.flag = h.flag.toNat ∧ o.progress = 0 ∧
        ∀ y ∈ spans, s.spanLock a s.nextId y ∈ (t.core c.core).locks

/-- The bank engines take the oldest command of a workgroup's buffer, perform one row block after another, end the operation after its
last row, and post results in order (R312 to R314, R443). -/
def Claims.BankEngine : Prop :=
  (∀ (s s1 : State) (inst id : Nat) (g : Wg) (e : QEntry) (rest : List (QEntry × Nat)), s.cur = .wg inst → s.wg? inst = some g →
    g.bankBuf.filled = (e, id) :: rest → g.resting = false → g.bankOps.length < 63 → s.lockFull g.core 3 = false →
    let cmd : BankCmd := ⟨entryBits e.data, ((entryBits e.data).extractLsb' 251 2).toNat⟩
    let op := BankOp.new id 0 { s.agentOf inst e.party with active := e.lanes } cmd true e.clk
    let taken := s.modWg inst fun g => { g with bankBuf := { g.bankBuf with filled := rest }, bankOps := g.bankOps ++ [op] }
    s.checkBank inst true cmd = none → taken.takeLocks (s.agentOf inst e.party) id (cmd.spans (s.wgSlot inst cmd.fs)) = some s1 →
    exec .bankCommandTake s = .next s1 ∧ ∃ g', s1.wg? inst = some g' ∧ g'.bankBuf.filled = rest ∧ g'.bankOps = g.bankOps ++ [op]) ∧
  (∀ (s s1 : State) (inst : Nat) (g : Wg) (o o' : BankOp), s.cur = .wg inst → s.wg? inst = some g → s.bankNext inst = some o →
    s.hasLocks (s.agentOf inst o.party).core o.id = true →
    (s.dropOp (s.agentOf inst o.party).core o.id).bankBlock (s.agentOf inst o.party) o = .ok (o', s1) →
    o'.progress = o.progress + min (o.cmd.rows - o.progress) (rowsPerPage (s.wgSlot inst o.cmd.fs)) ∧
    ∃ t g', exec .bankRowBlock s = .next t ∧ (∀ v, t.mem.read v = s1.mem.read v) ∧ t.wg? inst = some g' ∧
      (o'.progress ≠ o.cmd.rows → ∃ p ∈ g'.bankOps, p.id = o'.id ∧ p.progress = o'.progress ∧ p.posting = o'.posting) ∧
      (o'.progress = o.cmd.rows → if o.cmd.post then ∃ p ∈ g'.bankOps, p.id = o'.id ∧ p.posting = true
        else ∀ p ∈ g'.bankOps, p.id ≠ o'.id)) ∧
  ∀ (s : State) (inst : Nat) (g : Wg) (o : BankOp), s.cur = .wg inst → s.wg? inst = some g →
    g.bankOps.find? (fun o => o.posting) = some o → g.bankDone.length < 64 → o.cmd.post = true →
    ∃ t g', exec .bankResultPost s = .next t ∧ t.wg? inst = some g' ∧
      g'.bankDone = g.bankDone ++ [⟨o.entry, 0, o.party, o.done, (s.core g.core).cycle, 0⟩] ∧ (∀ p ∈ g'.bankOps, p.id ≠ o.id) ∧
      ∀ v, t.mem.read v = s.mem.read v

/-- Matrix instructions sign their round and enter tile order. -/
def Obligations.MatrixInstructions : Prop := Claims.MatrixSigning ∧ Claims.MatrixIssue

/-- The matrix engine performs operations block by block. -/
def Obligations.MatrixOperations : Prop := Claims.MatrixEngine ∧ Claims.MatrixBlockResult

/-- Bank instructions and the bank engines. -/
def Obligations.BankOperations : Prop := Claims.BankIssue ∧ Claims.BankEngine

/-! ### The system instructions (R335 to R350) -/

/-- Only control clauses admit the system instructions; one that a user warp issues traps with 0x1e0 and has no effect, and no Beryl
program can encode them (R337). In a screen copy the trap ends the copy instead (R429). -/
def Obligations.SystemTrapsInUserWarps : Prop :=
  ∀ p ∈ [Instr.rdsr, .wrsr, .eret, .savewg, .restwg, .tlbi, .flushs, .halt], ∀ (h : Head) (b : BodyS),
    (p h b).admitted = [.ctl] ∧ (∀ w, decodeBeryl w ≠ some (p h b)) ∧ (∀ w, decodeCompressed w ≠ some (p h b)) ∧
    (∀ (n : Next) (pc : DWord), n.legal pc (p h b) = true → ClauseClass.of (hdrClass n.hdr) = some .ctl) ∧
    ∀ (s : State) (c : Ctx) (i w : Nat), s.ctx? = some c → c.ref = .user i w →
      (s.inCopy c = false → ∃ t, exec (p h b) s = .next t ∧ s.trapsPrecisely t c h (.code_ 0x1e0)) ∧
      (s.inCopy c = true → ∃ t g, exec (p h b) s = .next t ∧ t.wg? i = some g ∧ g.copyFault = true ∧ t.mem = s.mem ∧ t.cores = s.cores)

/-- RDSR in the supervisor warp (R338, R344, R425) completes with the value of every register: a trap register from the selected record,
zero where no trap is pending, and zero for a register that is only written (R5). It waits until the selected record is 64 cycles old;
it raises 0x1e1 for the registers of the management controller and 0x000 for a number that names no register. That a write-only register
reads zero, and that QUEUED of swstat counts the switch that runs, are the model's readings (logs 28, 58). -/
def Obligations.RegisterReads : Prop :=
  ∀ (s : State) (c : Ctx) (h : Head) (b : BodyS) (n : Nat) (d : BitVec 8), s.ctx? = some c → c.ref = .sup n →
    c.executes s h = true → b.dst = .u d →
    let reg := b.sreg.toNat
    let k := s.core n
    let r := s.ctxs.get CtxRegs.zero k.ctxsel
    let q := s.lq k.lqsel
    let reads := fun (x : DWord) => s.writes c h (.rdsr h b) b.dst true fun _ => (x, false)
    let traps := fun (code : Nat) => ∃ t, exec (.rdsr h b) s = .next t ∧ s.trapsPrecisely t c h (.code_ code)
    let num := fun (x : Nat) => BitVec.ofNat 64 x
    -- traps and the selectors of the core
    (∀ p ∈ [(0x001, k.tvec), (0x002, s.tpend n),
        (0x003, num ((if k.loader.trap.isSome then 1 else 0) + (if k.storer.trap.isSome then 2 else 0))), (0x004, k.tsel),
        (0x00e, num k.wgsel), (0x00f, num k.ctxsel), (0x010, num k.lqsel)], reg = p.1 → reads p.2) ∧
    -- launch queues, budgets, tape
    (∀ p ∈ [(0x011, q.base), (0x012, q.ctl), (0x013, num q.head), (0x014, num q.tail), (0x015, num q.free),
        (0x018, num r.blklim), (0x019, r.fillbud), (0x01a, num k.pcand), (0x01b, s.tapeown n)], reg = p.1 → reads p.2) ∧
    -- translation
    (∀ p ∈ [(0x020, r.root), (0x021, s.tagbase), (0x022, k.atsel), (0x024, num k.keysel),
        (0x025, match s.keys.get none k.keysel with | some o => num (1 + o * 2 ^ 32) | none => 0), (0x026, s.sdstat),
        (0x027, num s.tiercap)], reg = p.1 → reads p.2) ∧
    (reg = 0x023 → (k.atsel.extractLsb' 16 3).toNat ≤ 5 →
      reads (s.accessEntry (k.atsel.extractLsb' 16 3).toNat (k.atsel.extractLsb' 0 12).toNat)) ∧
    -- gang
    (∀ p ∈ [(0x030, s.gangcfg), (0x031, num ((BitVec.ofInt 32 s.gangOffset).toNat * 2 ^ 16 + s.clockState % 4)),
        (0x032, num (s.gen + s.gangCtx * 65536)), (0x034, num (s.switches.length * 16 + s.swStatus)), (0x035, s.gdrop),
        (0x036, num (k.gfsel + (if s.gfaulted.contains k.gfsel then 2 ^ 63 else 0))), (0x037, s.paptbase), (0x038, num s.gloss)],
      reg = p.1 → reads p.2) ∧
    -- reliability and power
    (∀ p ∈ [(0x040, s.evbase), (0x041, num s.evhead), (0x042, num s.evtail), (0x043, num s.evlost), (0x044, num k.pwrsel),
        (0x045, (s.cluster k.pwrsel).word), (0x046, r.scrctl), (0x048, num s.mbxstat), (0x049, k.relcnt)], reg = p.1 → reads p.2) ∧
    (∀ q r, s.selected n = some (q, r) →
      (r.settled k.cycle = true → ∀ p ∈ [(0x005, r.cause), (0x006, r.pc), (0x007, r.resume),
          (0x008, if 2 ≤ (r.cause.extractLsb' 12 3).toNat ∧ (r.cause.extractLsb' 12 3).toNat ≤ 4 then 0 else r.word), (0x009, r.addr),
          (0x00a, r.info), (0x00b, r.lanes), (0x00c, r.eng)], reg = p.1 → reads p.2) ∧
      (r.settled k.cycle = false → 0x005 ≤ reg → reg ≤ 0x00c → s.waits c (.rdsr h b) fun _ => True)) ∧
    (s.selected n = none → 0x005 ≤ reg → reg ≤ 0x00c → reads 0) ∧
    (reg ∈ [0x00d, 0x033, 0x047] → reads 0) ∧
    (0x0c0 ≤ reg ∧ reg ≤ 0x0ff → traps 0x1e1) ∧
    (reg = 0x000 ∨ reg ∈ [0x016, 0x017] ∨ (0x01c ≤ reg ∧ reg ≤ 0x01f) ∨ (0x028 ≤ reg ∧ reg ≤ 0x02f) ∨ (0x039 ≤ reg ∧ reg ≤ 0x03f) ∨
      (0x04a ≤ reg ∧ reg ≤ 0x0bf) ∨ 0x100 ≤ reg → traps 0x000)

/-- WRSR, and SYSREG_WRITE, give a register that only keeps a value the bits that it has (R344): it reads back so. WRSR changes
no memory, no row and no register of its warp. A write of a read-only register raises 0x1e1. evbase keeps a LOG2 out of range as it is
written (the model's reading: log 29). -/
def Claims.RegisterReadBack : Prop :=
  ∀ p ∈ ([(0x001, 2 ^ 64 - 1), (0x004, 0x7f), (0x00e, 0xf), (0x00f, 0xfff), (0x010, 0x3f), (0x018, 2 ^ 32 - 1), (0x019, 2 ^ 64 - 1),
      (0x020, 0xffffffff0001), (0x021, 0xffffffff0001), (0x022, 0x70fff), (0x024, 0xfff), (0x037, 0xffffffff0001),
      (0x040, 0xfffffffff03f), (0x042, 2 ^ 32 - 1), (0x044, 0x1f), (0x046, 0x3f)] : List (BitVec 12 × Nat)),
  ∀ (s : State) (n : Nat),
    (∀ v : DWord, (p.1 = 0x046 → v.extractLsb' 0 5 = 0 ∨ (4 ≤ (v.extractLsb' 0 5).toNat ∧ (v.extractLsb' 0 5).toNat ≤ 16)) →
      ∃ t, exec (.sysregWrite n p.1 v) s = .next t ∧ readReg t n p.1.toNat = .ok (some (v &&& BitVec.ofNat 64 p.2))) ∧
    ∀ (c : Ctx) (h : Head) (b : BodyS), s.ctx? = some c → c.ref = .sup n → c.executes s h = true →
      let v : DWord := match b.sa with | .imm x => x.signExtend 64 | o => s.uni64 c o
      (b.sreg = p.1 → (p.1 = 0x040 → s.eventHold = []) →
        (p.1 = 0x046 → v.extractLsb' 0 5 = 0 ∨ (4 ≤ (v.extractLsb' 0 5).toNat ∧ (v.extractLsb' 0 5).toNat ≤ 16)) →
        s.completes c (.wrsr h b) [] [] fun t => readReg t n p.1.toNat = .ok (some (v &&& BitVec.ofNat 64 p.2))) ∧
      (b.sreg.toNat ∈ [0x002, 0x003, 0x005, 0x006, 0x008, 0x009, 0x00a, 0x00b, 0x00c, 0x013, 0x015, 0x025, 0x026, 0x027, 0x031,
          0x032, 0x034, 0x035, 0x038, 0x041, 0x043, 0x045, 0x048, 0x049] → s.inCopy c = false →
        ∃ t, exec (.wrsr h b) s = .next t ∧ s.trapsPrecisely t c h (.code_ 0x1e1))

/-- The registers with a behaviour of their own: an access-table entry keeps CLASS10 and above (R391), and no other changes;
tapeown binds an unbound tape to a resident workgroup, or empties it (R447); lqtail publishes entries that fit (R357). -/
def Claims.RegisterActions : Prop :=
  ∀ (s : State) (n : Nat) (v : DWord),
    (let tgt := ((s.core n).atsel.extractLsb' 16 3).toNat
     let ctx := ((s.core n).atsel.extractLsb' 0 12).toNat
     tgt < 5 → ∃ t, exec (.atvalWrite n v) s = .next t ∧
       (t.accessEntry tgt ctx).extractLsb' 0 40 = v.extractLsb' 0 40 ∧
       (t.accessEntry tgt ctx).extractLsb' 40 4 = (s.accessEntry tgt ctx).extractLsb' 40 4 ∧
       (∀ tgt' ctx', ctx' < 4096 → (tgt', ctx') ≠ (tgt, ctx) → t.accessEntry tgt' ctx' = s.accessEntry tgt' ctx') ∧
       { t with access := s.access } = s) ∧
    (v.getLsbD 63 = true → ∀ i, s.inSlot n (v.extractLsb' 0 4).toNat = some i → (s.core n).tape.owner = none →
      ∃ t, exec (.tapeownBind n v) s = .next t ∧ (t.core n).tape = { (s.core n).tape with owner := some i } ∧ t.mem = s.mem) ∧
    (v.getLsbD 63 = false → ∃ t, exec (.tapeownUnbind n v) s = .next t ∧ (t.core n).tape.owner = none ∧
      (t.core n).tape.head = (t.core n).tape.tail ∧ (∀ i, (t.core n).tape.ctr.get 0 i = 0) ∧ t.mem = s.mem) ∧
    ∀ q < 64, let l := s.lq q
      ∃ t, exec (.lqtailWrite q v) s = .next t ∧ t.mem = s.mem ∧ t.lq q = { l with tail :=
        if (v.toNat % 2 ^ 32 + 2 ^ 32 - l.head) % 2 ^ 32 ≤ l.size then v.toNat % 2 ^ 32 else l.tail }

/-- ERET (R343): with mode 0 the threads of the trapping group resume at tresume; with mode 1 every thread of the warp ends and
its workgroup counts as faulted; a Beryl core resumes at tresume, or ends. The supervisor warp is idle again. -/
def Obligations.EretReturns : Prop :=
  ∀ (s : State) (c : Ctx) (h : Head) (b : BodyS) (n : Nat) (r : TrapRec), s.ctx? = some c → c.ref = .sup n →
    c.executes s h = true → r.parked = none →
    (∀ i w x, s.selected n = some (.warp i w, r) → s.warp? (.user i w) = some x → x.trap = some r →
      (∀ l < 32, r.group.has l = true → (x.thread l).pc = r.pc) →
      (b.sa.immNat = 0 → ∃ t, exec (.eret h b) s = .next t ∧ (t.core n).sup.awake = false ∧ t.mem = s.mem ∧
        (t.warp (.user i w)).trap = none ∧
        (∀ l < 32, r.group.has l = true → (x.thread l).exited = false → ((t.warp (.user i w)).thread l).pc = r.resume) ∧
        (∀ l < 32, r.group.has l = false → (t.warp (.user i w)).thread l = x.thread l) ∧
        (t.warp (.user i w)).yielding = (if r.resume = r.resume0 then x.yielding else x.yielding &&& ~~~r.group) ∧
        { (t.warp (.user i w)) with threads := x.threads, trap := x.trap, readySince := x.readySince, yielding := x.yielding } = x) ∧
      (b.sa.immNat = 1 → ∃ t, exec (.eret h b) s = .next t ∧ (t.core n).sup.awake = false ∧ (t.warp (.user i w)).trap = none ∧
        (∀ l < 32, ((t.warp (.user i w)).thread l).exited = true) ∧
        (∀ l < 32, (x.thread l).exited = false → ((t.warp (.user i w)).thread l).st = .exited .fault) ∧
        ∃ g, t.wg? i = some g ∧ g.faulted = true)) ∧
    ∀ i which, s.selected n = some (.beryl i which, r) →
      (b.sa.immNat = 0 → ∃ t, exec (.eret h b) s = .next t ∧ (t.core n).sup.awake = false ∧
        (t.beryl n which).st = 1 ∧ (t.beryl n which).pc = r.resume ∧ (t.beryl n which).trap = none ∧
        (t.beryl n which).x = (s.beryl n which).x) ∧
      (b.sa.immNat = 1 → ∃ t, exec (.eret h b) s = .next t ∧ (t.core n).sup.awake = false ∧
        (t.beryl n which).st = 2 ∧ (t.beryl n which).trap = none)

/-- SAVEWG and RESTWG (R346, R371 to R375): SAVEWG answers 1 for an empty slot and 2 for an area that cannot take the workgroup; a
workgroup at rest is saved and leaves the core; another is brought to rest first, and SAVEWG waits. RESTWG answers 2 for an area
that holds no saved workgroup, 3 when a member of the team lives in another cluster, 1 when the core has no room, and otherwise
places the workgroup on a core with room and answers its slot. Which workgroup an area holds the model keeps beside the area (log 9). -/
def Obligations.SaveAndRestore : Prop :=
  ∀ (s : State) (c : Ctx) (h : Head) (b : BodyS) (n : Nat) (d : BitVec 8), s.ctx? = some c → c.ref = .sup n →
    c.executes s h = true → c.guardMarks s h = 0 → b.dst = .u d → (s.core n).supWait = none →
    (∀ o ∈ (s.core n).ops, o.party ≠ .sup n) →
    let slot := (s.core n).wgsel
    let area := s.uni64 c b.sa
    let answers := fun (i : Instr) (x : Nat) =>
      s.completes c i [d.toNat] [] fun t => (t.warp c.ref).kGet d.toNat = BitVec.ofNat 32 x
    (s.inSlot n slot = none → answers (.savewg h b) 1) ∧
    (∀ i g, s.inSlot n slot = some i → i < supBase → s.wg? i = some g →
      (s.areaOk area i g = false → answers (.savewg h b) 2) ∧
      (s.areaOk area i g = true → g.saveTo = none →
        (g.frozen = true → ∃ t, exec (.savewg h b) s = .next t ∧ s.movedOn t c ∧ (t.warp c.ref).kGet d.toNat = 0 ∧
          t.wg? i = none ∧ ∃ x, assoc? t.saved area = some x ∧ x.inst = i ∧
            x.rows = g.pool.map fun r => (s.getRow (rowHome g.core r)).seenBy g.ctx) ∧
        (g.frozen = false → s.waits c (.savewg h b) fun t =>
          (t.core n).supWait = some ⟨c.group, 1, i⟩ ∧ ∃ g', t.wg? i = some g' ∧ g'.saveTo = some area))) ∧
    (area.toNat % 4096 ≠ 0 ∨ s.readable 0 area.toNat 16384 = false ∨ s.savedIn area.toNat = none → answers (.restwg h b) 2) ∧
    ∀ home x, area.toNat % 4096 = 0 → s.readable 0 area.toNat 16384 = true → s.savedIn area.toNat = some (home, x) →
      s.readable 0 area.toNat x.areaLen = true → x.inst < supBase →
      (s.teamElsewhere n x = true → answers (.restwg h b) 3) ∧
      (s.teamElsewhere n x = false → s.fitsSaved n x = false → answers (.restwg h b) 1) ∧
      (s.teamElsewhere n x = false → s.fitsSaved n x = true → ∃ t g, exec (.restwg h b) s = .next t ∧ s.movedOn t c ∧
        t.wg? x.inst = some g ∧ g.core = n ∧ (t.warp c.ref).kGet d.toNat = BitVec.ofNat 32 (g.slot * 256) ∧
        assoc? t.saved home = none)

/-- TLBI drops what it covers from every cache at once, and completes when no operation holds a pinned page that it covers and no
access issued before it is in flight (R347, R385, R387, R388); FLUSHS sends what waits for eviction in a page, or in the whole
shared level, to the stack arrays, with bit 0 its lines leave the shared level, and it blocks until what was sent has arrived (R348,
R423); HALT stops the warps of its core and reports it (R349). None has another effect on memory or registers, and a reserved form
has none at all. -/
def Claims.InvalidateFlushHalt : Prop :=
  ∀ (s : State) (c : Ctx) (h : Head) (b : BodyS) (n : Nat), s.ctx? = some c → c.ref = .sup n → c.executes s h = true →
    (∀ o ∈ (s.core n).ops, o.party ≠ .sup n) →
    let x := s.uni64 c b.sa
    let kind := (x.extractLsb' 0 2).toNat
    let va := x &&& ~~~0xffff
    let f := covers kind (s.core n).ctxsel va
    let y : Shoot := ⟨n, kind, (s.core n).ctxsel, va, s.clockNs, s.nextId, s.shootSeq⟩
    ((s.core n).supWait = none →
      (kind = 3 ∨ x.extractLsb' 2 14 ≠ 0 → s.completes c (.tlbi h b) [] [] fun t => ∀ m, (t.core m).tlb = (s.core m).tlb) ∧
      (kind ≠ 3 → x.extractLsb' 2 14 = 0 → s.holders y.pins = 0 → s.inFlight s.nextId = false →
        s.completes c (.tlbi h b) [] [] fun t => ∀ m, ∀ e, (e ∈ (t.core m).tlb ↔ e ∈ (s.core m).tlb ∧ f e = false) ∧
          (e ∈ t.tlb2.get [] m ↔ e ∈ s.tlb2.get [] m ∧ f e = false)) ∧
      (kind ≠ 3 → x.extractLsb' 2 14 = 0 → s.holders y.pins ≠ 0 ∨ s.inFlight s.nextId = true →
        s.waits c (.tlbi h b) fun t => (∀ m, (∀ e ∈ (t.core m).tlb, f e = false) ∧ ∀ e ∈ t.tlb2.get [] m, f e = false) ∧
          y ∈ t.shoots ∧ (t.core n).supWait = some ⟨c.group, 2, s.nextId⟩)) ∧
    let sent := fun (t : State) (f : Nat → Bool) =>
      (∀ a, t.arrays.get none a = (s.arrays.get none a).map fun e =>
        if f a && e.newest.isNone then { e with newest := some (s.leaveDue a, false) } else e) ∧
      (x.getLsbD 0 = true → ∀ m, ∀ l ∈ t.lines.get [] m, f (128 * l.no) = false) ∧ (x.getLsbD 0 = false → t.lines = s.lines)
    let flushes := fun (f : Nat → Bool) =>
      ((s.flushs x f).onWay f s.flushDue = false → s.completes c (.flushs h b) [] [] fun t => sent t f) ∧
      ((s.flushs x f).onWay f s.flushDue = true → s.waits c (.flushs h b) fun t => sent t f ∧
        (t.core n).supWait = some ⟨c.group, 3, s.flushDue⟩)
    ((s.core n).supWait = none →
      (x.extractLsb' 2 14 ≠ 0 ∨ (x.getLsbD 1 = false ∧ s.pageFrame va = none) →
        s.completes c (.flushs h b) [] [] fun t => t.arrays = s.arrays ∧ t.lines = s.lines) ∧
      (x.extractLsb' 2 14 = 0 → x.getLsbD 1 = true → flushes fun _ => true) ∧
      (x.extractLsb' 2 14 = 0 → x.getLsbD 1 = false → ∀ p, s.pageFrame va = some p → flushes fun a => a / 65536 == p)) ∧
    (∀ due f, (s.core n).supWait = some ⟨c.group, 3, due⟩ → s.flushScope x = some f →
      (s.onWay f due = false → s.completes c (.flushs h b) [] [] fun t => (t.core n).supWait = none ∧ t.arrays = s.arrays) ∧
      (s.onWay f due = true → s.waits c (.flushs h b) fun t => t.arrays = s.arrays)) ∧
    s.completes c (.halt h b) [] [] fun t => (t.core n).halted = true ∧ n ∈ t.haltReports

/-- The events of the supervisor's core (R342, R345, R349, R350, R425): the wake at tvec with the lowest pending slot selected,
and the registers of the warp kept; a restart after HALT; a record that no replay can withdraw; and writes of ectl, after which a
parked matrix operation goes on and counts on its flags again, or is given up. All 32 threads start at tvec with no meeting, and a
restart clears the supervisor's own record (the model's readings: logs 54, 56). -/
def Claims.SupervisorEvents : Prop :=
  ∀ (s : State) (n : Nat), s.cur = .core n →
    let k := s.core n
    (k.sup.awake = false → k.halted = false → k.offline = false → ∀ i,
      ((s.tpend n).getLsbD i = true ∧ ∀ j < i, (s.tpend n).getLsbD j = false) ∨
        (s.tpend n = 0 ∧ (i = 64 ∧ k.loader.trap ≠ none ∨ i = 65 ∧ k.loader.trap = none ∧ k.storer.trap ≠ none)) →
      ∃ t, exec .supervisorWake s = .next t ∧ (t.core n).tsel.toNat = i ∧ (t.core n).sup.awake = true ∧ t.mem = s.mem ∧
        (∀ l < 32, let x := (t.core n).sup.thread l
          x.pc = k.tvec ∧ x.clause = none ∧ x.st = .ready ∧ x.m = none ∧ x.stack = []) ∧
        (t.core n).sup.k = k.sup.k ∧ (t.core n).sup.map = k.sup.map ∧ (t.core n).supRows = k.supRows) ∧
    (k.halted = true → k.offline = false → ∃ t, exec .coreRestart s = .next t ∧ (t.core n).halted = false ∧
      { (t.core n) with halted := true, sup := { (t.core n).sup with trap := k.sup.trap } } = k) ∧
    (∀ i w r x, s.selected n = some (.warp i w, r) → s.warp? (.user i w) = some x → x.trap = some r → r.aged = false →
      r.cycle + 64 ≤ k.cycle →
      ∃ t, exec .trapRecordAged s = .next t ∧ t.warp (.user i w) = { x with trap := some { r with aged := true } }) ∧
    ∀ i w r p m, s.selected n = some (.warp i w, r) → r.parked = some p → k.mats = [m] → m.id = p.id → m.parked = true →
      (s.wg? i).isSome = true →
      (∃ t, exec .ectlResume s = .next t ∧ (t.core n).mats = [{ m with parked := false }] ∧
        ∀ f, m.flags = [(w, f)] → 1 ≤ f → (s.warp? (.user i w)).isSome = true →
          (t.warp (.user i w)).cf.get 0 (f - 1) = (s.warp (.user i w)).cf.get 0 (f - 1) + 1) ∧
      ∃ t, exec .ectlAbandon s = .next t ∧ (∀ m' ∈ (t.core n).mats, m'.id = m.id → m'.complete = true ∧ m'.parked = false) ∧
        ∀ l ∈ (t.core n).locks, l.op ≠ m.id

/-- WRSR and the registers with a behaviour of their own. -/
def Obligations.RegisterWrites : Prop := Claims.RegisterReadBack ∧ Claims.RegisterActions

/-- TLBI, FLUSHS, HALT and the events of the supervisor. -/
def Obligations.SupervisorControl : Prop := Claims.InvalidateFlushHalt ∧ Claims.SupervisorEvents

/-! ### The Beryl cores (R317 to R320) -/

/-- Ordinary RISC-V instructions of a Beryl core (R13, R317; encodings and semantics of the RISC-V specification, log 18):
arithmetic, transfers, and FENCE. -/
def Claims.BerylArithmetic : Prop :=
  ∀ (s : State) (c : Option (BitVec 16)) (x : BCtx), s.bctx? (if c.isSome then 2 else 4) = some x →
    let pc := x.b.pc
    let next := pc + BitVec.ofNat 64 x.len
    let keeps := fun (t : State) => s.berylOnly t x.core x.which ∧ (t.beryl x.core x.which).settled = x.b.settled ∧
      (t.beryl x.core x.which).dstore = x.b.dstore ∧ (t.beryl x.core x.which).reservation = x.b.reservation
    ∀ (rd rs1 rs2 : BitVec 5) (i12 : BitVec 12) (i20 : BitVec 20) (sh6 : BitVec 6) (sh5 : BitVec 5) (f : RvAlu) (m : RvMul)
      (q : RvCond) (fm pred succ : BitVec 4),
    let a := x.reg rs1
    let b := x.reg rs2
    (∀ p ∈ [(Rv.lui rd i20, ((i20 ++ (0 : BitVec 12) : BitVec 32).signExtend 64 : DWord)),
        (.auipc rd i20, pc + (i20 ++ (0 : BitVec 12) : BitVec 32).signExtend 64),
        (.opImm f rd rs1 i12, f.eval a (i12.signExtend 64)), (.shImm f rd rs1 sh6, f.eval a (sh6.setWidth 64)),
        (.op f rd rs1 rs2, f.eval a b), (.addiw rd rs1 i12, (a.setWidth 32 + i12.signExtend 32 : Word).signExtend 64),
        (.shImmW f rd rs1 sh5, f.evalW a (sh5.setWidth 64)), (.opW f rd rs1 rs2, f.evalW a b),
        (.mulDiv m rd rs1 rs2, m.eval a b), (.mulDivW m rd rs1 rs2, m.evalW a b)],
      s.berylDoes x (.berylInstruction p.1 c) next rd p.2 keeps) ∧
    s.berylDoes x (.berylInstruction (.jal rd i20) c) (pc + (i20 ++ (0 : BitVec 1) : BitVec 21).signExtend 64) rd next keeps ∧
    s.berylDoes x (.berylInstruction (.jalr rd rs1 i12) c) ((a + i12.signExtend 64) &&& ~~~1) rd next keeps ∧
    s.berylDoes x (.berylInstruction (.branch q rs1 rs2 i12) c)
      (if q.holds a b then pc + (i12 ++ (0 : BitVec 1) : BitVec 13).signExtend 64 else next) 0 0 keeps ∧
    s.berylDoes x (.berylInstruction (.fence fm pred succ rd rs1) c) next 0 0 keeps

/-- Loads, stores, LR, SC and AMO reach the data store of the core, 16 KiB at 0x10000, and its exceptions stop it with cause
0x120: an access outside the store, ECALL, EBREAK and an instruction that is not defined (R317; log 18). -/
def Claims.BerylDataStore : Prop :=
  ∀ (s : State) (c : Option (BitVec 16)) (x : BCtx), s.bctx? (if c.isSome then 2 else 4) = some x →
    let next := x.b.pc + BitVec.ofNat 64 x.len
    let base := 0x10000
    let bytes := fun (k : State → Beryl) (t : State) (a n : Nat) =>
      (leNat ((List.range n).map fun i => (k t).dstore.get 0 (a - base + i)) : Nat)
    let mine := fun (t : State) => t.beryl x.core x.which
    let stored := fun (t : State) (a n : Nat) (v : DWord) => ∀ j,
      (mine t).dstore.get 0 j = if a - base ≤ j ∧ j < a - base + n then v.extractLsb' (8 * (j - (a - base))) 8 else x.b.dstore.get 0 j
    let keeps := fun (t : State) => s.berylOnly t x.core x.which ∧ (mine t).settled = x.b.settled
    let inside := fun (a n : Nat) => base ≤ a ∧ a + n ≤ base + 0x4000
    ∀ (w : BitVec 2) (uns d aq rl : Bool) (rd rs1 rs2 : BitVec 5) (i : BitVec 12) (f : RvAmo) (q : RvCsrOp) (n12 : BitVec 12),
    let a := x.reg rs1 + i.signExtend 64
    let n := 2 ^ w.toNat
    let r := (x.reg rs1).toNat
    let k := if d then 8 else 4
    let old := BitVec.ofNat 64 (bytes mine s r k)
    (inside a.toNat n →
      s.berylDoes x (.berylInstruction (.load w uns rd rs1 i) c) next rd (extendLoad w.toNat uns (BitVec.ofNat 64 (bytes mine s a.toNat n)))
        (fun t => keeps t ∧ (mine t).dstore = x.b.dstore) ∧
      s.berylDoes x (.berylInstruction (.store w rs1 rs2 i) c) next 0 0 (fun t => keeps t ∧ stored t a.toNat n (x.reg rs2))) ∧
    (inside r k → r % k = 0 →
      s.berylDoes x (.berylInstruction (.lr d aq rl rd rs1) c) next rd (if d then old else (old.setWidth 32).signExtend 64)
        (fun t => keeps t ∧ (mine t).dstore = x.b.dstore ∧ (mine t).reservation = some (r, k)) ∧
      (x.b.reservation = some (r, k) → s.berylDoes x (.berylInstruction (.sc d aq rl rd rs1 rs2) c) next rd 0
        fun t => keeps t ∧ stored t r k (x.reg rs2) ∧ (mine t).reservation = none) ∧
      (x.b.reservation ≠ some (r, k) → s.berylDoes x (.berylInstruction (.sc d aq rl rd rs1 rs2) c) next rd 1
        fun t => keeps t ∧ (mine t).dstore = x.b.dstore ∧ (mine t).reservation = none) ∧
      s.berylDoes x (.berylInstruction (.amo f d aq rl rd rs1 rs2) c) next rd (if d then old else (old.setWidth 32).signExtend 64)
        fun t => keeps t ∧ stored t r k (if d then f.eval old (x.reg rs2)
          else (f.eval (old.setWidth 32 : Word) ((x.reg rs2).setWidth 32)).setWidth 64)) ∧
    (s.copyWg x.b.inst = false →
      (¬ inside a.toNat n → s.berylTraps x (.berylInstruction (.load w uns rd rs1 i) c) (berylExc 5 a) ∧
        s.berylTraps x (.berylInstruction (.store w rs1 rs2 i) c) (berylExc 7 a)) ∧
      s.berylTraps x (.berylInstruction .ecall c) (berylExc 8 0) ∧
      s.berylTraps x (.berylInstruction .ebreak c) (berylExc 3 x.b.pc) ∧
      s.berylTraps x (.berylInstruction (.csr q rd rs1 n12) c) (berylExc 2 (BitVec.ofNat 64 x.b.wordAt)))

/-- A CSR instruction on fqbind reads the register and binds its port as QBIND does (R318); its reserved bits have no effect (R6);
a direction that the kind lacks, an argument that it does not take, or a limit above 64 raises 0x101. -/
def Claims.BerylPorts : Prop :=
  ∀ (s : State) (x : BCtx) (g : Wg) (f : RvCsrOp) (rd src : BitVec 5) (port : BitVec 4), s.bctx? 4 = some x →
    s.wg? x.b.inst = some g →
    let p := port.toNat
    let next := x.b.pc + 4
    let old := x.b.bindWord p
    let v := f.eval old (if f.isImm then src.setWidth 64 else x.reg src)
    let kind := (v.extractLsb' 0 3).toNat
    let recv := v.getLsbD 3
    let qidx := (v.extractLsb' 4 4).toNat
    let allow := (v.extractLsb' 8 7).toNat
    let i : Instr := .fqbindWrite f rd src port
    let binds := fun (q : Port) (e : State → Prop) => s.berylDoes x i next rd old fun t =>
      (∀ j, (t.beryl x.core x.which).ports.get none j = if j = p then some q else x.b.ports.get none j) ∧ e t
    (f.writes src = false → s.berylDoes x i next rd old fun t => s.berylOnly t x.core x.which ∧
      (t.beryl x.core x.which).ports = x.b.ports) ∧
    (f.writes src = true →
      (kind = 0 → allow ≤ 64 → binds ⟨0, recv, qidx⟩ fun t =>
        ∃ g', t.wg? x.b.inst = some g' ∧ (g'.queue_ qidx).entries = (g.queue_ qidx).entries ∧
          (g'.queue_ qidx).limit.get 64 (8 + x.which) =
            if recv = false ∧ allow ≠ 0 then allow else (g.queue_ qidx).limit.get 64 (8 + x.which)) ∧
      (kindRecv kind = some recv → qidx = 0 → allow = 0 → (kind = 5 → s.ownsTape x.core x.b.inst = true) →
        binds ⟨kind, recv, 0⟩ fun _ => True)) ∧
    (f.writes src = true → s.copyWg x.b.inst = false →
      kindRecv kind = some (!recv) ∨ (kind = 0 ∧ 64 < allow) ∨ (kind ≠ 0 ∧ (qidx ≠ 0 ∨ allow ≠ 0)) →
      s.berylTraps x i (indexed 0x101 p))

/-- FQ.SEND sends an entry of the data store when room can be reserved, FQ.RECV takes one into it (R319, R320); without room or
entry they wait, and the forms .TRY answer 1. A port that is not bound raises 0x100, as does a number above 15 (the model's reading:
log 69). -/
def Claims.BerylQueues : Prop :=
  ∀ (s : State) (x : BCtx) (b : BodyX) (g : Wg), s.bctx? 4 = some x → s.wg? x.b.inst = some g →
    let n := (x.reg b.rs1).toNat
    let a := (x.reg b.rs2).toNat
    let next := x.b.pc + 4
    (∀ p, n ≤ 15 → x.b.ports.get none n = some p → a % (4 * entryRegs p.kind) = 0 → 0x10000 ≤ a →
      a + 4 * entryRegs p.kind ≤ 0x14000 →
      (p.recv = false →
        let sent := fun (t : State) => ∃ o, (t.core x.core).ops = (s.core x.core).ops ++ [o] ∧ o.party = x.agent.party ∧
          o.left = false ∧ o.id = s.nextId ∧ o.eff = .entry p x.agent.stage (x.b.words a (entryRegs p.kind))
        (g.maySend x.agent p = true → s.berylDoes x (.fqSend b) next b.rd 0 sent) ∧
        (g.maySend x.agent p = false → s.berylWaits x (.fqSend b) fun t => (t.core x.core).ops = (s.core x.core).ops) ∧
        (p.kind ≠ 6 →
          (g.maySend x.agent p = true → s.berylDoes x (.fqSendTry b) next b.rd 0 sent) ∧
          (g.maySend x.agent p = false → s.berylDoes x (.fqSendTry b) next b.rd 1 fun t => s.berylOnly t x.core x.which))) ∧
      (p.recv = true → (p.kind = 5 → s.ownsTape x.core x.b.inst = true) →
        (∀ ws clk s1, s.popEntry x.agent p = some (ws, clk, s1) → ws.length = entryRegs p.kind →
          ∀ q ∈ [Instr.fqRecv, .fqRecvTry], s.berylDoes x (q b) next b.rd 0 fun t =>
            (t.beryl x.core x.which).words a (entryRegs p.kind) = ws) ∧
        (s.popEntry x.agent p = none → s.berylWaits x (.fqRecv b) (fun _ => True) ∧
          s.berylDoes x (.fqRecvTry b) next b.rd 1 fun t => s.berylOnly t x.core x.which))) ∧
    (s.copyWg x.b.inst = false → 15 < n ∨ x.b.ports.get none n = none →
      ∀ q ∈ [Instr.fqSend, .fqSendTry, .fqRecv, .fqRecvTry], s.berylTraps x (q b) (indexed 0x100 (n % 256)))

/-- FH.GET and FH.WAIT act as HGET and HWAIT, FCP.ISSUE as CPY or CPYT and answers the WP of its last byte, FWP.READ and its
waiting form read WP (R319). That FCP.ISSUE answers the WP that its command will reach is the model's reading (log 69). -/
def Claims.BerylCopies : Prop :=
  ∀ (s : State) (x : BCtx) (b : BodyX) (g : Wg), s.bctx? 4 = some x → s.wg? x.b.inst = some g →
    let inst := x.b.inst
    let next := x.b.pc + 4
    let u := x.reg b.rs1
    let v := x.reg b.rs2
    let h : BitVec 16 := u.setWidth 16
    let ch := g.chan_ u.toNat
    (g.hents ≠ [] → u.toNat % 128 = 0 → v.toNat % 128 = 0 → 128 ≤ v.toNat → v.toNat ≤ 0x200000 →
      g.ownRange u.toNat v.toNat = true →
      (∀ j e, j < g.hents.length → s.handleAt inst j = some e → e.state = 0 →
        (∀ k < j, (s.handleAt inst k).map (·.state) ≠ some 0) →
        s.berylDoes x (.fhGet b) next b.rd ((BitVec.ofNat 32 (e.gen * 1024 + j) : Word).setWidth 64) fun t =>
          t.handleAt inst j = some { e with state := 1, offset := u.toNat, length := v.toNat }) ∧
      ((∀ k < g.hents.length, (s.handleAt inst k).map (·.state) ≠ some 0) → s.berylWaits x (.fhGet b) fun _ => True)) ∧
    (∀ e, s.handle? inst h = some e → v.toNat ≤ 3 →
      (e.state = v.toNat → s.berylDoes x (.fhWait b) next b.rd v fun _ => True) ∧
      (e.state ≠ v.toNat → s.berylWaits x (.fhWait b) fun _ => True)) ∧
    (u.toNat % 32 = 0 → 0x10000 ≤ u.toNat → u.toNat + 32 ≤ 0x14000 →
      ∀ p ∈ [(Instr.fcpIssue, (none : Option Nat)), (.fcpIssueT, some v.toNat)],
      let cmd : CopyCmd := ⟨entryBits (x.b.words u.toNat 8), p.2⟩
      let k := g.chan_ cmd.chan
      ∀ s1, s.checkCopy inst cmd = none → s.engineFirst x.agent = true → s.fencePending x.core x.agent.party s.nextId = false →
      s.unlocked x.core x.agent.party s.nextId = false →
      (s.engineGo x.agent).takeLocks x.agent s.nextId cmd.spans = some s1 → g.copyCompletes cmd.chan = none →
      s.tooLate x.agent.ctx (CopyOp.new s.nextId 0 x.agent cmd true false [] s.clockNs) = false →
      s.berylDoes x (p.1 b) next b.rd (BitVec.ofNat 64 (k.ops.foldl (fun n o => n + (o.cmd.len - o.sent)) k.wp + cmd.len)) fun t =>
        ∃ g' o, t.wg? inst = some g' ∧ (g'.chan_ cmd.chan).ops = k.ops ++ [o] ∧ (g'.chan_ cmd.chan).wp = k.wp ∧
          o.id = s.nextId ∧ o.cmd = cmd ∧ o.sent = 0 ∧ o.party = x.agent.party) ∧
    (u.toNat ≤ 3 → s.berylDoes x (.fwpRead b) next b.rd (BitVec.ofNat 64 ch.wp) (fun t => s.berylOnly t x.core x.which) ∧
      (v.toNat ≤ ch.wp → s.berylDoes x (.fwpReadWait b) next b.rd (BitVec.ofNat 64 ch.wp) fun _ => True) ∧
      (ch.wp < v.toNat → s.berylWaits x (.fwpReadWait b) fun _ => True))

/-- FTIME reads the gang clock and FTIME.WAIT waits for it; FPOLL answers the word that it loads, zero-extended, once its test
holds, and sleeps for 16 to 16384 cycles after each test that fails (R279, R319). The zero extension is the model's reading (log 69). -/
def Claims.BerylTimeAndPoll : Prop :=
  ∀ (s : State) (x : BCtx) (b : BodyX), s.bctx? 4 = some x →
    let next := x.b.pc + 4
    let u := x.reg b.rs1
    let k := x.core
    s.berylDoes x (.ftime b) next b.rd (BitVec.ofNat 64 s.clockNs) (fun t => s.berylOnly t k x.which) ∧
    (u.toNat ≤ s.now.toNat → s.berylDoes x (.ftimeWait b) next b.rd s.now fun t => s.berylOnly t k x.which) ∧
    (s.now.toNat < u.toNat → s.berylWaits x (.ftimeWait b) fun t => s.berylOnly t k x.which ∧
      (t.beryl k x.which).sleep = some (.time u.toNat)) ∧
    ∀ p ∈ [(Instr.fpollEq, fun (w c : Word) => w == c), (.fpollNe, fun w c => w != c), (.fpollLt, fun w c => w.ult c),
      (.fpollLe, fun w c => !c.ult w), (.fpollGt, fun w c => c.ult w), (.fpollGe, fun w c => !w.ult c)],
    ∀ w s1, pollWord s x u = .ok (w, s1) →
      let now := (s.core k).cycle
      (x.b.sleep = none →
        (p.2 w ((x.reg b.rs2).setWidth 32) = true → s.berylDoes x (p.1 b) next b.rd (w.setWidth 64) fun _ => True) ∧
        (p.2 w ((x.reg b.rs2).setWidth 32) = false → s.berylWaits x (p.1 b) fun t =>
          (t.beryl k x.which).sleep = some (.poll (now + 16) 32))) ∧
      ∀ c i, x.b.sleep = some (.poll c i) →
        (now < c → s.berylWaits x (p.1 b) fun t => (t.beryl k x.which).sleep = x.b.sleep) ∧
        (c ≤ now → p.2 w ((x.reg b.rs2).setWidth 32) = false → s.berylWaits x (p.1 b) fun t =>
          (t.beryl k x.which).sleep = some (.poll (now + i) (min (2 * i) 16384)))

/-- Ordinary RISC-V instructions of a Beryl core. -/
def Obligations.BerylInstructions : Prop := Claims.BerylArithmetic ∧ Claims.BerylDataStore

/-- The ports and queue instructions of a Beryl core. -/
def Obligations.BerylPortsAndQueues : Prop := Claims.BerylPorts ∧ Claims.BerylQueues

/-- Handles, copies, time and polls of a Beryl core. -/
def Obligations.BerylCopiesAndTime : Prop := Claims.BerylCopies ∧ Claims.BerylTimeAndPoll

/-! ### Launch queues, admission and retirement (R357 to R369) -/

/-- The dispatcher takes a submitted record, or else the next entry of an enabled queue's ring: a record that passes its checks
becomes a grid of the queue, or, a flow record, completes at once and its successor goes on, up to the 65536th; one that fails them
does not, and an entry that cannot be read disables the queue (R357, R361, R365). A timed grid starts once the gang clock has
reached its time (R364). A head grid that has waited 100 µs reserves a cluster (R366). That a flow record becomes its queue's previous
entry, and what the last record of a chain leaves, are the model's readings (log 41). -/
def Claims.LaunchTaking : Prop :=
  (∀ (s : State) (q : Nat), (s.lq q).en = true →
    let l := s.lq q
    let taken := fun (a : Accepted) (head : Nat) (chain : List (DWord × Nat)) => ∃ t g, exec (.launchEntryTake q) s = .next t ∧
      (t.lq q).head = head ∧ (t.lq q).chain = chain ∧ (t.lq q).grids = l.grids ++ [s.nextId] ∧ t.grid? s.nextId = some g ∧
      g.launch = a.launch ∧ g.queue = q ∧ g.ctx = l.ctx ∧ g.st = .queued ∧ g.nextRoot = 0 ∧ g.retired = 0 ∧ g.prev = l.last ∧
      g.started = !(LaunchRec.timed a.launch)
    let flows := fun (a : Accepted) (n head : Nat) (chain : List (DWord × Nat)) => ∃ t, exec (.launchEntryTake q) s = .next t ∧
      (t.lq q).head = head ∧ (t.lq q).grids = l.grids ∧ t.grids = s.grids ∧
      (n + 1 = 65536 → (t.lq q).chain = chain ∧ (t.lq q).last = l.last) ∧
      (n + 1 ≠ 65536 → (t.lq q).last = some s.nextId ∧ (LaunchRec.cond a.launch = 0 → (t.lq q).chain =
        if LaunchRec.next a.launch = 0 then chain else (LaunchRec.next a.launch, n + 1) :: chain))
    (∀ va n rest a, l.chain = (va, n) :: rest → s.checkRecord l.ctx va.toNat = .ok a →
      (LaunchRec.gridSize a.launch ≠ 0 → taken a l.head rest) ∧ (LaunchRec.gridSize a.launch = 0 → flows a n l.head rest)) ∧
    (l.chain = [] → l.head ≠ l.tail → (∀ e ∈ l.pre, e.1 ≠ l.head) →
      let past := (l.head + 1) % 2 ^ 32
      (∀ d, s.readCtx l.ctx (l.slotVa l.head) 8 2 = .error d → ∃ t, exec (.launchEntryTake q) s = .next t ∧ (t.lq q).en = false ∧
        (t.lq q).head = l.head ∧ (t.lq q).grids = l.grids ∧ t.grids = s.grids) ∧
      ∀ bs, s.readCtx l.ctx (l.slotVa l.head) 8 2 = .ok bs →
      (∀ a, s.checkRecord l.ctx (leNat bs) = .ok a →
        (LaunchRec.gridSize a.launch ≠ 0 → taken a past []) ∧ (LaunchRec.gridSize a.launch = 0 → flows a 0 past [])) ∧
      (∀ b r, s.checkRecord l.ctx (leNat bs) = .error (b, r) → ∃ t, exec (.launchEntryTake q) s = .next t ∧
        (t.lq q).head = past ∧ (t.lq q).grids = l.grids ∧ t.grids = s.grids))) ∧
  (∀ (s : State) (id : Nat) (g : Grid), s.grid? id = some g → g.started = false → LaunchRec.start g.launch ≤ s.now.toNat →
    ∃ t, exec (.timedStartReached id) s = .next t ∧ t.grid? id = some { g with started := true } ∧ { t with grids := s.grids } = s) ∧
  ∀ (s : State) (id since c : Nat) (g : Grid), s.grid? id = some g → g.headSince = some since → id ∈ s.heads → g.reserved = none →
    s.fitsNow id = false → since + 100000 ≤ s.clockNs → s.closest g = some c →
    ∃ t, exec (.headGridReserve id) s = .next t ∧ t.grid? id = some { g with reserved := some c } ∧ { t with grids := s.grids } = s

/-- The distributor admits the workgroup, or the whole team, that R366 and R367 choose (R41, R43, R55): warps stand at the entry
of the root image, the prologue's rows are its pool, and only warp 0 of workgroup 0 has weight; nothing else is then admitted to
its cluster in that cycle. A node workgroup starts, in its queue's turn, at its node's entry with the oldest closed batch of its
bin (R331, R368) and the account of its graph in k63 (R288). -/
def Claims.Admission : Prop :=
  let starts := fun (w : Wg) (r : LaunchRec) (entry : DWord) => w.warps.length = r.warps ∧ w.faulted = false ∧ w.acq = .none ∧
    ∀ x ∈ w.warps, x.trap = none ∧ x.map = [] ∧ x.cf = [] ∧ (∀ j, x.kpGet j = false) ∧
      ∀ l < 32, (x.thread l).pc = entry ∧ (x.thread l).clause = none ∧ (x.thread l).st = .ready
  let weights := fun (w : Wg) (n : Nat) => ∀ j, ∀ x, w.warps[j]? = some x → x.kGet 62 = if j = 0 then BitVec.ofNat 32 n else 0
  (∀ (s : State) (id cluster core : Nat) (g : Grid), s.nextAdmission = some (id, cluster, [core]) → s.grid? id = some g →
    LaunchRec.team g.launch = 1 → s.newInstance.1 < supBase →
    let inst := s.newInstance.1
    ∃ t w g', exec (.workgroupAdmit cluster) s = .next t ∧ t.wg? inst = some w ∧ t.clusterFree cluster = false ∧ w.core = core ∧ w.grid = id ∧ w.ctx = g.ctx ∧
      w.wgid = g.nextRoot ∧ w.node = none ∧ w.pool.length = LaunchRec.prows g.launch ∧ w.far = [] ∧ w.tiles = [] ∧
      starts w g.launch (LaunchRec.wimg g.launch) ∧
      weights w (if LaunchRec.accv g.launch && g.nextRoot = 0 then 2 ^ 31 else 0) ∧
      t.grid? id = some g' ∧ g'.nextRoot = g.nextRoot + 1 ∧ g'.st = .admitting ∧ ∀ j, j ≠ inst → t.wg? j = s.wg? j) ∧
  (∀ (s : State) (id cluster : Nat) (cores : List Nat) (g : Grid), s.nextAdmission = some (id, cluster, cores) → 1 < cores.length →
    s.grid? id = some g → LaunchRec.team g.launch = cores.length → s.nextInst + cores.length ≤ 2 ^ 32 →
    ∃ t is m g', exec (.teamAdmit cluster) s = .next t ∧ is.length = cores.length ∧ t.team? s.nextId = some m ∧ m.members = is ∧
      t.clusterFree cluster = false ∧ t.grid? id = some g' ∧ g'.nextRoot = g.nextRoot + cores.length ∧
      ∀ j < cores.length, ∃ w, t.wg? (is.getD j 0) = some w ∧ w.core = cores.getD j 0 ∧ w.rank = j ∧ w.team = s.nextId ∧
        w.wgid = g.nextRoot + j ∧ w.reserve.isSome = true ∧ starts w g.launch (LaunchRec.wimg g.launch)) ∧
  ∀ (s : State) (id cluster node wgid core : Nat) (g g' : Grid) (e : NodeEnt) (batch : List BinRec), s.grid? id = some g →
    g.nodes[node]? = some e → g.takeBatch cluster node = some (batch, g') → g.freeIndex = some wgid →
    s.nodePlace id cluster = some core → s.admitTurn = some (id, none) → 0 < LaunchRec.warps g.launch → s.newInstance.1 < supBase →
    let inst := s.newInstance.1
    ∃ t w g2, exec (.nodeWorkgroupAdmit id cluster node) s = .next t ∧ t.wg? inst = some w ∧ w.core = core ∧
      w.node = some node ∧ w.wgid = wgid ∧ w.records = batch.flatMap (·.data) ∧ w.recCount = batch.length ∧
      starts w g.launch e.entry ∧ weights w (batchGrains batch) ∧
      (w.warps.getD 0 Warp.init).kGet 63 = BitVec.ofNat 32 (LaunchRec.acct g.launch) ∧ t.grid? id = some g2 ∧ g2.bins = g'.bins ∧
      g2.nextRoot = g.nextRoot ∧ inst ∈ g2.nodeLive ∧ wgid ∈ g2.nodeUse

/-- A workgroup that meets R50 retires: its rows have no reference, its INSTANCE is free, its grid counts it, and a fault. A grid
that R363 calls complete leaves its queue, and the record that follows goes ahead of every untaken entry, behind a chain of flow
records that is being followed (R365, R376). A workgroup that has been stuck beyond its context's limit becomes a candidate (R369).
-/
def Claims.Retirement : Prop :=
  (∀ (s : State) (inst : Nat) (g : Wg) (gr : Grid), s.cur = .wg inst → s.wg? inst = some g → g.copyOf = none → g.screened = false →
    s.mayRetire inst g = true → s.abandonOrphans inst g = s → s.grid? g.grid = some gr → inst < supBase →
    ∃ t gr', exec .workgroupRetire s = .next t ∧ t.wg? inst = none ∧ inst % 2 ^ 32 ∈ t.freeInst ∧ (∀ j, j ≠ inst → t.wg? j = s.wg? j) ∧
      (∀ r ∈ g.pool, (t.getRow (rowHome g.core r)).ref = 0) ∧ t.mem = s.mem ∧ t.grid? g.grid = some gr' ∧
      gr'.retired = (if g.node = none then gr.retired + 1 else gr.retired) ∧
      gr'.faults = (if g.faulted then gr.faults + 1 else gr.faults) ∧
      (g.node ≠ none → inst ∉ gr'.nodeLive ∧ g.wgid ∉ gr'.nodeUse)) ∧
  (∀ (s : State) (id : Nat) (g : Grid), s.grid? id = some g → s.gridDone g = true →
    ∃ t, exec (.gridComplete id) s = .next t ∧ t.grid? id = none ∧ (∀ j, j ≠ id → t.grid? j = s.grid? j) ∧
      id ∉ (t.lq g.queue).grids ∧ (t.lq g.queue).head = (s.lq g.queue).head ∧
      let followed := (s.lq g.queue).chain.takeWhile fun e => e.2 != 0
      (LaunchRec.cond g.launch = 0 → (t.lq g.queue).chain = if LaunchRec.next g.launch = 0 then (s.lq g.queue).chain
        else followed ++ (LaunchRec.next g.launch, 0) :: (s.lq g.queue).chain.drop followed.length)) ∧
  ∀ (s : State) (inst since : Nat) (g : Wg), s.cur = .wg inst → s.wg? inst = some g → g.stuckSince = some since →
    g.candidate = false → s.stuck g = true →
    let lim := (s.ctxs.get CtxRegs.zero g.ctx).blklim
    lim ≠ 0 → since + 1000 * lim < s.clockNs →
    ∃ t g', exec .blockedTimeLimit s = .next t ∧ t.wg? inst = some g' ∧ g'.candidate = true ∧
      (t.core g.core).pcand = (s.core g.core).pcand ||| 2 ^ g.slot

/-- A screened workgroup's copy is admitted as the workgroup was (R429); its end is compared with the workgroup's signature, and
a difference, or a copy that failed, goes to the management controller (R430). A workgroup that has reached rest is saved when a
SAVEWG or a switch asks for it, and else waits frozen (R371, R372). -/
def Claims.CopiesAndRest : Prop :=
  (∀ (s : State) (i core : Nat) (x : Screen) (g : Grid), s.screens[i]? = some x → s.grid? x.grid = some g →
    s.copyPlace x.grid g.launch x.cluster = some core → x.copy = none → s.admissionHeld g.ctx = false → s.newInstance.1 < supBase →
    let inst := s.newInstance.1
    ∃ t w, exec (.screenCopyAdmit i) s = .next t ∧ t.wg? inst = some w ∧ w.copyOf = some x.inst ∧ w.core = core ∧
      w.wgid = x.wgid ∧ (w.warps.getD 0 Warp.init).kGet 62 = 0 ∧ t.screens[i]? = some { x with copy := some inst }) ∧
  (∀ (s : State) (inst : Nat) (g : Wg) (x : Screen), s.cur = .wg inst → s.wg? inst = some g → g.copyOf ≠ none →
    g.copyFault = true ∨ s.mayRetire inst g = true → (s.screens.find? fun y => y.copy == some inst) = some x → inst < supBase →
    ∃ t, exec .screenCopyEnd s = .next t ∧ t.wg? inst = none ∧ (∀ y ∈ t.screens, y.copy ≠ some inst) ∧
      t.reports = if g.copyFault then s.reports ++ [(g.core, 0x187)] else if x.signature = g.signature then s.reports
        else s.reports ++ [(g.core, 0x186)]) ∧
  ∀ (s : State) (inst : Nat) (g : Wg), s.cur = .wg inst → s.wg? inst = some g → s.reachedRest inst g = true →
    s.mates inst g.team = [inst] → inst < supBase →
    (g.saveTo = none → ∃ t g', exec .workgroupAtRest s = .next t ∧ t.wg? inst = some g' ∧ g'.frozen = true ∧ g'.resting = false ∧
      t.mem = s.mem) ∧
    ∀ area, g.saveTo = some area → ∃ t x, exec .workgroupAtRest s = .next t ∧ t.wg? inst = none ∧
      assoc? t.saved area = some x ∧ x.inst = inst ∧ x.rows = g.pool.map fun r => (s.getRow (rowHome g.core r)).seenBy g.ctx

/-! ### The gate unit and translations (R293, R329, R385 to R388) -/

/-- A token's vector is written and its entries wait for room; they go on the tape together, behind its entries (R329). A failed
write stops the layer, as does the gate unit's own access under an access table that denies it; where the table denies the host
the unit, the token is answered with a refusal (R390, R392). An entry names its chosen expert and has zero in its reserved bits (R293).
The classes of the token and of the scoring, 8 and 7 at target 4, are the model's reading (log 67). -/
def Claims.GateUnit : Prop :=
  (∀ (s : State) (token : BitVec 16) (x : List Word), s.gate.bound = true → s.gate.stopped = false → s.up = true →
    let stops := ∃ t, exec (.gateTokenArrive token x) s = .next t ∧ t.gate = { s.gate with stopped := true }
    (s.mayAccess 4 s.gate.ctx 8 2 = false → ∃ t, exec (.gateTokenArrive token x) s = .next t ∧ t.gate = s.gate ∧
      (s.evbase.getLsbD 0 = false → t.mem = s.mem) ∧ t.outbox = s.outbox ++ [⟨none, .host none⟩]) ∧
    (s.mayAccess 4 s.gate.ctx 8 2 = true → s.mayAccess 4 s.gate.ctx 7 1 = false → stops) ∧
    (s.mayAccess 4 s.gate.ctx 8 2 = true → s.mayAccess 4 s.gate.ctx 7 1 = true →
    (∀ s1, s.gateWrite s.gate (s.gate.addr token) x = .ok s1 → ∃ t, exec (.gateTokenArrive token x) s = .next t ∧ t.mem = s1.mem ∧
      t.gate = { s.gate with pending := s.gate.pending ++ [s.gate.entries token x], tokens := s.gate.tokens + 1 }) ∧
    (∀ d, s.gateWrite s.gate (s.gate.addr token) x = .error d → stops) ∧
    ∀ e ∈ s.gate.entries token x, e.extractLsb' 56 8 = 0 ∧ e.extractLsb' 192 16 = token ∧
      ∃ i < s.gate.experts.length, e.extractLsb' 8 8 = BitVec.ofNat 8 i)) ∧
  ∀ (s : State) (es : List (BitVec 256)) (rest : List (List (BitVec 256))), s.gate.pending = es :: rest → s.gate.owner = none →
    let tape := (s.core s.gate.core).tape
    tape.takes es = true → tape.tail < 4096 →
    ∃ t, exec .gateTapeEntryWrite s = .next t ∧ t.gate.pending = rest ∧ t.mem = s.mem ∧
      let tape' := (t.core s.gate.core).tape
      tape'.tail = (tape.tail + es.length) % 4096 ∧ tape'.head = tape.head ∧ tape'.ctr = tape.ctr ∧
      ∀ i < es.length, tape'.ring.get 0 ((tape.tail + i) % 2048) = es.getD i 0

/-- A miss of a core is served by its cluster's TLB, or by a walk, its own or one of the page that it joins; a walk that ends in a
leaf is cached for the core, one that ends in a fault is not, and then no walk of the page is in progress (R385, R386). After
100 µs of a TLBI the matrix operations that hold a pinned page that it covers, read before it, park and hold nothing; an MEPI that
has released its tile goes on (R388; log 83). -/
def Claims.WalksAndShootdowns : Prop :=
  (∀ (s : State) (core : Nat) (ctx : BitVec 12) (va : DWord), tlbFind (s.core core).tlb ctx.toNat va.toNat = none →
    let second := tlbFind (s.tlb2.get [] (clusterOf core)) ctx.toNat va.toNat
    let completes := fun (t : State) => exec (.pageWalkComplete core ctx va) s = .next t ∧ (∀ n, n ≠ core → t.core n = s.core n) ∧
      { t with cores := s.cores, tlb2 := s.tlb2, walkCache := s.walkCache, walks := s.walks } = s
    let finds := fun (x : TlbEntry) => ∃ t, completes t ∧ tlbFind (t.core core).tlb ctx.toNat va.toNat = some x ∧
      (second = none → t.walkOf core ctx.toNat va = none)
    (∀ x, second = some x → finds x) ∧
    ((∀ v ∈ s.walks, v.isFor (dieOf core) ctx.toNat va = true → some v = s.walkOf core ctx.toNat va) → ∀ e large, second = none → s.walkCache.get [] (dieOf core) = [] →
      let x : TlbEntry := ⟨ctx.toNat, pageBase va.toNat large, large, e, s.shootSeq⟩
      (s.walkOf core ctx.toNat va = none → s.walk ctx.toNat .load va = .ok (e, large) → finds x) ∧
      ∀ w, s.walkOf core ctx.toNat va = some w →
        (∀ ps, w.leaf = none → s.walkFrom [] ctx.toNat .load va w.table w.level = .ok (e, large, ps) → finds x) ∧
        ∀ e0, w.leaf = some e0 → s.leafOf .load va (w.level - 1) e0 = .ok (e, large) → finds x) ∧
    ∀ d, second = none → s.walkFor core ctx.toNat .load va = .error d →
      ∃ t, completes t ∧ t.cores = s.cores ∧ t.walkOf core ctx.toNat va = none) ∧
  ∀ (s : State) (n : Nat) (x : Shoot) (m : MatOp), x ∈ s.shoots → x.since + 100000 ≤ s.clockNs → m ∈ (s.core n).mats →
    m.parked = false → m.complete = false → m.holds.any x.pins = true →
    ∃ t, exec .shootdownTimeout s = .next t ∧ (s.evbase.getLsbD 0 = false → t.mem = s.mem) ∧
      ∀ m' ∈ (t.core n).mats, m'.parked = false → m'.released = false → m'.holds.any x.pins = false

/-! ### The gang (R397 to R420) -/

/-- gangcfg, faulted contexts, and the queueing of switches (R398, R402, R403, R410). That a gangcfg with MEMBER above LAST is ignored
and that the switch that runs counts among the queued are log 58; R403 gives no order among its refusals: that of the statuses is the
model's choice. -/
def Claims.GangSetup : Prop :=
  ∀ (s : State),
    (∀ val : DWord, s.wgs = [] → s.saved = [] → val.extractLsb' 16 8 ≤ val.extractLsb' 24 8 →
      ∃ t, exec (.gangcfgWrite val) s = .next t ∧ t.gangcfg = val &&& 0x1ffffffff ∧ t.gen = 0 ∧ t.gangCtx = 0 ∧ t.switches = [] ∧
        t.lastSwitch = none ∧ t.mem = s.mem ∧ t.cores = s.cores ∧ (val.getLsbD 32 = false → t.clockState = 3)) ∧
    (∀ val : DWord, s.wgs ≠ [] ∨ s.saved ≠ [] ∨ val.extractLsb' 24 8 < val.extractLsb' 16 8 → exec (.gangcfgWrite val) s = .next s) ∧
    (∀ ctx : BitVec 12, ∃ t, exec (.gfaultClear ctx) s = .next t ∧ (∀ c, c ∈ t.gfaulted ↔ c ∈ s.gfaulted ∧ c ≠ ctx.toNat) ∧
      { t with gfaulted := s.gfaulted } = s) ∧
    ∀ (core : Nat) (addr : DWord),
      let refused := fun (n : Nat) => ∃ t, exec (.swqWrite core addr) s = .next t ∧ t.swStatus = n ∧ t.switches = s.switches
      (addr.toNat % 64 ≠ 0 → refused 1) ∧
      ∀ bs, addr.toNat % 64 = 0 → s.readCtx 0 addr.toNat 64 2 = .ok bs →
        let r : SwitchRec := BitVec.ofNat 512 (leNat bs)
        (r.reserved = true → refused 1) ∧
        (r.reserved = false → s.tableOk r.outTab r.outN = true → s.tableOk r.inTab r.inN = true →
          let prev := s.previousSwitch
          let spaced := match prev.1 with | some t => t + 50000 ≤ r.t | none => True
          (r.t < s.clockNs + 10000 → refused 2) ∧
          (s.clockNs + 10000 ≤ r.t →
            (¬ spaced → refused 3) ∧
            (spaced → r.gen ≠ (prev.2.1 + 1) % 65536 → refused 4) ∧
            (spaced → r.gen = (prev.2.1 + 1) % 65536 →
              (r.outCtx ≠ prev.2.2 → refused 5) ∧
              (r.outCtx = prev.2.2 →
                (r.inCtx ∈ s.gfaulted → refused 6) ∧
                (r.inCtx ∉ s.gfaulted → 4 ≤ s.switches.length → refused 7) ∧
                (r.inCtx ∉ s.gfaulted → s.switches.length < 4 → ∃ t, exec (.swqWrite core addr) s = .next t ∧ t.swStatus = 0 ∧
                  t.switches = s.switches ++ [⟨r, [], [], 0, [], false, false⟩] ∧ { t with switches := s.switches, swStatus := s.swStatus } = s)))))

/-- A timed switch (R404 to R411): 10 µs before T its tables are read and its outgoing context admits nothing; at T the outgoing
workgroups are brought to rest and saved; then the generation advances, in barrier mode after READY and COMMIT of every member; and
the incoming workgroups are restored. One that is late is told of at T + 20 µs, and its contexts become faulted at T + 500 µs, as
they do by another member's notice. One step of the handshake for each SWITCH_ADVANCE is the model's reading (log 59). -/
def Claims.TimedSwitches : Prop :=
  (∀ (s : State) (w : Switch) (ws : List Switch), s.switches = w :: ws →
    let r : SwitchRec := w.record
    let head := fun (t : State) (w' : Switch) => t.switches = w' :: ws
    let me := s.member + 256 * r.gen
    (w.phase = 0 → r.t ≤ s.clockNs + 10000 → ∃ t w', exec .switchPrestage s = .next t ∧ head t w' ∧ w'.phase = 1 ∧ w'.record = w.record ∧
      w'.outTab = s.areaTable r.outTab r.outN ∧ w'.inTab = s.areaTable r.inTab r.inN ∧ w'.tab = w'.inTab ∧ (r.outCtx ≠ 0 → r.outCtx ∈ t.heldCtxs)) ∧
    (w.phase = 1 → r.t ≤ s.clockNs → ∃ t w', exec .switchSaveStart s = .next t ∧ head t w' ∧ w'.phase = 2 ∧ w'.record = w.record ∧
      ∀ i g a, s.residentsOf r.outCtx = [i] → s.wg? i = some g → g.saveTo = none → g.frozen = false → w.outTab = [a] →
        s.areaOk a i g = true → ∃ g', t.wg? i = some g' ∧ g'.saveTo = some a) ∧
    (w.phase = 2 → w.short = false → s.outSaved w = true →
      let advanced := ∃ t w', exec .switchAdvance s = .next t ∧ head t w' ∧ w'.phase = 3 ∧ t.gen = r.gen ∧ t.gangCtx = r.inCtx ∧ t.mem = s.mem
      (s.clockState ≠ 2 → advanced) ∧
      (s.clockState = 2 → me ∉ s.readySet → ∃ t, exec .switchAdvance s = .next t ∧ t.readySet = s.readySet ++ [me] ∧
        t.outbox = s.outbox ++ [⟨some s.pktHead, .ready r.gen⟩] ∧ t.gen = s.gen) ∧
      (s.clockState = 2 → me ∈ s.readySet → me ∉ s.commitSet → s.allMembers s.readySet r.gen = true →
        ∃ t, exec .switchAdvance s = .next t ∧ t.commitSet = s.commitSet ++ [me] ∧ t.outbox = s.outbox ++ [⟨some s.pktHead, .commit r.gen⟩] ∧ t.gen = s.gen) ∧
      (s.clockState = 2 → me ∈ s.readySet → me ∈ s.commitSet → s.allMembers s.commitSet r.gen = true → advanced)) ∧
    (w.phase = 3 → ∀ s1, s.restoreAll w.inTab = ([], s1) → ∃ t, exec .switchReleased s = .next t ∧ t.switches = ws ∧
      t.lastSwitch = some (r.t, r.gen, r.inCtx) ∧ t.lastTab = w.tab ∧ r.inCtx ∉ t.heldCtxs) ∧
    (w.straggler = false → w.phase < 3 → r.t + 20000 ≤ s.clockNs → s.outSaved w = false ∨ w.short = true →
      ∃ t w', exec .gangStraggler s = .next t ∧ head t w' ∧ w' = { w with straggler := true } ∧
        t.outbox = s.outbox ++ [⟨some s.pktHead, .straggler r.outCtx r.gen⟩]) ∧
    (r.t + 500000 ≤ s.clockNs → w.phase ≠ 0 → ∃ t, exec .switchFaultTimeout s = .next t ∧ t.switches = ws ∧ t.gen = r.gen ∧
      t.gangCtx = 0 ∧ (r.inCtx ≠ 0 → r.inCtx ∈ t.gfaulted) ∧ (s.outSaved w = false → r.outCtx ≠ 0 → r.outCtx ∈ t.gfaulted))) ∧
  ∀ (s : State),
    (∀ (out in_ : BitVec 12) (both : Bool), ∃ t, exec (.faultNoticeReceive out in_ both) s = .next t ∧
      (in_ ≠ 0 → in_.toNat ∈ t.gfaulted) ∧ (both = true → out ≠ 0 → out.toNat ∈ t.gfaulted)) ∧
    ∀ (m : BitVec 8) (gen : BitVec 16), m.toNat ≤ s.gangLast →
      let x := m.toNat + 256 * gen.toNat
      (x ∉ s.readySet → ∃ t, exec (.handshakeReady m gen) s = .next t ∧ t.readySet = s.readySet ++ [x] ∧ { t with readySet := s.readySet } = s) ∧
      (x ∉ s.commitSet → ∃ t, exec (.handshakeCommit m gen) s = .next t ∧ t.commitSet = s.commitSet ++ [x] ∧
        { t with commitSet := s.commitSet } = s)

/-- A packet of the gang is checked for its gang, its age and its generation in that order (R406): it is refused, dropped and
counted, held while the hold buffer of its port has room (R408; log 86), or delivered. A peer access that may be performed is answered
(R416), and refused without an effect where it would race (R142; log 84); a loss notice is counted, and does no more (R412; log 61). -/
def Claims.GangPackets : Prop :=
  (∀ (s : State) (h : PktHead) (m : Message) (from_ : BitVec 8) (id : Nat), s.gen < 65536 →
    let p : Packet := .message h m from_ id
    let age := (s.clockNs / 1000 % 2 ^ 24 + 2 ^ 24 - h.stamp.toNat) % 2 ^ 24
    let ahead := (h.gen.toNat + 65536 - s.gen) % 65536
    let behind := (s.gen + 65536 - h.gen.toNat) % 65536
    let known := s.gangOn = true ∧ h.gang.toNat = s.gangId
    let bump := fun (x : BitVec 32) => if x = BitVec.allOnes 32 then x else x + 1
    ∃ t, exec (.gangPacketArrive p) s = .next t ∧ t.mem = s.mem ∧ t.wgs = s.wgs ∧
      (¬ known → t.outbox = s.outbox ++ [⟨some s.pktHead, .refusal from_.toNat id⟩] ∧ t.flights = s.flights ∧ t.held = s.held) ∧
      (known → 1000 < age → t.gdrop.extractLsb' 0 32 = bump (s.gdrop.extractLsb' 0 32) ∧
        t.gdrop.extractLsb' 32 32 = s.gdrop.extractLsb' 32 32 ∧ ⟨some s.pktHead, .dropped from_.toNat id⟩ ∈ t.outbox ∧ t.flights = s.flights) ∧
      (known → age ≤ 1000 → 1 ≤ ahead → ahead ≤ 20 →
        if s.holdRoom p = true then t = { s with held := s.held ++ [⟨p, h.gen.toNat, false⟩] } else t = s) ∧
      (known → age ≤ 1000 → 20 < ahead → 20 < behind → t.gdrop.extractLsb' 32 32 = bump (s.gdrop.extractLsb' 32 32) ∧
        t.gdrop.extractLsb' 0 32 = s.gdrop.extractLsb' 0 32 ∧ ⟨some s.pktHead, .dropped from_.toNat id⟩ ∈ t.outbox ∧ t.flights = s.flights) ∧
      (known → age ≤ 1000 → ahead = 0 ∨ (20 < ahead ∧ behind ≤ 20) →
        (∃ c, t.flights = s.flights ++ [⟨m, from_.toNat, none, id, s.member, false, c⟩]) ∧ t.held = s.held)) ∧
  (∀ (s : State) (i off n from_ : Nat) (h : Held) (r : PeerReq), s.held[i]? = some h → h.access? = some (from_, off, n, r) →
    (∀ e ∈ s.held.take i, ∀ x, e.access? = some x → x.1 ≠ from_) →
    (s.aperture off (PeerReq.kind r) = none → ∃ t, exec (.peerAccessArrive i) s = .next t ∧ t.mem = s.mem ∧
      t.held = s.held.eraseIdx i ∧ t.outbox = s.outbox ++ [⟨some s.pktHead, .reply from_ none⟩]) ∧
    ∀ pa key, s.aperture off (PeerReq.kind r) = some (pa, key) →
      let p : Piece := ⟨s.placeOfPa pa, PeerReq.width n r, false, key, 0⟩
      ∃ t, exec (.peerAccessArrive i) s = .next t ∧ t.held = s.held.eraseIdx i ∧
        (s.peerRaces from_ p r = true → t.mem = s.mem ∧ t.hist = s.hist ∧
          t.outbox = s.outbox ++ [⟨some s.pktHead, .reply from_ none⟩]) ∧
        (∀ sc, r = .read sc → s.peerRaces from_ p r = false → (∀ a, t.mem.read a = s.mem.read a) ∧
          t.outbox = s.outbox ++ [⟨some s.pktHead, .reply from_ (some (s.readPiece p).1)⟩])) ∧
  ∀ (s : State) (gang : BitVec 16) (lost : List LostWg), gang.toNat = s.gangId → s.gloss < 2 ^ 32 - 1 →
    ∃ t, exec (.lossNoticeReceive gang lost) s = .next t ∧ t.gloss = s.gloss + 1 ∧ { t with gloss := s.gloss } = s

/-- A fabric message (R277, R278, R413, R443): it leaves for another member at the port, unless the link to that member applies
back-pressure (R408); at its destination it enters the inbox of
its INSTANCE and GEN, is refused, or is lost with that workgroup; a refusal or a drop notice completes the sender's flag with
cause 0x103 or 0x1c8. -/
def Claims.FabricMessages : Prop :=
  (∀ (s : State) (inst id : Nat) (g : Wg) (e : QEntry), s.cur = .wg inst → s.wg? inst = some g →
    (g.fabBuf.filled.find? fun x => messageMember (messageOf x.1.data) != s.member) = some (e, id) →
    s.slowLinks.contains (messageMember (messageOf e.data)) = false →
    ∃ t f g', exec .fabricSendDepart s = .next t ∧ t.flights = s.flights ++ [f] ∧ f.msg = messageOf e.data ∧ f.from_ = s.member ∧
      f.sendId = id ∧ f.toMember = messageMember f.msg ∧ f.refused = (!s.gangOn || decide (s.gangLast < f.toMember)) ∧ t.mem = s.mem ∧
      (f.refused = false → ⟨assoc? s.sendHeads id, .message f.toMember f.msg id⟩ ∈ t.outbox) ∧
      (e.party.inst? = some inst → t.wg? inst = some g' ∧ ∀ x ∈ g'.fabBuf.filled, x.2 ≠ id)) ∧
  (∀ (s : State) (i : Nat) (f : Flight), s.flights[i]? = some f → f.refused = false → f.toMember = s.member → s.firstOf i f = true →
    let inst := s.instKey (messageInst f.msg)
    (∀ g, s.arrival f.msg = .accept → s.wg? inst = some g → (∀ x ∈ s.saved, x.2.inst ≠ inst) →
      ∃ t g' e, exec (.fabricMessageDeliver i) s = .next t ∧ t.flights = s.flights.eraseIdx i ∧ t.mem = s.mem ∧
        t.wg? inst = some g' ∧ g'.inbox = g.inbox ++ [e] ∧ e.data = messageWords f.msg) ∧
    (s.arrival f.msg = .refuse → ∃ t, exec (.fabricMessageDeliver i) s = .next t ∧ t.mem = s.mem ∧
      t.flights = s.flights.set i { f with refused := true }) ∧
    (s.arrival f.msg = .lost → ∃ t, exec (.fabricMessageDeliver i) s = .next t ∧ t.mem = s.mem ∧ t.flights = s.flights.eraseIdx i)) ∧
  ∀ (s : State) (i inst w flag : Nat) (f : Flight) (x : Warp), f.from_ = s.member → f.sender = some (.warp inst w, flag) → 1 ≤ flag →
    s.warp? (.user inst w) = some x →
    let fails := fun (t : State) (code : Nat) => t.flights = s.flights.eraseIdx i ∧ t.mem = s.mem ∧
      (t.warp (.user inst w)).cf.get 0 (flag - 1) = x.cf.get 0 (flag - 1) - 1 ∧
      ∃ r, (t.warp (.user inst w)).errq.get [] (flag - 1) = x.errq.get [] (flag - 1) ++ [r] ∧ r.cause.code = code ∧ r.op = f.sendId
    (s.flights[i]? = some f → f.refused = true → ∃ t, exec (.refusalReturn i) s = .next t ∧ fails t 0x103 ∧
      (acctMember (messageAcct f.msg) = s.member → (t.account (acctIndex (messageAcct f.msg))).returned =
        ((s.account (acctIndex (messageAcct f.msg))).returned + f.msg.grains.toNat) % 2 ^ 64)) ∧
    (s.sentFlight f.sendId = some (i, f) → ∃ t, exec (.dropNoticeReceive f.sendId) s = .next t ∧ fails t 0x1c8)

/-- The gang clock (R399 to R401): synchronised after 16 offsets within 200 ns in a row; in holdover after an offset beyond 1 µs
or a second without a message; in barrier mode after 10 s of holdover. A 1PPS edge counts as a message for a grandmaster or a lone member,
once the controller has told the time of day (log 60). -/
def Obligations.GangClock : Prop :=
  ∀ (s : State),
    let measures := fun (t : State) (o : Int) => t.gangOffset = o ∧ t.measured = true ∧ t.lastSync = s.clockNs ∧ t.clockNs = s.clockNs ∧
      (s.clockState = 0 → t.clockState = if 1000 < o.natAbs then 1 else 0) ∧
      (s.clockState ≠ 0 → t.clockState = if o.natAbs ≤ 200 ∧ 16 ≤ s.syncCount + 1 then 0 else s.clockState)
    (∀ offset : BitVec 32, ∃ t, exec (.ptpSyncMessage offset) s = .next t ∧ measures t offset.toInt) ∧
    (s.timeKnown = true → s.gangLast = 0 ∨ s.grandmaster = true → ∃ t o, exec .ppsEdge s = .next t ∧ measures t o ∧ o.natAbs ≤ 500000000 ∧
      (s.clockNs : Int) % 1000000000 = o % 1000000000) ∧
    (s.timeKnown = false → exec .ppsEdge s = .next s) ∧
    (s.clockState = 0 → s.lastSync + 1000000000 ≤ s.clockNs → ∃ t, exec .syncLossTimeout s = .next t ∧ t.clockState = 1 ∧
      t.holdoverAt = s.clockNs) ∧
    (s.clockState = 1 → s.holdoverAt + 10000000000 ≤ s.clockNs → ∃ t, exec .holdoverTimeout s = .next t ∧ t.clockState = 2)

/-! ### Reliability, power, the controller and the host (R418, R421 to R440) -/

/-- A report of a strike or of a timing near miss in a zone of a core counts in its half of relcnt; the fourth of a zone within 256
cycles is a machine error (R422 to R424). The fourth of a slice is reported, and touches no core (log 87). A machine error takes its
core offline with the workgroups resident on it (R412, R426). An uncorrectable read of the patrol scrub marks a word of its sector;
one that finds nothing, or corrects, changes nothing (R352, R427). -/
def Claims.ErrorsOnChip : Prop :=
  (∀ (s : State) (n : Nat) (z : Zone), (s.core n).offline = false → (zoneKey z).isSome = true →
    let k := s.core n
    let lo := fun (x : DWord) => x.extractLsb' 0 32
    let hi := fun (x : DWord) => x.extractLsb' 32 32
    let bump := fun (x : BitVec 32) => if x = BitVec.allOnes 32 then x else x + 1
    let near := (k.reports.filter fun r => r.1 == z && decide (k.cycle < r.2 + 256)).length
    (∃ t, exec (.strikeReport n z) s = .next t ∧ lo (t.core n).relcnt = bump (lo k.relcnt) ∧ hi (t.core n).relcnt = hi k.relcnt ∧
      (3 ≤ near → (t.core n).offline = true) ∧ (near < 3 → (t.core n).offline = false ∧ t.mem = s.mem)) ∧
    ∃ t, exec (.timingNearMiss n z) s = .next t ∧ hi (t.core n).relcnt = bump (hi k.relcnt) ∧ lo (t.core n).relcnt = lo k.relcnt ∧
      (3 ≤ near → (t.core n).offline = true) ∧ (near < 3 → (t.core n).offline = false ∧ t.mem = s.mem)) ∧
  (∀ (s : State) (core n : Nat), n < 32 → ∀ i ∈ [Instr.strikeReport core (.slice n), .timingNearMiss core (.slice n)],
    let first := 256 * (n / 16)
    let near := (s.sliceReports.filter fun r => r.1 == n && decide ((s.core first).cycle < r.2 + 256)).length
    ∃ t, exec i s = .next t ∧
      (near < 3 → t.reports = s.reports ∧ t.mem = s.mem ∧ ∀ m, (t.core m).offline = (s.core m).offline) ∧
      (3 ≤ near → t.cores = s.cores ∧ t.wgs = s.wgs ∧ t.reports = s.reports ++ [(first, 0x182)])) ∧
  (∀ (s : State) (n : Nat), s.cur = .core n → (s.core n).offline = false → ∃ t, exec .machineError s = .next t ∧
    (t.core n).offline = true ∧ (n, 0x184) ∈ t.reports ∧ (∃ h lost, ⟨h, .loss s.gangId s.member n lost⟩ ∈ t.outbox) ∧
    ∀ i g, i < supBase → s.wg? i = some g → g.core = n → t.wg? i = none) ∧
  ∀ (s : State) (sector : Nat),
    exec (.patrolScrub sector false) s = .next s ∧
    ∃ t, exec (.patrolScrub sector true) s = .next t ∧ t.reports = s.reports ++ [(0, 0x183)] ∧
      ∃ i < 8, t.cellMark (32 * sector + 4 * i) = true

/-- A cluster's frequency and grants at an interval, of inputs in the ranges of R432 to R434, and a lowered grant of a quarter
(R433). A diode at 118 °C takes the module down and leaves the first trip's record (R435); bring-up leaves every array, queue and
table as R438 says. Memory and accounts of zero after bring-up are the model's choices (logs 3, 13), and so are what a trip keeps, when the
rails come back and where 0x188 and 0x18a go (log 65). -/
def Claims.PowerAndReset : Prop :=
  ∀ (s : State),
    (∀ (c : Nat) (p : PowerIn), c < 32 → Power.legal p = true → ∃ t, exec (.powerInterval c p) s = .next t ∧ { t with power := s.power, cores := s.cores } = s ∧
      (∀ n, { t.core n with rail := (s.core n).rail } = s.core n ∧ (clusterOf n ≠ c → t.core n = s.core n) ∧
        ∀ q g, clusterOf n = c → (t.core n).rail.get none q = some g → g ≤ (t.cluster c).grant) ∧
      (t.cluster c).freq = min (min p.tcap.toNat p.icap.toNat) (if p.boost then p.btgt.toNat else 100) ∧
      (t.cluster c).grant = min p.ig.toNat p.pg.toNat ∧ 40 ≤ (t.cluster c).freq ∧ (t.cluster c).freq ≤ 116 ∧ ∀ d, d ≠ c → t.cluster d = s.cluster d) ∧
    (∀ (n q : Nat) (g : BitVec 3), q < 4 → ∃ t, exec (.railDroop n q g) s = .next t ∧ { t with cores := s.cores } = s ∧
      (t.core n).rail.get none q = if (s.cluster (clusterOf n)).grant ≤ g.toNat then none else some (max 1 g.toNat)) ∧
    (∀ (c : BitVec 5) (d : BitVec 2) (temp : BitVec 10), 0x2d8 ≤ temp.toNat → s.up = true → ∃ t, exec (.thermalTrip c d temp) s = .next t ∧
      t.up = false ∧ t.railsOff = true ∧ t.wgs = [] ∧ t.grids = [] ∧ t.cores = [] ∧ t.clockNs = s.clockNs ∧ (0, 0x188) ∈ t.reports ∧
      (s.trip.getLsbD 127 = true → t.trip = s.trip) ∧
      (s.trip.getLsbD 127 = false → t.trip.getLsbD 127 = true ∧ t.trip.extractLsb' 76 10 = temp ∧ t.trip.extractLsb' 74 2 = d ∧
        t.trip.extractLsb' 69 5 = c ∧ t.trip.extractLsb' 0 64 = s.now)) ∧
    (∀ b : BootIn, s.railsOff = true → 0x290 ≤ b.hottest.toNat → exec (.bringUp b) s = .next s) ∧
    ∀ b : BootIn, (s.railsOff = true → b.hottest.toNat < 0x290) →
      let svn := fun (x : Image) => (x.header.extractLsb' 32 32).toNat
      let kind := fun (x : Image) => (x.header.extractLsb' 16 16).toNat
      let images := [(b.firmware, 1, b.romFloor), (b.config, 2, b.floor), (b.identity, 3, b.floor), (b.attestation, 4, b.floor)]
      let accepted := ∀ p ∈ images, p.1.signed = true ∧ kind p.1 = p.2.1 ∧ p.2.2.toNat ≤ svn p.1 ∧
        p.1.header.extractLsb' 0 16 = 0x5f3a ∧ p.1.header.extractLsb' 128 128 = 0
      (accepted → b.trained = true → ∃ t, exec (.bringUp b) s = .next t ∧ t.up = true ∧ t.railsOff = false ∧ t.cores = [] ∧ t.wgs = [] ∧
        t.grids = [] ∧ t.teams = [] ∧ t.lqs = [] ∧ t.accounts = [] ∧ t.ctxs = [] ∧ t.gangcfg = 0 ∧ t.evbase = 0 ∧
        t.clockNs = (b.timeOfDay.getD 0).toNat ∧ t.timeKnown = b.timeOfDay.isSome ∧ t.tiercap = min b.tierFrames.toNat 15625000 ∧ t.supWgs = [] ∧
        t.accessReset = b.access.map (fun x => x &&& 0xfffffffffff) ∧ t.trip = s.trip ∧
        ∀ a, t.mem.read a = if 0x800000000000 ≤ a then s.mem.read a else 0) ∧
      (¬ accepted ∨ b.trained = false → ∃ t, exec (.bringUp b) s = .next t ∧ t.up = false ∧ (0, 0x18a) ∈ t.reports)

/-- The commands of the mailbox (R439), and accesses of the host: launch-queue registers by BAR0 and memory by BAR2, which is refused
where it does not translate or would race (R142; log 88); in recovery BAR0 reads zero (R418, R438). KEYCLR first sends what the key has
written to the stacks, and stays busy until it is there; TRIPRD writes the record. The refusals of KEYGEN, KEYCLR of any index and a boost
by the controller's policy are the model's choice (log 64). -/
def Obligations.ControllerAndHost : Prop :=
  ∀ (s : State),
    (∀ index owner : BitVec 12, s.mbxBusy 1 = true →
      (index ≠ 0 → s.keys.get none index.toNat = none → ∃ t, exec (.keygen index owner) s = .next t ∧ t.mbxstat = 2 ∧
        t.keys.get none index.toNat = some owner.toNat ∧ ∀ j, j ≠ index.toNat → t.keys.get none j = s.keys.get none j) ∧
      (index = 0 ∨ s.keys.get none index.toNat ≠ none → ∃ t, exec (.keygen index owner) s = .next t ∧ t.mbxstat = 3 ∧ t.keys = s.keys)) ∧
    (∀ index : BitVec 12, s.mbxBusy 2 = true →
      let tag := s.keyTag index.toNat
      let u := (s.sendDirty fun c => s.sectorKey.get 0 (c / 32) == tag).evict fun l => l.tag == tag
      ∃ t, exec (.keyclr index) s = .next t ∧ t.mem = s.mem ∧ (∀ e ∈ t.lines, ∀ l ∈ e.2, l.tag ≠ tag) ∧
        (u.keyDirty tag = true → t.mbxstat = 1 ∧ t.keys = s.keys) ∧
        (u.keyDirty tag = false → t.mbxstat = 2 ∧ t.keys.get none index.toNat = none ∧ t.keyTag index.toNat ≠ tag)) ∧
    (∀ reply : DWord, s.mbxBusy 3 = true →
      let bs := leBytes 16 s.trip.toNat
      let at_ := fun (u : State) (i : Nat) => u.ctxLeaf 0 .store (reply.toNat + i)
      ∃ t, exec (.triprd reply) s = .next t ∧ t.mbxstat = (if s.writable reply.toNat 16 then 2 else 3) ∧ t.trip = s.trip ∧
        (s.writable reply.toNat 16 = false → t.mem = s.mem) ∧
        (s.writable reply.toNat 16 = true → reply.toNat % 16 = 0 →
          (∀ k ≤ 16, ∀ i < 16, at_ (s.writeCtx 0 reply.toNat (bs.take k)) i = at_ s i) →
          ∀ i < 16, ∀ l, at_ s i = .ok l → s.isPeer (cellOf l.pte.layout l.pa) = false →
            t.readCell l.pte.key (cellOf l.pte.layout l.pa) = bs.getD i 0)) ∧
    (∀ (c : BitVec 5) (g : BitVec 7), s.mbxBusy 4 = true → ∃ t, exec (.boostreq c g) s = .next t ∧ t.power = s.power ∧
      t.mbxstat = if Config.boostPolicy s.fresh then 2 else 3) ∧
    (s.up = true →
      (∀ q n, q < 64 → n < 5 → ∃ t, exec (.hostInboundAccess (.bar0Read (4096 * q + 8 * n))) s = .next t ∧
        t.outbox = s.outbox ++ [⟨none, .host (some (leBytes 8 (s.lqRead q (n + 1)).toNat))⟩] ∧ t.mem = s.mem) ∧
      (∀ q v, q < 64 → ∃ t, exec (.hostInboundAccess (.bar0Write (4096 * q) v)) s = .next t ∧ (t.lq q).base = v &&& ~~~0xfff ∧
        (t.lq q).tail = (s.lq q).tail ∧ t.mem = s.mem) ∧
      (∀ q v, q < 64 → ((v.toNat % 2 ^ 32 + 2 ^ 32 - (s.lq q).head) % 2 ^ 32 ≤ (s.lq q).size) →
        ∃ t, exec (.hostInboundAccess (.bar0Write (4096 * q + 24) v)) s = .next t ∧ (t.lq q).tail = v.toNat % 2 ^ 32 ∧
          (t.lq q).base = (s.lq q).base ∧ t.mem = s.mem) ∧
      ∀ off,
        let va := s.bar2base + BitVec.ofNat 64 off
        let parts := pageParts va.toNat 8
        (∀ ps s1, s.hostPieces .load parts = .ok (ps, s1) → s1.hostRaces va ps false = none → ∃ t bs, exec (.hostInboundAccess (.bar2Read off)) s = .next t ∧
          (∀ a, t.mem.read a = s.mem.read a) ∧ ⟨none, .host (some bs)⟩ ∈ t.outbox ∧ bs.length = 8) ∧
        (∀ ps s1 v, s.hostPieces .store parts = .ok (ps, s1) → s1.hostRaces va ps true = none → ∃ t, exec (.hostInboundAccess (.bar2Write off v)) s = .next t ∧
          t.up = true ∧ ∀ p a, ps = [p] → p.place = .pa a → (∀ i < 8, s1.isPeer (a + i) = false) →
            ∀ i < 8, t.readCell p.key (cellOf p.layout (a + i)) = (leBytes 8 v.toNat).getD i 0) ∧
        (∀ p ∈ [(HostReq.bar2Read off, AccKind.load, false), (.bar2Write off 0, .store, true)],
          (∃ d, s.hostPieces p.2.1 parts = .error d) ∨
            (∃ ps s1 d, s.hostPieces p.2.1 parts = .ok (ps, s1) ∧ s1.hostRaces va ps p.2.2 = some d) →
          ∃ t, exec (.hostInboundAccess p.1) s = .next t ∧ ⟨none, .host none⟩ ∈ t.outbox ∧ t.hist = s.hist ∧
            (s.evbase.getLsbD 0 = false → t.mem = s.mem))) ∧
    (s.up = false → ∀ off, off / 4096 < 64 ∨ 128 ≤ off / 4096 → ∃ t, exec (.hostInboundAccess (.bar0Read off)) s = .next t ∧
      t.outbox = s.outbox ++ [⟨none, .host (some (leBytes 8 0))⟩] ∧ t.mem = s.mem)

/-- Launch records become grids, and grids are admitted. -/
def Obligations.LaunchAndAdmission : Prop := Claims.LaunchTaking ∧ Claims.Admission

/-- Workgroups retire, are screened and come to rest. -/
def Obligations.RetirementAndRest : Prop := Claims.Retirement ∧ Claims.CopiesAndRest

/-- The gate unit, page walks and shootdowns. -/
def Obligations.GateAndWalks : Prop := Claims.GateUnit ∧ Claims.WalksAndShootdowns

/-- Set-up of a gang and its timed switches. -/
def Obligations.GangSwitching : Prop := Claims.GangSetup ∧ Claims.TimedSwitches

/-- Packets of a gang and fabric messages. -/
def Obligations.GangTraffic : Prop := Claims.GangPackets ∧ Claims.FabricMessages

/-- Strikes, machine errors, power, trips and bring-up. -/
def Obligations.ErrorsAndPower : Prop := Claims.ErrorsOnChip ∧ Claims.PowerAndReset

/-! ### Decoding, steps, memory and reset -/

/-- Decoding what an instruction encodes to gives it back, for every well-formed instruction that has a word (R164 to R181, R319,
R441; RISC-V words: log 18). -/
def Obligations.DecodeOfEncode : Prop :=
  ∀ (i : Instr) (n w : Nat), i.wf = true → encode i = some (n, w) → decodeTableWord n w = some i

/-- Words that the manual writes out decode to the instructions beside them: BRA with a target 6 words on, SLEEP 256,
IADD.s32 v4, v2, v3, FSET.f32 p2, v1, v2, lt, LD.s16 v4, [a2]+0x40 la=3, QSEND q1, k8 set=cf3, MSIGN c2, k5, BMV k8 set=cf2,
and FTIME x10. -/
def Obligations.DecodedWords : Prop :=
  decodeTableWord 64 0x00b8000000003000 = some (.bra ⟨false, 7, 0, 0⟩ ⟨6, 0, false, 0⟩) ∧
  decodeTableWord 64 0x0538000000000800 = some (.sleep ⟨false, 7, 0, 0⟩ 256) ∧
  decodeTableWord 64 0x2038000801006000 = some (.iadd ⟨false, 7, 0, 0⟩ ⟨.v 4, .v 2, .v 3, .v 0, 0⟩) ∧
  decodeTableWord 64 0x42b806b400805010 = some (.fset ⟨false, 7, 0, 0⟩ ⟨.sp 0x5a, .v 1, .v 2, .imm 2, 0⟩) ∧
  decodeTableWord 64 0x6038180844008081 = some (.ld ⟨false, 7, 0, 3⟩ ⟨.v 4, 2, 1, 0x20, 1, 0, 0, 1⟩) ∧
  decodeTableWord 64 0x843a780188a10000 = some (.qsend ⟨false, 7, 4, 15⟩ ⟨.v 0, .sp 0x11, .u 8, .v 0, 0⟩) ∧
  decodeTableWord 64 0xa138024140000000 = some (.msign ⟨false, 7, 0, 0⟩ 2 (.u 5)) ∧
  decodeTableWord 64 0xb039f90000000000 = some (.bmv ⟨false, 7, 3, 15⟩ 1) ∧
  decodeTableWord 32 0x0000650b = some (.ftime ⟨10, 0, 0⟩)

/-- A step of a group runs the instruction of the word at its PC (R155, R162): where the word decodes, is legal in its clause, and
neither results in flight nor its flag, a full buffer or the cycle hold it back, the step is exec of it, with the issue counted beside
(R167, R370). A word that decodes to nothing, or is not legal in its place, traps with 0x000 (R181). -/
def Claims.StepRunsDecodedWord : Prop :=
  (∀ (s s1 : State) (w : WRef) (g : Mask) (x : Warp) (l : Nat) (ha hdr word a b d : DWord),
    s.agenda = [] → s.cur = .warp w g a b d → s.warp? w = some x → Lanes.low g = some l →
    (x.thread l).clause = some (ha, hdr) →
    s.fetch (s.coreOf w) (s.ctxOf w) (warpClass w) (x.thread l).pc = .ok (word, s1) →
    (∀ (i : Instr) (s' : State), decodeFarale word = some i → (x.thread l).st = .ready →
      Next.legal ⟨ha, hdr, word, some i⟩ (x.thread l).pc i = true → x.hold i = .free →
      (∀ h, i.head? = some h → h.flag ≠ 0 → x.cf.get 0 (h.flag.toNat - 1) ≠ 63) →
      s1.stalled w = false →
      s1.cycleAllows w x (x.thread l) ⟨ha, hdr, word, some i⟩ i false = true →
      exec i { s1 with cur := .warp w g ha hdr word } = .next s' →
      step s = .next (s1.countIssue s' w true)) ∧
    (decodeFarale word = none ∨
        (∃ i, decodeFarale word = some i ∧ Next.legal ⟨ha, hdr, word, some i⟩ (x.thread l).pc i = false) →
      step s = .next (s1.issueTrap w g (x.thread l) word 0 0x000 (.code_ 0)))) ∧
  ∀ (before after : State) (w : WRef) (fresh : Bool),
    { before.countIssue after w fresh with cores := after.cores, wgs := after.wgs, supWgs := after.supWgs } = after ∧
    (∀ v, v ≠ w → (before.countIssue after w fresh).warp? v = after.warp? v) ∧
    ∀ l, ((before.countIssue after w fresh).warp w).thread l = (after.warp w).thread l

/-- A step of a Beryl core runs the instruction of the word at its pc (R317): four bytes where its low two bits are ones, else two.
A turn of the agenda that is an event runs that event (log 1). -/
def Claims.StepRunsBerylAndEvents : Prop :=
  (∀ (s : State) (core which : Nat) (i : Instr), s.agenda = [] → s.cur = .beryl core which →
    let b := s.beryl core which
    b.pc.getLsbD 0 = false →
    (b.pc.toNat + 4 ≤ 0x4000 → b.wordAt % 4 = 3 → decodeBeryl (BitVec.ofNat 32 b.wordAt) = some i → step s = exec i s) ∧
    (b.pc.toNat + 2 ≤ 0x4000 → b.wordAt % 4 ≠ 3 → decodeCompressed (BitVec.ofNat 16 b.wordAt) = some i → step s = exec i s)) ∧
  ∀ (s : State) (a : Cur) (i : Instr) (ts : List Turn), s.agenda = .event a i :: ts →
    step s = exec i { s with agenda := ts, cur := a }

/-- Forms that complete whatever their operands hold, with the main part of what they do: NOP, YIELD, SLEEP and EXIT (R191, R192);
AINIT, ASET and AGET of an address, in any warp (R251, R252, R253, R255), and AADV inside its ring or its bounds (R254), where no
fence holds them (R264; log 4); RDSR of a register that the supervisor may read (R338); the commands of the mailbox (R439; answers:
log 64), every access of the host, answered if it reads (R418); an operation of the matrix engine that may take its slot, and MZERO
in one (R299, R306). -/
def Obligations.FormsComplete : Prop :=
  (∀ (s : State) (c : Ctx) (h : Head), s.ctx? = some c →
    (∃ t, exec (.nop h) s = .next t ∧ s.only t c ∧ s.movedOn t c) ∧
    (∃ t, exec (.yield h) s = .next t ∧ s.only t c ∧ s.movedOn t c ∧
      (c.executes s h = true → c.isLast = false → (t.warp c.ref).yielding = (s.warp c.ref).yielding ||| c.group) ∧
      (c.executes s h = true → c.isLast = true → c.group ≠ 0 → (t.warp c.ref).skipCycle = some (s.cycleOf c.ref + 1))) ∧
    (∀ n : BitVec 20, ∃ t, exec (.sleep h n) s = .next t ∧ s.only t c ∧ s.movedOn t c ∧
      (n ≠ 0 → ∀ l, s.live c l → (c.active s h).has l = true →
        (t.lane c l).st = .asleep (.cycle ((s.core c.core).cycle + n.toNat)))) ∧
    (∃ t, exec (.exit h) s = .next t ∧ ∀ l, s.live c l → (c.active s h).has l = true → (t.lane c l).st = .exited .normal) ∧
    (∀ b : BodyA, c.executes s h = true → s.fencePending c.core c.party s.nextId = false →
      let a := (s.warp c.ref).aGet (aregNo b.dst)
      let dest := (a.ptr.toNat : Int) + (if b.mod.getLsbD 1 then s.uni64 c b.sa else (s.uni c b.sa).signExtend 64).toInt
      let completes := fun (i : Instr) (p : AReg → Prop) => ∃ t, exec i s = .next t ∧ s.outside t c ∧ s.rowsKept t c [] ∧ s.movedOn t c ∧
        p ((t.warp c.ref).aGet (aregNo b.dst)) ∧ ∀ n, n ≠ aregNo b.dst → (t.warp c.ref).aGet n = (s.warp c.ref).aGet n
      let x := s.uni64 c b.sa
      completes (.ainit h b) (fun f => f.ptr = x ∧ f.base = x ∧ x.toNat ≤ f.limit.toNat ∧ f.modlen = 0 ∧ f.step = 0) ∧
      completes (.aset h b) (fun f => f.ptr = (match b.sb.immNat with | 0 => x | 1 | 2 | 3 | 4 | 5 => a.ptr | _ => ((s.warp c.ref).aGet (aregNo b.sa)).ptr) ∧
        (b.sb.immNat = 1 → f.base = x) ∧ (b.sb.immNat = 2 → f.limit = x)) ∧
      ((if b.mod.getLsbD 0 then a.inRing = true else (a.base.toNat : Int) ≤ dest ∧ dest ≤ a.limit.toNat) →
        completes (.aadv h b) (fun f => f.base = a.base ∧ f.limit = a.limit ∧ (b.mod.getLsbD 0 = false → (f.ptr.toNat : Int) = dest))) ∧
      ∀ k, b.dst = .u k → b.sb.immNat ≤ 2 → ∃ t, exec (.aget h b) s = .next t ∧ s.frame t c b.dst true ∧ s.movedOn t c ∧
        let src := (s.warp c.ref).aGet (aregNo b.sa)
        (t.warp c.ref).kGet k.toNat = (match b.sb.immNat with | 0 => src.ptr | 1 => src.base | _ => src.limit).setWidth 32) ∧
    ∀ (b : BodyS) (n : Nat) (d : BitVec 8) (x : DWord), c.ref = .sup n → b.dst = .u d → readReg s n b.sreg.toNat = .ok (some x) →
      c.executes s h = true → ∃ t, exec (.rdsr h b) s = .next t ∧ s.frame t c b.dst true ∧ s.movedOn t c ∧
        (t.warp c.ref).kGet d.toNat = x.setWidth 32 ∧ (t.warp c.ref).kGet (d.toNat + 1) = x.extractLsb' 32 32) ∧
  ∀ (s : State),
    (∀ index owner : BitVec 12, s.mbxBusy 1 = true → ∃ t, exec (.keygen index owner) s = .next t ∧ (t.mbxstat = 2 ∨ t.mbxstat = 3)) ∧
    (∀ index : BitVec 12, s.mbxBusy 2 = true → ∃ t, exec (.keyclr index) s = .next t ∧ (t.mbxstat = 1 ∨ t.mbxstat = 2)) ∧
    (∀ reply : DWord, s.mbxBusy 3 = true → ∃ t, exec (.triprd reply) s = .next t ∧ (t.mbxstat = 2 ∨ t.mbxstat = 3)) ∧
    (∀ (c : BitVec 5) (g : BitVec 7), s.mbxBusy 4 = true → ∃ t, exec (.boostreq c g) s = .next t ∧ (t.mbxstat = 2 ∨ t.mbxstat = 3)) ∧
    (∀ r : HostReq, ∃ t, exec (.hostInboundAccess r) s = .next t ∧ t.up = s.up ∧ t.gangcfg = s.gangcfg ∧ t.clockNs = s.clockNs ∧
      (∃ tail, t.outbox = s.outbox ++ tail ∧ ∀ off, r = .bar0Read off ∨ r = .bar2Read off → ∃ bs, ⟨none, .host bs⟩ ∈ tail)) ∧
    (∀ (n i : Nat) (m : MatOp) (rest : List MatOp), s.cur = .core n → (s.core n).stallTo.get 0 4 ≤ (s.core n).cycle →
      (s.core n).mats = m :: rest → (∀ o ∈ m :: rest, o.locked = true) → m.complete = false → m.parked = false → m.slot = none →
      m.kind ≠ .mepi → s.moves m.inst = true → s.barred n m.party m.id = false → (s.core n).freeMatSlot = some i →
      exec .matrixOpStart s = .next (s.setMat n { m with slot := some i })) ∧
    ∀ (n slot : Nat) (m : MatOp) (rest : List MatOp), (s.core n).mats = m :: rest → m.slot = some slot → m.complete = false →
      m.parked = false → m.kind = .mzero → s.moves m.inst = true → (s.core n).offline = false →
      (s.core n).stallTo.get 0 4 ≤ (s.core n).cycle → ∃ t, exec (.matrixBlockComplete n slot) s = .next t ∧ t.mem = s.mem ∧
        (∀ k, ((t.core n).tiles.get Tile.zero m.tile).word k = 0 ∧ ((t.core n).tiles.get Tile.zero m.tile).mark k = false) ∧
        ∀ o ∈ (t.core n).mats, o.id = m.id → o.complete = true ∧ o.slot = none

/-- A byte of this module that is written reads back under the same key; every other byte of it reads under that key as before; a
write to another module's byte changes nothing here (R4, R394, R415; that it is not held here: log 10). -/
def Obligations.MemoryReadAfterWrite : Prop :=
  ∀ (s : State) (key cell : Nat) (b : Byte),
    (s.isPeer cell = false → (s.writeCell key cell b).readCell key cell = b) ∧
    (∀ a, a ≠ cell → (s.writeCell key cell b).readCell key a = s.readCell key a) ∧
    (s.isPeer cell = true → s.writeCell key cell b = s)

/-- Every step keeps the canonical form of memory: addresses rising, and no byte listed that an unlisted address reads as. -/
def Obligations.StepKeepsMemoryForm : Prop :=
  ∀ s s' : State, Memory.wf s.mem = true → step s = .next s' → Memory.wf s'.mem = true

/-- The module after bring-up (R438, step 5): the rows and scratchpads of every core are zero with owner 0, key 0 is loaded and no
other, the gang clock is unsynchronised, nothing is resident; memory has its canonical form and reads zero (log 3). -/
def Obligations.ResetState : Prop :=
  let s := State.reset
  (∀ n r l, ((s.core n).rows.get .zero r).lanes.getD l 0 = 0 ∧ ((s.core n).rows.get .zero r).owner = 0) ∧
  (∀ n a b, (s.core n).scratch.get 0 a = 0 ∧ (s.core n).sowner.get 0 b = 0) ∧
  s.keys.get none 0 ≠ none ∧ (∀ j, j ≠ 0 → s.keys.get none j = none) ∧ s.clockState = 3 ∧ s.wgs = [] ∧ s.grids = [] ∧
  Memory.wf s.mem = true ∧ ∀ a, s.mem.read a = 0

/-- A step runs the instruction that the word at the PC decodes to. -/
def Obligations.StepRunsDecodedInstruction : Prop := Claims.StepRunsDecodedWord ∧ Claims.StepRunsBerylAndEvents
end

