-- ==== Sys2Proof/Laws/Tab.lean ====
section
/-! SUPPORT. Laws of sparse tables, and the canonical form of memory under every operation that writes memory. -/

namespace Sys2Proof.Machine

variable {α : Type}

/-! ### Reading -/

theorem Tab.get_del_same (d : α) (t : Tab α) (k : Nat) : (t.del k).get d k = d := by
  induction t with
  | nil => rfl
  | cons e t ih =>
    simp only [Tab.del]
    split
    · exact ih
    · next h => simpa [Tab.get, h] using ih

theorem Tab.get_del_ne (d : α) (t : Tab α) {k j : Nat} (h : j ≠ k) : (t.del k).get d j = t.get d j := by
  induction t with
  | nil => rfl
  | cons e t ih =>
    simp only [Tab.del]
    split
    · next hk => rw [ih, Tab.get, if_neg (by omega)]
    · simp [Tab.get, ih]

theorem Tab.get_ins_same (d : α) (t : Tab α) (k : Nat) (v : α) : (t.ins k v).get d k = v := by
  induction t with
  | nil => simp [Tab.ins, Tab.get]
  | cons e t ih =>
    obtain ⟨i, u⟩ := e
    simp only [Tab.ins]
    split
    · rw [Tab.get, if_neg (by omega), ih]
    · split <;> simp [Tab.get]

theorem Tab.get_ins_ne (d : α) (t : Tab α) {k j : Nat} (v : α) (h : j ≠ k) : (t.ins k v).get d j = t.get d j := by
  induction t with
  | nil => simp [Tab.ins, Tab.get, Ne.symm h]
  | cons e t ih =>
    obtain ⟨i, u⟩ := e
    simp only [Tab.ins]
    split
    · simp [Tab.get, ih]
    · split
      · next hk => simp [Tab.get, hk, Ne.symm h]
      · simp [Tab.get, Ne.symm h]

/-- A read of another key after a write reads what it read before. -/
@[simp] theorem Tab.get_put_ne [DecidableEq α] (d : α) (t : Tab α) {k j : Nat} (v : α) (h : j ≠ k) :
    (t.put d k v).get d j = t.get d j := by
  unfold Tab.put; split
  · exact Tab.get_del_ne d t h
  · exact Tab.get_ins_ne d t v h

/-- A read of the written key reads the value written. -/
@[simp] theorem Tab.get_put_same [DecidableEq α] (d : α) (t : Tab α) (k : Nat) (v : α) : (t.put d k v).get d k = v := by
  unfold Tab.put; split
  · next hv => subst hv; exact Tab.get_del_same _ t k
  · exact Tab.get_ins_same d t k v

/-! ### The canonical form -/

theorem Tab.rising_mono {lo lo' : Nat} (t : Tab α) (hl : lo' ≤ lo) (h : Tab.rising lo t = true) : Tab.rising lo' t = true := by
  cases t with
  | nil => rfl
  | cons e t =>
    simp only [Tab.rising, Bool.and_eq_true, decide_eq_true_eq] at h ⊢
    exact ⟨by omega, h.2⟩

theorem Tab.rising_filter {lo : Nat} (t : Tab α) (f : Nat × α → Bool) (h : Tab.rising lo t = true) :
    Tab.rising lo (t.filter f) = true := by
  induction t generalizing lo with
  | nil => rfl
  | cons e t ih =>
    simp only [Tab.rising, Bool.and_eq_true, decide_eq_true_eq] at h
    simp only [List.filter]
    split
    · simp only [Tab.rising, Bool.and_eq_true, decide_eq_true_eq]; exact ⟨h.1, ih h.2⟩
    · exact Tab.rising_mono _ (by omega) (ih h.2)

theorem Tab.rising_del {lo : Nat} (t : Tab α) (k : Nat) (h : Tab.rising lo t = true) : Tab.rising lo (t.del k) = true := by
  induction t generalizing lo with
  | nil => rfl
  | cons e t ih =>
    simp only [Tab.rising, Bool.and_eq_true, decide_eq_true_eq] at h
    simp only [Tab.del]
    split
    · exact Tab.rising_mono _ (by omega) (ih h.2)
    · simp only [Tab.rising, Bool.and_eq_true, decide_eq_true_eq]; exact ⟨h.1, ih h.2⟩

theorem Tab.rising_ins {lo : Nat} (t : Tab α) (k : Nat) (v : α) (hk : lo ≤ k) (h : Tab.rising lo t = true) :
    Tab.rising lo (t.ins k v) = true := by
  induction t generalizing lo with
  | nil => simpa [Tab.ins, Tab.rising] using hk
  | cons e t ih =>
    obtain ⟨i, u⟩ := e
    simp only [Tab.rising, Bool.and_eq_true, decide_eq_true_eq] at h
    simp only [Tab.ins]
    split
    · simp only [Tab.rising, Bool.and_eq_true, decide_eq_true_eq]; exact ⟨h.1, ih (by omega) h.2⟩
    · split
      · next hi => subst hi; simp only [Tab.rising, Bool.and_eq_true, decide_eq_true_eq]; exact ⟨hk, h.2⟩
      · simp only [Tab.rising, Bool.and_eq_true, decide_eq_true_eq]; exact ⟨hk, by omega, h.2⟩

theorem Tab.mem_del (t : Tab α) (k : Nat) {e : Nat × α} (h : e ∈ t.del k) : e ∈ t := by
  induction t with
  | nil => exact h
  | cons x t ih =>
    simp only [Tab.del] at h
    split at h
    · exact .tail _ (ih h)
    · rcases List.mem_cons.1 h with h | h
      · exact h ▸ .head _
      · exact .tail _ (ih h)

theorem Tab.mem_ins (t : Tab α) (k : Nat) (v : α) {e : Nat × α} (h : e ∈ t.ins k v) : e = (k, v) ∨ e ∈ t := by
  induction t with
  | nil => exact .inl (by simpa [Tab.ins] using h)
  | cons x t ih =>
    obtain ⟨i, u⟩ := x
    simp only [Tab.ins] at h
    split at h
    · rcases List.mem_cons.1 h with h | h
      · exact .inr (h ▸ .head _)
      · exact (ih h).imp id (.tail _)
    · split at h <;> (rcases List.mem_cons.1 h with h | h)
      · exact .inl h
      · exact .inr (.tail _ h)
      · exact .inl h
      · exact .inr h

/-- A write keeps the canonical form. -/
theorem Tab.wf_put [DecidableEq α] (d : α) (t : Tab α) (k : Nat) (v : α) (h : t.wf d = true) : (t.put d k v).wf d = true := by
  simp only [Tab.wf, Bool.and_eq_true, List.all_eq_true, decide_eq_true_eq] at h ⊢
  unfold Tab.put; split
  · exact ⟨Tab.rising_del t k h.1, fun e he => h.2 e (Tab.mem_del t k he)⟩
  · next hv =>
    refine ⟨Tab.rising_ins t k v (by omega) h.1, fun e he => ?_⟩
    rcases Tab.mem_ins t k v he with rfl | he
    · exact hv
    · exact h.2 e he

theorem Tab.wf_filter [DecidableEq α] (d : α) (t : Tab α) (f : Nat × α → Bool) (h : t.wf d = true) :
    Tab.wf d (t.filter f) = true := by
  simp only [Tab.wf, Bool.and_eq_true, List.all_eq_true, decide_eq_true_eq] at h ⊢
  exact ⟨Tab.rising_filter t f h.1, fun e he => h.2 e (List.mem_filter.1 he).1⟩

/-! ### Memory -/

theorem Memory.read_write_same (m : Memory) (a : Nat) (b : Byte) : (m.write a b).read a = b :=
  Tab.get_put_same _ m a b

theorem Memory.read_write_ne (m : Memory) {a a' : Nat} (b : Byte) (h : a' ≠ a) : (m.write a b).read a' = m.read a' :=
  Tab.get_put_ne _ m b h

theorem Memory.wf_write (m : Memory) (a : Nat) (b : Byte) (h : m.wf = true) : (m.write a b).wf = true :=
  Tab.wf_put _ m a b h

theorem Memory.wf_filter (m : Memory) (f : Host.Cell → Bool) (h : m.wf = true) : Memory.wf (m.filter f) = true :=
  Tab.wf_filter _ m f h

theorem Memory.wf_foldl_write (xs : List Nat) (f : Memory → Nat → Nat × Byte) (m : Memory) (h : m.wf = true) :
    (xs.foldl (fun m i => m.write (f m i).1 (f m i).2) m).wf = true := by
  induction xs generalizing m with
  | nil => exact h
  | cons x xs ih => exact ih _ (Memory.wf_write m _ _ h)

/-- Giving a sector another key keeps the canonical form. -/
theorem State.wf_rekey (s : State) (key cell : Nat) (h : s.mem.wf = true) : (s.rekey key cell).mem.wf = true := by
  unfold State.rekey
  simp only
  split
  · exact h
  · exact Memory.wf_foldl_write _ (fun _ i => (cell / 32 * 32 + i, s.readCell key (cell / 32 * 32 + i))) _ h

/-- A write of a byte under a key keeps the canonical form. -/
theorem State.wf_writeCell (s : State) (key cell : Nat) (b : Byte) (h : s.mem.wf = true) :
    (s.writeCell key cell b).mem.wf = true := by
  unfold State.writeCell
  split
  · exact h
  · exact Memory.wf_write _ _ _ (State.wf_rekey s key cell h)

/-- A write of bytes at a physical address keeps the canonical form. -/
theorem State.wf_writePa (layout key pa : Nat) (bs : List Byte) (s : State) (h : s.mem.wf = true) :
    (s.writePa layout key pa bs).mem.wf = true := by
  induction bs generalizing s pa with
  | nil => exact h
  | cons b bs ih => exact ih _ _ (State.wf_writeCell s key _ b h)

/-- Memory after reset has the canonical form. -/
theorem State.reset_mem_wf : State.reset.mem.wf = true := rfl

end Sys2Proof.Machine
end

