-- ==== Sys2Proof/Laws/State.lean ====
section
/-! SUPPORT. The fields of State under the updates of Machine/Ops.lean: one lemma a field and update, all by rfl, and
for the derived updates one lemma that everything beside the fields named stays. -/

namespace Sys2Proof.Machine

variable (s : State) (n : Nat) (c : Core) (g : Wg) (l : Loc) (h : Hist)

@[simp] theorem State.setCore_wgs : (s.setCore n c).wgs = s.wgs := rfl
@[simp] theorem State.setCore_supWgs : (s.setCore n c).supWgs = s.supWgs := rfl
@[simp] theorem State.setCore_teams : (s.setCore n c).teams = s.teams := rfl
@[simp] theorem State.setCore_grids : (s.setCore n c).grids = s.grids := rfl
@[simp] theorem State.setCore_quads : (s.setCore n c).quads = s.quads := rfl
@[simp] theorem State.setCore_power : (s.setCore n c).power = s.power := rfl
@[simp] theorem State.setCore_mem : (s.setCore n c).mem = s.mem := rfl
@[simp] theorem State.setCore_poison : (s.setCore n c).poison = s.poison := rfl
@[simp] theorem State.setCore_sectorKey : (s.setCore n c).sectorKey = s.sectorKey := rfl
@[simp] theorem State.setCore_arrays : (s.setCore n c).arrays = s.arrays := rfl
@[simp] theorem State.setCore_lines : (s.setCore n c).lines = s.lines := rfl
@[simp] theorem State.setCore_l1 : (s.setCore n c).l1 = s.l1 := rfl
@[simp] theorem State.setCore_spillFmt : (s.setCore n c).spillFmt = s.spillFmt := rfl
@[simp] theorem State.setCore_hist : (s.setCore n c).hist = s.hist := rfl
@[simp] theorem State.setCore_rels : (s.setCore n c).rels = s.rels := rfl
@[simp] theorem State.setCore_scratchRels : (s.setCore n c).scratchRels = s.scratchRels := rfl
@[simp] theorem State.setCore_ctxs : (s.setCore n c).ctxs = s.ctxs := rfl
@[simp] theorem State.setCore_tagbase : (s.setCore n c).tagbase = s.tagbase := rfl
@[simp] theorem State.setCore_access : (s.setCore n c).access = s.access := rfl
@[simp] theorem State.setCore_accessReset : (s.setCore n c).accessReset = s.accessReset := rfl
@[simp] theorem State.setCore_keys : (s.setCore n c).keys = s.keys := rfl
@[simp] theorem State.setCore_keyGens : (s.setCore n c).keyGens = s.keyGens := rfl
@[simp] theorem State.setCore_tiercap : (s.setCore n c).tiercap = s.tiercap := rfl
@[simp] theorem State.setCore_lqs : (s.setCore n c).lqs = s.lqs := rfl
@[simp] theorem State.setCore_accounts : (s.setCore n c).accounts = s.accounts := rfl
@[simp] theorem State.setCore_gens : (s.setCore n c).gens = s.gens := rfl
@[simp] theorem State.setCore_fillUse : (s.setCore n c).fillUse = s.fillUse := rfl
@[simp] theorem State.setCore_freeInst : (s.setCore n c).freeInst = s.freeInst := rfl
@[simp] theorem State.setCore_nextInst : (s.setCore n c).nextInst = s.nextInst := rfl
@[simp] theorem State.setCore_saved : (s.setCore n c).saved = s.saved := rfl
@[simp] theorem State.setCore_shoots : (s.setCore n c).shoots = s.shoots := rfl
@[simp] theorem State.setCore_shootSeq : (s.setCore n c).shootSeq = s.shootSeq := rfl
@[simp] theorem State.setCore_tlb2 : (s.setCore n c).tlb2 = s.tlb2 := rfl
@[simp] theorem State.setCore_walkCache : (s.setCore n c).walkCache = s.walkCache := rfl
@[simp] theorem State.setCore_walks : (s.setCore n c).walks = s.walks := rfl
@[simp] theorem State.setCore_gangcfg : (s.setCore n c).gangcfg = s.gangcfg := rfl
@[simp] theorem State.setCore_gangOffset : (s.setCore n c).gangOffset = s.gangOffset := rfl
@[simp] theorem State.setCore_clockState : (s.setCore n c).clockState = s.clockState := rfl
@[simp] theorem State.setCore_gen : (s.setCore n c).gen = s.gen := rfl
@[simp] theorem State.setCore_gangCtx : (s.setCore n c).gangCtx = s.gangCtx := rfl
@[simp] theorem State.setCore_switches : (s.setCore n c).switches = s.switches := rfl
@[simp] theorem State.setCore_lastSwitch : (s.setCore n c).lastSwitch = s.lastSwitch := rfl
@[simp] theorem State.setCore_lastTab : (s.setCore n c).lastTab = s.lastTab := rfl
@[simp] theorem State.setCore_swStatus : (s.setCore n c).swStatus = s.swStatus := rfl
@[simp] theorem State.setCore_heldCtxs : (s.setCore n c).heldCtxs = s.heldCtxs := rfl
@[simp] theorem State.setCore_readySet : (s.setCore n c).readySet = s.readySet := rfl
@[simp] theorem State.setCore_commitSet : (s.setCore n c).commitSet = s.commitSet := rfl
@[simp] theorem State.setCore_gdrop : (s.setCore n c).gdrop = s.gdrop := rfl
@[simp] theorem State.setCore_gfaulted : (s.setCore n c).gfaulted = s.gfaulted := rfl
@[simp] theorem State.setCore_paptbase : (s.setCore n c).paptbase = s.paptbase := rfl
@[simp] theorem State.setCore_gloss : (s.setCore n c).gloss = s.gloss := rfl
@[simp] theorem State.setCore_flights : (s.setCore n c).flights = s.flights := rfl
@[simp] theorem State.setCore_held : (s.setCore n c).held = s.held := rfl
@[simp] theorem State.setCore_outbox : (s.setCore n c).outbox = s.outbox := rfl
@[simp] theorem State.setCore_slowLinks : (s.setCore n c).slowLinks = s.slowLinks := rfl
@[simp] theorem State.setCore_sendHeads : (s.setCore n c).sendHeads = s.sendHeads := rfl
@[simp] theorem State.setCore_hostClk : (s.setCore n c).hostClk = s.hostClk := rfl
@[simp] theorem State.setCore_memberClk : (s.setCore n c).memberClk = s.memberClk := rfl
@[simp] theorem State.setCore_lostInst : (s.setCore n c).lostInst = s.lostInst := rfl
@[simp] theorem State.setCore_clockNs : (s.setCore n c).clockNs = s.clockNs := rfl
@[simp] theorem State.setCore_stepped : (s.setCore n c).stepped = s.stepped := rfl
@[simp] theorem State.setCore_measured : (s.setCore n c).measured = s.measured := rfl
@[simp] theorem State.setCore_grandmaster : (s.setCore n c).grandmaster = s.grandmaster := rfl
@[simp] theorem State.setCore_timeKnown : (s.setCore n c).timeKnown = s.timeKnown := rfl
@[simp] theorem State.setCore_syncCount : (s.setCore n c).syncCount = s.syncCount := rfl
@[simp] theorem State.setCore_lastSync : (s.setCore n c).lastSync = s.lastSync := rfl
@[simp] theorem State.setCore_holdoverAt : (s.setCore n c).holdoverAt = s.holdoverAt := rfl
@[simp] theorem State.setCore_gate : (s.setCore n c).gate = s.gate := rfl
@[simp] theorem State.setCore_evbase : (s.setCore n c).evbase = s.evbase := rfl
@[simp] theorem State.setCore_evhead : (s.setCore n c).evhead = s.evhead := rfl
@[simp] theorem State.setCore_evtail : (s.setCore n c).evtail = s.evtail := rfl
@[simp] theorem State.setCore_evlost : (s.setCore n c).evlost = s.evlost := rfl
@[simp] theorem State.setCore_eventHold : (s.setCore n c).eventHold = s.eventHold := rfl
@[simp] theorem State.setCore_corrections : (s.setCore n c).corrections = s.corrections := rfl
@[simp] theorem State.setCore_mbxstat : (s.setCore n c).mbxstat = s.mbxstat := rfl
@[simp] theorem State.setCore_mbxCmd : (s.setCore n c).mbxCmd = s.mbxCmd := rfl
@[simp] theorem State.setCore_trip : (s.setCore n c).trip = s.trip := rfl
@[simp] theorem State.setCore_railsOff : (s.setCore n c).railsOff = s.railsOff := rfl
@[simp] theorem State.setCore_bar2base : (s.setCore n c).bar2base = s.bar2base := rfl
@[simp] theorem State.setCore_bar2ctx : (s.setCore n c).bar2ctx = s.bar2ctx := rfl
@[simp] theorem State.setCore_reports : (s.setCore n c).reports = s.reports := rfl
@[simp] theorem State.setCore_haltReports : (s.setCore n c).haltReports = s.haltReports := rfl
@[simp] theorem State.setCore_sliceReports : (s.setCore n c).sliceReports = s.sliceReports := rfl
@[simp] theorem State.setCore_sliceStall : (s.setCore n c).sliceStall = s.sliceStall := rfl
@[simp] theorem State.setCore_screens : (s.setCore n c).screens = s.screens := rfl
@[simp] theorem State.setCore_lastCluster : (s.setCore n c).lastCluster = s.lastCluster := rfl
@[simp] theorem State.setCore_lastAdmit : (s.setCore n c).lastAdmit = s.lastAdmit := rfl
@[simp] theorem State.setCore_lastQueue : (s.setCore n c).lastQueue = s.lastQueue := rfl
@[simp] theorem State.setCore_up : (s.setCore n c).up = s.up := rfl
@[simp] theorem State.setCore_agenda : (s.setCore n c).agenda = s.agenda := rfl
@[simp] theorem State.setCore_cur : (s.setCore n c).cur = s.cur := rfl
@[simp] theorem State.setCore_fresh : (s.setCore n c).fresh = s.fresh := rfl
@[simp] theorem State.setCore_nextId : (s.setCore n c).nextId = s.nextId := rfl

@[simp] theorem State.setWg_cores : (s.setWg n g).cores = s.cores := rfl
@[simp] theorem State.setWg_teams : (s.setWg n g).teams = s.teams := rfl
@[simp] theorem State.setWg_grids : (s.setWg n g).grids = s.grids := rfl
@[simp] theorem State.setWg_quads : (s.setWg n g).quads = s.quads := rfl
@[simp] theorem State.setWg_power : (s.setWg n g).power = s.power := rfl
@[simp] theorem State.setWg_mem : (s.setWg n g).mem = s.mem := rfl
@[simp] theorem State.setWg_poison : (s.setWg n g).poison = s.poison := rfl
@[simp] theorem State.setWg_sectorKey : (s.setWg n g).sectorKey = s.sectorKey := rfl
@[simp] theorem State.setWg_arrays : (s.setWg n g).arrays = s.arrays := rfl
@[simp] theorem State.setWg_lines : (s.setWg n g).lines = s.lines := rfl
@[simp] theorem State.setWg_l1 : (s.setWg n g).l1 = s.l1 := rfl
@[simp] theorem State.setWg_spillFmt : (s.setWg n g).spillFmt = s.spillFmt := rfl
@[simp] theorem State.setWg_hist : (s.setWg n g).hist = s.hist := rfl
@[simp] theorem State.setWg_rels : (s.setWg n g).rels = s.rels := rfl
@[simp] theorem State.setWg_scratchRels : (s.setWg n g).scratchRels = s.scratchRels := rfl
@[simp] theorem State.setWg_ctxs : (s.setWg n g).ctxs = s.ctxs := rfl
@[simp] theorem State.setWg_tagbase : (s.setWg n g).tagbase = s.tagbase := rfl
@[simp] theorem State.setWg_access : (s.setWg n g).access = s.access := rfl
@[simp] theorem State.setWg_accessReset : (s.setWg n g).accessReset = s.accessReset := rfl
@[simp] theorem State.setWg_keys : (s.setWg n g).keys = s.keys := rfl
@[simp] theorem State.setWg_keyGens : (s.setWg n g).keyGens = s.keyGens := rfl
@[simp] theorem State.setWg_tiercap : (s.setWg n g).tiercap = s.tiercap := rfl
@[simp] theorem State.setWg_lqs : (s.setWg n g).lqs = s.lqs := rfl
@[simp] theorem State.setWg_accounts : (s.setWg n g).accounts = s.accounts := rfl
@[simp] theorem State.setWg_gens : (s.setWg n g).gens = s.gens := rfl
@[simp] theorem State.setWg_fillUse : (s.setWg n g).fillUse = s.fillUse := rfl
@[simp] theorem State.setWg_freeInst : (s.setWg n g).freeInst = s.freeInst := rfl
@[simp] theorem State.setWg_nextInst : (s.setWg n g).nextInst = s.nextInst := rfl
@[simp] theorem State.setWg_saved : (s.setWg n g).saved = s.saved := rfl
@[simp] theorem State.setWg_shoots : (s.setWg n g).shoots = s.shoots := rfl
@[simp] theorem State.setWg_shootSeq : (s.setWg n g).shootSeq = s.shootSeq := rfl
@[simp] theorem State.setWg_tlb2 : (s.setWg n g).tlb2 = s.tlb2 := rfl
@[simp] theorem State.setWg_walkCache : (s.setWg n g).walkCache = s.walkCache := rfl
@[simp] theorem State.setWg_walks : (s.setWg n g).walks = s.walks := rfl
@[simp] theorem State.setWg_gangcfg : (s.setWg n g).gangcfg = s.gangcfg := rfl
@[simp] theorem State.setWg_gangOffset : (s.setWg n g).gangOffset = s.gangOffset := rfl
@[simp] theorem State.setWg_clockState : (s.setWg n g).clockState = s.clockState := rfl
@[simp] theorem State.setWg_gen : (s.setWg n g).gen = s.gen := rfl
@[simp] theorem State.setWg_gangCtx : (s.setWg n g).gangCtx = s.gangCtx := rfl
@[simp] theorem State.setWg_switches : (s.setWg n g).switches = s.switches := rfl
@[simp] theorem State.setWg_lastSwitch : (s.setWg n g).lastSwitch = s.lastSwitch := rfl
@[simp] theorem State.setWg_lastTab : (s.setWg n g).lastTab = s.lastTab := rfl
@[simp] theorem State.setWg_swStatus : (s.setWg n g).swStatus = s.swStatus := rfl
@[simp] theorem State.setWg_heldCtxs : (s.setWg n g).heldCtxs = s.heldCtxs := rfl
@[simp] theorem State.setWg_readySet : (s.setWg n g).readySet = s.readySet := rfl
@[simp] theorem State.setWg_commitSet : (s.setWg n g).commitSet = s.commitSet := rfl
@[simp] theorem State.setWg_gdrop : (s.setWg n g).gdrop = s.gdrop := rfl
@[simp] theorem State.setWg_gfaulted : (s.setWg n g).gfaulted = s.gfaulted := rfl
@[simp] theorem State.setWg_paptbase : (s.setWg n g).paptbase = s.paptbase := rfl
@[simp] theorem State.setWg_gloss : (s.setWg n g).gloss = s.gloss := rfl
@[simp] theorem State.setWg_flights : (s.setWg n g).flights = s.flights := rfl
@[simp] theorem State.setWg_held : (s.setWg n g).held = s.held := rfl
@[simp] theorem State.setWg_outbox : (s.setWg n g).outbox = s.outbox := rfl
@[simp] theorem State.setWg_slowLinks : (s.setWg n g).slowLinks = s.slowLinks := rfl
@[simp] theorem State.setWg_sendHeads : (s.setWg n g).sendHeads = s.sendHeads := rfl
@[simp] theorem State.setWg_hostClk : (s.setWg n g).hostClk = s.hostClk := rfl
@[simp] theorem State.setWg_memberClk : (s.setWg n g).memberClk = s.memberClk := rfl
@[simp] theorem State.setWg_lostInst : (s.setWg n g).lostInst = s.lostInst := rfl
@[simp] theorem State.setWg_clockNs : (s.setWg n g).clockNs = s.clockNs := rfl
@[simp] theorem State.setWg_stepped : (s.setWg n g).stepped = s.stepped := rfl
@[simp] theorem State.setWg_measured : (s.setWg n g).measured = s.measured := rfl
@[simp] theorem State.setWg_grandmaster : (s.setWg n g).grandmaster = s.grandmaster := rfl
@[simp] theorem State.setWg_timeKnown : (s.setWg n g).timeKnown = s.timeKnown := rfl
@[simp] theorem State.setWg_syncCount : (s.setWg n g).syncCount = s.syncCount := rfl
@[simp] theorem State.setWg_lastSync : (s.setWg n g).lastSync = s.lastSync := rfl
@[simp] theorem State.setWg_holdoverAt : (s.setWg n g).holdoverAt = s.holdoverAt := rfl
@[simp] theorem State.setWg_gate : (s.setWg n g).gate = s.gate := rfl
@[simp] theorem State.setWg_evbase : (s.setWg n g).evbase = s.evbase := rfl
@[simp] theorem State.setWg_evhead : (s.setWg n g).evhead = s.evhead := rfl
@[simp] theorem State.setWg_evtail : (s.setWg n g).evtail = s.evtail := rfl
@[simp] theorem State.setWg_evlost : (s.setWg n g).evlost = s.evlost := rfl
@[simp] theorem State.setWg_eventHold : (s.setWg n g).eventHold = s.eventHold := rfl
@[simp] theorem State.setWg_corrections : (s.setWg n g).corrections = s.corrections := rfl
@[simp] theorem State.setWg_mbxstat : (s.setWg n g).mbxstat = s.mbxstat := rfl
@[simp] theorem State.setWg_mbxCmd : (s.setWg n g).mbxCmd = s.mbxCmd := rfl
@[simp] theorem State.setWg_trip : (s.setWg n g).trip = s.trip := rfl
@[simp] theorem State.setWg_railsOff : (s.setWg n g).railsOff = s.railsOff := rfl
@[simp] theorem State.setWg_bar2base : (s.setWg n g).bar2base = s.bar2base := rfl
@[simp] theorem State.setWg_bar2ctx : (s.setWg n g).bar2ctx = s.bar2ctx := rfl
@[simp] theorem State.setWg_reports : (s.setWg n g).reports = s.reports := rfl
@[simp] theorem State.setWg_haltReports : (s.setWg n g).haltReports = s.haltReports := rfl
@[simp] theorem State.setWg_sliceReports : (s.setWg n g).sliceReports = s.sliceReports := rfl
@[simp] theorem State.setWg_sliceStall : (s.setWg n g).sliceStall = s.sliceStall := rfl
@[simp] theorem State.setWg_screens : (s.setWg n g).screens = s.screens := rfl
@[simp] theorem State.setWg_lastCluster : (s.setWg n g).lastCluster = s.lastCluster := rfl
@[simp] theorem State.setWg_lastAdmit : (s.setWg n g).lastAdmit = s.lastAdmit := rfl
@[simp] theorem State.setWg_lastQueue : (s.setWg n g).lastQueue = s.lastQueue := rfl
@[simp] theorem State.setWg_up : (s.setWg n g).up = s.up := rfl
@[simp] theorem State.setWg_agenda : (s.setWg n g).agenda = s.agenda := rfl
@[simp] theorem State.setWg_cur : (s.setWg n g).cur = s.cur := rfl
@[simp] theorem State.setWg_fresh : (s.setWg n g).fresh = s.fresh := rfl
@[simp] theorem State.setWg_nextId : (s.setWg n g).nextId = s.nextId := rfl

@[simp] theorem State.setHist_cores : (s.setHist l h).cores = s.cores := rfl
@[simp] theorem State.setHist_wgs : (s.setHist l h).wgs = s.wgs := rfl
@[simp] theorem State.setHist_supWgs : (s.setHist l h).supWgs = s.supWgs := rfl
@[simp] theorem State.setHist_teams : (s.setHist l h).teams = s.teams := rfl
@[simp] theorem State.setHist_grids : (s.setHist l h).grids = s.grids := rfl
@[simp] theorem State.setHist_quads : (s.setHist l h).quads = s.quads := rfl
@[simp] theorem State.setHist_power : (s.setHist l h).power = s.power := rfl
@[simp] theorem State.setHist_mem : (s.setHist l h).mem = s.mem := rfl
@[simp] theorem State.setHist_poison : (s.setHist l h).poison = s.poison := rfl
@[simp] theorem State.setHist_sectorKey : (s.setHist l h).sectorKey = s.sectorKey := rfl
@[simp] theorem State.setHist_arrays : (s.setHist l h).arrays = s.arrays := rfl
@[simp] theorem State.setHist_lines : (s.setHist l h).lines = s.lines := rfl
@[simp] theorem State.setHist_l1 : (s.setHist l h).l1 = s.l1 := rfl
@[simp] theorem State.setHist_spillFmt : (s.setHist l h).spillFmt = s.spillFmt := rfl
@[simp] theorem State.setHist_rels : (s.setHist l h).rels = s.rels := rfl
@[simp] theorem State.setHist_scratchRels : (s.setHist l h).scratchRels = s.scratchRels := rfl
@[simp] theorem State.setHist_ctxs : (s.setHist l h).ctxs = s.ctxs := rfl
@[simp] theorem State.setHist_tagbase : (s.setHist l h).tagbase = s.tagbase := rfl
@[simp] theorem State.setHist_access : (s.setHist l h).access = s.access := rfl
@[simp] theorem State.setHist_accessReset : (s.setHist l h).accessReset = s.accessReset := rfl
@[simp] theorem State.setHist_keys : (s.setHist l h).keys = s.keys := rfl
@[simp] theorem State.setHist_keyGens : (s.setHist l h).keyGens = s.keyGens := rfl
@[simp] theorem State.setHist_tiercap : (s.setHist l h).tiercap = s.tiercap := rfl
@[simp] theorem State.setHist_lqs : (s.setHist l h).lqs = s.lqs := rfl
@[simp] theorem State.setHist_accounts : (s.setHist l h).accounts = s.accounts := rfl
@[simp] theorem State.setHist_gens : (s.setHist l h).gens = s.gens := rfl
@[simp] theorem State.setHist_fillUse : (s.setHist l h).fillUse = s.fillUse := rfl
@[simp] theorem State.setHist_freeInst : (s.setHist l h).freeInst = s.freeInst := rfl
@[simp] theorem State.setHist_nextInst : (s.setHist l h).nextInst = s.nextInst := rfl
@[simp] theorem State.setHist_saved : (s.setHist l h).saved = s.saved := rfl
@[simp] theorem State.setHist_shoots : (s.setHist l h).shoots = s.shoots := rfl
@[simp] theorem State.setHist_shootSeq : (s.setHist l h).shootSeq = s.shootSeq := rfl
@[simp] theorem State.setHist_tlb2 : (s.setHist l h).tlb2 = s.tlb2 := rfl
@[simp] theorem State.setHist_walkCache : (s.setHist l h).walkCache = s.walkCache := rfl
@[simp] theorem State.setHist_walks : (s.setHist l h).walks = s.walks := rfl
@[simp] theorem State.setHist_gangcfg : (s.setHist l h).gangcfg = s.gangcfg := rfl
@[simp] theorem State.setHist_gangOffset : (s.setHist l h).gangOffset = s.gangOffset := rfl
@[simp] theorem State.setHist_clockState : (s.setHist l h).clockState = s.clockState := rfl
@[simp] theorem State.setHist_gen : (s.setHist l h).gen = s.gen := rfl
@[simp] theorem State.setHist_gangCtx : (s.setHist l h).gangCtx = s.gangCtx := rfl
@[simp] theorem State.setHist_switches : (s.setHist l h).switches = s.switches := rfl
@[simp] theorem State.setHist_lastSwitch : (s.setHist l h).lastSwitch = s.lastSwitch := rfl
@[simp] theorem State.setHist_lastTab : (s.setHist l h).lastTab = s.lastTab := rfl
@[simp] theorem State.setHist_swStatus : (s.setHist l h).swStatus = s.swStatus := rfl
@[simp] theorem State.setHist_heldCtxs : (s.setHist l h).heldCtxs = s.heldCtxs := rfl
@[simp] theorem State.setHist_readySet : (s.setHist l h).readySet = s.readySet := rfl
@[simp] theorem State.setHist_commitSet : (s.setHist l h).commitSet = s.commitSet := rfl
@[simp] theorem State.setHist_gdrop : (s.setHist l h).gdrop = s.gdrop := rfl
@[simp] theorem State.setHist_gfaulted : (s.setHist l h).gfaulted = s.gfaulted := rfl
@[simp] theorem State.setHist_paptbase : (s.setHist l h).paptbase = s.paptbase := rfl
@[simp] theorem State.setHist_gloss : (s.setHist l h).gloss = s.gloss := rfl
@[simp] theorem State.setHist_flights : (s.setHist l h).flights = s.flights := rfl
@[simp] theorem State.setHist_held : (s.setHist l h).held = s.held := rfl
@[simp] theorem State.setHist_outbox : (s.setHist l h).outbox = s.outbox := rfl
@[simp] theorem State.setHist_slowLinks : (s.setHist l h).slowLinks = s.slowLinks := rfl
@[simp] theorem State.setHist_sendHeads : (s.setHist l h).sendHeads = s.sendHeads := rfl
@[simp] theorem State.setHist_hostClk : (s.setHist l h).hostClk = s.hostClk := rfl
@[simp] theorem State.setHist_memberClk : (s.setHist l h).memberClk = s.memberClk := rfl
@[simp] theorem State.setHist_lostInst : (s.setHist l h).lostInst = s.lostInst := rfl
@[simp] theorem State.setHist_clockNs : (s.setHist l h).clockNs = s.clockNs := rfl
@[simp] theorem State.setHist_stepped : (s.setHist l h).stepped = s.stepped := rfl
@[simp] theorem State.setHist_measured : (s.setHist l h).measured = s.measured := rfl
@[simp] theorem State.setHist_grandmaster : (s.setHist l h).grandmaster = s.grandmaster := rfl
@[simp] theorem State.setHist_timeKnown : (s.setHist l h).timeKnown = s.timeKnown := rfl
@[simp] theorem State.setHist_syncCount : (s.setHist l h).syncCount = s.syncCount := rfl
@[simp] theorem State.setHist_lastSync : (s.setHist l h).lastSync = s.lastSync := rfl
@[simp] theorem State.setHist_holdoverAt : (s.setHist l h).holdoverAt = s.holdoverAt := rfl
@[simp] theorem State.setHist_gate : (s.setHist l h).gate = s.gate := rfl
@[simp] theorem State.setHist_evbase : (s.setHist l h).evbase = s.evbase := rfl
@[simp] theorem State.setHist_evhead : (s.setHist l h).evhead = s.evhead := rfl
@[simp] theorem State.setHist_evtail : (s.setHist l h).evtail = s.evtail := rfl
@[simp] theorem State.setHist_evlost : (s.setHist l h).evlost = s.evlost := rfl
@[simp] theorem State.setHist_eventHold : (s.setHist l h).eventHold = s.eventHold := rfl
@[simp] theorem State.setHist_corrections : (s.setHist l h).corrections = s.corrections := rfl
@[simp] theorem State.setHist_mbxstat : (s.setHist l h).mbxstat = s.mbxstat := rfl
@[simp] theorem State.setHist_mbxCmd : (s.setHist l h).mbxCmd = s.mbxCmd := rfl
@[simp] theorem State.setHist_trip : (s.setHist l h).trip = s.trip := rfl
@[simp] theorem State.setHist_railsOff : (s.setHist l h).railsOff = s.railsOff := rfl
@[simp] theorem State.setHist_bar2base : (s.setHist l h).bar2base = s.bar2base := rfl
@[simp] theorem State.setHist_bar2ctx : (s.setHist l h).bar2ctx = s.bar2ctx := rfl
@[simp] theorem State.setHist_reports : (s.setHist l h).reports = s.reports := rfl
@[simp] theorem State.setHist_haltReports : (s.setHist l h).haltReports = s.haltReports := rfl
@[simp] theorem State.setHist_sliceReports : (s.setHist l h).sliceReports = s.sliceReports := rfl
@[simp] theorem State.setHist_sliceStall : (s.setHist l h).sliceStall = s.sliceStall := rfl
@[simp] theorem State.setHist_screens : (s.setHist l h).screens = s.screens := rfl
@[simp] theorem State.setHist_lastCluster : (s.setHist l h).lastCluster = s.lastCluster := rfl
@[simp] theorem State.setHist_lastAdmit : (s.setHist l h).lastAdmit = s.lastAdmit := rfl
@[simp] theorem State.setHist_lastQueue : (s.setHist l h).lastQueue = s.lastQueue := rfl
@[simp] theorem State.setHist_up : (s.setHist l h).up = s.up := rfl
@[simp] theorem State.setHist_agenda : (s.setHist l h).agenda = s.agenda := rfl
@[simp] theorem State.setHist_cur : (s.setHist l h).cur = s.cur := rfl
@[simp] theorem State.setHist_fresh : (s.setHist l h).fresh = s.fresh := rfl
@[simp] theorem State.setHist_nextId : (s.setHist l h).nextId = s.nextId := rfl

@[simp] theorem State.newId_cores : s.newId.2.cores = s.cores := rfl
@[simp] theorem State.newId_wgs : s.newId.2.wgs = s.wgs := rfl
@[simp] theorem State.newId_supWgs : s.newId.2.supWgs = s.supWgs := rfl
@[simp] theorem State.newId_teams : s.newId.2.teams = s.teams := rfl
@[simp] theorem State.newId_grids : s.newId.2.grids = s.grids := rfl
@[simp] theorem State.newId_quads : s.newId.2.quads = s.quads := rfl
@[simp] theorem State.newId_power : s.newId.2.power = s.power := rfl
@[simp] theorem State.newId_mem : s.newId.2.mem = s.mem := rfl
@[simp] theorem State.newId_poison : s.newId.2.poison = s.poison := rfl
@[simp] theorem State.newId_sectorKey : s.newId.2.sectorKey = s.sectorKey := rfl
@[simp] theorem State.newId_arrays : s.newId.2.arrays = s.arrays := rfl
@[simp] theorem State.newId_lines : s.newId.2.lines = s.lines := rfl
@[simp] theorem State.newId_l1 : s.newId.2.l1 = s.l1 := rfl
@[simp] theorem State.newId_spillFmt : s.newId.2.spillFmt = s.spillFmt := rfl
@[simp] theorem State.newId_hist : s.newId.2.hist = s.hist := rfl
@[simp] theorem State.newId_rels : s.newId.2.rels = s.rels := rfl
@[simp] theorem State.newId_scratchRels : s.newId.2.scratchRels = s.scratchRels := rfl
@[simp] theorem State.newId_ctxs : s.newId.2.ctxs = s.ctxs := rfl
@[simp] theorem State.newId_tagbase : s.newId.2.tagbase = s.tagbase := rfl
@[simp] theorem State.newId_access : s.newId.2.access = s.access := rfl
@[simp] theorem State.newId_accessReset : s.newId.2.accessReset = s.accessReset := rfl
@[simp] theorem State.newId_keys : s.newId.2.keys = s.keys := rfl
@[simp] theorem State.newId_keyGens : s.newId.2.keyGens = s.keyGens := rfl
@[simp] theorem State.newId_tiercap : s.newId.2.tiercap = s.tiercap := rfl
@[simp] theorem State.newId_lqs : s.newId.2.lqs = s.lqs := rfl
@[simp] theorem State.newId_accounts : s.newId.2.accounts = s.accounts := rfl
@[simp] theorem State.newId_gens : s.newId.2.gens = s.gens := rfl
@[simp] theorem State.newId_fillUse : s.newId.2.fillUse = s.fillUse := rfl
@[simp] theorem State.newId_freeInst : s.newId.2.freeInst = s.freeInst := rfl
@[simp] theorem State.newId_nextInst : s.newId.2.nextInst = s.nextInst := rfl
@[simp] theorem State.newId_saved : s.newId.2.saved = s.saved := rfl
@[simp] theorem State.newId_shoots : s.newId.2.shoots = s.shoots := rfl
@[simp] theorem State.newId_shootSeq : s.newId.2.shootSeq = s.shootSeq := rfl
@[simp] theorem State.newId_tlb2 : s.newId.2.tlb2 = s.tlb2 := rfl
@[simp] theorem State.newId_walkCache : s.newId.2.walkCache = s.walkCache := rfl
@[simp] theorem State.newId_walks : s.newId.2.walks = s.walks := rfl
@[simp] theorem State.newId_gangcfg : s.newId.2.gangcfg = s.gangcfg := rfl
@[simp] theorem State.newId_gangOffset : s.newId.2.gangOffset = s.gangOffset := rfl
@[simp] theorem State.newId_clockState : s.newId.2.clockState = s.clockState := rfl
@[simp] theorem State.newId_gen : s.newId.2.gen = s.gen := rfl
@[simp] theorem State.newId_gangCtx : s.newId.2.gangCtx = s.gangCtx := rfl
@[simp] theorem State.newId_switches : s.newId.2.switches = s.switches := rfl
@[simp] theorem State.newId_lastSwitch : s.newId.2.lastSwitch = s.lastSwitch := rfl
@[simp] theorem State.newId_lastTab : s.newId.2.lastTab = s.lastTab := rfl
@[simp] theorem State.newId_swStatus : s.newId.2.swStatus = s.swStatus := rfl
@[simp] theorem State.newId_heldCtxs : s.newId.2.heldCtxs = s.heldCtxs := rfl
@[simp] theorem State.newId_readySet : s.newId.2.readySet = s.readySet := rfl
@[simp] theorem State.newId_commitSet : s.newId.2.commitSet = s.commitSet := rfl
@[simp] theorem State.newId_gdrop : s.newId.2.gdrop = s.gdrop := rfl
@[simp] theorem State.newId_gfaulted : s.newId.2.gfaulted = s.gfaulted := rfl
@[simp] theorem State.newId_paptbase : s.newId.2.paptbase = s.paptbase := rfl
@[simp] theorem State.newId_gloss : s.newId.2.gloss = s.gloss := rfl
@[simp] theorem State.newId_flights : s.newId.2.flights = s.flights := rfl
@[simp] theorem State.newId_held : s.newId.2.held = s.held := rfl
@[simp] theorem State.newId_outbox : s.newId.2.outbox = s.outbox := rfl
@[simp] theorem State.newId_slowLinks : s.newId.2.slowLinks = s.slowLinks := rfl
@[simp] theorem State.newId_sendHeads : s.newId.2.sendHeads = s.sendHeads := rfl
@[simp] theorem State.newId_hostClk : s.newId.2.hostClk = s.hostClk := rfl
@[simp] theorem State.newId_memberClk : s.newId.2.memberClk = s.memberClk := rfl
@[simp] theorem State.newId_lostInst : s.newId.2.lostInst = s.lostInst := rfl
@[simp] theorem State.newId_clockNs : s.newId.2.clockNs = s.clockNs := rfl
@[simp] theorem State.newId_stepped : s.newId.2.stepped = s.stepped := rfl
@[simp] theorem State.newId_measured : s.newId.2.measured = s.measured := rfl
@[simp] theorem State.newId_grandmaster : s.newId.2.grandmaster = s.grandmaster := rfl
@[simp] theorem State.newId_timeKnown : s.newId.2.timeKnown = s.timeKnown := rfl
@[simp] theorem State.newId_syncCount : s.newId.2.syncCount = s.syncCount := rfl
@[simp] theorem State.newId_lastSync : s.newId.2.lastSync = s.lastSync := rfl
@[simp] theorem State.newId_holdoverAt : s.newId.2.holdoverAt = s.holdoverAt := rfl
@[simp] theorem State.newId_gate : s.newId.2.gate = s.gate := rfl
@[simp] theorem State.newId_evbase : s.newId.2.evbase = s.evbase := rfl
@[simp] theorem State.newId_evhead : s.newId.2.evhead = s.evhead := rfl
@[simp] theorem State.newId_evtail : s.newId.2.evtail = s.evtail := rfl
@[simp] theorem State.newId_evlost : s.newId.2.evlost = s.evlost := rfl
@[simp] theorem State.newId_eventHold : s.newId.2.eventHold = s.eventHold := rfl
@[simp] theorem State.newId_corrections : s.newId.2.corrections = s.corrections := rfl
@[simp] theorem State.newId_mbxstat : s.newId.2.mbxstat = s.mbxstat := rfl
@[simp] theorem State.newId_mbxCmd : s.newId.2.mbxCmd = s.mbxCmd := rfl
@[simp] theorem State.newId_trip : s.newId.2.trip = s.trip := rfl
@[simp] theorem State.newId_railsOff : s.newId.2.railsOff = s.railsOff := rfl
@[simp] theorem State.newId_bar2base : s.newId.2.bar2base = s.bar2base := rfl
@[simp] theorem State.newId_bar2ctx : s.newId.2.bar2ctx = s.bar2ctx := rfl
@[simp] theorem State.newId_reports : s.newId.2.reports = s.reports := rfl
@[simp] theorem State.newId_haltReports : s.newId.2.haltReports = s.haltReports := rfl
@[simp] theorem State.newId_sliceReports : s.newId.2.sliceReports = s.sliceReports := rfl
@[simp] theorem State.newId_sliceStall : s.newId.2.sliceStall = s.sliceStall := rfl
@[simp] theorem State.newId_screens : s.newId.2.screens = s.screens := rfl
@[simp] theorem State.newId_lastCluster : s.newId.2.lastCluster = s.lastCluster := rfl
@[simp] theorem State.newId_lastAdmit : s.newId.2.lastAdmit = s.lastAdmit := rfl
@[simp] theorem State.newId_lastQueue : s.newId.2.lastQueue = s.lastQueue := rfl
@[simp] theorem State.newId_up : s.newId.2.up = s.up := rfl
@[simp] theorem State.newId_agenda : s.newId.2.agenda = s.agenda := rfl
@[simp] theorem State.newId_cur : s.newId.2.cur = s.cur := rfl
@[simp] theorem State.newId_fresh : s.newId.2.fresh = s.fresh := rfl
@[simp] theorem State.newId_fst : s.newId.1 = s.nextId := rfl
@[simp] theorem State.newId_nextId : s.newId.2.nextId = s.nextId + 1 := rfl

/-! ### Cores and workgroups -/

@[simp] theorem State.core_setCore_same : (s.setCore n c).core n = c := Tab.get_put_same _ _ _ _

@[simp] theorem State.core_setCore_ne {m : Nat} (hm : m ≠ n) : (s.setCore n c).core m = s.core m :=
  Tab.get_put_ne _ _ _ hm

@[simp] theorem State.core_modCore_same (f : Core → Core) : (s.modCore n f).core n = f (s.core n) :=
  Tab.get_put_same _ _ _ _

@[simp] theorem State.core_modCore_ne (f : Core → Core) {m : Nat} (hm : m ≠ n) : (s.modCore n f).core m = s.core m :=
  Tab.get_put_ne _ _ _ hm

theorem State.wg?_congr {s t : State} {i : Nat} (hw : t.wgs = s.wgs) (hs : t.supWgs = s.supWgs)
    (hc : (t.core (i - supBase)).sup = (s.core (i - supBase)).sup) : t.wg? i = s.wg? i := by
  simp only [State.wg?, hw, hs, hc]

theorem State.wg?_lt {m : Nat} (hm : m < supBase) : s.wg? m = s.wgs.get none m := if_pos hm

theorem State.setWg_wgs (hn : n < supBase) : (s.setWg n g).wgs = s.wgs.put none n (some g) := if_pos hn

theorem State.setWg_supWgs (hn : n < supBase) : (s.setWg n g).supWgs = s.supWgs := if_pos hn

@[simp] theorem State.wg?_setWg_same (hn : n < supBase) : (s.setWg n g).wg? n = some g := by
  rw [State.wg?_lt _ hn, State.setWg_wgs _ _ _ hn]; exact Tab.get_put_same none s.wgs n (some g)

@[simp] theorem State.wg?_setWg_ne {m : Nat} (hm : m ≠ n) : (s.setWg n g).wg? m = s.wg? m := by
  unfold State.wg? State.setWg State.core
  by_cases h1 : m < supBase <;> by_cases h2 : n < supBase <;> simp only [h1, h2, if_true, if_false]
  · exact Tab.get_put_ne none s.wgs (some g) hm
  · rw [Tab.get_put_ne none s.supWgs _ (by omega)]

@[simp] theorem State.core_setWg (m : Nat) : (s.setWg n g).core m = s.core m := rfl

@[simp] theorem State.wg?_setCore {m : Nat} (hm : m < supBase) : (s.setCore n c).wg? m = s.wg? m := by
  rw [State.wg?_lt _ hm, State.wg?_lt _ hm]; rfl

@[simp] theorem State.wg?_modCore (f : Core → Core) {m : Nat} (hm : m < supBase) :
    (s.modCore n f).wg? m = s.wg? m := State.wg?_setCore _ _ _ hm

@[simp] theorem State.core_setHist (m : Nat) : (s.setHist l h).core m = s.core m := rfl

@[simp] theorem State.wg?_setHist (m : Nat) : (s.setHist l h).wg? m = s.wg? m := rfl

@[simp] theorem State.core_modWg (f : Wg → Wg) (m : Nat) : (s.modWg n f).core m = s.core m := by
  unfold State.modWg; split <;> rfl

theorem State.wg?_modWg_same (hn : n < supBase) (f : Wg → Wg) : (s.modWg n f).wg? n = (s.wg? n).map f := by
  unfold State.modWg; split
  · next h => simp [h, hn]
  · next h => simp [h]

@[simp] theorem State.wg?_modWg_ne (f : Wg → Wg) {m : Nat} (hm : m ≠ n) : (s.modWg n f).wg? m = s.wg? m := by
  unfold State.modWg; split
  · exact State.wg?_setWg_ne _ _ _ hm
  · rfl

/-! ### What the derived updates leave -/

/-- Everything beside the cores, the workgroups and what the supervisor warps use. -/
def State.sameRest (s t : State) : Prop := { t with cores := s.cores, wgs := s.wgs, supWgs := s.supWgs } = s

theorem State.sameRest_refl : s.sameRest s := rfl

variable {s} in
theorem State.sameRest_trans {t u : State} (h1 : s.sameRest t) (h2 : t.sameRest u) : s.sameRest u := by
  unfold State.sameRest at *
  rw [← h1]
  have := congrArg (fun x : State => { x with cores := s.cores, wgs := s.wgs, supWgs := s.supWgs }) h2
  exact this

theorem State.modCore_rest (f : Core → Core) : s.sameRest (s.modCore n f) := rfl

theorem State.modWg_rest (f : Wg → Wg) : s.sameRest (s.modWg n f) := by
  unfold State.modWg; split <;> rfl

theorem State.setWarp_rest (w : WRef) (x : Warp) : s.sameRest (s.setWarp w x) := by
  cases w
  · exact State.modWg_rest _ _ _
  · rfl

theorem State.modWarp_rest (w : WRef) (f : Warp → Warp) : s.sameRest (s.modWarp w f) := State.setWarp_rest _ _ _

theorem State.setRow_rest (i : RowId) (x : Row) : s.sameRest (s.setRow i x) := by cases i <;> rfl

theorem State.sameRest.teams {s t : State} (h : s.sameRest t) : t.teams = s.teams := (congrArg State.teams h : _)
theorem State.sameRest.grids {s t : State} (h : s.sameRest t) : t.grids = s.grids := (congrArg State.grids h : _)
theorem State.sameRest.quads {s t : State} (h : s.sameRest t) : t.quads = s.quads := (congrArg State.quads h : _)
theorem State.sameRest.power {s t : State} (h : s.sameRest t) : t.power = s.power := (congrArg State.power h : _)
theorem State.sameRest.mem {s t : State} (h : s.sameRest t) : t.mem = s.mem := (congrArg State.mem h : _)
theorem State.sameRest.poison {s t : State} (h : s.sameRest t) : t.poison = s.poison := (congrArg State.poison h : _)
theorem State.sameRest.sectorKey {s t : State} (h : s.sameRest t) : t.sectorKey = s.sectorKey := (congrArg State.sectorKey h : _)
theorem State.sameRest.arrays {s t : State} (h : s.sameRest t) : t.arrays = s.arrays := (congrArg State.arrays h : _)
theorem State.sameRest.lines {s t : State} (h : s.sameRest t) : t.lines = s.lines := (congrArg State.lines h : _)
theorem State.sameRest.l1 {s t : State} (h : s.sameRest t) : t.l1 = s.l1 := (congrArg State.l1 h : _)
theorem State.sameRest.spillFmt {s t : State} (h : s.sameRest t) : t.spillFmt = s.spillFmt := (congrArg State.spillFmt h : _)
theorem State.sameRest.hist {s t : State} (h : s.sameRest t) : t.hist = s.hist := (congrArg State.hist h : _)
theorem State.sameRest.rels {s t : State} (h : s.sameRest t) : t.rels = s.rels := (congrArg State.rels h : _)
theorem State.sameRest.scratchRels {s t : State} (h : s.sameRest t) : t.scratchRels = s.scratchRels := (congrArg State.scratchRels h : _)
theorem State.sameRest.ctxs {s t : State} (h : s.sameRest t) : t.ctxs = s.ctxs := (congrArg State.ctxs h : _)
theorem State.sameRest.tagbase {s t : State} (h : s.sameRest t) : t.tagbase = s.tagbase := (congrArg State.tagbase h : _)
theorem State.sameRest.access {s t : State} (h : s.sameRest t) : t.access = s.access := (congrArg State.access h : _)
theorem State.sameRest.accessReset {s t : State} (h : s.sameRest t) : t.accessReset = s.accessReset := (congrArg State.accessReset h : _)
theorem State.sameRest.keys {s t : State} (h : s.sameRest t) : t.keys = s.keys := (congrArg State.keys h : _)
theorem State.sameRest.keyGens {s t : State} (h : s.sameRest t) : t.keyGens = s.keyGens := (congrArg State.keyGens h : _)
theorem State.sameRest.tiercap {s t : State} (h : s.sameRest t) : t.tiercap = s.tiercap := (congrArg State.tiercap h : _)
theorem State.sameRest.lqs {s t : State} (h : s.sameRest t) : t.lqs = s.lqs := (congrArg State.lqs h : _)
theorem State.sameRest.accounts {s t : State} (h : s.sameRest t) : t.accounts = s.accounts := (congrArg State.accounts h : _)
theorem State.sameRest.gens {s t : State} (h : s.sameRest t) : t.gens = s.gens := (congrArg State.gens h : _)
theorem State.sameRest.fillUse {s t : State} (h : s.sameRest t) : t.fillUse = s.fillUse := (congrArg State.fillUse h : _)
theorem State.sameRest.freeInst {s t : State} (h : s.sameRest t) : t.freeInst = s.freeInst := (congrArg State.freeInst h : _)
theorem State.sameRest.nextInst {s t : State} (h : s.sameRest t) : t.nextInst = s.nextInst := (congrArg State.nextInst h : _)
theorem State.sameRest.saved {s t : State} (h : s.sameRest t) : t.saved = s.saved := (congrArg State.saved h : _)
theorem State.sameRest.shoots {s t : State} (h : s.sameRest t) : t.shoots = s.shoots := (congrArg State.shoots h : _)
theorem State.sameRest.shootSeq {s t : State} (h : s.sameRest t) : t.shootSeq = s.shootSeq := (congrArg State.shootSeq h : _)
theorem State.sameRest.tlb2 {s t : State} (h : s.sameRest t) : t.tlb2 = s.tlb2 := (congrArg State.tlb2 h : _)
theorem State.sameRest.walkCache {s t : State} (h : s.sameRest t) : t.walkCache = s.walkCache := (congrArg State.walkCache h : _)
theorem State.sameRest.walks {s t : State} (h : s.sameRest t) : t.walks = s.walks := (congrArg State.walks h : _)
theorem State.sameRest.gangcfg {s t : State} (h : s.sameRest t) : t.gangcfg = s.gangcfg := (congrArg State.gangcfg h : _)
theorem State.sameRest.gangOffset {s t : State} (h : s.sameRest t) : t.gangOffset = s.gangOffset := (congrArg State.gangOffset h : _)
theorem State.sameRest.clockState {s t : State} (h : s.sameRest t) : t.clockState = s.clockState := (congrArg State.clockState h : _)
theorem State.sameRest.gen {s t : State} (h : s.sameRest t) : t.gen = s.gen := (congrArg State.gen h : _)
theorem State.sameRest.gangCtx {s t : State} (h : s.sameRest t) : t.gangCtx = s.gangCtx := (congrArg State.gangCtx h : _)
theorem State.sameRest.switches {s t : State} (h : s.sameRest t) : t.switches = s.switches := (congrArg State.switches h : _)
theorem State.sameRest.lastSwitch {s t : State} (h : s.sameRest t) : t.lastSwitch = s.lastSwitch := (congrArg State.lastSwitch h : _)
theorem State.sameRest.lastTab {s t : State} (h : s.sameRest t) : t.lastTab = s.lastTab := (congrArg State.lastTab h : _)
theorem State.sameRest.swStatus {s t : State} (h : s.sameRest t) : t.swStatus = s.swStatus := (congrArg State.swStatus h : _)
theorem State.sameRest.heldCtxs {s t : State} (h : s.sameRest t) : t.heldCtxs = s.heldCtxs := (congrArg State.heldCtxs h : _)
theorem State.sameRest.readySet {s t : State} (h : s.sameRest t) : t.readySet = s.readySet := (congrArg State.readySet h : _)
theorem State.sameRest.commitSet {s t : State} (h : s.sameRest t) : t.commitSet = s.commitSet := (congrArg State.commitSet h : _)
theorem State.sameRest.gdrop {s t : State} (h : s.sameRest t) : t.gdrop = s.gdrop := (congrArg State.gdrop h : _)
theorem State.sameRest.gfaulted {s t : State} (h : s.sameRest t) : t.gfaulted = s.gfaulted := (congrArg State.gfaulted h : _)
theorem State.sameRest.paptbase {s t : State} (h : s.sameRest t) : t.paptbase = s.paptbase := (congrArg State.paptbase h : _)
theorem State.sameRest.gloss {s t : State} (h : s.sameRest t) : t.gloss = s.gloss := (congrArg State.gloss h : _)
theorem State.sameRest.flights {s t : State} (h : s.sameRest t) : t.flights = s.flights := (congrArg State.flights h : _)
theorem State.sameRest.held {s t : State} (h : s.sameRest t) : t.held = s.held := (congrArg State.held h : _)
theorem State.sameRest.outbox {s t : State} (h : s.sameRest t) : t.outbox = s.outbox := (congrArg State.outbox h : _)
theorem State.sameRest.slowLinks {s t : State} (h : s.sameRest t) : t.slowLinks = s.slowLinks := (congrArg State.slowLinks h : _)
theorem State.sameRest.sendHeads {s t : State} (h : s.sameRest t) : t.sendHeads = s.sendHeads := (congrArg State.sendHeads h : _)
theorem State.sameRest.hostClk {s t : State} (h : s.sameRest t) : t.hostClk = s.hostClk := (congrArg State.hostClk h : _)
theorem State.sameRest.memberClk {s t : State} (h : s.sameRest t) : t.memberClk = s.memberClk := (congrArg State.memberClk h : _)
theorem State.sameRest.lostInst {s t : State} (h : s.sameRest t) : t.lostInst = s.lostInst := (congrArg State.lostInst h : _)
theorem State.sameRest.clockNs {s t : State} (h : s.sameRest t) : t.clockNs = s.clockNs := (congrArg State.clockNs h : _)
theorem State.sameRest.stepped {s t : State} (h : s.sameRest t) : t.stepped = s.stepped := (congrArg State.stepped h : _)
theorem State.sameRest.measured {s t : State} (h : s.sameRest t) : t.measured = s.measured := (congrArg State.measured h : _)
theorem State.sameRest.grandmaster {s t : State} (h : s.sameRest t) : t.grandmaster = s.grandmaster := (congrArg State.grandmaster h : _)
theorem State.sameRest.timeKnown {s t : State} (h : s.sameRest t) : t.timeKnown = s.timeKnown := (congrArg State.timeKnown h : _)
theorem State.sameRest.syncCount {s t : State} (h : s.sameRest t) : t.syncCount = s.syncCount := (congrArg State.syncCount h : _)
theorem State.sameRest.lastSync {s t : State} (h : s.sameRest t) : t.lastSync = s.lastSync := (congrArg State.lastSync h : _)
theorem State.sameRest.holdoverAt {s t : State} (h : s.sameRest t) : t.holdoverAt = s.holdoverAt := (congrArg State.holdoverAt h : _)
theorem State.sameRest.gate {s t : State} (h : s.sameRest t) : t.gate = s.gate := (congrArg State.gate h : _)
theorem State.sameRest.evbase {s t : State} (h : s.sameRest t) : t.evbase = s.evbase := (congrArg State.evbase h : _)
theorem State.sameRest.evhead {s t : State} (h : s.sameRest t) : t.evhead = s.evhead := (congrArg State.evhead h : _)
theorem State.sameRest.evtail {s t : State} (h : s.sameRest t) : t.evtail = s.evtail := (congrArg State.evtail h : _)
theorem State.sameRest.evlost {s t : State} (h : s.sameRest t) : t.evlost = s.evlost := (congrArg State.evlost h : _)
theorem State.sameRest.eventHold {s t : State} (h : s.sameRest t) : t.eventHold = s.eventHold := (congrArg State.eventHold h : _)
theorem State.sameRest.corrections {s t : State} (h : s.sameRest t) : t.corrections = s.corrections := (congrArg State.corrections h : _)
theorem State.sameRest.mbxstat {s t : State} (h : s.sameRest t) : t.mbxstat = s.mbxstat := (congrArg State.mbxstat h : _)
theorem State.sameRest.mbxCmd {s t : State} (h : s.sameRest t) : t.mbxCmd = s.mbxCmd := (congrArg State.mbxCmd h : _)
theorem State.sameRest.trip {s t : State} (h : s.sameRest t) : t.trip = s.trip := (congrArg State.trip h : _)
theorem State.sameRest.railsOff {s t : State} (h : s.sameRest t) : t.railsOff = s.railsOff := (congrArg State.railsOff h : _)
theorem State.sameRest.bar2base {s t : State} (h : s.sameRest t) : t.bar2base = s.bar2base := (congrArg State.bar2base h : _)
theorem State.sameRest.bar2ctx {s t : State} (h : s.sameRest t) : t.bar2ctx = s.bar2ctx := (congrArg State.bar2ctx h : _)
theorem State.sameRest.reports {s t : State} (h : s.sameRest t) : t.reports = s.reports := (congrArg State.reports h : _)
theorem State.sameRest.haltReports {s t : State} (h : s.sameRest t) : t.haltReports = s.haltReports := (congrArg State.haltReports h : _)
theorem State.sameRest.sliceReports {s t : State} (h : s.sameRest t) : t.sliceReports = s.sliceReports := (congrArg State.sliceReports h : _)
theorem State.sameRest.sliceStall {s t : State} (h : s.sameRest t) : t.sliceStall = s.sliceStall := (congrArg State.sliceStall h : _)
theorem State.sameRest.screens {s t : State} (h : s.sameRest t) : t.screens = s.screens := (congrArg State.screens h : _)
theorem State.sameRest.lastCluster {s t : State} (h : s.sameRest t) : t.lastCluster = s.lastCluster := (congrArg State.lastCluster h : _)
theorem State.sameRest.lastAdmit {s t : State} (h : s.sameRest t) : t.lastAdmit = s.lastAdmit := (congrArg State.lastAdmit h : _)
theorem State.sameRest.lastQueue {s t : State} (h : s.sameRest t) : t.lastQueue = s.lastQueue := (congrArg State.lastQueue h : _)
theorem State.sameRest.up {s t : State} (h : s.sameRest t) : t.up = s.up := (congrArg State.up h : _)
theorem State.sameRest.agenda {s t : State} (h : s.sameRest t) : t.agenda = s.agenda := (congrArg State.agenda h : _)
theorem State.sameRest.cur {s t : State} (h : s.sameRest t) : t.cur = s.cur := (congrArg State.cur h : _)
theorem State.sameRest.fresh {s t : State} (h : s.sameRest t) : t.fresh = s.fresh := (congrArg State.fresh h : _)
theorem State.sameRest.nextId {s t : State} (h : s.sameRest t) : t.nextId = s.nextId := (congrArg State.nextId h : _)

end Sys2Proof.Machine
end

