-- ==== Sys2Proof/Laws/Ops.lean ====
section
/-! SUPPORT. The shared operations of Machine/Ops.lean: a warp after an update, and once for all what moving a group on, a
trap and the completion of an instruction may change. -/

namespace Sys2Proof.Machine

/-! ### A warp after an update -/

theorem State.warp?_setWarp_same {s : State} {w : WRef} {y : Warp} (x : Warp) (h : s.warp? w = some y) :
    (s.setWarp w x).warp? w = some x := by
  cases w with
  | sup n => simp [State.setWarp, State.warp?]
  | user inst i =>
    simp only [State.warp?, Option.ite_none_right_eq_some, Option.bind_eq_some_iff] at h
    obtain ⟨hn, g, hg, hy⟩ := h
    obtain ⟨hi, -⟩ := List.getElem?_eq_some_iff.1 hy
    simp [State.setWarp, State.warp?, State.wg?_modWg_same _ _ hn, hg, hi, hn]

theorem State.warp?_setWarp_ne {s : State} {w v : WRef} (x : Warp) (h : v ≠ w) : (s.setWarp w x).warp? v = s.warp? v := by
  cases w with
  | sup n =>
    cases v with
    | sup m =>
      have : m ≠ n := fun e => h (by rw [e])
      simp [State.setWarp, State.warp?, this]
    | user inst i =>
      simp only [State.setWarp, State.warp?]
      split
      · next hn => rw [State.wg?_modCore _ _ _ hn]
      · rfl
  | user inst i =>
    cases v with
    | sup m => simp [State.setWarp, State.warp?]
    | user inst' j =>
      simp only [State.setWarp, State.warp?]
      split
      · next hn =>
        by_cases hi : inst' = inst
        · subst hi
          have hj : j ≠ i := fun e => h (by rw [e])
          rw [State.wg?_modWg_same _ _ hn]
          cases s.wg? inst' with
          | none => rfl
          | some g => simp [Ne.symm hj]
        · rw [State.wg?_modWg_ne _ _ _ hi]
      · rfl

theorem State.warp_eq {s : State} {w : WRef} {x : Warp} (h : s.warp? w = some x) : s.warp w = x := by
  simp [State.warp, h]

theorem State.warp_modWarp_same {s : State} {w : WRef} {x : Warp} (f : Warp → Warp) (h : s.warp? w = some x) :
    (s.modWarp w f).warp w = f (s.warp w) := State.warp_eq (State.warp?_setWarp_same _ h)

theorem State.warp?_modWarp_same {s : State} {w : WRef} {x : Warp} (f : Warp → Warp) (h : s.warp? w = some x) :
    (s.modWarp w f).warp? w = some (f x) := by
  rw [← State.warp_eq h]; exact State.warp?_setWarp_same _ h

theorem State.warp?_modWarp_ne {s : State} {w v : WRef} (f : Warp → Warp) (h : v ≠ w) :
    (s.modWarp w f).warp? v = s.warp? v := State.warp?_setWarp_ne _ h

/-! ### What a change within one warp leaves -/

/-- The states differ at most in the warp `w`, in race histories and reports, and in what `Core.bare` and `Wg.bare`
leave out beside rows. -/
structure State.near (s t : State) (w : WRef) : Prop where
  rest : { t with cores := s.cores, wgs := s.wgs, supWgs := s.supWgs, hist := s.hist, reports := s.reports, haltReports := s.haltReports, nextId := s.nextId } = s
  cores : ∀ n, (t.core n).bare = (s.core n).bare
  rows : ∀ i, t.getRow i = s.getRow i
  groups : ∀ i, (t.wg? i).map Wg.bare = (s.wg? i).map Wg.bare
  warps : ∀ v, v ≠ w → t.warp? v = s.warp? v
  exist : (s.warp? w).isSome → (t.warp? w).isSome

theorem State.near_refl (s : State) (w : WRef) : s.near s w :=
  ⟨rfl, fun _ => rfl, fun _ => rfl, fun _ => rfl, fun _ _ => rfl, id⟩

theorem State.near.trans {s t u : State} {w : WRef} (h : s.near t w) (k : t.near u w) : s.near u w where
  rest := by
    have := congrArg (fun x : State =>
      { x with cores := s.cores, wgs := s.wgs, supWgs := s.supWgs, hist := s.hist, reports := s.reports, haltReports := s.haltReports, nextId := s.nextId }) k.rest
    exact this.trans h.rest
  cores n := (k.cores n).trans (h.cores n)
  rows i := (k.rows i).trans (h.rows i)
  groups i := (k.groups i).trans (h.groups i)
  warps v hv := (k.warps v hv).trans (h.warps v hv)
  exist e := k.exist (h.exist e)

theorem State.bare_modWg (s : State) (n i : Nat) (f : Wg → Wg) (h : ∀ g, (f g).bare = g.bare) :
    ((s.modWg n f).wg? i).map Wg.bare = (s.wg? i).map Wg.bare := by
  by_cases e : i = n
  · subst e
    by_cases hn : i < supBase
    · rw [State.wg?_modWg_same _ _ hn, Option.map_map]; exact congrArg (fun k => Option.map k (s.wg? i)) (funext h)
    · simp only [State.modWg, State.wg?, State.setWg, if_neg hn, Tab.get_put_same, Option.map_some, Option.getD_some]
      exact congrArg some (h _)
  · rw [State.wg?_modWg_ne _ _ _ e]

theorem State.bare_modCore (s : State) (n i : Nat) (f : Core → Core) :
    ((s.modCore n f).wg? i).map Wg.bare = (s.wg? i).map Wg.bare := by
  unfold State.wg?; split <;> rfl

/-- A fact about groups that `Wg.bare` keeps. -/
theorem State.near.wg {α : Type} {s t : State} {w : WRef} (h : s.near t w) (i : Nat) (f : Wg → α) (d : α)
    (hf : ∀ g, f g.bare = f g) : ((t.wg? i).map f).getD d = ((s.wg? i).map f).getD d := by
  have := congrArg (Option.map f) (h.groups i)
  simp only [Option.map_map] at this
  have hc : f ∘ Wg.bare = f := funext hf
  rw [hc] at this; rw [this]

theorem State.near.coreOf {s t : State} {w : WRef} (h : s.near t w) (v : WRef) : t.coreOf v = s.coreOf v := by
  cases v with
  | sup n => rfl
  | user i j =>
    have := h.wg i Wg.core 0 fun _ => rfl
    simp only [State.coreOf]
    cases ht : t.wg? i <;> cases hs : s.wg? i <;> simp_all

theorem State.near.ctxOf {s t : State} {w : WRef} (h : s.near t w) (v : WRef) : t.ctxOf v = s.ctxOf v := by
  cases v with
  | sup n => rfl
  | user i j =>
    have := h.wg i Wg.ctx 0 fun _ => rfl
    simp only [State.ctxOf]
    cases ht : t.wg? i <;> cases hs : s.wg? i <;> simp_all

theorem State.near_setWarp (s : State) (w : WRef) (x : Warp) : s.near (s.setWarp w x) w where
  rest := by cases w <;> (try (simp only [State.setWarp, State.modWg]; split)) <;> rfl
  cores n := by
    cases w with
    | user i j => simp [State.setWarp]
    | sup m =>
      by_cases h : n = m
      · subst h; simp [State.setWarp, Core.bare]
      · simp [State.setWarp, h]
  rows i := by
    cases w with
    | user a b => cases i <;> simp [State.setWarp, State.getRow]
    | sup m =>
      cases i with
      | phys c r => by_cases h : c = m <;> simp_all [State.setWarp, State.getRow]
      | sup c r => by_cases h : c = m <;> simp_all [State.setWarp, State.getRow]
  groups i := by
    cases w with
    | sup m => exact State.bare_modCore _ _ _ _
    | user a b => exact State.bare_modWg _ _ _ _ fun _ => rfl
  warps v hv := State.warp?_setWarp_ne x hv
  exist e := by
    obtain ⟨y, hy⟩ := Option.isSome_iff_exists.1 e
    simp [State.warp?_setWarp_same x hy]

theorem State.near_modWarp (s : State) (w : WRef) (f : Warp → Warp) : s.near (s.modWarp w f) w := State.near_setWarp _ _ _

/-- The states differ as `State.near` says, and the warp itself only in what moving on changes. -/
structure State.moved (s t : State) (w : WRef) : Prop extends toNear : State.near s t w where
  still : (t.warp w).still = (s.warp w).still

theorem State.moved_refl (s : State) (w : WRef) : s.moved s w := ⟨s.near_refl w, rfl⟩

theorem State.moved.trans {s t u : State} {w : WRef} (h : s.moved t w) (k : t.moved u w) : s.moved u w :=
  ⟨h.toNear.trans k.toNear, k.still.trans h.still⟩

theorem State.moved_setWarp {s : State} {w : WRef} {y : Warp} (hs : s.warp? w = some y) (x : Warp) (h : x.still = y.still) :
    s.moved (s.setWarp w x) w :=
  ⟨s.near_setWarp w x, by rw [State.warp_eq (State.warp?_setWarp_same x hs), State.warp_eq hs, h]⟩

theorem State.moved_modWarp {s : State} {w : WRef} {y : Warp} (hs : s.warp? w = some y) (f : Warp → Warp)
    (h : ∀ x, (f x).still = x.still) : s.moved (s.modWarp w f) w := by
  rw [State.modWarp, State.warp_eq hs]; exact State.moved_setWarp hs _ (h y)

@[simp] theorem Warp.still_modThreads (w : Warp) (m : Mask) (f : Nat → Thread → Thread) : (w.modThreads m f).still = w.still := rfl

@[simp] theorem Warp.still_unblock (w : Warp) (m : Mask) : (w.unblock m).still = w.still := rfl

/-- A change of a core within what `Core.bare` leaves out beside rows and the supervisor warp. -/
theorem State.moved_modCore (s : State) (w : WRef) (n : Nat) (f : Core → Core)
    (h : ∀ k, (f k).bare = k.bare ∧ (f k).rows = k.rows ∧ (f k).supRows = k.supRows ∧ (f k).sup = k.sup) :
    s.moved (s.modCore n f) w := by
  have hk : ∀ {α : Type} (g : Core → α), (∀ k, g (f k) = g k) → ∀ m, g ((s.modCore n f).core m) = g (s.core m) := by
    intro α g hg m
    by_cases e : m = n
    · subst e; rw [State.core_modCore_same, hg]
    · rw [State.core_modCore_ne _ _ _ e]
  have hw : ∀ v, (s.modCore n f).warp? v = s.warp? v := by
    intro v
    cases v with
    | user a b =>
      simp only [State.warp?]
      split
      · next hn => rw [State.wg?_modCore _ _ _ hn]
      · rfl
    | sup m => exact congrArg some (hk Core.sup (fun k => (h k).2.2.2) m)
  refine ⟨⟨rfl, hk _ fun k => (h k).1, ?_, fun i => State.bare_modCore _ _ i _, fun v _ => hw v, fun e => by rw [hw]; exact e⟩, by simp only [State.warp, hw]⟩
  intro i
  cases i with
  | phys c r => exact hk (fun k => k.rows.get Row.zero r) (fun k => by simp only [(h k).2.1]) c
  | sup c r => exact hk (fun k => k.supRows.get Row.zero r) (fun k => by simp only [(h k).2.2.1]) c

theorem State.moved_reports (s : State) (w : WRef) (r : List (Nat × Nat)) (q : List Nat) :
    s.moved { s with reports := r, haltReports := q } w :=
  ⟨⟨rfl, fun _ => rfl, fun i => by cases i <;> rfl, fun _ => rfl, fun v _ => by cases v <;> rfl, by cases w <;> exact id⟩,
    by cases w <;> rfl⟩

theorem State.moved_supStops (s : State) (w : WRef) (n : Nat) : s.moved (s.supStops n) w :=
  (State.moved_modCore s w n (fun c => { c with halted := true }) fun _ => ⟨rfl, rfl, rfl, rfl⟩).trans
    (State.moved_reports (s.modCore n fun c => { c with halted := true }) w (s.reports ++ [(n, 0x1e2)]) (s.haltReports ++ [n]))

/-- What a trap of a warp changes (R341): nothing but its threads and its record, the end of a screened copy (R429),
and of the supervisor its core (R350). -/
theorem State.takeTrap_moved {s : State} {w : WRef} {y : Warp} (hs : s.warp? w = some y) (r : TrapReq)
    (cl : Option (DWord × DWord)) : s.moved (s.takeTrap w r cl) w := by
  unfold State.takeTrap
  rw [State.warp_eq hs]
  simp only
  generalize hx : ({ y.modThreads r.group (fun _ t => { t with pc := r.pc, clause := cl }) with trap := _ } : Warp) = x
  have hst : x.still = y.still := by rw [← hx]; rfl
  have h1 := State.moved_setWarp hs x hst
  have hs1 := State.warp?_setWarp_same x hs
  cases w with
  | user i j =>
    simp only
    split
    · have h2 := State.moved_modWarp hs1 (fun x => { x with trap := none }) fun _ => rfl
      refine (h1.trans h2).trans ?_
      generalize hu : ((s.setWarp (.user i j) x).modWarp (.user i j) fun x => { x with trap := none }) = u
      have hw : ∀ v, (u.copyFails i).warp? v = u.warp? v := by
        intro v
        cases v with
        | sup m => simp [State.copyFails, State.warp?]
        | user a b =>
          by_cases h : a = i
          · subst h
            simp only [State.copyFails, State.warp?]
            split
            · next hn => rw [State.wg?_modWg_same _ _ hn]; cases u.wg? a <;> rfl
            · rfl
          · simp [State.copyFails, State.warp?, h]
      refine ⟨⟨?_, ?_, ?_, ?_, fun v _ => hw v, fun e => by rw [hw]; exact e⟩, by simp only [State.warp, hw]⟩
      · simp only [State.copyFails, State.modWg]; split <;> rfl
      · intro n; simp [State.copyFails]
      · intro k; cases k <;> simp [State.copyFails, State.getRow]
      · intro k; exact State.bare_modWg _ _ _ _ fun _ => rfl
    · exact h1
  | sup n =>
    simp only
    exact h1.trans (State.moved_supStops _ _ _)

/-- What moving a group on changes (R155, R160): its threads, its YIELD, and the trap of a clause with END. -/
theorem State.advance_moved {s : State} (c : Ctx) {y : Warp} (hs : s.warp? c.ref = some y) (m : Mask)
    (jump : List (Nat × DWord)) : s.moved (s.advance c m jump) c.ref := by
  unfold State.advance
  simp only
  generalize hf : (fun x : Warp => x.modThreads m _) = f
  have hfs : ∀ x, (f x).still = x.still := by intro x; rw [← hf]; rfl
  have h1 := State.moved_modWarp hs f hfs
  have hs1 := State.warp?_modWarp_same f hs
  have hy : (s.modWarp c.ref f).moved ((s.modWarp c.ref f).yieldAfter c) c.ref := by
    unfold State.yieldAfter
    simp only
    split
    · exact State.moved_setWarp hs1 _ (by rw [State.warp_eq hs1]; rfl)
    · exact State.moved_refl _ _
  split
  · split
    · obtain ⟨z, hz⟩ := Option.isSome_iff_exists.1 (hy.exist (by rw [hs1]; rfl))
      exact (h1.trans hy).trans (State.takeTrap_moved hz _ _)
    · exact h1.trans hy
  · exact h1

/-- What the completion of an instruction changes beside its effect. -/
theorem State.finish_moved {s : State} (c : Ctx) {y : Warp} (hs : s.warp? c.ref = some y) : s.moved (s.finish c) c.ref :=
  have h := State.moved_modWarp hs (fun x => x.unblock c.group) fun x => Warp.still_unblock x c.group
  h.trans (State.advance_moved c (State.warp?_modWarp_same (fun x => x.unblock c.group) hs) c.group [])

/-! ### What a group that runs is -/

theorem State.warp?_of_ctx? {s : State} {c : Ctx} (h : s.ctx? = some c) : ∃ x, s.warp? c.ref = some x := by
  unfold State.ctx? at h
  split at h
  · split at h
    · exact absurd h (by simp)
    · next x hx => simp only [Option.some.injEq] at h; subst h; exact ⟨x, hx⟩
  · exact absurd h (by simp)

/-- The outcomes of an instruction whose group moves to the next one when it completes. -/
theorem runOp_ok {s t : State} {h : Head} {c : Ctx} {body : Ctx → M State} (hc : s.ctx? = some c) (hb : body c = .ok t) :
    runOp s h body = .next (t.finish c) := by
  unfold runOp; simp [hc, hb, State.finish]

theorem runOp_trap {s : State} {h : Head} {c : Ctx} {d : Detail} {body : Ctx → M State} (hc : s.ctx? = some c)
    (hb : body c = .error (.trap d)) : runOp s h body = .next (s.trapAt c h d) := by
  unfold runOp; simp [hc, hb]

theorem runOp_block {s t : State} {h : Head} {c : Ctx} {body : Ctx → M State} (hc : s.ctx? = some c)
    (hb : body c = .error (.block t)) : runOp s h body = .next (t.blockAt c c.group) := by
  unfold runOp; simp [hc, hb]

theorem runNav_ok {s t : State} {h : Head} {c : Ctx} {body : Ctx → M State} (hc : s.ctx? = some c) (hb : body c = .ok t) :
    runNav s h body = .next t := by
  unfold runNav; simp [hc, hb]

theorem event_some {s t : State} {r : Option State} (h : r = some t) : event s r = .next t := by subst h; rfl

end Sys2Proof.Machine
end

