-- ==== Sys2Proof/Laws/Rows.lean ====
section
/-! SUPPORT. Rows and names: what an access to operands changes (R78, R82), and that a race-free access to mapped names
succeeds. -/

namespace Sys2Proof.Machine

/-! ### Associations -/

theorem assoc?_put_same {α β : Type} [DecidableEq α] (xs : List (α × β)) (k : α) (v : β) :
    assoc? (assocPut xs k v) k = some v := by
  induction xs with
  | nil => simp [assocPut, assoc?]
  | cons e xs ih =>
    obtain ⟨i, u⟩ := e
    simp only [assocPut]
    split
    · simp [assoc?]
    · next h => simpa [assoc?, h] using ih

theorem assoc?_put_ne {α β : Type} [DecidableEq α] (xs : List (α × β)) {k j : α} (v : β) (h : j ≠ k) :
    assoc? (assocPut xs k v) j = assoc? xs j := by
  induction xs with
  | nil => simp [assocPut, assoc?, Ne.symm h]
  | cons e xs ih =>
    obtain ⟨i, u⟩ := e
    simp only [assocPut]
    split
    · next hk => subst hk; simp [assoc?, Ne.symm h]
    · simp only [assoc?, List.find?] at ih ⊢
      split <;> simp_all

/-! ### Lanes -/

theorem Lanes.mem_list {m : Mask} {l : Nat} : l ∈ Lanes.list m ↔ l < 32 ∧ m.has l = true := by
  simp [Lanes.list]

@[simp] theorem Lanes.getD_build {α : Type} (f : Nat → α) (d : α) {l : Nat} (h : l < 32) : (Lanes.build f).getD l d = f l := by
  simp [Lanes.build, h]

theorem getLsbD_ofBoolListLE (bs : List Bool) (i : Nat) : (BitVec.ofBoolListLE bs).getLsbD i = bs.getD i false := by
  induction bs generalizing i with
  | nil => simp [BitVec.ofBoolListLE]
  | cons b bs ih =>
    cases i with
    | zero => simp [BitVec.ofBoolListLE]
    | succ i => simp [BitVec.ofBoolListLE, ih]

@[simp] theorem Lanes.has_mask (f : Nat → Bool) {l : Nat} (h : l < 32) : (Lanes.mask f).has l = f l := by
  simp only [Lanes.mask, Mask.has, BitVec.getLsbD_setWidth, getLsbD_ofBoolListLE]
  rw [Lanes.getD_build _ _ h]; simp [h]

/-! ### Own accesses do not race -/

@[simp] theorem Hist.race_empty (p : Party) (c : Clock) (w a : Bool) : Hist.empty.race p c w a = none := by
  cases w <;> rfl

theorem Hist.race_add {h : Hist} {p : Party} {c : Clock} {w : Bool} (e n : Nat) (wr : Bool) (hr : h.race p c w false = none) :
    (h.add ⟨p, p, e, false, n⟩ wr).race p c w false = none := by
  have own : ∀ aw, (⟨p, p, e, false, n⟩ : Acc).conflicts aw p w false = false := by simp [Acc.conflicts]
  cases wr with
  | true => simp [Hist.add, Hist.race, own]
  | false =>
    unfold Hist.race at hr ⊢
    simp only [Hist.add, Bool.false_eq_true, if_false]
    revert hr
    split
    · simp
    · intro hr
      split at hr
      · next hw =>
        subst hw
        simp only [if_true]
        simp only [Option.map_eq_none_iff, List.find?_eq_none, List.mem_cons, List.mem_filter] at hr ⊢
        rintro a (rfl | ha)
        · intro hx; simp [own] at hx
        · exact hr a ha.1
      · next hw => simp [hw]

/-! ### What an access to operands changes -/

@[simp] theorem Row.seenBy_seenBy (x : Row) (n : Nat) : (x.seenBy n).seenBy n = x.seenBy n := by
  unfold Row.seenBy; split
  · simp
  · simp

@[simp] theorem Row.seenBy_ref (x : Row) (n : Nat) : (x.seenBy n).ref = x.ref := by
  unfold Row.seenBy; split <;> rfl

/-- The states differ in race histories, and in rows of other contexts that an access has zeroed; an access that was no
race for the party is none. -/
structure State.touched (s t : State) (c : Ctx) : Prop where
  rest : { t with cores := s.cores, hist := s.hist } = s
  cores : ∀ n, { t.core n with rows := (s.core n).rows, supRows := (s.core n).supRows } = s.core n
  rows : ∀ i, t.getRow i = s.getRow i ∨ t.getRow i = (s.getRow i).seenBy c.ctx
  race : ∀ loc clk w, (s.histAt loc).race c.party clk w false = none → (t.histAt loc).race c.party clk w false = none

theorem State.touched_refl (s : State) (c : Ctx) : s.touched s c :=
  ⟨rfl, fun _ => rfl, fun _ => .inl rfl, fun _ _ _ h => h⟩

theorem State.touched.trans {s t u : State} {c : Ctx} (h : s.touched t c) (k : t.touched u c) : s.touched u c where
  rest := (congrArg (fun x : State => { x with cores := s.cores, hist := s.hist }) k.rest).trans h.rest
  cores n := (congrArg (fun x : Core => { x with rows := (s.core n).rows, supRows := (s.core n).supRows }) (k.cores n)).trans (h.cores n)
  rows i := by
    rcases h.rows i with h1 | h1 <;> rcases k.rows i with k1 | k1 <;> simp [h1, k1]
  race loc clk w hr := k.race loc clk w (h.race loc clk w hr)

theorem State.touched.wgs {s t : State} {c : Ctx} (h : s.touched t c) : t.wgs = s.wgs := (congrArg State.wgs h.rest : _)

theorem State.touched.wg? {s t : State} {c : Ctx} (h : s.touched t c) (i : Nat) : t.wg? i = s.wg? i :=
  State.wg?_congr h.wgs (congrArg State.supWgs h.rest : _) (congrArg Core.sup (h.cores (i - supBase)) : _)

theorem State.touched.warp? {s t : State} {c : Ctx} (h : s.touched t c) (w : WRef) : t.warp? w = s.warp? w := by
  cases w with
  | user i j => simp only [State.warp?, h.wg?]
  | sup n => exact congrArg some (congrArg Core.sup (h.cores n) : _)

theorem State.touched.warp {s t : State} {c : Ctx} (h : s.touched t c) (w : WRef) : t.warp w = s.warp w := by
  simp only [State.warp, h.warp?]

theorem State.touched.coreOf {s t : State} {c : Ctx} (h : s.touched t c) (w : WRef) : t.coreOf w = s.coreOf w := by
  cases w <;> simp only [State.coreOf, h.wg?]

theorem State.touched.rowId {s t : State} {c : Ctx} (h : s.touched t c) (w : WRef) (r : Nat) : t.rowId w r = s.rowId w r := by
  cases w <;> simp only [State.rowId, h.coreOf]

theorem State.touched.nameId {s t : State} {c : Ctx} (h : s.touched t c) (n : Nat) : t.nameId c n = s.nameId c n := by
  simp only [State.nameId, h.warp]
  exact congrArg (fun f => Option.map f _) (funext fun r => h.rowId _ r)

theorem State.touched.seen {s t : State} {c : Ctx} (h : s.touched t c) (i : RowId) :
    (t.getRow i).seenBy c.ctx = (s.getRow i).seenBy c.ctx := by
  rcases h.rows i with h | h <;> simp [h]

theorem State.touched.laneVal {s t : State} {c : Ctx} (h : s.touched t c) (n l : Nat) : t.laneVal c n l = s.laneVal c n l := by
  simp only [State.laneVal, h.nameId]
  split
  · simp only [h.seen]
  · rfl

theorem State.touched.referred {s t : State} {c : Ctx} (h : s.touched t c) (w : WRef) (r : Nat) :
    t.referred w r = s.referred w r := by
  have : (t.getRow (s.rowId w r)).ref = (s.getRow (s.rowId w r)).ref := by rcases h.rows (s.rowId w r) with h | h <;> simp [h]
  simp only [State.referred, h.warp, h.rowId, this]

/-- Every operand reads the same. -/
theorem State.touched.opnd {s t : State} {c : Ctx} (h : s.touched t c) (o : Opnd) (wide : Bool) (l : Nat) :
    t.opnd c o wide l = s.opnd c o wide l := by
  have hro : ∀ i, t.readOnly c i l = s.readOnly c i l := by
    intro i
    have hn : t.now = s.now := (congrArg (fun x : State => x.now) h.rest : _)
    have hg : ∀ g, t.launchOf g = s.launchOf g := fun g => (congrArg (fun x : State => x.launchOf g) h.rest : _)
    unfold State.readOnly
    simp only [hn, h.wg?, hg, h.warp]
  cases o <;> simp only [State.opnd, h.laneVal, h.warp, hro]

theorem State.touched.nameFree {s t : State} {c : Ctx} (h : s.touched t c) {m : Mask} {wr : Bool} {n : Nat}
    (hf : s.nameFree c m wr n) : t.nameFree c m wr n := by
  obtain ⟨r, hr, hn⟩ := hf
  refine ⟨r, by rw [h.warp]; exact hr, fun l hl hm _ => ?_⟩
  rw [h.rowId, h.warp]
  refine h.race _ _ _ ?_
  by_cases hw : s.watched c.ref r l = true
  · exact hn l hl hm hw
  · simp only [State.watched, Bool.or_eq_true, bne_iff_ne, ne_eq, not_or, Decidable.not_not] at hw
    rw [hw.2]; exact Hist.race_empty _ _ _ _

theorem State.touched.namesFree {s t : State} {c : Ctx} (h : s.touched t c) {m : Mask} {wr : Bool} {ns : List (Nat × Nat)}
    (hf : s.namesFree c m wr ns) : t.namesFree c m wr ns := fun e he => h.nameFree (hf e he)

/-! ### A row after an update -/

@[simp] theorem State.getRow_setRow_same (s : State) (i : RowId) (x : Row) : (s.setRow i x).getRow i = x := by
  cases i with
  | phys c r =>
    simp only [State.setRow, State.getRow]
    rw [State.core_modCore_same]; exact Tab.get_put_same _ _ _ _
  | sup c r =>
    simp only [State.setRow, State.getRow]
    rw [State.core_modCore_same]; exact Tab.get_put_same _ _ _ _

theorem State.getRow_setRow_ne (s : State) {i j : RowId} (x : Row) (h : j ≠ i) : (s.setRow i x).getRow j = s.getRow j := by
  cases i with
  | phys c r =>
    cases j with
    | phys c' r' =>
      simp only [State.setRow, State.getRow]
      by_cases hc : c' = c
      · subst hc
        rw [State.core_modCore_same]
        exact Tab.get_put_ne _ _ _ fun e => h (by rw [e])
      · rw [State.core_modCore_ne _ _ _ hc]
    | sup c' r' =>
      simp only [State.setRow, State.getRow]
      by_cases hc : c' = c
      · subst hc; rw [State.core_modCore_same]
      · rw [State.core_modCore_ne _ _ _ hc]
  | sup c r =>
    cases j with
    | sup c' r' =>
      simp only [State.setRow, State.getRow]
      by_cases hc : c' = c
      · subst hc
        rw [State.core_modCore_same]
        exact Tab.get_put_ne _ _ _ fun e => h (by rw [e])
      · rw [State.core_modCore_ne _ _ _ hc]
    | phys c' r' =>
      simp only [State.setRow, State.getRow]
      by_cases hc : c' = c
      · subst hc; rw [State.core_modCore_same]
      · rw [State.core_modCore_ne _ _ _ hc]

theorem State.core_setRow (s : State) (i : RowId) (x : Row) (n : Nat) :
    { (s.setRow i x).core n with rows := (s.core n).rows, supRows := (s.core n).supRows } = s.core n := by
  cases i with
  | phys c r =>
    by_cases hc : n = c
    · subst hc; rw [State.setRow, State.core_modCore_same]
    · rw [State.setRow, State.core_modCore_ne _ _ _ hc]
  | sup c r =>
    by_cases hc : n = c
    · subst hc; rw [State.setRow, State.core_modCore_same]
    · rw [State.setRow, State.core_modCore_ne _ _ _ hc]

theorem State.wg?_setRow (s : State) (i : RowId) (x : Row) (n : Nat) : (s.setRow i x).wg? n = s.wg? n :=
  State.wg?_congr (by cases i <;> rfl) (by cases i <;> rfl) (congrArg Core.sup (State.core_setRow s i x (n - supBase)) : _)

theorem State.touched_touchRow (s : State) (c : Ctx) (i : RowId) : s.touched (s.touchRow i c.ctx) c where
  rest := by cases i <;> rfl
  cores n := State.core_setRow _ _ _ n
  rows j := by
    by_cases h : j = i
    · subst h; exact .inr (State.getRow_setRow_same _ _ _)
    · exact .inl (State.getRow_setRow_ne _ _ h)
  race loc clk w hr := by cases i <;> exact hr

/-- Locations that differ have their histories under different keys. -/
theorem State.histKey_inj (s : State) {l k : Loc} (h : s.histKey l = s.histKey k) : l = k := by
  cases l <;> cases k <;> simp_all [State.histKey]

theorem State.touched_setHist (s : State) (c : Ctx) (loc : Loc) (e n : Nat) (wr : Bool) :
    s.touched (s.setHist loc ((s.histAt loc).add ⟨c.party, c.party, e, false, n⟩ wr)) c where
  rest := rfl
  cores _ := rfl
  rows i := .inl (by cases i <;> rfl)
  race l clk w hr := by
    by_cases h : l = loc
    · subst h
      show (Option.getD (assoc? (assocPut s.hist (s.histKey l) _) (s.histKey l)) .empty).race _ _ _ _ = none
      rw [assoc?_put_same]
      exact Hist.race_add _ _ _ hr
    · show (Option.getD (assoc? (assocPut s.hist (s.histKey loc) _) (s.histKey l)) .empty).race _ _ _ _ = none
      rw [assoc?_put_ne _ _ fun e => h (s.histKey_inj e)]
      exact hr

/-! ### A race-free access succeeds -/

theorem checkNames_ok {w : Warp} : {ns : List (Nat × Nat)} → (∀ e ∈ ns, ∃ r, w.nameRow e.1 = some r) → checkNames w ns = .ok ()
  | [], _ => rfl
  | (n, f) :: t, h => by
    obtain ⟨r, hr⟩ := h (n, f) (.head _)
    simp only [checkNames, hr, Option.isSome_some, if_true]
    exact checkNames_ok fun e he => h e (.tail _ he)

theorem State.namesFree.mapped {s : State} {c : Ctx} {m : Mask} {wr : Bool} {ns : List (Nat × Nat)} (h : s.namesFree c m wr ns) :
    ∀ e ∈ ns, ∃ r, (s.warp c.ref).nameRow e.1 = some r := fun e he => let ⟨r, hr, _⟩ := h e he; ⟨r, hr⟩

theorem State.rowTouch_ok {s : State} {c : Ctx} {m : Mask} {wr : Bool} {n l : Nat} (f : Nat) (h : s.nameFree c m wr n)
    (hl : l < 32) (hm : m.has l = true) : ∃ t, s.rowTouch c n f l wr = .ok t ∧ s.touched t c := by
  obtain ⟨r, hr, hn⟩ := h
  simp only [State.rowTouch, hr]
  split
  · next hs =>
    rw [hn l hl hm hs]
    exact ⟨_, rfl, State.touched_setHist _ _ _ _ _ _⟩
  · exact ⟨s, rfl, s.touched_refl c⟩

theorem State.rowTouchLanes_ok {c : Ctx} {m : Mask} {wr : Bool} {n : Nat} (f : Nat) : {ls : List Nat} → {s : State} →
    s.nameFree c m wr n → (∀ l ∈ ls, l < 32 ∧ m.has l = true) →
    ∃ t, s.rowTouchLanes c n f wr ls = .ok t ∧ s.touched t c
  | [], s, _, _ => ⟨s, rfl, s.touched_refl c⟩
  | l :: ls, s, h, hl => by
    obtain ⟨t, ht, h1⟩ := State.rowTouch_ok f h (hl l (.head _)).1 (hl l (.head _)).2
    obtain ⟨u, hu, h2⟩ := State.rowTouchLanes_ok f (ls := ls) (h1.nameFree h) fun k hk => hl k (.tail _ hk)
    exact ⟨u, by simp only [State.rowTouchLanes, ht]; exact hu, h1.trans h2⟩

/-- An access to mapped names that races with nothing succeeds, and changes only histories and another context's
rows. -/
theorem State.rowAccess_ok {c : Ctx} {m : Mask} {wr : Bool} : {ns : List (Nat × Nat)} → {s : State} → s.namesFree c m wr ns →
    ∃ t, s.rowAccess c m wr ns = .ok t ∧ s.touched t c
  | [], s, _ => ⟨s, rfl, s.touched_refl c⟩
  | (n, f) :: ns, s, h => by
    let s0 := match s.nameId c n with | some i => if m = 0 then s else s.touchRow i c.ctx | none => s
    have h0 : s.touched s0 c := by
      simp only [s0]
      split
      · split
        · exact s.touched_refl c
        · exact State.touched_touchRow _ _ _
      · exact s.touched_refl c
    obtain ⟨t, ht, h1⟩ := State.rowTouchLanes_ok f (h0.nameFree (h (n, f) (.head _))) fun l hl => Lanes.mem_list.1 hl
    have h2 := h0.trans h1
    obtain ⟨u, hu, h3⟩ := State.rowAccess_ok (s := t) (h2.namesFree fun e he => h e (.tail _ he))
    refine ⟨u, ?_, h2.trans h3⟩
    simp only [State.rowAccess]
    show (do let s ← s0.rowTouchLanes c n f wr (Lanes.list m); s.rowAccess c m wr ns) = _
    rw [ht]; exact hu

end Sys2Proof.Machine
end

