-- ==== Sys2Proof/Laws/Alu.lean ====
section
/-! SUPPORT. What `alu` does, once for all the instructions that it runs: the destination holds the values, and everything
else is unchanged. -/

namespace Sys2Proof.Machine

/-! ### Names after a write of a row -/

theorem State.warp?_setRow (s : State) (i : RowId) (x : Row) (w : WRef) : (s.setRow i x).warp? w = s.warp? w := by
  cases w with
  | user a b => simp only [State.warp?, State.wg?_setRow]
  | sup n => exact congrArg some (congrArg Core.sup (State.core_setRow s i x n) : _)

theorem State.warp_setRow (s : State) (i : RowId) (x : Row) (w : WRef) : (s.setRow i x).warp w = s.warp w := by
  simp only [State.warp, State.warp?_setRow]

theorem State.nameId_setRow (s : State) (c : Ctx) (i : RowId) (x : Row) (n : Nat) : (s.setRow i x).nameId c n = s.nameId c n := by
  have : (s.setRow i x).rowId c.ref = s.rowId c.ref := by
    funext r; cases hr : c.ref <;> simp only [State.rowId, State.coreOf, State.wg?_setRow]
  simp only [State.nameId, State.warp_setRow, this]

/-- A row as a context sees it after an update that leaves it that context's. -/
theorem Row.seenBy_owner {x : Row} {n : Nat} (h : x.owner = n) : x.seenBy n = x := by simp [Row.seenBy, h]

theorem Row.owner_seenBy (x : Row) (n : Nat) : (x.seenBy n).owner = n := by
  unfold Row.seenBy; split
  · assumption
  · rfl

/-- The lane elements of a name after `writeName`. -/
theorem State.laneVal_writeName {s : State} {c : Ctx} {n : Nat} {i : RowId} (hi : s.nameId c n = some i)
    (f : Nat → Option (Word × Bool)) {l : Nat} (hl : l < 32) :
    (s.writeName c n f).laneVal c n l = (f l).getD (s.laneVal c n l) := by
  simp only [State.writeName, hi, State.laneVal, State.nameId_setRow, State.getRow_setRow_same]
  rw [Row.seenBy_owner (by exact Row.owner_seenBy _ _)]
  simp only [Row.write, Row.lane, Lanes.getD_build _ _ hl, Lanes.has_mask _ hl]
  cases f l <;> rfl

/-- The lane elements of a name after `markName`. -/
theorem State.laneVal_markName {s : State} {c : Ctx} {n : Nat} {i : RowId} (hi : s.nameId c n = some i) (m : Mask) (l : Nat) :
    (s.markName c n m).laneVal c n l = ((s.laneVal c n l).1, (s.laneVal c n l).2 || m.has l) := by
  unfold State.markName
  split
  · next h => subst h; simp [State.laneVal, hi]
  · simp only [hi, State.laneVal, State.nameId_setRow, State.getRow_setRow_same]
    rw [Row.seenBy_owner (by exact Row.owner_seenBy _ _)]
    simp [Row.lane]

theorem State.nameId_writeName (s : State) (c : Ctx) (n : Nat) (f : Nat → Option (Word × Bool)) (j : Nat) :
    (s.writeName c n f).nameId c j = s.nameId c j := by
  unfold State.writeName; split
  · exact State.nameId_setRow _ _ _ _ _
  · rfl

theorem State.nameId_markName (s : State) (c : Ctx) (n : Nat) (m : Mask) (j : Nat) :
    (s.markName c n m).nameId c j = s.nameId c j := by
  unfold State.markName; split
  · rfl
  · split
    · exact State.nameId_setRow _ _ _ _ _
    · rfl

/-- A name that selects another row reads the same after the row of `n` changes. -/
theorem State.laneVal_setRow_ne {s : State} {c : Ctx} {i : RowId} {j : Nat} (h : s.nameId c j ≠ some i) (x : Row) (l : Nat) :
    (s.setRow i x).laneVal c j l = s.laneVal c j l := by
  simp only [State.laneVal, State.nameId_setRow]
  split
  · next k hk => rw [State.getRow_setRow_ne _ _ fun e => h (by rw [hk, e])]
  · rfl

theorem State.laneVal_writeName_ne {s : State} {c : Ctx} {n j : Nat} (h : s.nameId c j ≠ s.nameId c n)
    (f : Nat → Option (Word × Bool)) (l : Nat) : (s.writeName c n f).laneVal c j l = s.laneVal c j l := by
  unfold State.writeName; split
  · next i hi => exact State.laneVal_setRow_ne (hi ▸ h) _ _
  · rfl

theorem State.laneVal_markName_ne {s : State} {c : Ctx} {n j : Nat} (h : s.nameId c j ≠ s.nameId c n) (m : Mask) (l : Nat) :
    (s.markName c n m).laneVal c j l = s.laneVal c j l := by
  unfold State.markName; split
  · rfl
  · split
    · next i hi => exact State.laneVal_setRow_ne (hi ▸ h) _ _
    · rfl

/-! ### What writes of rows leave -/

/-- The states differ only in rows. -/
structure State.rowsOnly (s t : State) : Prop where
  rest : { t with cores := s.cores } = s
  cores : ∀ n, { t.core n with rows := (s.core n).rows, supRows := (s.core n).supRows } = s.core n

theorem State.rowsOnly_refl (s : State) : s.rowsOnly s := ⟨rfl, fun _ => rfl⟩

theorem State.rowsOnly.trans {s t u : State} (h : s.rowsOnly t) (k : t.rowsOnly u) : s.rowsOnly u where
  rest := (congrArg (fun x : State => { x with cores := s.cores }) k.rest).trans h.rest
  cores n := (congrArg (fun x : Core => { x with rows := (s.core n).rows, supRows := (s.core n).supRows }) (k.cores n)).trans (h.cores n)

theorem State.rowsOnly_setRow (s : State) (i : RowId) (x : Row) : s.rowsOnly (s.setRow i x) :=
  ⟨by cases i <;> rfl, State.core_setRow s i x⟩

theorem State.rowsOnly_writeName (s : State) (c : Ctx) (n : Nat) (f : Nat → Option (Word × Bool)) : s.rowsOnly (s.writeName c n f) := by
  unfold State.writeName; split
  · exact s.rowsOnly_setRow _ _
  · exact s.rowsOnly_refl

theorem State.rowsOnly_markName (s : State) (c : Ctx) (n : Nat) (m : Mask) : s.rowsOnly (s.markName c n m) := by
  unfold State.markName; split
  · exact s.rowsOnly_refl
  · split
    · exact s.rowsOnly_setRow _ _
    · exact s.rowsOnly_refl

theorem State.getRow_writeName_ne {s : State} {c : Ctx} {n : Nat} {i : RowId} (h : s.nameId c n ≠ some i)
    (f : Nat → Option (Word × Bool)) : (s.writeName c n f).getRow i = s.getRow i := by
  unfold State.writeName; split
  · next j hj => exact State.getRow_setRow_ne _ _ fun e => h (by rw [hj, e])
  · rfl

theorem State.getRow_markName_ne {s : State} {c : Ctx} {n : Nat} {i : RowId} (h : s.nameId c n ≠ some i) (m : Mask) :
    (s.markName c n m).getRow i = s.getRow i := by
  unfold State.markName; split
  · rfl
  · split
    · next j hj => exact State.getRow_setRow_ne _ _ fun e => h (by rw [hj, e])
    · rfl

theorem State.rowsOnly_writeV (s : State) (c : Ctx) (n : Nat) (wide : Bool) (m guard : Mask) (f : Nat → DWord × Bool) :
    s.rowsOnly (s.writeV c n wide m guard f) := by
  unfold State.writeV
  have h := (s.rowsOnly_writeName c n fun l => if m.has l then some ((f l).1.setWidth 32, (f l).2) else none).trans
    (State.rowsOnly_markName _ c n guard)
  cases wide
  · exact h
  · exact h.trans ((State.rowsOnly_writeName _ c (n + 1) _).trans (State.rowsOnly_markName _ c (n + 1) guard))

theorem State.getRow_writeV_ne {s : State} {c : Ctx} {n : Nat} {wide : Bool} {i : RowId} (h : s.nameId c n ≠ some i)
    (hw : wide = true → s.nameId c (n + 1) ≠ some i) (m guard : Mask) (f : Nat → DWord × Bool) :
    (s.writeV c n wide m guard f).getRow i = s.getRow i := by
  unfold State.writeV
  cases wide
  · simp only [Bool.false_eq_true, if_false]
    rw [State.getRow_markName_ne (by rw [State.nameId_writeName]; exact h), State.getRow_writeName_ne h]
  · have hw := hw rfl
    simp only [if_true]
    rw [State.getRow_markName_ne (by simp only [State.nameId_writeName, State.nameId_markName]; exact hw),
      State.getRow_writeName_ne (by simp only [State.nameId_writeName, State.nameId_markName]; exact hw),
      State.getRow_markName_ne (by rw [State.nameId_writeName]; exact h), State.getRow_writeName_ne h]

/-- One name written and marked. -/
theorem State.wroteName_write {s : State} {c : Ctx} {n : Nat} {i : RowId} (hi : s.nameId c n = some i) (m guard : Mask)
    (g : Nat → Word × Bool) :
    s.wroteName ((s.writeName c n fun l => if m.has l then some (g l) else none).markName c n guard) c m guard n g := by
  intro l hl
  rw [State.laneVal_markName (i := i) (by rw [State.nameId_writeName]; exact hi), State.laneVal_writeName hi _ hl]
  split <;> rfl

/-- A vector destination after `writeV` (R67). -/
theorem State.writeV_wrote {s : State} {c : Ctx} {n : Nat} {wide : Bool} (hn : ∃ i, s.nameId c n = some i)
    (hn1 : wide = true → ∃ i, s.nameId c (n + 1) = some i) (m guard : Mask) (f : Nat → DWord × Bool) :
    (wide = false ∨ s.nameId c n ≠ s.nameId c (n + 1) →
      s.wroteName (s.writeV c n wide m guard f) c m guard n fun l => ((f l).1.setWidth 32, (f l).2)) ∧
    (wide = true →
      s.wroteName (s.writeV c n wide m guard f) c m guard (n + 1) fun l => ((f l).1.extractLsb' 32 32, (f l).2)) := by
  obtain ⟨i, hi⟩ := hn
  have h1 := State.wroteName_write hi m guard fun l => ((f l).1.setWidth 32, (f l).2)
  cases wide with
  | false => exact ⟨fun _ => h1, fun h => absurd h (by simp)⟩
  | true =>
    obtain ⟨j, hj⟩ := hn1 rfl
    unfold State.writeV
    simp only [if_true]
    generalize hu : ((s.writeName c n fun l => if m.has l = true then some ((f l).1.setWidth 32, (f l).2) else none).markName c n guard) = u at h1 ⊢
    have hid : ∀ k, u.nameId c k = s.nameId c k := by
      intro k; rw [← hu, State.nameId_markName, State.nameId_writeName]
    have h2 := State.wroteName_write (s := u) (i := j) (by rw [hid]; exact hj) m guard fun l => ((f l).1.extractLsb' 32 32, (f l).2)
    constructor
    · rintro (h | h)
      · exact absurd h (by simp)
      · intro l hl
        rw [State.laneVal_markName_ne (by simp only [State.nameId_writeName, hid]; exact h),
          State.laneVal_writeName_ne (by simp only [hid]; exact h)]
        exact h1 l hl
    · intro _ l hl
      rw [h2 l hl]
      by_cases h : s.nameId c n = s.nameId c (n + 1)
      · have e : ∀ t : State, (∀ k, t.nameId c k = s.nameId c k) → t.laneVal c (n + 1) l = t.laneVal c n l := by
          intro t ht; simp only [State.laneVal, ht, h]
        rw [e u hid, h1 l hl, ← e s fun _ => rfl]
        split <;> simp_all
      · rw [← hu, State.laneVal_markName_ne (by simp only [State.nameId_writeName]; exact Ne.symm h),
          State.laneVal_writeName_ne (Ne.symm h)]

/-! ### Frames -/

theorem State.outside.trans {s t u : State} {c : Ctx} (h : s.outside t c) (k : t.outside u c) : s.outside u c where
  memory a := (k.memory a).trans (h.memory a)
  rest := (congrArg (fun x : State =>
      { x with cores := s.cores, wgs := s.wgs, supWgs := s.supWgs, hist := s.hist, reports := s.reports, haltReports := s.haltReports, nextId := s.nextId }) k.rest).trans h.rest
  cores n := (k.cores n).trans (h.cores n)
  groups i := (k.groups i).trans (h.groups i)
  warps v hv := (k.warps v hv).trans (h.warps v hv)

theorem State.near.outside {s t : State} {c : Ctx} (h : s.near t c.ref) : s.outside t c where
  memory a := congrArg (fun x : Memory => x.read a) (congrArg State.mem h.rest : _)
  rest := h.rest
  cores := h.cores
  groups := h.groups
  warps := h.warps

theorem State.rowsOnly.wg? {s t : State} (h : s.rowsOnly t) (i : Nat) : t.wg? i = s.wg? i :=
  State.wg?_congr (congrArg State.wgs h.rest : _) (congrArg State.supWgs h.rest : _)
    (congrArg Core.sup (h.cores (i - supBase)) : _)

theorem State.rowsOnly.warp? {s t : State} (h : s.rowsOnly t) (w : WRef) : t.warp? w = s.warp? w := by
  cases w with
  | user i j => simp only [State.warp?, h.wg?]
  | sup n => exact congrArg some (congrArg Core.sup (h.cores n) : _)

theorem State.rowsOnly.warp {s t : State} (h : s.rowsOnly t) (w : WRef) : t.warp w = s.warp w := by
  simp only [State.warp, h.warp?]

theorem State.rowsOnly.outside {s t : State} (h : s.rowsOnly t) (c : Ctx) : s.outside t c where
  memory a := congrArg (fun x : Memory => x.read a) (congrArg State.mem h.rest : _)
  rest := (congrArg (fun x : State =>
      { x with wgs := s.wgs, supWgs := s.supWgs, hist := s.hist, reports := s.reports, haltReports := s.haltReports, nextId := s.nextId }) h.rest : _)
  cores n := (congrArg Core.bare (h.cores n) : _)
  groups i := by rw [h.wg?]
  warps v _ := h.warp? v

theorem State.touched.outside {s t : State} {c : Ctx} (h : s.touched t c) : s.outside t c where
  memory a := congrArg (fun x : Memory => x.read a) (congrArg State.mem h.rest : _)
  rest := (congrArg (fun x : State =>
      { x with wgs := s.wgs, supWgs := s.supWgs, hist := s.hist, reports := s.reports, haltReports := s.haltReports, nextId := s.nextId }) h.rest : _)
  cores n := (congrArg Core.bare (h.cores n) : _)
  groups i := by rw [h.wg?]
  warps v _ := h.warp? v

theorem Warp.still_fields {α : Type} {x y : Warp} (h : x.still = y.still) (f : Warp → α) (hf : ∀ w, f w.still = f w) : f x = f y := by
  rw [← hf x, ← hf y, h]

theorem State.moved.nameId {s t : State} {c : Ctx} (h : s.moved t c.ref) (n : Nat) : t.nameId c n = s.nameId c n := by
  have hm : (t.warp c.ref).nameRow n = (s.warp c.ref).nameRow n :=
    Warp.still_fields h.still (fun w => w.nameRow n) fun _ => rfl
  have hr : t.rowId c.ref = s.rowId c.ref := by
    have := h.coreOf c.ref
    cases hw : c.ref <;> simp_all [State.rowId, funext_iff]
  simp only [State.nameId, hm, hr]

theorem State.moved.laneVal {s t : State} {c : Ctx} (h : s.moved t c.ref) (n l : Nat) : t.laneVal c n l = s.laneVal c n l := by
  simp only [State.laneVal, h.nameId, h.rows]

/-- Moving the group on keeps what an instruction has written. -/
theorem State.result.moved {s t u : State} {c : Ctx} {h : Head} {dst : Opnd} {wide : Bool} {val : Nat → DWord × Bool}
    (hr : s.result t c h dst wide val) (hm : t.moved u c.ref) : s.result u c h dst wide val := by
  have hk : ∀ j, (u.warp c.ref).kGet j = (t.warp c.ref).kGet j := fun j =>
    Warp.still_fields hm.still (fun w => w.kGet j) fun _ => rfl
  have hkm : ∀ j, (u.warp c.ref).kMarked j = (t.warp c.ref).kMarked j := fun j =>
    Warp.still_fields hm.still (fun w => w.kMarked j) fun _ => rfl
  have hp : (u.warp c.ref).p = (t.warp c.ref).p := Warp.still_fields hm.still (fun w => w.p) fun _ => rfl
  have hpm : (u.warp c.ref).pMark = (t.warp c.ref).pMark := Warp.still_fields hm.still (fun w => w.pMark) fun _ => rfl
  have hkp : ∀ j, (u.warp c.ref).kpGet j = (t.warp c.ref).kpGet j := fun j =>
    Warp.still_fields hm.still (fun w => w.kpGet j) fun _ => rfl
  cases dst <;> simp only [State.result, State.wroteName, hm.laneVal, hk, hkm, hp, hpm, hkp] at hr ⊢ <;> exact hr

/-- Moving the group on keeps the frame. -/
theorem State.frame.moved {s t u : State} {c : Ctx} {dst : Opnd} {wide : Bool} (hr : s.frame t c dst wide)
    (hm : t.moved u c.ref) : s.frame u c dst wide where
  outside := hr.outside.trans hm.toNear.outside
  rows i hi := by rw [hm.rows]; exact hr.rows i hi
  k j hj := by
    rw [Warp.still_fields hm.still (fun w => w.kGet j) fun _ => rfl, Warp.still_fields hm.still (fun w => w.kMarked j) fun _ => rfl]
    exact hr.k j hj
  p j hj := by
    rw [Warp.still_fields hm.still (fun w => w.p) fun _ => rfl, Warp.still_fields hm.still (fun w => w.pMark) fun _ => rfl]
    exact hr.p j hj
  kp j hj := by
    rw [Warp.still_fields hm.still (fun w => w.kpGet j) fun _ => rfl, Warp.still_fields hm.still (fun w => w.kpMark) fun _ => rfl]
    exact hr.kp j hj
  others := (congrArg (fun w : Warp => w.settled) hm.still : _) ▸ hr.others

/-- An access to operands has the frame of every destination. -/
theorem State.frame_touched {s t : State} {c : Ctx} (ht : s.touched t c) (dst : Opnd) (wide : Bool) : s.frame t c dst wide := by
  refine ⟨ht.outside, fun i _ => ht.rows i, ?_, ?_, ?_, ?_⟩ <;> rw [ht.warp]
  · exact fun _ _ => ⟨rfl, rfl⟩
  · exact fun _ _ => ⟨rfl, rfl⟩
  · exact fun _ _ => ⟨rfl, rfl⟩

/-- A change of the destination register of the warp alone has the frame. -/
theorem State.frame_warp {s t u : State} {c : Ctx} {dst : Opnd} {wide : Bool} {x : Warp} (ht : s.touched t c)
    (hx : s.warp? c.ref = some x) (f : Warp → Warp) (hu : u = t.modWarp c.ref f)
    (hk : ∀ j, (∀ n, dst = .u n → j ≠ n.toNat ∧ (wide = true → j ≠ n.toNat + 1)) →
      (f x).kGet j = x.kGet j ∧ (f x).kMarked j = x.kMarked j)
    (hp : ∀ j, (∀ i, dst = .sp i → i.toNat < 0x60 → j ≠ i.toNat - 0x58) →
      (f x).p.get 0 j = x.p.get 0 j ∧ (f x).pMark.get 0 j = x.pMark.get 0 j)
    (hkp : ∀ j, (∀ i, dst = .sp i → ¬ i.toNat < 0x60 → j ≠ i.toNat - 0x60) →
      (f x).kpGet j = x.kpGet j ∧ (f x).kpMark.get false j = x.kpMark.get false j)
    (ho : (f x).settled = x.settled) : s.frame u c dst wide := by
  subst hu
  have htx : t.warp? c.ref = some x := by rw [ht.warp?, hx]
  have hw : (t.modWarp c.ref f).warp c.ref = f x := State.warp_eq (State.warp?_modWarp_same f htx)
  have hs : s.warp c.ref = x := State.warp_eq hx
  refine ⟨ht.outside.trans (State.near_modWarp t c.ref f).outside, fun i _ => ?_, ?_, ?_, ?_, ?_⟩
  · rw [(State.near_modWarp t c.ref f).rows]; exact ht.rows i
  · rw [hw, hs]; exact hk
  · rw [hw, hs]; exact hp
  · rw [hw, hs]; exact hkp
  · rw [hw, hs]; exact ho

@[simp] theorem Warp.kGet_kSet_same (w : Warp) (n : Nat) (x : Word) (m : Bool) : (w.kSet n x m).kGet n = x := Tab.get_put_same _ _ _ _
@[simp] theorem Warp.kMarked_kSet_same (w : Warp) (n : Nat) (x : Word) (m : Bool) : (w.kSet n x m).kMarked n = m := Tab.get_put_same _ _ _ _
theorem Warp.kGet_kSet_ne (w : Warp) {n j : Nat} (x : Word) (m : Bool) (h : j ≠ n) : (w.kSet n x m).kGet j = w.kGet j := Tab.get_put_ne _ _ _ h
theorem Warp.kMarked_kSet_ne (w : Warp) {n j : Nat} (x : Word) (m : Bool) (h : j ≠ n) : (w.kSet n x m).kMarked j = w.kMarked j := Tab.get_put_ne _ _ _ h
@[simp] theorem Warp.kpGet_kpSet_same (w : Warp) (n : Nat) (b m : Bool) : (w.kpSet n b m).kpGet n = b := Tab.get_put_same _ _ _ _
theorem Warp.kpGet_kpSet_ne (w : Warp) {n j : Nat} (b m : Bool) (h : j ≠ n) : (w.kpSet n b m).kpGet j = w.kpGet j := Tab.get_put_ne _ _ _ h
theorem Warp.kpMark_kpSet_ne (w : Warp) {n j : Nat} (b m : Bool) (h : j ≠ n) : (w.kpSet n b m).kpMark.get false j = w.kpMark.get false j :=
  Tab.get_put_ne _ _ _ h

theorem Warp.kGet_kSetPair_ne (w : Warp) {n j : Nat} (x : DWord) (m : Bool) (h : j ≠ n) (h1 : j ≠ n + 1) :
    (w.kSetPair n x m).kGet j = w.kGet j ∧ (w.kSetPair n x m).kMarked j = w.kMarked j := by
  simp only [Warp.kSetPair]
  rw [Warp.kGet_kSet_ne _ _ _ h1, Warp.kGet_kSet_ne _ _ _ h, Warp.kMarked_kSet_ne _ _ _ h1, Warp.kMarked_kSet_ne _ _ _ h]
  exact ⟨rfl, rfl⟩

theorem Warp.kSetPair_low (w : Warp) (n : Nat) (x : DWord) (m : Bool) :
    (w.kSetPair n x m).kGet n = x.setWidth 32 ∧ (w.kSetPair n x m).kMarked n = m := by
  simp only [Warp.kSetPair]
  rw [Warp.kGet_kSet_ne _ _ _ (by omega), Warp.kMarked_kSet_ne _ _ _ (by omega)]
  simp

theorem Warp.kSetPair_high (w : Warp) (n : Nat) (x : DWord) (m : Bool) :
    (w.kSetPair n x m).kGet (n + 1) = x.extractLsb' 32 32 ∧ (w.kSetPair n x m).kMarked (n + 1) = m := by
  simp [Warp.kSetPair]

theorem State.quiet_touched {s t : State} {c : Ctx} (ht : s.touched t c) : s.quiet t c := by
  simp [State.quiet, ht.warp]

theorem State.quiet_warp {s t : State} {c : Ctx} {x : Warp} (ht : s.touched t c) (hx : s.warp? c.ref = some x) (f : Warp → Warp)
    (h : (f x).cf = x.cf ∧ (f x).inflight = x.inflight) : s.quiet (t.modWarp c.ref f) c := by
  simp only [State.quiet, State.warp_eq (State.warp?_modWarp_same f (by rw [ht.warp?]; exact hx)), State.warp_eq hx]
  exact h

theorem State.quiet.moved {s t u : State} {c : Ctx} (h : s.quiet t c) (hm : t.moved u c.ref) : s.quiet u c :=
  ⟨(Warp.still_fields hm.still (fun w => w.cf) fun _ => rfl).trans h.1,
    (Warp.still_fields hm.still (fun w => w.inflight) fun _ => rfl).trans h.2⟩

/-! ### The spec of `alu` -/

theorem append_low (a b : Word) : (a ++ b : BitVec (32 + 32)).setWidth 32 = b := by
  ext i hi
  rw [BitVec.getElem_setWidth, BitVec.getLsbD_append]; simp [hi]

theorem append_high (a b : Word) : (a ++ b : BitVec (32 + 32)).extractLsb' 32 32 = a := by
  ext i hi
  rw [BitVec.getElem_extractLsb', BitVec.getLsbD_append]; simp [hi]

theorem Warp.kPair_low (w : Warp) (n : Nat) : (w.kPair n).setWidth 32 = w.kGet n := append_low _ _

theorem Warp.kPair_high (w : Warp) (n : Nat) : (w.kPair n).extractLsb' 32 32 = w.kGet (n + 1) := append_high _ _

/-- A register pair that a poisoned guard keeps. -/
theorem Warp.kGet_kSetPair_self (w : Warp) (n j : Nat) (m : Bool) : (w.kSetPair n (w.kPair n) m).kGet j = w.kGet j := by
  by_cases h : j = n
  · subst h; rw [(Warp.kSetPair_low _ _ _ _).1, Warp.kPair_low]
  · by_cases h1 : j = n + 1
    · subst h1; rw [(Warp.kSetPair_high _ _ _ _).1, Warp.kPair_high]
    · exact (Warp.kGet_kSetPair_ne _ _ _ h h1).1

/-- The masks of a per-thread predicate after `writeP` in the lanes of `m`. -/
theorem Warp.pSet_has (w : Warp) (n : Nat) (m vals marks : Mask) {l : Nat} :
    ((w.pSet n m vals marks).p.get 0 n).has l = (if m.has l then vals.has l else (w.p.get 0 n).has l) ∧
    ((w.pSet n m vals marks).pMark.get 0 n).has l = (if m.has l then marks.has l else (w.pMark.get 0 n).has l) := by
  simp only [Warp.pSet, Tab.get_put_same, Mask.has, BitVec.getLsbD_or, BitVec.getLsbD_and, BitVec.getLsbD_not]
  constructor <;> (by_cases hl : l < 32 <;> cases hm : m.getLsbD l <;> simp_all)

/-- What an instruction run by `alu` does when its names are mapped and its accesses race with nothing (R59, R67, R201):
its destination holds the values and everything else is unchanged. -/
theorem alu_spec {s : State} {c : Ctx} {h : Head} {dst : Opnd} {wide : Bool} {reads : List (Opnd × Nat × Nat)}
    {f : State → Nat → DWord × Bool} (hc : s.ctx? = some c) (hr : s.aluReady c h dst wide reads)
    (hf : ∀ t, s.touched t c → f t = f s) :
    ∃ t, alu s c h dst wide reads f = .ok t ∧ s.result t c h dst wide (f s) ∧ s.frame t c dst wide ∧
      s.quiet t c ∧ (∃ y, t.warp? c.ref = some y) := by
  obtain ⟨x, hx⟩ := State.warp?_of_ctx? hc
  have hs : s.warp c.ref = x := State.warp_eq hx
  obtain ⟨hrd, hwr⟩ := hr
  have hchk : checkNames (s.warp c.ref) (namesOf dst (if wide then 2 else 1) 0 ++ reads.flatMap fun r => namesOf r.1 r.2.1 r.2.2) = .ok () :=
    checkNames_ok fun e he => (List.mem_append.1 he).elim (hwr.mapped e) (hrd.mapped e)
  obtain ⟨s1, h1, t1⟩ := State.rowAccess_ok hrd
  have hf1 : f s1 = f s := hf s1 t1
  have hx1 : s1.warp? c.ref = some x := by rw [t1.warp?, hx]
  unfold alu
  simp only [hchk, h1, hf1, bind, Except.bind]
  cases dst with
  | imm i => exact ⟨s1, rfl, trivial, State.frame_touched t1 _ _, State.quiet_touched t1, x, hx1⟩
  | v n =>
    obtain ⟨s2, h2, t2⟩ := State.rowAccess_ok (t1.namesFree hwr)
    have t12 := t1.trans t2
    simp only [h2]
    have hnm : ∀ j, (∃ f', (j, f') ∈ namesOf (.v n) (if wide then 2 else 1) 0) → ∃ i, s2.nameId c j = some i := by
      rintro j ⟨f', hj⟩
      obtain ⟨r, hr, -⟩ := hwr _ hj
      exact ⟨s.rowId c.ref r, by rw [t12.nameId]; simp only [State.nameId, hr, Option.map_some]⟩
    have hn : ∃ i, s2.nameId c n.toNat = some i := hnm _ ⟨0, by cases wide <;> simp [namesOf]⟩
    have hn1 : wide = true → ∃ i, s2.nameId c (n.toNat + 1) = some i := by
      rintro rfl; exact hnm _ ⟨0, by simp [namesOf]⟩
    have hw := State.writeV_wrote hn hn1 (c.active s h) (c.guardMarks s h) (f s)
    have ho := State.rowsOnly_writeV s2 c n.toNat wide (c.active s h) (c.guardMarks s h) (f s)
    have hv : ∀ (u : State) (j : Nat) (g : Nat → Word × Bool), s2.wroteName u c (c.active s h) (c.guardMarks s h) j g →
        s.wroteName u c (c.active s h) (c.guardMarks s h) j g := by
      intro u j g hu l hl; rw [hu l hl, t12.laneVal]
    refine ⟨_, rfl, ⟨fun e => hv _ _ _ (hw.1 (by rw [t12.nameId, t12.nameId]; exact e)), fun e => hv _ _ _ (hw.2 e)⟩,
      ⟨t12.outside.trans (ho.outside c), fun i hi => ?_, ?_, ?_, ?_, ?_⟩, ?_, x, by rw [ho.warp?, t12.warp?, hx]⟩
    · rw [State.getRow_writeV_ne]
      · exact t12.rows i
      · rw [t12.nameId]; exact hi _ (by cases wide <;> simp [dstNames, namesOf])
      · rintro rfl; rw [t12.nameId]; exact hi _ (by simp [dstNames, namesOf])
    all_goals (try simp only [State.quiet]); rw [ho.warp, t12.warp]
    · exact fun _ _ => ⟨rfl, rfl⟩
    · exact fun _ _ => ⟨rfl, rfl⟩
    · exact fun _ _ => ⟨rfl, rfl⟩
    · exact ⟨rfl, rfl⟩
  | u n =>
    by_cases he : c.executes s h = true
    · simp only [he, if_true]
      refine ⟨_, rfl, ?_, State.frame_warp t1 hx _ rfl ?_ ?_ ?_ ?_, State.quiet_warp t1 hx _ (by cases wide <;> exact ⟨rfl, rfl⟩), _, State.warp?_modWarp_same _ hx1⟩
      · simp only [State.result, he, if_true, State.writeU, State.warp_modWarp_same _ hx1]
        cases wide
        · simp
        · simp only [if_true]
          exact ⟨(Warp.kSetPair_low _ _ _ _).1, (Warp.kSetPair_low _ _ _ _).2, fun _ => Warp.kSetPair_high _ _ _ _⟩
      · intro j hj
        have := hj n rfl
        cases wide
        · exact ⟨Warp.kGet_kSet_ne _ _ _ this.1, Warp.kMarked_kSet_ne _ _ _ this.1⟩
        · exact Warp.kGet_kSetPair_ne _ _ _ this.1 (this.2 rfl)
      · intro j _; cases wide <;> exact ⟨rfl, rfl⟩
      · intro j _; cases wide <;> exact ⟨rfl, rfl⟩
      · cases wide <;> rfl
    · have he : c.executes s h = false := by simpa using he
      simp only [he, Bool.false_eq_true, if_false]
      by_cases hg : (c.guardMarks s h != 0) = true
      · simp only [State.keepU, hg, if_true]
        refine ⟨_, rfl, ?_, State.frame_warp t1 hx _ rfl ?_ ?_ ?_ ?_, State.quiet_warp t1 hx _ (by cases wide <;> exact ⟨rfl, rfl⟩), _, State.warp?_modWarp_same _ hx1⟩
        · simp only [State.result, he, Bool.false_eq_true, if_false, State.warp_modWarp_same _ hx1, t1.warp]
          intro j
          cases wide
          · by_cases hj : j = n.toNat
            · subst hj; simp
            · exact Warp.kGet_kSet_ne _ _ _ hj
          · exact Warp.kGet_kSetPair_self _ _ _ _
        · intro j hj
          have := hj n rfl
          cases wide
          · exact ⟨Warp.kGet_kSet_ne _ _ _ this.1, Warp.kMarked_kSet_ne _ _ _ this.1⟩
          · exact Warp.kGet_kSetPair_ne _ _ _ this.1 (this.2 rfl)
        · intro j _; cases wide <;> exact ⟨rfl, rfl⟩
        · intro j _; cases wide <;> exact ⟨rfl, rfl⟩
        · cases wide <;> rfl
      · simp only [State.keepU, hg]
        exact ⟨s1, rfl, by simp [State.result, he, t1.warp],
          State.frame_touched t1 _ _, State.quiet_touched t1, x, hx1⟩
  | sp i =>
    by_cases hi : i.toNat < 0x60
    · simp only [hi, if_true]
      refine ⟨_, rfl, ?_, State.frame_warp t1 hx _ rfl ?_ ?_ ?_ rfl, State.quiet_warp t1 hx _ ⟨rfl, rfl⟩, _, State.warp?_modWarp_same _ hx1⟩
      · simp only [State.result, hi, if_true, State.writeP, State.warp_modWarp_same _ hx1, t1.warp]
        intro l hl
        have := Warp.pSet_has (s.warp c.ref) (i.toNat - 0x58) (c.active s h)
          (Lanes.mask fun l => (c.active s h).has l && (f s l).1 != 0)
          (Lanes.mask fun l => ((c.active s h).has l && (f s l).2) || (c.guardMarks s h).has l) (l := l)
        simp only [Lanes.has_mask _ hl] at this
        refine ⟨this.1.trans ?_, ?_⟩
        · cases (c.active s h).has l <;> simp
        · simp only [Tab.get_put_same, Mask.has, BitVec.getLsbD_or]
          have h2 := this.2
          simp only [Mask.has] at h2 ⊢
          rw [h2]
          cases (c.active s h).getLsbD l <;> simp
      · intro j _; exact ⟨rfl, rfl⟩
      · intro j hj
        have := hj i rfl hi
        exact ⟨Tab.get_put_ne _ _ _ this, (Tab.get_put_ne _ _ _ this).trans (Tab.get_put_ne _ _ _ this)⟩
      · intro j _; exact ⟨rfl, rfl⟩
    · simp only [hi, if_false]
      by_cases he : c.executes s h = true
      · simp only [he, if_true]
        refine ⟨_, rfl, ?_, State.frame_warp t1 hx _ rfl ?_ ?_ ?_ rfl, State.quiet_warp t1 hx _ ⟨rfl, rfl⟩, _, State.warp?_modWarp_same _ hx1⟩
        · simp only [State.result, hi, he, if_true, if_false, State.writeKp, State.warp_modWarp_same _ hx1]
          exact Warp.kpGet_kpSet_same _ _ _ _
        · intro j _; exact ⟨rfl, rfl⟩
        · intro j _; exact ⟨rfl, rfl⟩
        · intro j hj
          have := hj i rfl hi
          exact ⟨Warp.kpGet_kpSet_ne _ _ _ this, Warp.kpMark_kpSet_ne _ _ _ this⟩
      · have he : c.executes s h = false := by simpa using he
        simp only [he, Bool.false_eq_true, if_false]
        by_cases hg : (c.guardMarks s h != 0) = true
        · simp only [State.keepKp, hg, if_true]
          refine ⟨_, rfl, ?_, State.frame_warp t1 hx _ rfl ?_ ?_ ?_ rfl, State.quiet_warp t1 hx _ ⟨rfl, rfl⟩, _, State.warp?_modWarp_same _ hx1⟩
          · simp only [State.result, hi, he, Bool.false_eq_true, if_false, State.warp_modWarp_same _ hx1, t1.warp]
            exact Warp.kpGet_kpSet_same _ _ _ _
          · intro j _; exact ⟨rfl, rfl⟩
          · intro j _; exact ⟨rfl, rfl⟩
          · intro j hj
            have := hj i rfl hi
            exact ⟨Warp.kpGet_kpSet_ne _ _ _ this, Warp.kpMark_kpSet_ne _ _ _ this⟩
        · simp only [State.keepKp, hg]
          exact ⟨s1, rfl, by simp only [State.result, hi, he, Bool.false_eq_true, if_false, t1.warp],
            State.frame_touched t1 _ _, State.quiet_touched t1, x, hx1⟩

/-- The completion of an instruction run by `alu`. -/
theorem runOp_alu {s : State} {c : Ctx} {h : Head} {dst : Opnd} {wide : Bool} {reads : List (Opnd × Nat × Nat)}
    {f : State → Nat → DWord × Bool} {body : Ctx → M State} (hc : s.ctx? = some c) (hb : body c = alu s c h dst wide reads f)
    (hr : s.aluReady c h dst wide reads) (hf : ∀ t, s.touched t c → f t = f s) :
    ∃ t, runOp s h body = .next t ∧ s.result t c h dst wide (f s) ∧ s.frame t c dst wide ∧ s.quiet t c := by
  obtain ⟨t, ht, h1, h2, h3, y, hy⟩ := alu_spec hc hr hf
  exact ⟨t.finish c, runOp_ok hc (hb.trans ht), h1.moved (State.finish_moved c hy), h2.moved (State.finish_moved c hy),
    h3.moved (State.finish_moved c hy)⟩

end Sys2Proof.Machine
end

