-- ==== Sys2Proof/Tests/Slice0.lean ====
section
/-! SUPPORT. Tests: ill-formed terms that the checks refuse, words of the manual and what they decode to, one step or one
instruction on small states, and for every statement a state and operands that meet its hypotheses. -/

set_option Elab.async false

namespace Sys2Proof.Tests

open Sys2Proof Sys2Proof.Machine

/-! ### Small states -/

/-- An instruction under p7, with no flag and no window. -/
def hd : Head := ⟨false, 7, 0, 0⟩

/-- An instruction under p7 that counts on flag 1. -/
def hf : Head := ⟨false, 7, 1, 15⟩

/-- A mixed clause of two instructions. -/
def header : DWord := 0x51000000000000a5

/-- A mixed clause of one instruction. -/
def shortHeader : DWord := 0x50000000000000a5

/-- An address register at `base`, of `len` bytes, with every permission. -/
def areg (base len : Nat) : AReg :=
  ⟨BitVec.ofNat 64 base, BitVec.ofNat 64 base, BitVec.ofNat 64 (base + len), 0, 4, true, true, true, true, false⟩

/-- A warp at address 8 of a clause: names v1 to v6 on rows 0 to 5, a2 in global memory, a3 in the scratchpad. -/
def warp0 : Warp :=
  { Warp.init with
    threads := List.replicate 32 ⟨8, some (0, header), none, [], .ready, 0, false, 0, 0⟩
    map := [(1, some 0), (2, some 1), (3, some 2), (4, some 3), (5, some 4), (6, some 5)]
    k := [(4, 7), (5, 0), (6, 3)]
    a := [(2, areg 0x10000 0x10000), (3, areg 0xffc0000000000000 0x1000)]
    running := Mask.all }

/-- The page at 0x10000 of context 1, on frame 32 with every permission. -/
def page0 : TlbEntry := ⟨1, 0x10000, false, 0x000000200000007f, 0⟩

/-- A workgroup of one warp on core 0: 8 rows, a scratchpad block, a tile, two table entries. -/
def wg0 : Wg :=
  { gen := 0, ctx := 1, grid := 0, wgid := 0, node := none, team := 0, rank := 0, core := 0, slot := 0, warps := [warp0],
    acq := .none, acqSince := 0, acqReserved := false, pool := [0, 1, 2, 3, 4, 5, 6, 7], near := [(0, 0)], far := [], tiles := [0],
    hents := [0, 1], reserve := none, aseq := 0, conv := [], nb := [], slots := [], queues := [], copyBuf := .zero,
    bankBuf := .zero, fabBuf := .zero, copyDone := [], bankDone := [], inbox := [], chans := [], bankOps := [], engClk := [], records := [],
    recMarks := [], recBacked := 0, recSize := 0, recCount := 0, cycles := 0, faulted := false, stuckSince := none,
    candidate := false, resting := false, saveTo := none, frozen := false, beryl := false, signature := 0, screened := false,
    copyOf := none, copyFault := false }

/-- The rows of the names: each has one reference, and its lanes hold its number plus one. -/
def rows0 : Tab Row := [0, 1, 2, 3, 4, 5].map fun r => (r, ⟨List.replicate 32 (BitVec.ofNat 32 (r + 1)), 0, 1, 1⟩)

/-- Workgroup 1 on core 0, its warp about to run an instruction. -/
def st0 : State :=
  { State.reset with
    cores := [(0, { Core.zero with rows := rows0, tlb := [page0], cycle := 100 })]
    wgs := [(1, some wg0)]
    teams := [(0, some ⟨0, [1], [1], [], 2, []⟩)]
    cur := .warp (.user 1 0) Mask.all 0 header 0
    nextInst := 2 }

/-- The group that runs in `st0`. -/
def c0 : Ctx := ⟨.user 1 0, Mask.all, 0, header, 0, 8, 0, 1⟩

/-- `st0` with its workgroup, its warp or its core changed. -/
def withWg (f : Wg → Wg) : State := st0.modWg 1 f
def withWarp (f : Warp → Warp) : State := st0.modWarp (.user 1 0) f
def withCore (f : Core → Core) : State := st0.modCore 0 f

/-- The supervisor warp of core 0 about to run an instruction. -/
def sup0 : State :=
  { st0.modCore 0 (fun k => { k with sup := { warp0 with map := [], a := [], awake := true } }) with
    cur := .warp (.sup 0) Mask.all 0 header 0 }

def cs : Ctx := ⟨.sup 0, Mask.all, 0, header, 0, 8, 0, 0⟩

/-- Operands: unused fields are `z`. -/
def z : Opnd := .v 0
def bA (dst sa : Opnd) (sb : Opnd := z) (sc : Opnd := z) (m : BitVec 3 := 0) : BodyA := ⟨dst, sa, sb, sc, m⟩

/-- The state that an instruction answers. -/
def after (i : Instr) (s : State) : State := match exec i s with | .next t => t | _ => s

/-- The instruction answers a next state. -/
def answers (i : Instr) (s : State) : Bool := match exec i s with | .next _ => true | _ => false

/-- A k register of the warp that runs in `st0`. -/
def kOf (s : State) (n : Nat) : Word := (s.warp (.user 1 0)).kGet n

/-- A lane of a name of that warp. -/
def lane (s : State) (n l : Nat) : Word := (s.laneVal c0 n l).1

/-- The thread of lane 0 of that warp. -/
def thread (s : State) : Thread := (s.warp (.user 1 0)).thread 0

/-- The cause of that warp's trap. -/
def causeOf (s : State) : Option Nat := (s.warp (.user 1 0)).trap.map fun r => (r.cause.extractLsb' 0 10).toNat

/-- The name is free, as a check that computes. -/
def freeB (s : State) (c : Ctx) (m : Mask) (write : Bool) (n : Nat) : Bool :=
  match (s.warp c.ref).nameRow n with
  | none => false
  | some r =>
      (List.range 32).all fun l => !m.has l || !s.watched c.ref r l || (((s.histAt ((s.rowId c.ref r).loc l)).race c.party (s.warp c.ref).clk write false).isNone)

theorem nameFree_of_freeB {s : State} {c : Ctx} {m : Mask} {write : Bool} {n : Nat} (h : freeB s c m write n = true) :
    s.nameFree c m write n := by
  unfold freeB at h
  split at h
  · exact absurd h (by simp)
  · rename_i r hr
    refine ⟨r, hr, fun l hl hm hw => ?_⟩
    simp only [List.all_eq_true, List.mem_range, Bool.or_eq_true, Bool.not_eq_true', Option.isNone_iff_eq_none] at h
    rcases h l hl with (h | h) | h
    · rw [hm] at h; exact absurd h (by simp)
    · rw [hw] at h; exact absurd h (by simp)
    · exact h

theorem namesFree_of_freeB {s : State} {c : Ctx} {m : Mask} {write : Bool} {ns : List (Nat × Nat)}
    (h : (ns.all fun e => freeB s c m write e.1) = true) : s.namesFree c m write ns := fun e he =>
  nameFree_of_freeB (List.all_eq_true.1 h e he)

/-- The hypotheses of an arithmetic instruction, as a check that computes. -/
def readyB (s : State) (c : Ctx) (h : Head) (dst : Opnd) (wide : Bool) (reads : List (Opnd × Nat × Nat)) : Bool :=
  ((reads.flatMap fun r => namesOf r.1 r.2.1 r.2.2).all fun e => freeB s c (c.active s h) false e.1) &&
  ((namesOf dst (if wide then 2 else 1) 0).all fun e => freeB s c (c.active s h) true e.1)

theorem aluReady_of_readyB {s : State} {c : Ctx} {h : Head} {dst : Opnd} {wide : Bool} {reads : List (Opnd × Nat × Nat)}
    (hr : readyB s c h dst wide reads = true) : s.aluReady c h dst wide reads := by
  unfold readyB at hr
  rw [Bool.and_eq_true] at hr
  exact ⟨namesFree_of_freeB hr.1, namesFree_of_freeB hr.2⟩

/-! ### Ill-formed terms -/

/-- NEG with p7; a flag above 12; FLAG or LK on an instruction without them; a flag without LK 15; a missing flag (R165, R168). -/
theorem test_refuse_heads :
    ([.nop ⟨true, 7, 0, 0⟩, .nop ⟨false, 7, 1, 15⟩, .nop ⟨false, 7, 0, 1⟩, .idiv ⟨false, 7, 13, 15⟩ (bA (.v 5) (.v 1) (.v 2)),
      .idiv ⟨false, 7, 1, 3⟩ (bA (.v 5) (.v 1) (.v 2)), .bmv ⟨false, 7, 0, 0⟩ 1] : List Instr).all (fun i => !i.wf) = true := by decide +kernel

/-- Operand kinds, pairs, MOD values and unused fields of the control, map and lane instructions. -/
theorem test_refuse_control :
    ([.bra hd ⟨6, 1, false, 0⟩, .brc hd ⟨6, 0, false, 0⟩, .brc hd ⟨6, 3, false, 0⟩, .brc hd ⟨6, 2, false, 4⟩,
      .brx hd (bA z (.v 3)), .callx hd (bA (.u 4) (.v 2)), .ret hd (bA (.v 2) (.v 2)), .getm hd (.v 248) false, .getm hd (.v 3) true,
      .setmRestore hd (.u 2), .map hd (bA (.u 1) z), .unmap hd (bA (.v 1) (.v 1)), .aliasName hd (bA (.v 2) (.imm 1)),
      .give hd (bA z (.v 2) (.sp 0x7f)), .take hd (bA (.v 2) z (.sp 0xc0)), .mapq hd (bA (.v 0) (.v 1)),
      .lxch hd (bA (.v 4) (.v 2) (.imm 1) z 4), .pagr hd (bA (.sp 0x5f) (.sp 0x59)), .pmsk hd (bA (.u 6) (.v 1)),
      .leqm hd (bA (.v 4) (.v 3) z z 3), .lred hd (bA (.u 4) (.v 2) (.imm 1)), .rfal hd (bA (.v 4) (.v 2) z z 1)] :
        List Instr).all (fun i => !i.wf) = true := by decide +kernel

/-- The same of the integer, float and conversion instructions. -/
theorem test_refuse_arithmetic :
    ([.iadd hd (bA (.u 4) (.v 1) (.imm 1)), .iadd hd (bA (.v 3) (.v 2) (.v 4) z 2), .iadd hd (bA (.v 2) (.v 2) (.v 4) (.v 1)),
      .iadd hd (bA (.u 64) (.u 1) (.u 2)), .iadd hd (bA (.v 4) (.sp 0xcf) (.v 2)), .iabs hd (bA (.v 4) (.v 2) z z 1),
      .popc hd (bA (.v 4) (.v 2) z z 0), .ltab hd (bA (.v 4) (.v 1) (.v 2) (.v 3) 1), .shl hd (bA (.v 4) (.v 4) (.sp 0xc0) z 1),
      .sar hd (bA (.v 4) (.v 4) (.imm 1) z 1), .bfe hd (bA (.v 4) (.v 2) (.imm 8) (.imm 4) 4), .bfi hd (bA (.v 4) (.v 2) (.imm 8) (.imm 4) 0),
      .bytep hd (bA (.v 4) (.v 2) (.v 3) (.u 1) 3), .iset hd (bA (.sp 0x5f) (.v 1) (.v 2) (.imm 2)),
      .iset hd (bA (.sp 0x5a) (.v 1) (.v 2) (.imm 6)), .sel hd (bA (.u 4) (.u 2) (.u 3) (.sp 0x59) 1), .movi hd ⟨.u 3, 0, true⟩,
      .rds hd (bA (.u 4) z (.imm 1) z 3), .rds hd (bA (.u 4) z (.imm 8) z 1), .fadd hd (bA (.u 4) (.v 1) (.v 2)),
      .fadd hd (bA (.v 4) (.v 1) (.v 2) z 4), .fmin hd (bA (.v 4) (.v 1) (.v 2) z 2), .fset hd (bA (.u 1) (.v 1) (.v 2) (.imm 2)),
      .fset hd (bA (.sp 0x5a) (.v 1) (.v 2) (.imm 8)), .dadd hd (bA (.v 4) (.v 1) (.v 2)), .frcp hd (bA (.v 4) (.v 2) z z 1),
      .cvt hd (bA (.v 4) (.v 2) (.imm 0xc0)), .cvt hd (bA (.v 4) (.v 2) (.imm 0x10) z 4), .cvt hd (bA (.v 5) (.v 2) (.imm 0x30)),
      .cvts hd (bA (.v 4) (.imm 2) (.sp 0x28)), .cvtn hd (bA (.v 4) (.v 2) (.sp 0x30) (.imm 0)), .bscale hd (bA (.v 4) (.v 2) (.u 1) (.imm 0)),
      .plsplit hd (bA (.v 8) (.v 2) (.v 9) (.imm 4))] : List Instr).all (fun i => !i.wf) = true := by decide +kernel

/-- The same of the memory instructions: DATA, MODE, SCOPE, CACHE, MOD, AOP. -/
theorem test_refuse_memory :
    ([.ld hd ⟨.v 1, 2, 0, 0, 5, 0, 0, 0⟩, .ld hd ⟨.v 1, 2, 0, 0, 3, 0, 0, 0⟩, .ld hd ⟨.v 2, 2, 0, 0, 4, 0, 0, 0⟩, .ld hd ⟨.imm 1, 2, 0, 0, 2, 0, 0, 0⟩,
      .ld hd ⟨.v 1, 2, 5, 0, 2, 0, 0, 0⟩, .ld hd ⟨.v 1, 2, 0, 0, 2, 5, 0, 0⟩, .ld hd ⟨.v 1, 2, 0, 0, 2, 0, 0, 1⟩, .lds hd ⟨.v 1, 2, 0, 0, 2, 0, 1, 0⟩,
      .ldc hd ⟨.v 1, 2, 0, 0, 2, 1, 0, 0⟩, .st hd ⟨.v 1, 2, 0, 0, 2, 0, 0, 1⟩, .stSpill hd ⟨.v 1, 2, 2, 0, 2, 0, 0, 2⟩,
      .ldFill hd ⟨.u 1, 2, 0, 0, 2, 0, 0, 2⟩, .atom hd ⟨.v 1, 2, 0, 0, 1, 0, 0, 0⟩, .atom hd ⟨.v 1, 2, 0, 0, 2, 0, 3, 2⟩,
      .red hd ⟨.v 1, 2, 0, 0, 2, 0, 2, 0⟩, .red hd ⟨.v 1, 2, 0, 0, 2, 1, 0, 0⟩, .cas hd ⟨.v 3, 2, 0, 0, 2, 0, 0, 0⟩, .cas hd ⟨.v 2, 2, 0, 0, 2, 0, 0, 1⟩,
      .redv hd ⟨.v 4, 2, 0, 0, 2, 0, 2, 0⟩, .redv hd ⟨.v 4, 2, 0, 0, 3, 0, 3, 2⟩, .prf hd ⟨.v 1, 2, 0, 0, 2, 0, 0, 0⟩, .prf hd ⟨.v 0, 2, 1, 0, 2, 0, 0, 0⟩,
      .fence hd 0, .fenceb hd 5, .ainit hd (bA (.sp 3) (.u 3) (.u 4) (.imm 3)), .ainit hd (bA (.sp 3) (.u 2) (.u 4) (.imm 16)),
      .aset hd (bA (.sp 3) (.u 6) (.imm 6)), .aset hd (bA (.sp 3) (.imm 6) (.imm 0)), .aadv hd (bA (.sp 3) (.u 7) z z 2),
      .aadv hd (bA (.sp 3) (.u 6) z z 4), .aget hd (bA (.u 7) (.sp 3) (.imm 0)), .aget hd (bA (.u 8) (.sp 3) (.imm 6))] :
        List Instr).all (fun i => !i.wf) = true := by decide +kernel

/-- The same of the synchronisation, engine, system and Beryl instructions. -/
theorem test_refuse_others :
    ([.bars hd (bA z (.sp 0x40) (.imm 4)), .bara hd (bA (.v 4) (.sp 0x30) (.imm 4)), .barw hd (bA z (.sp 0x30) (.imm 4)),
      .tbara hd (bA (.u 5) (.sp 0x48) (.u 6)), .tbarw hd (bA z (.sp 0x30) (.u 5)), .tbarx hd (bA z (.sp 0x41) (.v 7)),
      .qbind hd (bA (.sp 0x12) (.imm 3) (.u 0)), .qbind hd (bA (.sp 0x12) (.imm 3) (.imm 0) z 2), .qsend hd (bA z (.sp 0x20) (.u 8)),
      .qrecv hd (bA (.v 4) (.sp 0x12)), .qtry hd (bA (.sp 0x59) (.sp 0x12) (.u 4)), .qstat hd (bA (.u 7) z z z 1),
      .poll hd (bA (.u 6) (.sp 3) (.imm 1) (.imm 6) 3), .poll hd (bA (.u 6) (.sp 3) (.imm 1) (.imm 5) 5), .hget hd (bA (.u 10) (.v 2) (.u 3)),
      .hwait hd (bA z (.u 10) (.imm 4)), .hset hd (bA z (.u 10) (.imm 1)), .wptr hd (bA (.u 13) z (.imm 1)), .wwait hd (bA z (.u 12) (.imm 4)),
      .wgsend hd (bA z (.sp 4) (.imm 7) (.imm 1)), .qret hd (bA z (.u 1) z z 1), .qborrow hd (bA z (.u 1)), .tapef hd (bA (.u 4) z),
      .time hd (bA (.u 11) z), .waitt hd (bA z (.imm 1)), .launch hd (bA (.u 5) (.sp 6) (.imm 64)), .cpy hd 1,
      .mma hf ⟨0, 0, 2, 3, 0, 1, 3, 9, false⟩, .msign hd 0 (.v 1), .accmv hf ⟨.u 1, 0, .imm 1, false⟩,
      .mepi hf ⟨false, 0, 5, 3, 4, .u 9, 6, true, 10⟩, .mepi hf ⟨false, 0, 5, 3, 1, .u 9, 6, false, 10⟩, .bstat hd 13,
      .rdsr hd ⟨.u 5, z, 1⟩, .wrsr hd ⟨z, .u 5, 1⟩, .eret hd ⟨z, .imm 2, 0⟩, .savewg hd ⟨.u 5, .imm 1, 0⟩, .tlbi hd ⟨.u 2, .u 2, 0⟩,
      .halt hd ⟨z, .u 2, 0⟩, .halt hd ⟨z, z, 1⟩, .fwpRead ⟨1, 2, 3⟩, .ftime ⟨1, 2, 0⟩, .berylInstruction (.load 3 true 1 2 0) none,
      .berylInstruction (.opImm .sub 1 2 0) none, .berylInstruction (.shImm .add 1 2 0) none, .berylInstruction (.shImmW .xor 1 2 0) none,
      .berylInstruction (.opW .or 1 2 3) none, .berylInstruction (.mulDivW .mulh 1 2 3) none, .berylInstruction (.csr .rw 1 2 0x801) none,
      .berylInstruction .ebreak (some 1)] : List Instr).all (fun i => !i.wf) = true := by decide +kernel

/-! ### Words of the manual, with what it says that they encode -/

/-- The control and map words: BRA done; CALLX v10:v11, k4:k5; ?p3 EXIT; SLEEP 256; SETM join; GETM.clr v200; TRAP
0x12; MAP v1; ALIAS v2, v1; GIVE v2, h0; MAPQ k0, v1. -/
theorem test_decode_control : (([
    (0x00b8000000003000, .bra hd ⟨6, 0, false, 0⟩),
    (0x02b8001482000000, .callx hd (bA (.v 0xa) (.u 4))),
    (0x0398000000000000, .exit ⟨false, 3, 0, 0⟩),
    (0x0538000000000800, .sleep hd 0x100),
    (0x05b8000000004800, .setmPush hd 9),
    (0x06b8019000000001, .getm hd (.v 0xc8) true),
    (0x0738000000000090, .trap hd 0x12),
    (0x0838000200000000, .map hd (bA (.v 1) z)),
    (0x0938000400800000, .aliasName hd (bA (.v 2) (.v 1))),
    (0x09b8000001700000, .give hd (bA z (.v 2) (.sp 0x80))),
    (0x0b38020000800000, .mapq hd (bA (.u 0) (.v 1)))] : List (Nat × Instr)).all
    fun p => decodeTableWord 64 p.1 == some p.2) = true := by decide +kernel

/-- The integer and lane words: IADD.s32 k4, k4, 1; IMUL.s16 v8, v9, k0; IMAD.s32 v4, v1, v2, v3; IDIV.s32 v5, v1, v2
la=3; IREM.n32 v6, v1, v2 set=cf0; CLZ.b64 k4, k2:k3; MOV.b32 v4, %lane; LTAB.b32 v4, v1, v2, 0x96; SHR.b64 v4:v5,
v6:v7, k0; CATSH.r v4, v2, v3, 8; BFE.n32 v4, v2, 8, 4; BYTEP.b32 v4, v2, v3, k1; ISET.s32 p2, v1, v2, lt; SEL.b32 v4,
v2, v3, p1; MOVI k2, 0x12345678; RDS.b64 k4:k5, 0; LXCH.off.b32 v4, v2, 1; PAGR.any kp0, p1; LEQM.b32 v4, v2; LRED.add
k4, v2; RFAL.b32 k5, v2. -/
theorem test_decode_integer : (([
    (0x2038020882402000, .iadd hd (bA (.u 4) (.u 4) (.imm 1))),
    (0x2138001004a00004, .imul hd (bA (.v 8) (.v 9) (.u 0) z 4)),
    (0x2238000800804018, .imad hd (bA (.v 4) (.v 1) (.v 2) (.v 3))),
    (0x22b8180a00804000, .idiv ⟨false, 7, 0, 3⟩ (bA (.v 5) (.v 1) (.v 2))),
    (0x2338f80c00804001, .irem hf (bA (.v 6) (.v 1) (.v 2) z 1)),
    (0x2838020881000003, .clz hd (bA (.u 4) (.u 2) z z 3)),
    (0x2bb80009e0000001, .mov hd (bA (.v 4) (.sp 0xc0) z z 1)),
    (0x25380008008054b1, .ltab hd (bA (.v 4) (.v 1) (.v 2) (.imm 0x96) 1)),
    (0x2638000803200003, .shr hd (bA (.v 4) (.v 6) (.u 0) z 3)),
    (0x2738000801007041, .catsh hd (bA (.v 4) (.v 2) (.v 3) (.imm 8) 1)),
    (0x2938000801411021, .bfe hd (bA (.v 4) (.v 2) (.imm 8) (.imm 4) 1)),
    (0x2a38000801006809, .bytep hd (bA (.v 4) (.v 2) (.v 3) (.u 1) 1)),
    (0x2ab806b400805010, .iset hd (bA (.sp 0x5a) (.v 1) (.v 2) (.imm 2))),
    (0x2b38000801007ac9, .sel hd (bA (.v 4) (.v 2) (.v 3) (.sp 0x59) 1)),
    (0x2c3802042468acf0, .movi hd ⟨.u 2, 0x12345678, false⟩),
    (0x2cb8020800400003, .rds hd (bA (.u 4) z (.imm 0) z 3)),
    (0x1038000801402001, .lxch hd (bA (.v 4) (.v 2) (.imm 1) z 1)),
    (0x10b806c1ac800001, .pagr hd (bA (.sp 0x60) (.sp 0x59) z z 1)),
    (0x11b8000801000001, .leqm hd (bA (.v 4) (.v 2) z z 1)),
    (0x1238020801000000, .lred hd (bA (.u 4) (.v 2))),
    (0x12b8020a01000001, .rfal hd (bA (.u 5) (.v 2) z z 1))] : List (Nat × Instr)).all
    fun p => decodeTableWord 64 p.1 == some p.2) = true := by decide +kernel

/-- The float and conversion words: FADD.f32 v4, v1, v2; FMIN.f32 v6, v6, v7; FSET.f32 p2, v1, v2, lt; DSET.f64 p1,
v0:v1, v2:v3, le; FRND.f32.rd v3, v2; FCLASS.f32 v3, v2; PHMUL.f16x2.rz v4, v1, v2; PBFMA.bf16x2 v9, v1, v2, v3;
DMUL.f64.ru v4:v5, v0:v1, k2:k3; CVT.s32.f32.rz v4, v2; CVTW.bf16x2 v4, v1, v2; CVTN.to.fs0 v6, v2, 3; BSCALE.div.fs2
v7, v3, k0; PLSPLIT v8, v9, v2, 1. -/
theorem test_decode_float : (([
    (0x4038000800804000, .fadd hd (bA (.v 4) (.v 1) (.v 2))),
    (0x41b8000c0300e000, .fmin hd (bA (.v 6) (.v 6) (.v 7))),
    (0x42b806b400805010, .fset hd (bA (.sp 0x5a) (.v 1) (.v 2) (.imm 2))),
    (0x47b806b200005018, .dset hd (bA (.sp 0x59) z (.v 2) (.imm 3))),
    (0x4338000601000002, .frnd hd (bA (.v 3) (.v 2) z z 2)),
    (0x43b8000601000000, .fclass hd (bA (.v 3) (.v 2))),
    (0x44b8000800804001, .phmul hd (bA (.v 4) (.v 1) (.v 2) z 1)),
    (0x45b8001200804018, .pbfma hd (bA (.v 9) (.v 1) (.v 2) (.v 3))),
    (0x46b8000800204003, .dmul hd (bA (.v 4) z (.u 2) z 3)),
    (0x4c38000801500001, .cvt hd (bA (.v 4) (.v 2) (.imm 0x80) z 1)),
    (0x4db8000800804004, .cvtw hd (bA (.v 4) (.v 1) (.v 2) z 4)),
    (0x4cb8000c01651018, .cvtn hd (bA (.v 6) (.v 2) (.sp 0x28) (.imm 3))),
    (0x4f38000e01a01951, .bscale hd (bA (.v 7) (.v 3) (.u 0) (.sp 0x2a) 1)),
    (0x4e38001001013008, .plsplit hd (bA (.v 8) (.v 2) (.v 9) (.imm 1)))] : List (Nat × Instr)).all
    fun p => decodeTableWord 64 p.1 == some p.2) = true := by decide +kernel

/-- The memory words: LD.s16 v4, [a2]+0x40 la=3; ST.b32 [a1+0], k0 set=cf1; LDS.b32 v2, [a2+0x40]; STT.b32.team
[a4+0], v5; LDC.b32 k0, [a0+0] set=cf0; AINIT a3, k2:k3, k4:k5, rw; ASET.modlen a3, k6; AADV a3, k7; AGET.ptr k8:k9,
a3; ST.spill [a7+0x10], v12; PRF.b32.keep [a3+0x1000]; ATOM.fadd.f32 v4, [a2+0] set=cf0; RED.add.b32 [a2+0], v4;
CAS.b32 v4:v5, [a2+0] set=cf0; REDV.add.bf16x2 [a5]+0x80, v8; FENCE.dev; FENCEB.wg. -/
theorem test_decode_memory : (([
    (0x6038180844008081, .ld ⟨false, 7, 0, 3⟩ ⟨.v 4, 2, 1, 0x20, 1, 0, 0, 1⟩),
    (0x60b97a0020000100, .st ⟨false, 7, 2, 0xf⟩ ⟨.u 0, 1, 0, 0, 2, 0, 0, 0⟩),
    (0x6138000440004100, .lds hd ⟨.v 2, 2, 0, 0x10, 2, 0, 0, 0⟩),
    (0x62b8000a80000120, .stt hd ⟨.v 5, 4, 0, 0, 2, 2, 0, 0⟩),
    (0x6338fa0000000100, .ldc hf ⟨.u 0, 0, 0, 0, 2, 0, 0, 0⟩),
    (0x6438060681209018, .ainit hd (bA (.sp 3) (.u 2) (.u 4) (.imm 3))),
    (0x64b8060683406000, .aset hd (bA (.sp 3) (.u 6) (.imm 3))),
    (0x6538060683800000, .aadv hd (bA (.sp 3) (.u 7))),
    (0x65b8021181c00000, .aget hd (bA (.u 8) (.sp 3) (.imm 0))),
    (0x60b80018e0001102, .stSpill hd ⟨.v 0xc, 7, 0, 4, 2, 0, 0, 2⟩),
    (0x63b800006010010c, .prf hd ⟨.v 0, 3, 0, 0x400, 2, 0, 3, 0⟩),
    (0x6638f8084000010b, .atom hf ⟨.v 4, 2, 0, 0, 2, 0, 2, 3⟩),
    (0x6738000840000100, .red hd ⟨.v 4, 2, 0, 0, 2, 0, 0, 0⟩),
    (0x66b8f80840000100, .cas hf ⟨.v 4, 2, 0, 0, 2, 0, 0, 0⟩),
    (0x67b80010a400810e, .redv hd ⟨.v 8, 5, 1, 0x20, 2, 0, 3, 2⟩),
    (0x68b8000000000030, .fence hd 3),
    (0x6938000000000010, .fenceb hd 1)] : List (Nat × Instr)).all
    fun p => decodeTableWord 64 p.1 == some p.2) = true := by decide +kernel

/-- The synchronisation, queue and task words: BARS nb0, 4; TBARA k5, tb1, k6; TBARX tb1, k7; ACQ; QBIND.recv q2, 0,
3; QSEND q1, k8 set=cf3; QTRY kp1, q2, k4; POLL.dev k6, [a3], 1, ge; HGET k10, k2, k3; HSET k10, 2; CPY k8 set=cf0;
CPYT k16, k6:k7 set=cf2; WPTR k12:k13, 1; QSPLIT k20, k21; QRET.all; WGSEND 7, [a4], k20 set=cf1; DEPINC k9, 1; WAITT
k12:k13; LAUNCH k5, 12, [a6]. -/
theorem test_decode_sync : (([
    (0x8038000198408000, .bars hd (bA z (.sp 0x30) (.imm 4))),
    (0x81b8020ba0a0c000, .tbara hd (bA (.u 5) (.sp 0x41) (.u 6))),
    (0x82b80001a0a0e000, .tbarx hd (bA z (.sp 0x41) (.u 7))),
    (0x8338000000000000, .acq hd),
    (0x83b8062501c00001, .qbind hd (bA (.sp 0x12) (.imm 3) (.imm 0) z 1)),
    (0x843a780188a10000, .qsend ⟨false, 7, 4, 0xf⟩ (bA z (.sp 0x11) (.u 8))),
    (0x853806c389208000, .qtry hd (bA (.sp 0x61) (.sp 0x12) (.u 4))),
    (0x8638020d81c0302b, .poll hd (bA (.u 6) (.sp 3) (.imm 1) (.imm 5) 3)),
    (0x86b8021481206000, .hget hd (bA (.u 0xa) (.u 2) (.u 3))),
    (0x8838000085404000, .hset hd (bA z (.u 0xa) (.imm 2))),
    (0x89b8f90000000000, .cpy hf 1),
    (0x8a39fa1800000000, .cpyt ⟨false, 7, 3, 0xf⟩ 2 3),
    (0x88b8021800402000, .wptr hd (bA (.u 0xc) z (.imm 1))),
    (0x8b3802288a800000, .qsplit hd (bA (.u 0x14) (.u 0x15))),
    (0x8bb8000000000001, .qret hd (bA z z z z 1)),
    (0x8ab978018240e8a0, .wgsend ⟨false, 7, 2, 0xf⟩ (bA z (.sp 4) (.imm 7) (.u 0x14))),
    (0x8db8000084c02000, .depinc hd (bA z (.u 9) (.imm 1))),
    (0x8eb8000086000000, .waitt hd (bA z (.u 0xc))),
    (0x8f38020b83418000, .launch hd (bA (.u 5) (.sp 6) (.imm 0xc)))] : List (Nat × Instr)).all
    fun p => decodeTableWord 64 p.1 == some p.2) = true := by decide +kernel

/-- The matrix and bank words: MMA acc0, c0, [a2].fs0, [a3].fs1, k8, 64 set=cf0; MSIGN c2, k5; MZERO acc3; ACCLD acc2,
[a4], k6 set=cf1; ACCMV.get v20, acc2, k7 set=cf0; MEPI acc0, [a5], fs3, relu, k9, [a6], k10 set=cf2; MRPQ k12, acc1;
BMVA k16 set=cf2; BRED k24 set=cf4; BSTAT k14:k15. -/
theorem test_decode_engines : (([
    (0xa038f80230432000, .mma hf ⟨0, 0, 2, 3, 0, 1, 3, 8, false⟩),
    (0xa138024140000000, .msign hd 2 (.u 5)),
    (0xa1b8003000000000, .mzero hd 3),
    (0xa239782400060000, .accld ⟨false, 7, 2, 0xf⟩ ⟨2, 4, 6⟩),
    (0xa338f82848380000, .accmv hf ⟨.v 0x14, 2, .u 7, false⟩),
    (0xa3b9f80565096940, .mepi ⟨false, 7, 3, 0xf⟩ ⟨false, 0, 5, 3, 1, .u 9, 6, true, 0xa⟩),
    (0xa438018200000000, .mrpq hd 0xc 1),
    (0xb0b9fa0000000000, .bmva ⟨false, 7, 3, 0xf⟩ 2),
    (0xb13afb0000000000, .bred ⟨false, 7, 5, 0xf⟩ 3),
    (0xb1b801c000000000, .bstat hd 0xe)] : List (Nat × Instr)).all
    fun p => decodeTableWord 64 p.1 == some p.2) = true := by decide +kernel

/-- The system words: RDSR k0:k1, tcause; WRSR tsel, k4:k5; ERET 0; ERET 1; SAVEWG k6, k8:k9; RESTWG k6, k8:k9; FLUSHS
k10:k11. -/
theorem test_decode_system : (([
    (0xb838020000002800, .rdsr hd ⟨.u 0, z, 0x005⟩),
    (0xb8b8000082002000, .wrsr hd ⟨z, .u 4, 0x004⟩),
    (0xb9b8020c84000000, .savewg hd ⟨.u 6, .u 8, 0⟩),
    (0xba38020c84000000, .restwg hd ⟨.u 6, .u 8, 0⟩),
    (0xbb38000085000000, .flushs hd ⟨z, .u 10, 0⟩),
    (0xb938000100000000, .eret hd ⟨z, .imm 0, 0⟩),
    (0xb938000100800000, .eret hd ⟨z, .imm 1, 0⟩)] : List (Nat × Instr)).all
    fun p => decodeTableWord 64 p.1 == some p.2) = true := by decide +kernel

/-- The Xfar words of R319: rd x10, rs1 x11, rs2 x12. -/
theorem test_decode_beryl : (([
    (0x00c5850b, .fqSend ⟨10, 11, 12⟩), (0x02c5850b, .fqSendTry ⟨10, 11, 12⟩), (0x00c5950b, .fqRecv ⟨10, 11, 12⟩),
    (0x02c5950b, .fqRecvTry ⟨10, 11, 12⟩), (0x00c5a50b, .fhGet ⟨10, 11, 12⟩), (0x00c5b50b, .fhWait ⟨10, 11, 12⟩),
    (0x00c5c50b, .fcpIssue ⟨10, 11, 12⟩), (0x02c5c50b, .fcpIssueT ⟨10, 11, 12⟩), (0x0005d50b, .fwpRead ⟨10, 11, 0⟩),
    (0x02c5d50b, .fwpReadWait ⟨10, 11, 12⟩), (0x0000650b, .ftime ⟨10, 0, 0⟩), (0x0205e50b, .ftimeWait ⟨10, 11, 0⟩),
    (0x00c5f50b, .fpollEq ⟨10, 11, 12⟩), (0x0ac5f50b, .fpollGe ⟨10, 11, 12⟩)] : List (Nat × Instr)).all
    fun p => decodeTableWord 32 p.1 == some p.2) = true := by decide +kernel

/-- Words that no entry gives: reserved opcodes, non-zero unused fields, funct7 and opcodes that R319 calls illegal. -/
theorem test_decode_refuses :
    ([0x0000000000000000, 0xffffffffffffffff, 0x0438000000000001, 0x00b8000000003001, 0x2038020801006008].all fun w =>
      decodeTableWord 64 w == none) = true ∧
    ([0x04c5850b, 0x0cc5f50b, 0x0205d50b + 0x10000000, 0x0000002b, 0x0000005b, 0x0000007b].all fun w => decodeTableWord 32 w == none) = true := by
  decide +kernel

/-! ### Integer, float and lane instructions -/

/-- A grid whose slot fs0 is signed binary8p4 with an E8 scale, fs1 FP32, fs2 as fs0; one warp. -/
def launch0 : BitVec 2048 := 0x4454#2048 <<< 1024 ||| 0x4454#2048 <<< 1152 ||| 1#2048 <<< 606

def grid0 : Grid :=
  { queue := 0, ctx := 1, launch := launch0, sections := [], nodes := [], st := .admitting, nextRoot := 1, retired := 0,
    nodeLive := [], nodeUse := [], copies := 0, faults := 0, poison := 0, done := 0, started := true, prev := none,
    headSince := none, reserved := none, bins := [], backing := [], clk := [], rel := [] }

def st1 : State := { st0 with grids := [(0, some grid0)] }

/-- `st0` with k registers. -/
def withK (ks : List (Nat × Nat)) : State :=
  withWarp fun w => { w with k := ks.foldl (fun t e => t.put 0 e.1 (BitVec.ofNat 32 e.2)) [] }

/-- The k register `d` after an instruction over k registers. -/
def kAfter (ks : List (Nat × Nat)) (i : Instr) (d : Nat) : Word := kOf (after i (withK ks)) d

theorem test_hyp_ctx : st0.ctx? = some c0 ∧ sup0.ctx? = some cs ∧ c0.executes st0 hd = true ∧ c0.group ≠ 0 := by decide +kernel

theorem test_hyp_alu_word : st0.aluReady c0 hd (.v 1) false [(.v 2, 1, 1), (.u 4, 1, 2), (.v 3, 1, 3)] :=
  aluReady_of_readyB (by decide)

theorem test_hyp_alu_pair : st0.aluReady c0 hd (.v 2) true [(.v 2, 2, 0), (.v 4, 2, 1), (.u 4, 2, 2), (.imm 1, 1, 3)] :=
  aluReady_of_readyB (by decide)

theorem test_hyp_alu_predicate : st0.aluReady c0 hd (.sp 0x5a) false [(.v 2, 2, 1), (.imm 0x80, 2, 2)] :=
  aluReady_of_readyB (by decide)

theorem test_hyp_lanes : st0.namesFree c0 Mask.all false (namesOf (.v 2) 1 1) ∧ st0.namesFree c0 Mask.all true (namesOf (.v 1) 1 0) :=
  ⟨namesFree_of_freeB (by decide), namesFree_of_freeB (by decide)⟩

theorem test_hyp_slots :
    (st1.slotOf c0 (fsNo (.sp 0x28))).format.isSome = true ∧ (st1.slotOf c0 (fsNo (.sp 0x28))).elem ≠ 3 ∧
      (st1.slotOf c0 (fsNo (.sp 0x28))).scale = 1 ∧ (st1.slotOf c0 (fsNo (.sp 0x28))).container < 32 ∧
      3 < 32 / (st1.slotOf c0 (fsNo (.sp 0x28))).container ∧ st1.ctx? = some c0 := by decide +kernel

theorem test_hyp_planes : st0.nameId c0 1 ≠ st0.nameId c0 2 ∧
    st0.namesFree c0 Mask.all true (namesOf (.v 1) 1 0 ++ namesOf (.v 2) 1 2) :=
  ⟨by decide, namesFree_of_freeB (by decide)⟩

/-- IADD wraps; the sources of R202 and R204: IMULH.s32 of −2 and 3 gives −1, IMAX.n8 of 0x80 and 0x7f 0x80 and IMAX.s8 0x7f. -/
theorem test_integer_pairs :
    kAfter [(4, 0xffffffff)] (.iadd hd (bA (.u 5) (.u 4) (.imm 1))) 5 = 0 ∧
    kAfter [(4, 0xfffffffe), (6, 3)] (.imulh hd (bA (.u 5) (.u 4) (.u 6))) 5 = 0xffffffff ∧
    kAfter [(4, 0xffffffff), (6, 2)] (.imulh hd (bA (.u 5) (.u 4) (.u 6) z 1)) 5 = 1 ∧
    kAfter [(4, 0x80), (6, 0x7f)] (.imax hd (bA (.u 5) (.u 4) (.u 6) z 7)) 5 = 0x80 ∧
    kAfter [(4, 0x80), (6, 0x7f)] (.imax hd (bA (.u 5) (.u 4) (.u 6) z 6)) 5 = 0x7f ∧
    kAfter [(4, 3), (6, 5)] (.isub hd (bA (.u 5) (.u 4) (.u 6) z 5)) 5 = 0xfffe ∧
    kAfter [(4, 0x10000), (6, 0x10000)] (.imul hd (bA (.u 8) (.u 4) (.u 6) z 3)) 9 = 1 ∧
    kAfter [(4, 0xffffffff), (6, 5)] (.imin hd (bA (.u 5) (.u 4) (.u 6))) 5 = 0xffffffff ∧
    kAfter [(4, 7), (5, 6), (6, 0xffffffff)] (.imad hd (bA (.u 8) (.u 4) (.u 5) (.u 6))) 8 = 41 := by decide +kernel

/-- The corners of R204. -/
theorem test_division :
    kAfter [(4, 0xfffffff9), (6, 2)] (.idiv hd (bA (.u 5) (.u 4) (.u 6))) 5 = 0xfffffffd ∧
    kAfter [(4, 0xfffffff9), (6, 2)] (.irem hd (bA (.u 5) (.u 4) (.u 6))) 5 = 0xffffffff ∧
    kAfter [(4, 9)] (.idiv hd (bA (.u 5) (.u 4) (.u 6))) 5 = 0xffffffff ∧
    kAfter [(4, 9)] (.irem hd (bA (.u 5) (.u 4) (.u 6) z 1)) 5 = 9 ∧
    kAfter [(4, 0x80000000), (6, 0xffffffff)] (.idiv hd (bA (.u 5) (.u 4) (.u 6))) 5 = 0x80000000 := by decide +kernel

/-- One source (R205), and shifts by the width or more (R207). -/
theorem test_bits :
    kAfter [(4, 0x80000000)] (.iabs hd (bA (.u 5) (.u 4))) 5 = 0x80000000 ∧
    kAfter [(4, 0xf0)] (.popc hd (bA (.u 5) (.u 4) z z 1)) 5 = 4 ∧
    kAfter [(5, 1)] (.clz hd (bA (.u 6) (.u 4) z z 3)) 6 = 31 ∧
    kAfter [(4, 1)] (.brev hd (bA (.u 5) (.u 4) z z 1)) 5 = 0x80000000 ∧
    kAfter [(4, 5)] (.shl hd (bA (.u 5) (.u 4) (.imm 32) z 1)) 5 = 0 ∧
    kAfter [(4, 5), (5, 9)] (.shr hd (bA (.u 6) (.u 4) (.imm 32) z 3)) 6 = 9 ∧
    kAfter [(4, 0x80000000)] (.sar hd (bA (.u 5) (.u 4) (.imm 0xff))) 5 = 0xffffffff ∧
    lane (after (.mov hd (bA (.v 4) (.sp 0xc0) z z 1)) st0) 4 31 = 31 := by decide +kernel

/-- The worked examples of R206, R208, R209 and R210. -/
theorem test_fields :
    kAfter [(4, 0xc), (5, 0xa), (6, 0xff)] (.ltab hd (bA (.u 6) (.u 4) (.u 5) (.imm 0x96) 1)) 6 = 0xf9 ∧
    kAfter [(4, 0x11223344), (5, 0xaabbccdd)] (.catsh hd (bA (.u 6) (.u 4) (.u 5) (.imm 8) 1)) 6 = 0xdd112233 ∧
    kAfter [(4, 0x11223344), (5, 0xaabbccdd)] (.catsh hd (bA (.u 6) (.u 4) (.u 5) (.imm 40) 2)) 6 = 0x223344aa ∧
    kAfter [(4, 0xf5a0)] (.bfe hd (bA (.u 6) (.u 4) (.imm 8) (.imm 4) 1)) 6 = 5 ∧
    kAfter [(4, 0xf5a0)] (.bfe hd (bA (.u 6) (.u 4) (.imm 12) (.imm 4))) 6 = 0xffffffff ∧
    kAfter [(4, 3), (6, 0xffffffff)] (.bfi hd (bA (.u 6) (.u 4) (.imm 8) (.imm 4) 1)) 6 = 0xfffff3ff ∧
    kAfter [(5, 0x11223344), (1, 0x977)] (.bytep hd (bA (.u 6) (.u 4) (.u 5) (.u 1) 1)) 6 = 0x44332211 := by decide +kernel

/-- Comparison, selection, constants (R211 to R214). -/
theorem test_compare :
    ((after (.iset hd (bA (.sp 0x5a) (.v 1) (.v 2) (.imm 2))) st0).warp (.user 1 0)).p.get 0 2 = Mask.all ∧
    kAfter [(4, 0xffffffff)] (.iset hd (bA (.u 6) (.u 4) (.imm 0) (.imm 2))) 6 = 0xffffffff ∧
    kAfter [(4, 0xffffffff)] (.iset hd (bA (.u 6) (.u 4) (.imm 0) (.imm 2) 1)) 6 = 0 ∧
    kAfter [(4, 1), (5, 2)] (.sel hd (bA (.u 6) (.u 4) (.u 5) (.sp 0x60) 1)) 6 = 2 ∧
    kAfter [] (.movi hd ⟨.u 2, 0xfffffffb, true⟩) 3 = 0xffffffff ∧
    answers (.rds hd (bA (.u 4) z (.imm 0) z 3)) st0 = true := by decide +kernel

/-- Lanes (R216 to R220): off past the end keeps the lane; LRED.add.scan of l + 1 gives (l + 1)(l + 2) / 2. -/
theorem test_lanes :
    let s := after (.iadd hd (bA (.v 2) (.sp 0xc0) (.imm 1))) st0
    lane s 2 30 = 31 ∧
    lane (after (.lxch hd (bA (.v 1) (.v 2) (.imm 1) z 1)) s) 1 31 = 32 ∧
    lane (after (.lxch hd (bA (.v 1) (.v 2) (.imm 1) z 2)) s) 1 31 = 1 ∧
    lane (after (.lred hd (bA (.v 1) (.v 2) (.imm 1))) s) 1 9 = 55 ∧
    kOf (after (.lred hd (bA (.u 4) (.v 2) z z 4)) s) 4 = 32 ∧
    kOf (after (.rfal hd (bA (.u 5) (.v 2) z z 1)) s) 5 = 1 ∧
    lane (after (.leqm hd (bA (.v 1) (.v 2) z z 1)) s) 1 4 = 0x10 ∧
    kOf (after (.pmsk hd (bA (.u 6) (.sp 0x5f))) s) 6 = 0xffffffff ∧
    ((after (.pagr hd (bA (.sp 0x60) (.sp 0x59) z z 1)) s).warp (.user 1 0)).kpGet 0 = false := by decide +kernel

/-- A lane of v1 after a float instruction whose sources are k registers. -/
def fAfter (ks : List (Nat × Nat)) (i : Instr) : Word := lane (after i (withK ks)) 1 0

/-- FP32 (R224 to R227): 1 + 2^-24 rounds to even and up under RU; −0 is less than +0; 0 × ∞ + 1 is NaN; 0x00000001 is
subnormal; FRND.rd of −0.5 is −1. -/
theorem test_float :
    fAfter [(4, 0x3f800000), (5, 0x33800000)] (.fadd hd (bA (.v 1) (.u 4) (.u 5))) = 0x3f800000 ∧
    fAfter [(4, 0x3f800000), (5, 0x33800000)] (.fadd hd (bA (.v 1) (.u 4) (.u 5) z 3)) = 0x3f800001 ∧
    fAfter [(4, 0x40400000), (5, 0xc0000000)] (.fmul hd (bA (.v 1) (.u 4) (.u 5))) = 0xc0c00000 ∧
    fAfter [(4, 0), (5, 0x7f800000), (6, 0x3f800000)] (.ffma hd (bA (.v 1) (.u 4) (.u 5) (.u 6))) = 0x7fc00000 ∧
    fAfter [(4, 0), (5, 0x80000000)] (.fmin hd (bA (.v 1) (.u 4) (.u 5))) = 0x80000000 ∧
    fAfter [(4, 0x7fc00001), (5, 0x80000000)] (.fmax hd (bA (.v 1) (.u 4) (.u 5))) = 0x80000000 ∧
    fAfter [(4, 0x7fc00001), (5, 0)] (.fmax hd (bA (.v 1) (.u 4) (.u 5) z 1)) = 0x7fc00000 ∧
    fAfter [(4, 1)] (.fclass hd (bA (.v 1) (.u 4))) = 0x20 ∧
    fAfter [(4, 0xbf000000)] (.frnd hd (bA (.v 1) (.u 4) z z 2)) = 0xbf800000 ∧
    fAfter [(4, 0xbf000000)] (.frnd hd (bA (.v 1) (.u 4) z z 1)) = 0x80000000 ∧
    fAfter [(4, 0x80000000)] (.fset hd (bA (.v 1) (.u 4) (.imm 0) (.imm 0))) = 0xffffffff ∧
    fAfter [(4, 0), (5, 0x7ff80000)] (.dset hd (bA (.v 1) (.u 4) (.u 4) (.imm 1))) = 0xffffffff := by decide +kernel

/-- The worked example of R228, its RZ form, and FP64 in pairs. -/
theorem test_packed_and_double :
    fAfter [(4, 0x50003c00), (5, 0x7bff3c00)] (.phadd hd (bA (.v 1) (.u 4) (.u 5))) = 0x7c004000 ∧
    fAfter [(4, 0x50003c00), (5, 0x7bff3c00)] (.phadd hd (bA (.v 1) (.u 4) (.u 5) z 1)) = 0x7bff4000 ∧
    fAfter [(4, 0x40003c00), (5, 0x40004000)] (.phmul hd (bA (.v 1) (.u 4) (.u 5))) = 0x44004000 ∧
    fAfter [(4, 0x3c003c00)] (.phfma hd (bA (.v 1) (.u 4) (.imm 2) (.imm 3))) = 0x45004500 ∧
    fAfter [(4, 0x3f803f80)] (.pbfma hd (bA (.v 1) (.u 4) (.imm 2) (.imm 3))) = 0x40a040a0 ∧
    lane (after (.dadd hd (bA (.v 2) (.u 4) (.imm 1))) (withK [(5, 0x3ff00000)])) 3 0 = 0x40000000 ∧
    lane (after (.dmul hd (bA (.v 2) (.u 4) (.imm 3))) (withK [(5, 0x3ff00000)])) 3 0 = 0x40080000 ∧
    lane (after (.dfma hd (bA (.v 2) (.u 4) (.imm 3) (.imm 1))) (withK [(5, 0x3ff00000)])) 3 0 = 0x40100000 := by decide +kernel

/-- Exact cases of R230 and special operands of R231. -/
theorem test_special_functions :
    fAfter [(4, 0x40000000)] (.frcp hf (bA (.v 1) (.u 4))) = 0x3f000000 ∧ fAfter [(4, 0x80000000)] (.frcp hf (bA (.v 1) (.u 4))) = 0xff800000 ∧
    fAfter [(4, 0x40800000)] (.frsq hf (bA (.v 1) (.u 4))) = 0x3f000000 ∧ fAfter [(4, 0x80000000)] (.fsqrt hf (bA (.v 1) (.u 4))) = 0x80000000 ∧
    fAfter [(4, 0x43000000)] (.fex2 hf (bA (.v 1) (.u 4))) = 0x7f800000 ∧ fAfter [(4, 0x41000000)] (.flg2 hf (bA (.v 1) (.u 4))) = 0x40400000 ∧
    fAfter [(4, 0x3f000000)] (.fsin hf (bA (.v 1) (.u 4))) = 0x3f800000 ∧ fAfter [(4, 0x3f000000)] (.fcos hf (bA (.v 1) (.u 4))) = 0 ∧
    fAfter [(4, 0xff800000)] (.ftanh hf (bA (.v 1) (.u 4))) = 0xbf800000 := by decide +kernel

/-- Conversions: clamping and NaN (R233), a packed pair (R234), binary8p4 (R91, R235), a scale of 2 (R237), a plane pair
(R238). -/
theorem test_conversions :
    fAfter [(4, 0x4f800000)] (.cvt hd (bA (.v 1) (.u 4) (.imm 0x80))) = 0x7fffffff ∧
    fAfter [(4, 0x7fc00000)] (.cvt hd (bA (.v 1) (.u 4) (.imm 0x80))) = 0 ∧
    fAfter [(4, 0x3f800000), (5, 0x40000000)] (.cvtw hd (bA (.v 1) (.u 4) (.u 5) z 4)) = 0x40003f80 ∧
    (let s := { withK [(4, 0x3f800000), (5, 128)] with grids := st1.grids };
      lane (after (.cvts hd (bA (.v 1) (.u 4) (.sp 0x28))) s) 1 0 = 0x40 ∧
      lane (after (.bscale hd (bA (.v 1) (.u 4) (.u 5) (.sp 0x28))) s) 1 0 = 0x40000000 ∧
      lane (after (.cvtn hd (bA (.v 1) (.v 2) (.sp 0x28) (.imm 0) 1)) s) 1 0 = 0x3b000000) ∧
    (let s := after (.movi hd ⟨.v 3, 0x2d00, false⟩) st0;
     let t := after (.plsplit hd (bA (.v 1) (.v 3) (.v 2) (.imm 0))) s;
      lane t 1 0 / 2 ^ 20 % 16 = 0xb ∧ lane t 2 0 / 2 ^ 10 % 4 = 1 ∧ lane (after (.pljoin hd (bA (.v 4) (.v 1) (.v 2) (.imm 0))) t) 4 1 = 0x2d00) := by
  decide +kernel

/-! ### Control flow, meetings, traps and the rename map -/

/-- The warp at the last instruction of its clause. -/
def last0 : State := { st0 with cur := .warp (.user 1 0) Mask.all 0 shortHeader 0 }

def cl : Ctx := { c0 with hdr := shortHeader }

/-- Names 254 and 255 on rows 6 and 7. -/
def linked : State := { (withWarp fun w => { w with map := w.map ++ [(254, some 6), (255, some 7)] }) with cur := last0.cur }

theorem test_hyp_transfer : linked.ctx? = some cl ∧ cl.isLast = true ∧ cl.guardMarks linked hd = 0 ∧
    linked.namesFree cl (cl.active linked hd) true [(254, 0), (255, 0)] ∧
    linked.namesFree cl (cl.active linked hd) false (namesOf (.u 4) 2 1) ∧
    (∀ l < 32, (linked.opnd cl (.u 4) true l).2 = false) ∧ (∀ l < 32, (linked.condition cl ⟨6, 1, true, 2⟩ l).2 = false) :=
  ⟨by decide +kernel, by decide +kernel, by decide +kernel, namesFree_of_freeB (by decide +kernel), namesFree_of_freeB (by decide +kernel),
    by decide +kernel, by decide +kernel⟩

/-- BRA 6 words on; BRC whose condition fails falls through; CALL writes its link pair; CALLX and BRX jump to k4:k5. -/
theorem test_transfers :
    (thread (after (.bra hd ⟨6, 0, false, 0⟩) last0)).pc = 0x30 ∧ (thread (after (.bra hd ⟨6, 0, false, 0⟩) last0)).clause = none ∧
    (thread (after (.brc hd ⟨6, 1, false, 2⟩) last0)).pc = 0x10 ∧ (thread (after (.brc hd ⟨6, 1, true, 2⟩) last0)).pc = 0x30 ∧
    (thread (after (.call hd ⟨6, 0, false, 0⟩) linked)).pc = 0x30 ∧ lane (after (.call hd ⟨6, 0, false, 0⟩) linked) 254 3 = 0x10 ∧
    (thread (after (.brx hd (bA z (.u 4))) last0)).pc = 7 ∧ (thread (after (.callx hd (bA (.v 4) (.u 4))) last0)).pc = 7 ∧
    lane (after (.callx hd (bA (.v 4) (.u 4))) last0) 4 0 = 0x10 ∧
    (thread (after (.ret hd (bA z (.u 4))) last0)).pc = 7 := by decide +kernel

/-- NOP moves on, SLEEP 16 sleeps to cycle 116, EXIT under p7 ends the warp. -/
theorem test_progress :
    (thread (after (.nop hd) st0)).pc = 16 ∧ (thread (after (.sleep hd 16) st0)).st = .asleep (.cycle 116) ∧
    (thread (after (.sleep hd 16) st0)).pc = 16 ∧ ((after (.yield hd) st0).warp (.user 1 0)).yielding = Mask.all ∧
    (thread (after (.exit hd) st0)).exited = true ∧ ((after (.exit hd) st0).warp (.user 1 0)).map = [] := by decide +kernel

theorem test_hyp_exit : (st0.warp c0.ref).live ≠ 0 ∧ (∀ l < 32, (st0.lane c0 l).exited = false → (c0.active st0 hd).has l = true) := by
  decide +kernel

/-- Ten names on rows of their own, with five valid meeting words of depth 1. -/
def metState : State :=
  { (withWarp fun w => { w with map := (List.range 10).map fun i => (10 + i, some i) }) with
    cores := [(0, { Core.zero with rows := [(0, ⟨List.replicate 32 0x40000009, 0, 1, 1⟩)] })] }

theorem test_hyp_meeting :
    (∀ l < 32, (st0.lane c0 l).stack.length ≠ 4) ∧
    metState.namesFree c0 Mask.all true (namesOf (.v 10) 10 0) ∧
    (∀ i < 10, ∀ j < 10, i ≠ j → metState.nameId c0 (10 + i) ≠ metState.nameId c0 (10 + j)) ∧
    (∀ l < 32, ∀ i < 5, let word := fun (i : Nat) => (metState.opnd c0 (.v (BitVec.ofNat 8 (10 + 2 * i))) true l).1
      meetValid (meetDepth (word 0)) i (word i) = true) :=
  ⟨by decide +kernel, namesFree_of_freeB (by decide +kernel), by decide +kernel, by decide +kernel⟩

/-- SETM pushes the meeting address, POPM takes it back. -/
theorem test_meeting :
    (thread (after (.setmPush hd 9) st0)).m = some 0x48 ∧ (thread (after (.setmPush hd 9) st0)).stack = [none] ∧
    (thread (after (.popm hd) (after (.setmPush hd 9) st0))).m = none ∧
    answers (.getm hd (.v 10) true) metState = true ∧ answers (.setmRestore hd (.v 10)) metState = true := by decide +kernel

/-- TRAP 0x12 and BKPT 1: cause, PC, resume point and VALUE. -/
theorem test_user_traps :
    causeOf (after (.trap hd 0x12) st0) = some 0x006 ∧ causeOf (after (.bkpt hd 1) st0) = some 0x007 ∧
    (((after (.trap hd 0x12) st0).warp (.user 1 0)).trap.map fun r => (r.pc, r.resume, r.info.extractLsb' 32 32)) = some (8, 16, 0x12) := by
  decide +kernel

theorem test_hyp_user_traps : c0.active st0 hd ≠ 0 ∧ st0.inCopy c0 = false ∧ c0.active st0 ⟨false, 2, 0, 0⟩ = 0 := by decide +kernel

/-- The number of references of a row. -/
def refsOf (s : State) (r : Nat) : Nat := (s.getRow (s.rowId (.user 1 0) r)).ref

/-- `st0` whose row 0 has 15 references. -/
def fullRef : State := withCore fun k => { k with rows := k.rows.put .zero 0 { (k.rows.get .zero 0) with ref := 15 } }

/-- `st0` with no free row. -/
def noRow : State := withWg fun g => { g with pool := [0, 1, 2, 3, 4, 5] }

theorem test_hyp_map :
    (st0.warp c0.ref).nameRow 7 = none ∧ 6 ∈ st0.freeRowsOf c0.ref ∧ (∀ r ∈ st0.freeRowsOf c0.ref, 6 ≤ r) ∧
    (st0.warp c0.ref).nameRow 1 = some 0 ∧ (st0.getRow (st0.rowId c0.ref 0)).ref ≠ 15 ∧
    noRow.freeRowsOf c0.ref = [] ∧ (fullRef.getRow (fullRef.rowId c0.ref 0)).ref = 15 ∧ noRow.ctx? = some c0 ∧ fullRef.ctx? = some c0 := by
  decide +kernel

/-- MAP takes row 6; UNMAP frees row 0; ALIAS counts a second reference; SWAPN exchanges; MAPQ gives V, REF 1 and the row. -/
theorem test_map :
    ((after (.map hd (bA (.v 7) z)) st0).warp (.user 1 0)).nameRow 7 = some 6 ∧ refsOf (after (.map hd (bA (.v 7) z)) st0) 6 = 1 ∧
    ((after (.unmap hd (bA (.v 1) z)) st0).warp (.user 1 0)).nameRow 1 = none ∧ refsOf (after (.unmap hd (bA (.v 1) z)) st0) 0 = 0 ∧
    refsOf (after (.aliasName hd (bA (.v 7) (.v 1))) st0) 0 = 2 ∧ ((after (.swapn hd (bA (.v 1) (.v 2))) st0).warp (.user 1 0)).nameRow 1 = some 1 ∧
    kOf (after (.mapq hd (bA (.u 0) (.v 3))) st0) 0 = 0x81000002 ∧ kOf (after (.mapq hd (bA (.u 4) (.v 9))) st0) 4 = 0 := by decide +kernel

/-- The faults of the map. -/
theorem test_map_faults :
    causeOf (after (.map hd (bA (.v 1) z)) st0) = some 0x041 ∧ causeOf (after (.map hd (bA (.v 7) z)) noRow) = some 0x042 ∧
    causeOf (after (.unmap hd (bA (.v 7) z)) st0) = some 0x040 ∧ causeOf (after (.aliasName hd (bA (.v 7) (.v 8))) st0) = some 0x040 ∧
    causeOf (after (.aliasName hd (bA (.v 7) (.v 1))) fullRef) = some 0x043 := by decide +kernel

/-- The GIVE of v2 through slot h0, once its release can register: the operation has left the buffer. -/
def given : State :=
  let s := after (.give hd (bA z (.v 2) (.sp 0x80))) st0
  s.modCore 0 fun k => { k with ops := k.ops.map fun o => { o with left := true } }

/-- The row parked in slot h0. -/
def parked : State := { after (.giveRowPark 0 0) given with cur := st0.cur }

theorem test_hyp_handoff :
    wg0.slots.get HandOff.zero (slotNo (.sp 0x80)) = HandOff.zero ∧ st0.wg? 1 = some wg0 ∧
    ((given.registers? 0 0).map fun o => (o.eff, o.party)) = some (.give 0 1, .warp 1 0) ∧ (given.wg? 1).isSome = true ∧
    ((parked.wg? 1).map fun g => g.slots.get HandOff.zero 0) = some ⟨.occupied 1 [(.warp 1 0, 1)], [], []⟩ ∧
    (parked.warp c0.ref).nameRow 9 = none := by
  decide +kernel

theorem test_handoff : ((after (.take hd (bA (.v 9) z (.sp 0x80))) parked).warp (.user 1 0)).nameRow 9 = some 1 := by decide +kernel

/-- The code page at address 0 of context 1, on frame 33, with a clause of two NOPs. -/
def code0 : State :=
  let s := st0.modCore 0 fun k => { k with tlb := [page0, ⟨1, 0, false, 0x000000210000007f, 0⟩] }
  s.writePa 0 0 (33 * 65536) (leBytes 8 header.toNat ++ leBytes 8 0x0438000000000000 ++ leBytes 8 0x0438000000000000)

/-- Its warp with these threads, in no clause. -/
def between (t : Nat → Thread) : State := code0.modWarp (.user 1 0) fun w => { w with threads := (List.range 32).map t, running := 0 }

def atBoundary : State := between fun _ => ⟨0, none, none, [], .ready, 0, false, 0, 0⟩

/-- Lane 0 waits at 0 for lane 1, which is on its way there. -/
def atMeeting : State :=
  between fun l => if l = 0 then ⟨0, none, some 0, [], .ready, 0, false, 0, 0⟩ else ⟨0x40, none, some 0, [], .ready, 0, false, 0, 0⟩

def atFlags : State := between fun _ => ⟨0, none, none, [], .flagWait, 0, false, 0, 0⟩

/-- Whether the header at a lane's PC can be read, and what it is. -/
def headerAt (s : State) (l : Nat) : Option DWord :=
  match s.header 0 1 (warpClass (.user 1 0)) ((s.warp (.user 1 0)).thread l).pc with | .ok (h, _) => some h | .error _ => none

theorem test_hyp_boundary :
    [atBoundary, atMeeting].all (fun s => s.mayIssue (.user 1 0) && (s.warp (.user 1 0)).inClause == 0 &&
      !(s.warp (.user 1 0)).holding && ((s.warp (.user 1 0)).thread 0).st == .ready && ((s.warp (.user 1 0)).thread 0).clause == none &&
      (s.warp (.user 1 0)).deferred == [] && headerAt s 0 == some header) = true ∧
    (∃ k < 32, ((atMeeting.warp (.user 1 0)).thread k).exited = false ∧ ((atMeeting.warp (.user 1 0)).thread k).m = some 0 ∧
      ((atMeeting.warp (.user 1 0)).thread k).pc ≠ 0) :=
  ⟨by decide +kernel, ⟨1, by decide, by decide +kernel⟩⟩

theorem test_hyp_entry :
    atFlags.mayIssue (.user 1 0) = true ∧ (atFlags.warp (.user 1 0)).inClause = 0 ∧ (atFlags.warp (.user 1 0)).holding = false ∧ atFlags.qretOf (.user 1 0) = none ∧
    ((atFlags.warp (.user 1 0)).thread 0).st = .flagWait ∧
    ((GroupKey.best (atFlags.readyGroups (.user 1 0))).map fun k => k.mask.has 0) = some true ∧ headerAt atFlags 0 = some header ∧
    (atFlags.warp (.user 1 0)).flagsZero header = true ∧ (atFlags.warp (.user 1 0)).flagErrorAt header = none := by decide +kernel

/-- A header is checked, and then its group enters; a thread at its meeting address is held; a bad header is 0x001. -/
theorem test_boundary :
    (thread (after (.clauseBoundary (.user 1 0) 0) atBoundary)).st = .flagWait ∧
    (thread (after (.clauseBoundary (.user 1 0) 0) atMeeting)).st = .held ∧
    (thread (after (.clauseWaitPass (.user 1 0) 0) atFlags)).clause = some (0, header) ∧
    (thread (after (.clauseWaitPass (.user 1 0) 0) atFlags)).pc = 8 ∧
    causeOf (after (.clauseBoundary (.user 1 0) 0) (between fun _ => ⟨8, none, none, [], .ready, 0, false, 0, 0⟩)) = some 0x001 := by decide +kernel

/-- A warp whose lane 0 sleeps until cycle 90, with a result that is due. -/
def due : State := withWarp fun w =>
  { w with
    threads := w.threads.set 0 ⟨8, some (0, header), none, [], .asleep (.cycle 90), 0, false, 0, 0⟩
    inflight := [⟨0, 1, none, [.k 4], some 95, false, false⟩]
    cf := [(0, 1)] }

theorem test_hyp_warp_events :
    ((atFlags.warp (.user 1 0)).thread 0).promoted = false ∧ ((atFlags.warp (.user 1 0)).thread 0).waitsFrom + 64 ≤ atFlags.cycleOf (.user 1 0) ∧
    st0.isReady (.user 1 0) = true ∧ warp0.starved = false ∧ warp0.readySince + 64 ≤ st0.cycleOf (.user 1 0) ∧
    ((due.warp (.user 1 0)).thread 0).st = .asleep (.cycle 90) ∧ 90 ≤ due.cycleOf (.user 1 0) ∧
    (due.warp (.user 1 0)).inflight.find? (fun g => g.id == 0) = (due.warp (.user 1 0)).inflight.head? ∧
    ((due.warp (.user 1 0)).inflight.map (·.readyAt)) = [some 95] ∧ 95 ≤ due.cycleOf (.user 1 0) := by decide +kernel

theorem test_warp_events :
    (thread (after (.groupWaitPromote (.user 1 0) 0) atFlags)).promoted = true ∧
    ((after (.warpStarvationPromote (.user 1 0)) st0).warp (.user 1 0)).starved = true ∧
    (thread (after (.sleepWake (.user 1 0)) due)).st = .ready ∧
    ((after (.resultWriteback (.user 1 0) 0) due).warp (.user 1 0)).inflight = [] ∧
    ((after (.resultWriteback (.user 1 0) 0) due).warp (.user 1 0)).cf.get 0 0 = 0 := by decide +kernel

/-! ### Steps -/

/-- The warp at the first NOP of its clause, which it is to issue. -/
def atNop : State := { code0 with cur := .warp (.user 1 0) Mask.all 0 0 0 }

/-- What the fetch of its word gives. -/
def fetched : Option DWord :=
  match atNop.fetch 0 1 (warpClass (.user 1 0)) 8 with | .ok (w, _) => some w | .error _ => none

theorem test_hyp_step :
    atNop.agenda = [] ∧ Lanes.low Mask.all = some 0 ∧ (thread atNop).clause = some (0, header) ∧ fetched = some 0x0438000000000000 ∧
    decodeFarale 0x0438000000000000 = some (.nop hd) ∧ (thread atNop).st = .ready ∧
    Next.legal ⟨0, header, 0x0438000000000000, some (.nop hd)⟩ 8 (.nop hd) = true ∧ (atNop.warp (.user 1 0)).hold (.nop hd) = .free ∧
    atNop.stalled (.user 1 0) = false ∧
    atNop.cycleAllows (.user 1 0) (atNop.warp (.user 1 0)) (thread atNop) ⟨0, header, 0x0438000000000000, some (.nop hd)⟩ (.nop hd) false = true ∧
    decodeFarale 0 = none := by decide +kernel

/-- The state that a step answers. -/
def stepped (s : State) : State := match step s with | .next t => t | _ => s

/-- A step runs the word at the PC; a word that is not legal traps with 0x000. -/
theorem test_step :
    (thread (stepped atNop)).pc = 16 ∧ ((stepped atNop).warp (.user 1 0)).issues = 1 ∧
    causeOf (stepped (atNop.writePa 0 0 (33 * 65536 + 8) (leBytes 8 0))) = some 0x000 := by decide +kernel

/-- Every Xfar word of the manual, placed after reset, is what the next step runs: the loader is unbound, so that a queue
instruction raises 0x100, and the others answer too. -/
theorem test_step_beryl :
    ([0x00c5850b, 0x02c5850b, 0x00c5950b, 0x02c5950b, 0x00c5a50b, 0x00c5b50b, 0x00c5c50b, 0x02c5c50b, 0x0005d50b, 0x02c5d50b, 0x0000650b,
      0x0205e50b, 0x00c5f50b, 0x02c5f50b, 0x04c5f50b, 0x06c5f50b, 0x08c5f50b, 0x0ac5f50b].all fun w =>
      match step (State.reset.withFetchWord 32 w) with | .next _ => true | _ => false) = true ∧
    ((stepped (State.reset.withFetchWord 32 0x00c5850b)).core 0).loader.trap.map (fun r => (r.cause.extractLsb' 0 10).toNat) = some 0x100 ∧
    ((stepped (State.reset.withFetchWord 32 0x0000650b)).core 0).loader.pc = 4 ∧
    ((stepped (State.reset.withFetchWord 64 0x0438000000000000)).core 0).sup.issues = 1 := by decide +kernel

theorem test_hyp_step_beryl :
    let s := State.reset.withFetchWord 32 0x0000650b
    s.agenda = [] ∧ s.cur = .beryl 0 0 ∧ (s.beryl 0 0).pc.getLsbD 0 = false ∧ (s.beryl 0 0).wordAt % 4 = 3 ∧
    decodeBeryl (BitVec.ofNat 32 (s.beryl 0 0).wordAt) = some (.ftime ⟨10, 0, 0⟩) ∧
    ((State.reset.withFetchWord 16 0x0505).beryl 0 0).wordAt % 4 ≠ 3 ∧ (decodeCompressed 0x0505).isSome = true := by decide +kernel

/-- C.ADDI x10, 1. -/
theorem test_step_compressed : ((stepped (State.reset.withFetchWord 16 0x0505)).core 0).loader.x.get 0 10 = 1 := by decide +kernel

/-- A byte written reads back; the form of memory is kept; reset. -/
theorem test_memory :
    ((State.reset.writeCell 0 5 0xab).readCell 0 5) = 0xab ∧ ((State.reset.writeCell 0 5 0xab).readCell 0 6) = 0 ∧
    ((State.reset.writeCell 0 5 0xab).writeCell 0 5 0).mem = [] ∧ Memory.wf (State.reset.writeCell 0 5 0xab).mem = true ∧
    (State.reset.isPeer 5 = false) ∧ State.reset.isPeer (0x40000000 * 65536) = true := by decide +kernel

theorem test_hyp_invariant : Memory.wf atNop.mem = true ∧ (match step atNop with | .next _ => true | _ => false) = true ∧
    Memory.wf State.reset.mem = true := by decide +kernel

/-! ### Memory -/

/-- The answer of a computation that may stop. -/
def okM {α : Type} (m : M α) : Option α := match m with | .ok x => some x | .error _ => none

/-- Format M on a2 or another register, with DATA and SZ. -/
def bM (data : Opnd) (sz : BitVec 3 := 2) (areg : BitVec 4 := 2) (off : BitVec 16 := 0) (mode : BitVec 3 := 0) (scope : BitVec 3 := 0)
    (cache mod : BitVec 2 := 0) : BodyM := ⟨data, areg, mode, off, sz, scope, cache, mod⟩

/-- `st1` with a parameter block at 0x10000, 64 bytes of private memory per thread at 0x18000, and address registers: a4 in window
1, a5 in window 4, a6 a ring of 64 bytes, a7 in window 5. -/
def stM : State :=
  let r : BitVec 2048 := launch0 ||| 0x10000#2048 <<< 192 ||| 0x18000#2048 <<< 256 ||| 256#2048 <<< 544 ||| 64#2048 <<< 896
  { (withWarp fun w => { w with
      a := [(2, areg 0x10000 0x10000), (3, areg 0xffc0000000000000 0x1000), (4, areg 0xffc4000000000000 0x1000),
        (5, areg 0xffd0000000000000 0x100), (6, { areg 0x10000 0x100 with modlen := 64 }), (7, areg 0xffd4000000000000 64)] }) with
    grids := [(0, some { grid0 with launch := r })] }

/-- A load's checks pass in `stM`. -/
def checksB (x : Acces) (windows : Option Nat → Bool) (b : BodyM) (s : State := stM) : Bool :=
  (okM (checkAccess s c0 x windows b.data.uniformData (accessLanes s c0 hd b.data.uniformData))).isSome

theorem test_hyp_access :
    checksB (bodyAccess (bM (.v 1)) .load) (· != some 4) (bM (.v 1)) = true ∧
    checksB (bodyAccess (bM (.v 1) 2 6 0xffff 2) .load) (· != some 4) (bM (.v 1)) = true ∧
    checksB (bodyAccess (bM (.v 1) 2 3) .load) (· == some 0) (bM (.v 1)) = true ∧
    checksB (bodyAccess (bM (.v 1) 2 4) .load) (· == some 1) (bM (.v 1)) = true ∧
    checksB (bodyAccess (bM (.u 4) 2 5) .load) (· == some 4) (bM (.u 4)) = true ∧
    checksB (bodyAccess (bM (.imm 3) 1) .store) (· != some 2) (bM (.imm 3)) = true ∧
    checksB (bodyAccess (bM (.v 2) 3) .atomic) (·.isNone) (bM (.v 2)) = true ∧
    checksB (bodyAccess (bM (.v 1) 2 3) .atomic) (fun w => w == some 0 || w == some 1) (bM (.v 1)) = true ∧
    stM.namesFree c0 (c0.active stM hd) true (namesOf (.v 2) 2 4) ∧ stM.namesFree c0 (c0.active stM hd) false (namesOf (.v 2) 2 4) ∧
    stM.clean c0 hd (bM (.v 1)) ∧ (∀ l ∈ accessLanes stM c0 hd false, (stM.dataBytes c0 (.v 2) 2 8 l).2 = false) ∧ stM.ctx? = some c0 :=
  ⟨by decide +kernel, by decide +kernel, by decide +kernel, by decide +kernel, by decide +kernel, by decide +kernel, by decide +kernel,
    by decide +kernel, namesFree_of_freeB (by decide +kernel), namesFree_of_freeB (by decide +kernel), ⟨by decide +kernel, by decide +kernel⟩,
    by decide +kernel, by decide +kernel⟩

/-- a2 without a permission, or with its bounds cut. -/
def cut (f : AReg → AReg) : State := stM.modWarp (.user 1 0) fun w => w.aSet 2 (f (w.aGet 2))

/-- Each trap of R126 in its own state: no ring (0x087), no permission (0x085), lane 31 past LIMIT (0x084), misaligned (0x086). -/
theorem test_access_traps :
    causeOf (after (.ld hd (bM (.v 1) 2 2 0 2)) stM) = some 0x087 ∧
    causeOf (after (.ld hd (bM (.v 1))) (cut fun a => { a with r := false })) = some 0x085 ∧
    causeOf (after (.st hd (bM (.v 1))) (cut fun a => { a with w := false })) = some 0x085 ∧
    causeOf (after (.ld hd (bM (.v 1))) (cut fun a => { a with limit := 0x1007f })) = some 0x084 ∧
    (((after (.ld hd (bM (.v 1))) (cut fun a => { a with limit := 0x1007f })).warp (.user 1 0)).trap.map fun r => (r.addr, r.lanes)) =
      some (0x1007c, lanesWord Mask.all (some 31)) ∧
    causeOf (after (.ld hd (bM (.v 1))) (cut fun a => { a with ptr := 0x10002, base := 0x10002 })) = some 0x086 ∧
    causeOf (after (.lds hd (bM (.v 1))) stM) = some 0x088 ∧
    causeOf (after (.ld hd (bM (.v 1))) (cut fun a => { a with ptr := 0x100000000000000, base := 0, limit := 0xffffffffffffffff })) = some 0x080 ∧
    causeOf (after (.ld hd (bM (.v 1))) (cut fun a => { a with ptr := 0x30000, base := 0, limit := 0xffffffff })) = some 0x0aa := by
  decide +kernel

theorem test_hyp_access_traps :
    (((stM.warp c0.ref).aGet 2).inRing = false) ∧ (((stM.warp c0.ref).aGet 6).inRing = true) ∧ stM.inCopy c0 = false ∧
    (∀ e ∈ namesOf (.v 1) 1 4, ((stM.warp c0.ref).nameRow e.1).isSome = true) ∧
    (((cut fun a => { a with limit := 0x1007f }).warp c0.ref).aGet 2).covers (0x1007c) 4 = false ∧
    (∀ k < 31, ((((cut fun a => { a with limit := 0x1007f }).warp c0.ref).aGet 2).covers (0x10000 + 4 * k) 4) = true) ∧
    (∀ l < 32, ((((cut fun a => { a with ptr := 0x10002, base := 0x10002 }).warp c0.ref).aGet 2).covers (0x10002 + 4 * l) 4) = true) := by
  decide +kernel

/-- The operations of core 0 after an instruction. -/
def opsOf (s : State) : List MemOp := (s.core 0).ops

/-- The operations have left the buffer. -/
def leave (s : State) : State := s.modCore 0 fun k => { k with ops := k.ops.map fun o => { o with left := true } }

/-- Each lane in turn. -/
def eachLane (f : Nat → Instr) (s : State) : State := (List.range 32).foldl (fun s l => after (f l) s) s

/-- A store of v4 (4 in every lane) to 0x10000, performed in every lane. -/
def stored : State := eachLane (.storePerformed 0 0) (leave (after (.st hf (bM (.v 4))) stM))

/-- A byte of frame 32. -/
def byte0 (s : State) (i : Nat) : Byte := s.readCell 0 (cellOf 0 (32 * 65536 + i))

/-- What issue leaves: one operation, the flag up, PTR moved by a mode with an update. -/
theorem test_issue :
    (opsOf (after (.ld hf (bM (.v 1))) stM)).length = 1 ∧ ((after (.ld hf (bM (.v 1))) stM).warp (.user 1 0)).cf.get 0 0 = 1 ∧
    (((after (.ld hf (bM (.v 1) 2 2 1 1)) stM).warp (.user 1 0)).aGet 2).ptr = 0x10004 ∧
    (((after (.ld hf (bM (.v 1) 2 6 0xffff 2)) stM).warp (.user 1 0)).aGet 6).ptr = 0x1003c ∧
    (opsOf (after (.st hf (bM (.v 1))) stM)).map (fun o => (o.left, o.lanes.length)) = [(false, 32)] ∧
    (opsOf (after (.cas hf (bM (.v 2) 3)) stM)).length = 1 ∧ (opsOf (after (.atoms hf (bM (.v 1) 2 3)) stM)).length = 1 ∧
    (opsOf (after (.red hf (bM (.v 1))) stM)).length = 1 ∧ (opsOf (after (.ldc hf (bM (.u 4) 2 5)) stM)).length = 1 ∧
    (opsOf (after (.sts hf (bM (.v 1) 2 3)) stM)).length = 1 ∧ (opsOf (after (.stt hf (bM (.v 1) 2 4)) stM)).length = 1 ∧
    (opsOf (after (.ldt hf (bM (.v 1) 2 4)) stM)).length = 1 ∧ (opsOf (after (.prf hd (bM (.v 1))) stM)) = [] := by decide +kernel

theorem test_hyp_buffer :
    let s := after (.st hf (bM (.v 4))) stM
    ((s.core 0).ops.find? fun o => o.quarter == 0 && !o.left).isSome = true ∧
    ((s.modCore 0 fun k => { k with cycle := 164 }).core 0).cycle = 164 ∧ (opsOf s).map (·.born) = [100] ∧
    (opsOf (after (.releaseBufferLeave 0 0) (s.modCore 0 fun k => { k with cycle := 164 }))).map (·.left) = [true] := by decide +kernel

/-- The checks of the operation kill no thread. -/
def spares (s : State) (id : Nat) : Bool :=
  ((s.op? 0 id).map fun o => ((o.ctx_ 0).map fun c => (s.warp c.ref).doomedBy o.id (fun _ => true) == 0).getD true) == some true

theorem test_hyp_store :
    let s := leave (after (.st hf (bM (.v 4))) stM)
    spares s 0 = true ∧
    ((s.op? 0 0).map fun o => (o.eff.isStore, (o.lanes.find? fun l => l.lane == 3).map (s.mayPerform 0 o), s.mute o,
      match s.commitOp 0 o with | .ok _ => true | .error _ => false)) = some (true, some true, false, true) ∧
    (∀ m < 3, ∀ o, s.op? 0 0 = some o → ∀ k ∈ o.lanes, k.lane = m → ∀ l ∈ o.lanes, l.lane = 3 → k.meets l = false) := by decide +kernel

/-- Stored bytes are little-endian and in place; the flag is down when the last lane is performed. -/
theorem test_store :
    byte0 stored 0 = 4 ∧ byte0 stored 1 = 0 ∧ byte0 stored 124 = 4 ∧ byte0 stored 128 = 0 ∧ opsOf stored = [] ∧
    (stored.warp (.user 1 0)).cf.get 0 0 = 0 := by decide +kernel

/-- A load of the row back into v1. -/
def loading : State := { after (.ld hf (bM (.v 1))) { stored with cur := st0.cur } with agenda := [] }

/-- A load of the row back into v1, which every lane has read. -/
def readAll : State := (List.range 32).foldl (fun s l => (s.loadPerform 0 1 l).getD s) loading

/-- A uniform load of the first word into k4, which has read. -/
def readUniform : State :=
  let s := { after (.ld hf (bM (.u 4))) { stored with cur := st0.cur } with agenda := [] }
  (s.loadPerform 0 1 0).getD s

theorem test_hyp_load :
    ((readAll.op? 0 1).bind fun o => (o.ctx_ 0).map fun c =>
      (o.eff == .load (.v 1) 4 false 0 && o.lanes.all (fun l => o.done.contains l.lane), (readAll.warp? c.ref).isSome,
        readAll.nameId c 1 == some (readAll.rowId c.ref (o.rows.getD 0 0)))) = some (true, true, true) ∧
    ((readUniform.op? 0 1).map fun o => (o.eff == .load (.u 4) 4 false 0, o.lanes.all (fun l => o.done.contains l.lane), o.got.map (·.1))) =
      some (true, true, [0]) := by decide +kernel

theorem test_load :
    lane (after (.loadComplete 0 1) readAll) 1 0 = 4 ∧ lane (after (.loadComplete 0 1) readAll) 1 31 = 4 ∧
    kOf (after (.loadComplete 0 1) readUniform) 4 = 4 ∧ lane loading 1 0 = 1 ∧ opsOf (after (.loadComplete 0 1) readAll) = [] ∧
    extendBytes 2 true [0, 0x80] = 0xffff8000 ∧ extendBytes 1 false [0x80] = 0x80 := by decide +kernel

/-- An atomic request in flight on `stored`: every lane of a2 with MODE 4 and STEP 0 addresses one word. -/
def atOneWord (i : Head → BodyM → Instr) (b : BodyM) : State :=
  leave (after (i hf { b with mode := 4 }) { stored.modWarp (.user 1 0) (fun w => w.aSet 2 { (w.aGet 2) with step := 0 }) with cur := st0.cur })

theorem test_hyp_atomic :
    let s := atOneWord .atom (bM (.v 2))
    spares s 1 = true ∧
    ((s.op? 0 1).bind fun o => (o.lanes.find? fun l => l.lane == 0).map fun l =>
      (o.eff == .atomic 0 false (some (.v 2)) 0, s.mayPerform 0 o l, s.mute o, (o.request l).length,
        (o.request l).all fun m => m.pieces == [⟨.pa (32 * 65536), 4, false, 0, 0⟩])) = some (true, true, false, 32, true) ∧
    s.isPeer (32 * 65536) = false := by decide +kernel

/-- Addition of 2 in every lane, in ascending order, returns 4, 6, …; CAS whose first lane matches; REDV adds lane by lane. -/
theorem test_atomics :
    byte0 (after (.atomicRequestApply 0 1 0) (atOneWord .atom (bM (.v 2)))) 0 = 68 ∧
    lane (after (.atomicRequestApply 0 1 0) (atOneWord .atom (bM (.v 2)))) 2 0 = 4 ∧
    lane (after (.atomicRequestApply 0 1 0) (atOneWord .atom (bM (.v 2)))) 2 31 = 66 ∧
    byte0 (after (.atomicRequestApply 0 1 0) (atOneWord .red (bM (.v 2)))) 0 = 68 ∧
    byte0 (after (.atomicRequestApply 0 1 0) (atOneWord .cas (bM (.v 4)))) 0 = 5 ∧
    lane (after (.atomicRequestApply 0 1 0) (atOneWord .cas (bM (.v 4)))) 4 1 = 5 ∧
    byte0 (after (.redvElementApply 0 1 0) (leave (after (.redv hf (bM (.v 2))) { stored with cur := st0.cur }))) 0 = 6 ∧
    byte0 (after (.redvElementApply 0 1 0) (leave (after (.redv hf (bM (.v 2))) { stored with cur := st0.cur }))) 4 = 4 := by
  decide +kernel

/-- The spill of v3 at offset 0 of a7, performed. -/
def spilled : State := after (.storePerformed 0 0 0) (leave (after (.stSpill hf (bM (.v 3) 2 7)) stM))

/-- The fill of v1 from that slot, under p2, whose guard is poisoned in lane 3. -/
def filling : State :=
  { (spilled.modWarp (.user 1 0) fun w => { w with p := [(2, Mask.all)], pMark := [(2, 8)] }) with cur := st0.cur }

theorem test_hyp_spill :
    c0.executes stM hd = true ∧ (okM (checkSlot stM c0 ⟨.store, 7, 0, 0, 4⟩)).isSome = true ∧ (stM.nameId c0 3).isSome = true ∧
    (okM (checkSlot stM c0 ⟨.load, 7, 0, 0, 4⟩)).isSome = true ∧ c0.executes stM ⟨false, 2, 0, 0⟩ = false ∧
    stM.namesFree c0 Mask.all true [(3, 4)] ∧ stM.namesFree c0 Mask.all false [(3, 4)] :=
  ⟨by decide +kernel, by decide +kernel, by decide +kernel, by decide +kernel, by decide +kernel, namesFree_of_freeB (by decide +kernel),
    namesFree_of_freeB (by decide +kernel)⟩

/-- Every lane holds 3: the fill gives it back, and the poisoned guard marks lane 3 alone; no thread is killed. -/
theorem test_spill_fill :
    spilled.spillFmt ≠ [] ∧ opsOf spilled = [] ∧
    (let s := after (.ldFill ⟨false, 2, 1, 15⟩ (bM (.v 1) 2 7)) filling
     let t := after (.loadComplete 0 1) ((s.loadPerform 0 1 0).getD s)
     lane t 1 0 = 3 ∧ lane t 1 31 = 3 ∧ (t.laneVal c0 1 3).2 = true ∧ (t.laneVal c0 1 4).2 = false ∧ (thread t).exited = false) := by
  decide +kernel

theorem test_hyp_round_trip : State.reset.isPeer (32 * 65536) = false ∧ (∀ i < 128, State.reset.cellMark (cellOf 0 (32 * 65536 + i)) = false) ∧
    (32 * 65536) % 128 = 0 := by decide +kernel

/-- The forms of R132: constant, signed byte, signed halfword, plain. -/
theorem test_spill_forms :
    (spillForm (List.replicate 32 0) 0).1 = 4 ∧ (spillForm (List.replicate 32 7) 0).1 = 3 ∧
    (spillForm ((List.range 32).map fun l => BitVec.ofNat 32 (4 * l)) 0).1 = 1 ∧
    (spillForm ((List.range 32).map fun l => BitVec.ofNat 32 (5 * l)) 0).1 = 2 ∧
    (spillForm (List.replicate 32 7) 1).1 = 0 := by decide +kernel

/-- The address register `n` after an instruction. -/
def aAfter (i : Instr) (n : Nat) : AReg := ((after i stM).warp (.user 1 0)).aGet n

theorem test_address_registers :
    (aAfter (.ainit hd (bA (.sp 9) (.u 4) (.imm 0x20) (.imm 3))) 9).ptr = 7 ∧
    (aAfter (.ainit hd (bA (.sp 9) (.u 4) (.imm 0x20) (.imm 3))) 9).limit = 0x27 ∧
    (aAfter (.ainit hd (bA (.sp 9) (.u 4) (.imm 0x20) (.imm 3))) 9).a = false ∧
    (aAfter (.aset hd (bA (.sp 2) (.u 6) (.imm 3))) 2).modlen = 3 ∧
    (aAfter (.aadv hd (bA (.sp 2) (.imm 0x10))) 2).ptr = 0x10010 ∧
    (aAfter (.aadv hd (bA (.sp 6) (.imm 0xff) z z 1)) 6).ptr = 0x1003f ∧
    causeOf (after (.aadv hd (bA (.sp 2) (.imm 0xff))) stM) = some 0x084 ∧
    kOf (after (.aget hd (bA (.u 8) (.sp 2) (.imm 1))) stM) 8 = 0x10000 ∧
    kOf (after (.aget hd (bA (.u 8) (.sp 2) (.imm 5))) stM) 8 = 15 := by decide +kernel

theorem test_hyp_address_registers :
    let a := (stM.warp c0.ref).aGet 2
    let r := (stM.warp c0.ref).aGet 6
    (a.base.toNat : Int) ≤ a.ptr.toNat + 0x10 ∧ (a.ptr.toNat : Int) + 0x10 ≤ a.limit.toNat ∧ r.inRing = true ∧ aregNo (.sp 6) = 6 ∧
    c0.guardMarks stM hd = 0 := by decide +kernel

/-- A FENCE behind a store that is not performed, and one with nothing before it. -/
def fencedStore : State := after (.fence hd 3) { after (.st hf (bM (.v 4))) stM with cur := st0.cur }
def fenceAlone : State := after (.fenceb hd 3) stM

theorem test_hyp_fences :
    ((fenceAlone.op? 0 0).map fun o => (o.eff, (opsBefore (fenceAlone.core 0).ops o).length, fenceAlone.bankPending o.party o.id)) =
      some (.fence 3 true, 0, false) ∧ fenceAlone.tiledDrained = true ∧ c0.executes stM hd = true ∧ c0.executes stM ⟨false, 2, 0, 0⟩ = false := by
  decide +kernel

theorem test_fences :
    opsOf (after (.fenceConditionsMet 0 0) fenceAlone) = [] ∧ (opsOf fencedStore).length = 2 ∧
    (opsOf (after (.fenceConditionsMet 0 1) fencedStore)).length = 2 := by decide +kernel

/-! ### Barriers, ACQ, queues -/

/-- The warp stands again at the first instruction of its clause. -/
def again (s : State) : State :=
  { s.modWarp (.user 1 0) (fun w => { w with threads := warp0.threads, running := Mask.all }) with cur := st0.cur }

theorem once_of {s : State} {g : Wg} (h : s.ctx? = some c0 ∧ c0.executes s hd = true ∧ c0.guardMarks s hd = 0 ∧ s.wg? 1 = some g) :
    s.once c0 hd 1 0 g := ⟨h.1, h.2.1, by decide, h.2.2.1, rfl, h.2.2.2⟩

theorem onceFlag_of {s : State} {g : Wg} (h : s.ctx? = some c0 ∧ c0.executes s hf = true ∧ c0.guardMarks s hf = 0 ∧ s.wg? 1 = some g) :
    s.once c0 hf 1 0 g := ⟨h.1, h.2.1, by decide, h.2.2.1, rfl, h.2.2.2⟩

theorem test_hyp_once : st0.once c0 hd 1 0 wg0 := once_of (by decide +kernel)

/-- Barrier nb0 or tb0 after one arrival with count 2. -/
def arrived (team : Bool) : State :=
  after (if team then .tbara hd (bA (.u 4) (.sp 0x40) (.imm 2)) else .bara hd (bA (.u 4) (.sp 0x30) (.imm 2))) st0

/-- A phase that has completed. -/
def phased (team : Bool) : State := again (after (.barrierArrivalRegister 0 0) (arrived team))

theorem test_hyp_barriers :
    (∀ tm, st0.team? 0 = some tm → tm.lost = []) ∧ (st0.team? 0).isSome = true ∧ st0.uniMark c0 (.imm 2) false = false ∧
    ([false, true].all fun team =>
      let r := st0.barRef 1 team 0
      (st0.bar r).cur.accepts (0, 0) && ((st0.bar r).arrivers == []) && decide (2 ≤ st0.barLimit r) &&
      !((arrived team).bar r).cur.accepts (0, 0) && ((arrived team).bar r).next.accepts (0, 0) &&
      (((arrived team).bar r).cur.expect == 2) && !(st0.bar r).awaits (0, 0) Mask.all) = true := by
  refine ⟨fun tm h => ?_, by decide +kernel, by decide +kernel, by decide +kernel⟩
  have e : st0.team? 0 = some ⟨0, [1], [1], [], 2, []⟩ := by decide +kernel
  rw [e] at h; cases h; rfl

/-- BARA and TBARA join, and the next arrival of the warp joins the following phase; BARS waits for its phase; BARW on a phase
that is over goes on, on the open one it waits; TBARX adds bytes. -/
theorem test_barriers :
    ([false, true].all fun team =>
      let r := st0.barRef 1 team 0
      (((arrived team).bar r).cur.joined == [(0, 0)]) && (((arrived team).bar r).cur.expect == 2) && (kOf (arrived team) 4 == 0) &&
      ((phased team).bar r).phase == 1) = true ∧
    kOf (after (.bara hd (bA (.u 4) (.sp 0x30) (.imm 2))) (again (arrived false))) 4 = 1 ∧
    (thread (after (.bars hd (bA z (.sp 0x30) (.imm 2))) st0)).st = .blocked 1 ∧
    (thread (after (.barw hd (bA z (.sp 0x30) (.imm 0))) (phased false))).pc = 16 ∧
    (thread (after (.barw hd (bA z (.sp 0x30) (.imm 1))) (phased false))).pc = 8 ∧
    ((after (.tbarx hd (bA z (.sp 0x40) (.imm 5))) st0).bar (.tb 0 0)).tx = 5 := by decide +kernel

theorem test_hyp_waits :
    ((phased false).bar (.nb 1 0)).named 0 = some 0 ∧ ((phased false).bar (.nb 1 0)).phase = 1 ∧ ((phased true).bar (.tb 0 0)).phase = 1 ∧
    ((phased true).bar (.tb 0 0)).named 1 = some 1 ∧ ((phased true).bar (.tb 0 0)).awaits (0, 0) Mask.all = false ∧
    (phased false).ctx? = some c0 := by decide +kernel

/-- The one warp waits at BARS; its arrival registers, and the phase completes. -/
def atBars : State := after (.bars hd (bA z (.sp 0x30) (.imm 2))) st0
def completed : State := (after (.barrierArrivalRegister 0 0) atBars).modCore 0 fun k => { k with cycle := 200 }

theorem test_hyp_barrier_events :
    ((atBars.registers? 0 0).map fun o => (o.eff, o.party)) = some (.arrive false 0 0, .warp 1 0) ∧
    (atBars.bar (.nb 1 0)).phase = 0 ∧ (atBars.wg? 1).isSome = true ∧
    (({ (atBars.bar (.nb 1 0)) with cur := (atBars.bar (.nb 1 0)).cur.register (0, 0) [] } : Barrier).complete
      (atBars.barLive (.nb 1 0)) false = true) ∧
    (((arrived true).bar (.tb 0 0)).complete ((arrived true).barLive (.tb 0 0)) true = false) ∧
    completed.mayIssue (.user 1 0) = true ∧
    (((List.range 16).map (BarRef.nb 1) ++ (List.range 8).map (BarRef.tb 0)).findSome? fun r =>
      (completed.dueWaiter r (completed.barMember r 1 0) 200).map fun x => (r, x)) = some (.nb 1 0, ⟨0, 0, Mask.all, 0⟩) ∧
    (completed.standing (.user 1 0) Mask.all).isSome = true := by decide +kernel

theorem test_barrier_events :
    (completed.bar (.nb 1 0)).phase = 1 ∧ (completed.bar (.nb 1 0)).wake = [(⟨0, 0, Mask.all, 0⟩, 101)] ∧
    (thread (after (.barrierWaiterRelease 1 0) completed)).pc = 16 := by decide +kernel

/-- Workgroup 1 whose grid asks for 10 rows, 2 blocks and a tile; it has not asked for its full allotment. -/
def asks : State :=
  let r : BitVec 2048 := launch0 ||| 10#2048 <<< 832 ||| 2#2048 <<< 846 ||| 1#2048 <<< 856
  { withWg (fun g => { g with tiles := [], hents := [] }) with grids := [(0, some { grid0 with launch := r })] }

def acqWaiting : State := { after (.acq hd) asks with cur := .core 0 }

/-- A team member with an allotment in reserve. -/
def reserved : State := withWg fun g => { g with reserve := some ⟨[8, 9], [(3, 3)], [], [1], [4]⟩ }

/-- A workgroup that has its full allotment. -/
def allotted : State := withWg fun g => { g with acq := .granted }

theorem test_hyp_acq :
    (reserved.wg? 1).map (fun g => (g.acq, g.reserve.isSome)) = some (.none, true) ∧ reserved.ctx? = some c0 ∧ c0.retries reserved = false ∧
    (asks.wg? 1).map (fun g => (g.acq, g.reserve.isSome)) = some (.none, false) ∧ asks.ctx? = some c0 ∧ c0.retries asks = false ∧
    (allotted.wg? 1).map (·.acq) = some .granted ∧ allotted.inCopy c0 = false ∧ allotted.ctx? = some c0 ∧ c0.retries allotted = false ∧
    (acqWaiting.core 0).acqQ = [1] ∧
    (acqWaiting.wg? 1).map (fun g => (acqWaiting.freeOn 0 (partsUnder (acqWaiting.quadMode (quadOf 0)) 0)).covers
      (g.missing (acqWaiting.launchOf g.grid) (acqWaiting.freeOn 0 (partsUnder (acqWaiting.quadMode (quadOf 0)) 0)))) = some true ∧
    (acqWaiting.wg? 1).map (fun g => (g.acqReserved, decide (g.acqSince + 100000 ≤ { acqWaiting with clockNs := 100000 }.clockNs))) =
      some (false, true) := by decide +kernel

theorem test_acq :
    ((after (.acq hd) reserved).wg? 1).map (fun g => (g.acq, g.pool, g.tiles)) = some (.granted, [8, 9], [1]) ∧
    (acqWaiting.wg? 1).map (fun g => (g.acq, g.pool.length)) = some (.waiting, 8) ∧
    ((after .acqGrant acqWaiting).wg? 1).map (fun g => (g.acq, g.pool, g.tiles, g.near.length)) =
      some (.granted, [0, 1, 2, 3, 4, 5, 6, 7, 8, 9], [0], 2) ∧
    (((after .acqWaitReserve { acqWaiting with clockNs := 100000 }).core 0).acqReserved) = true ∧
    causeOf (after (.acq hd) allotted) = some 0x110 := by decide +kernel

/-- `st0` with ports: q0 sends on named queue 3, q1 receives from it, q2 receives copy completions, q3 the tape, which the
workgroup owns and whose head needs nothing, and an entry of stage 0 in queue 3. -/
def entry0 : QEntry := ⟨[11], 0, .warp 1 0, [], 50, Mask.all⟩

def ported : State :=
  ((withWg fun g => { g with queues := [(3, { Queue.zero with entries := [entry0], out := [(0, 1)] })], copyDone := [entry0] }).modWarp (.user 1 0) fun w =>
    { w with q := [(0, some ⟨0, false, 3⟩), (1, some ⟨0, true, 3⟩), (2, some ⟨2, true, 0⟩), (3, some ⟨5, true, 0⟩)] }).modCore 0 fun k =>
    { k with tape := { Tape.zero with owner := some 1, tail := 1, ring := [(0, 0x77)] } }

/-- The same with nothing to receive, and its queue full for stage 0. -/
def dry : State :=
  (ported.modWg 1 fun g => { g with queues := [(3, { Queue.zero with limit := [(0, 1)], out := [(0, 1)] })], copyDone := [], bankDone := [] }).modCore 0 fun k =>
    { k with tape := { k.tape with tail := 0 } }

theorem test_hyp_queues :
    ported.ctx? = some c0 ∧ c0.executes ported hd = true ∧ c0.executes ported hf = true ∧ c0.guardMarks ported hd = 0 ∧ dry.ctx? = some c0 ∧
    ported.ownsTape 0 1 = true ∧ st0.uniMark c0 (.imm 3) false = false ∧ kindRecv 2 = some true ∧ kindRecv 1 = some false ∧
    (let a := ported.agentHere c0 1
     (ported.wg? 1).map (fun g => (g.maySend a ⟨0, false, 3⟩, (g.queue_ 3).receivers, g.copyDone.length)) = some (true, [], 1) ∧
     (dry.wg? 1).map (fun g => g.maySend a ⟨0, false, 3⟩) = some false ∧
     (∀ i < 8, (ported.warp c0.ref).kMarked (8 + i) = false) ∧ entryRegs 0 = 1 ∧
     ([(⟨0, true, 3⟩ : Port), ⟨2, true, 0⟩, ⟨5, true, 0⟩].all fun p => (ported.popEntry a p).isSome && (dry.popEntry a p).isNone) = true ∧
     entry0.landed < (ported.core a.core).cycle) ∧
    ((ported.core 0).tape.waiters = [] ∧ (ported.core 0).tape.head ≠ (ported.core 0).tape.tail) := by decide +kernel

/-- Entries sent, received, tried and not there; the tape gives its ring's words and HEAD moves. -/
theorem test_queues :
    (opsOf (after (.qsend hf (bA z (.sp 0x10) (.u 8))) ported)).map (fun o => (o.left, o.eff)) = [(false, .entry ⟨0, false, 3⟩ 0 ([0]))] ∧
    (thread (after (.qsend hf (bA z (.sp 0x10) (.u 8))) dry)).pc = 8 ∧
    kOf (after (.qrecv hd (bA (.u 8) (.sp 0x11))) ported) 8 = 11 ∧
    ((after (.qrecv hd (bA (.u 8) (.sp 0x11))) ported).wg? 1).map (fun g => (g.queue_ 3).entries.length) = some 0 ∧
    ((after (.qtry hd (bA (.sp 0x62) (.sp 0x11) (.u 8))) ported).warp (.user 1 0)).kpGet 2 = true ∧
    ((after (.qtry hd (bA (.sp 0x62) (.sp 0x11) (.u 8))) dry).warp (.user 1 0)).kpGet 2 = false ∧
    kOf (after (.tapef hd (bA (.u 8) z)) ported) 8 = 0x77 ∧ ((after (.tapef hd (bA (.u 8) z)) ported).core 0).tape.head = 1 ∧
    (thread (after (.tapef hd (bA (.u 8) z)) dry)).pc = 8 ∧
    kOf (after (.qstat hd (bA (.u 8) (.sp 0x11))) ported) 8 = BitVec.ofNat 32 (2 ^ 31 + 2 ^ 19 + 63 * 128 + 1) ∧
    kOf (after (.qstat hd (bA (.u 8) (.sp 0x1f))) ported) 8 = 0 ∧
    ((after (.qbind hd (bA (.sp 0x15) (.u 6) (.imm 0))) ported).warp (.user 1 0)).q.get none 5 = some ⟨0, false, 3⟩ ∧
    (opsOf (after (.depinc hd (bA z (.imm 5) (.imm 7))) ported)).map (·.eff) = [.depinc 5 7] := by decide +kernel

/-- An entry sent, whose release can register. -/
def sending : State := leave (after (.qsend hf (bA z (.sp 0x10) (.u 8))) ported)

theorem test_hyp_landing :
    ((sending.registers? 0 0).map fun o => (o.eff, o.party.inst?, sending.isCopy o.party)) =
      some (.entry ⟨0, false, 3⟩ 0 ([0]), some 1, false) ∧ (sending.wg? 1).isSome = true := by decide +kernel

theorem test_landing :
    ((after (.queueEntryLand 0 0) sending).wg? 1).map (fun g => ((g.queue_ 3).entries.map (·.data), (g.queue_ 3).reserved)) =
      some ([entry0.data, [0]], 0) ∧ opsOf (after (.queueEntryLand 0 0) sending) = [] := by decide +kernel

/-! ### Handles, copies, weight, records, POLL and LAUNCH -/

/-- k registers for this section: a handle range, a copy of 32 bytes from 0x10000 to offset 0x100 of the scratchpad on channel 1 with a
completion entry, a weight of one unit in account 5. -/
def ksE : Tab Word :=
  [(4, 7), (6, 3), (8, 0x80), (9, 128), (10, 1), (12, 0xffffffff), (16, 0x10000), (18, 0x100), (19, 0xffc00000), (20, 32), (21, 0x110011),
    (62, 0x80000000), (63, 5)]

def stE : State :=
  { stM.modWarp (.user 1 0) (fun w => { w with k := ksE }) with accounts := [(5, ⟨some 1, 1, 0, 0, []⟩)] }

theorem test_hyp_task : stE.ctx? = some c0 ∧ c0.executes stE hd = true ∧ c0.executes stE hf = true ∧ c0.guardMarks stE hd = 0 ∧
    c0.guardMarks stE hf = 0 ∧ stE.uniMark c0 (.u 8) true = false ∧ stE.uniMark c0 (.u 9) false = false ∧ weightMark stE c0 = false := by
  decide +kernel

/-- Handle 0 Filling, and a table without a Free entry. -/
def gotten : State := again (after (.hget hd (bA (.u 5) (.u 8) (.u 9))) stE)
def noHandle : State := again (after (.hget hd (bA (.u 7) (.u 8) (.u 9))) gotten)

theorem test_hyp_handles :
    (stE.wg? 1).map (fun g => (g.hents.length, g.ownRange 0x80 128)) = some (2, true) ∧ (stE.handleAt 1 0).map (·.state) = some 0 ∧
    (gotten.handle? 1 (handleOf gotten c0 (.u 5))).map (·.state) = some 1 ∧ (gotten.handleAt 1 0).map (·.state) ≠ some 0 ∧
    (noHandle.handleAt 1 0).map (·.state) = some 1 ∧ (noHandle.handleAt 1 1).map (·.state) = some 1 ∧
    (gotten.wg? 1).map (fun g => g.namesHandle 0) = some false ∧ gotten.hsetOp c0 = none ∧ (gotten.core c0.core).ops = [] ∧
    gotten.ctx? = some c0 := by decide +kernel

theorem test_handles :
    (gotten.handleAt 1 0).map (fun e => (e.state, e.offset, e.length)) = some (1, 0x80, 128) ∧
    (thread (after (.hget hd (bA (.u 7) (.u 8) (.u 9))) noHandle)).pc = 8 ∧
    ((after (.hfree hd (bA z (.u 5))) gotten).handleAt 1 0).map (fun e => (e.state, e.gen)) = some (0, 1) ∧
    causeOf (after (.hfree hd (bA z (.u 8))) stE) = some 0x104 ∧
    (thread (after (.hwait hd (bA z (.u 5) (.imm 1))) gotten)).pc = 16 ∧ (thread (after (.hwait hd (bA z (.u 5) (.imm 2))) gotten)).pc = 8 ∧
    ((after (.hset hd (bA z (.u 5) (.imm 2))) gotten).handleAt 1 0).map (·.state) = some 2 ∧
    kOf (after (.wptr hd (bA (.u 24) z (.imm 1))) stE) 24 = 0 ∧ (thread (after (.wwait hd (bA z (.u 2) (.imm 1))) stE)).pc = 16 ∧
    (thread (after (.wwait hd (bA z (.u 4) (.imm 1))) stE)).pc = 8 := by decide +kernel

/-- The copy command of k16 to k23. -/
def cmdE : CopyCmd :=
  ⟨BitVec.ofNat 256 (leNat ((List.range 8).flatMap fun i => leBytes 4 ((stE.warp c0.ref).kGet (8 * 2 + i)).toNat)), none⟩

/-- Issued; then arrived at the engine, with bytes at the source; then moved. -/
def copying : State := leave (after (.cpy hf 2) stE)
def burstReady : State := { (copying.writePa 0 0 (32 * 65536) (leBytes 32 0xabcd)) with cur := .core 0 }
def moved : State := after .copyBurst burstReady

theorem test_hyp_copy :
    cmdE.len = 32 ∧ cmdE.chan = 1 ∧ cmdE.post = true ∧ stE.checkCopy 1 cmdE = none ∧ stE.engineFirst (stE.agentHere c0 1) = true ∧
    stE.fencePending 0 c0.party stE.nextId = false ∧ stE.barred 0 c0.party stE.nextId = false ∧
    ((stE.engineGo (stE.agentHere c0 1)).takeLocks (stE.agentHere c0 1) stE.nextId cmdE.spans).isSome = true ∧
    (stE.wg? 1).map (fun g => g.copyCompletes 1) = some none ∧ blockMark stE c0 2 8 = false ∧
    stE.tooLate 1 (CopyOp.new 0 1 (stE.agentHere c0 1) ⟨0, some 0xffffffff⟩ false false [] 0) = false := by decide +kernel

theorem test_hyp_burst :
    (burstReady.core 0).offline = false ∧ (burstReady.chooseCopy 0).isSome = true ∧ burstReady.hasLocks 0 0 = true ∧
    (burstReady.chooseCopy 0).map (fun x => ((burstReady.agentOf x.2.inst x.2.op.party).core, x.2.op.fromPort,
      ((burstReady.dropOp 0 0).copyUnits (burstReady.agentOf 1 x.2.op.party) x.2.op 2).2.1)) = some (0, false, none) ∧
    (moved.wg? 1).map (fun g => (g.copyCompletes 1).map fun o => o.cmd.post) = some (some true) ∧ burstReady.isPeer (32 * 65536) = false ∧
    (burstReady.chooseCopy 0).map (fun x =>
      match burstReady.copyUnit (burstReady.agentOf 1 x.2.op.party) x.2.op with | .ok _ => true | .error _ => false) = some true := by
  decide +kernel

/-- Scratchpad byte 0x100. -/
def pad (s : State) : Byte := (s.readAt (.scratch 1 0x100) 0 0).1

/-- CPY fills its channel; the burst moves 32 bytes; the completion entry has TAG 0x11, CHAN 1 and the flag falls. CPYT too. -/
theorem test_copy :
    (copying.wg? 1).map (fun g => (g.chan_ 1).ops.length) = some 1 ∧ (copying.core 0).locks.length = 2 ∧ pad burstReady = 0 ∧ pad moved = 0xcd ∧
    (moved.wg? 1).map (fun g => (g.chan_ 1).wp) = some 32 ∧
    ((after (.copyCompletionPost 1 1) moved).wg? 1).map (fun g => (g.copyDone.map (·.data), (g.chan_ 1).ops)) =
      some ([[0x10011, 32]], []) ∧
    ((after (.copyCompletionPost 1 1) moved).warp (.user 1 0)).cf.get 0 0 = 0 ∧
    (opsOf (after (.cpyt hf 2 6) stE)).length = 1 ∧ causeOf (after (.cpy hf 1) stE) = some 0x10e := by decide +kernel

/-- The same command in the workgroup's buffer. -/
def buffered : State :=
  { (withWg fun g => { g with copyBuf := { CmdBuf.zero with filled := [(⟨(List.range 8).map fun i => ksE.get 0 (16 + i), 0, .warp 1 0, [], 50, Mask.all⟩, 7)] } })
    with cur := .wg 1 }

theorem test_hyp_buffered :
    (buffered.wg? 1).map (fun g => (g.copyBuf.filled.length, g.resting)) = some (1, false) ∧ buffered.lockFull 0 2 = false ∧
    buffered.checkCopy 1 cmdE = none ∧ (buffered.takeLocks (buffered.agentOf 1 (.warp 1 0)) 7 cmdE.spans).isSome = true := by decide +kernel

theorem test_buffered :
    ((after .copyCommandTake buffered).wg? 1).map (fun g => ((g.chan_ 1).ops.map (·.id), g.copyBuf.filled.length)) = some ([7], 0) := by
  decide +kernel

/-- An account that is quiescent, and an invalid one. -/
def quietE : State := { stE with accounts := [(5, ⟨some 1, 0, 0, 0, []⟩)] }
def smallE : State := stE.modWarp (.user 1 0) fun w => { w with k := w.k.put 0 62 9 }

theorem test_hyp_weight :
    (0 : Word).toNat < (stE.uni c0 (.u 4)).toNat ∧ (stE.uni c0 (.u 4)).toNat < (grains stE c0).toNat ∧
    (grains stE c0).toNat ≤ (stE.uni c0 (.u 12)).toNat ∧ stE.inCopy c0 = false ∧ stE.acctValid (acctWord stE c0) c0.ctx = true ∧
    stE.isCopy c0.party = false ∧ (stE.core c0.core).ops = [] ∧ stE.qretOp c0 = none ∧ acctMember (acctWord stE c0) = stE.member ∧
    (grains smallE c0).toNat < 2 ^ 31 ∧ (smallE.account 5).issued ≠ 2 ^ 32 - 1 ∧ grains stM c0 = 0 ∧
    stE.acctValid (stE.uni c0 (.u 63)) 1 = true ∧ (stE.account 5).quiescent = false ∧ (quietE.account 5).quiescent = true ∧
    (List.range 32).all (fun l => !(stE.lane c0 l).asleep) = true := by decide +kernel

theorem test_weight :
    kOf (after (.qsplit hd (bA (.u 13) (.u 4))) stE) 13 = 7 ∧ kOf (after (.qsplit hd (bA (.u 13) (.u 4))) stE) 62 = 0x7ffffff9 ∧
    causeOf (after (.qsplit hd (bA (.u 13) (.u 12))) stE) = some 0x109 ∧
    kOf (after (.qret hd (bA z (.u 4))) stE) 62 = 0x7ffffff9 ∧ ((after (.qret hd (bA z (.u 4))) stE).account 5).returned = 7 ∧
    ((after (.qret hd (bA z z z z 1)) stE).account 5).returned = 0x80000000 ∧
    kOf (after (.qborrow hd (bA z z)) smallE) 62 = 0x80000009 ∧ ((after (.qborrow hd (bA z z)) smallE).account 5).issued = 2 ∧
    causeOf (after (.qborrow hd (bA z z)) stE) = some 0x10a ∧
    (thread (after (.waitq hd (bA (.u 13) (.u 63))) stE)).st = .asleep (.account 5) ∧
    (thread (after (.waitq hd (bA (.u 13) (.u 63))) quietE)).pc = 16 ∧ kOf (after (.waitq hd (bA (.u 13) (.u 63))) quietE) 13 = 0 ∧
    ((after (.accountUpdate 5 .issued 2) stE).account 5).issued = 3 ∧ ((after (.accountUpdate 5 .lost 2) stE).account 5).lost = 2 ∧
    ((after (.accountUpdate 5 .returned 2) stE).account 5).returned = 2 := by decide +kernel

/-- Workgroup 1 in a work graph of one node, whose entry is at 0x40, size 32, count 2 and timer 64 ns; its account is 5. -/
def graphE : State :=
  let r : BitVec 2048 := launch0 ||| 5#2048 <<< 736 ||| 1#2048 <<< 767
  { (stE.modWarp (.user 1 0) fun w => { w with k := ksE.put 0 62 0 }) with
    grids := [(0, some { grid0 with launch := r, nodes := [0x40#256 ||| 2#256 <<< 176 ||| 1#256 <<< 185] })] }

def sendE : Instr := .wgsend hf (bA z (.sp 2) (.imm 0) (.u 4))

/-- The record has been sent, and then has arrived. -/
def recordSent : State := leave (after sendE graphE)
def recordIn : State := after (.recordArriveBin 0 0) recordSent

theorem test_hyp_records :
    graphE.ctx? = some c0 ∧ (graphE.grid? 0).map (fun gr => gr.nodes.length) = some 1 ∧ ((graphE.warp c0.ref).aGet 2).mark = false ∧
    (graphE.warp c0.ref).kMarked 63 = false ∧ acctWord graphE c0 = BitVec.ofNat 32 (graphE.launchOf 0).acct ∧
    graphE.acctValid (acctWord graphE c0) 1 = true ∧
    (okM (recordLanes graphE c0 2 32)).map (fun r => r.1.length) = some 8 ∧
    ((okM (recordLanes graphE c0 2 32)).bind fun r => (okM (loadWordsNow r.2 c0 r.1)).map (·.isSome)) = some true ∧
    ((recordSent.registers? 0 0).map fun o => match o.eff with | .record n data _ g => (n, data.length, g, o.party.inst?) | _ => (9, 0, 0, none)) =
      some (0, 32, 7, some 1) ∧ (recordSent.wg? 1).map (·.copyOf) = some none ∧
    (recordIn.grid? 0).map (fun gr => ((gr.bin 0 0).batch.length, (gr.bin 0 0).overflows 32)) = some (1, false) ∧
    (recordIn.grid? 0).map (fun gr => (gr.bin 0 0).batch.map fun r => decide (r.arrived + 64 ≤ { recordIn with clockNs := 64 }.clockNs)) = some [true] := by
  decide +kernel

theorem test_records :
    opsOf recordIn = [] ∧ (recordIn.grid? 0).map (fun gr => (gr.bin 0 0).batch.map (·.grains)) = some [7] ∧
    ((after (.binTimerExpire 0 0 0) { recordIn with clockNs := 64 }).grid? 0).map (fun gr => ((gr.bin 0 0).batch.length, (gr.bin 0 0).closed.length)) =
      some (0, 1) := by decide +kernel

/-- POLL for the word at a2, which is 0: equal to k5 (0) it answers; unequal it sleeps for 16 cycles. -/
def pollB (c : BitVec 8) : BodyA := bA (.u 13) (.sp 2) (.u 5) (.imm c)

theorem test_hyp_poll :
    (okM (loadNow stM c0 ⟨.load, 2, 0, 0, 4⟩ 0 fun w => w != some 4)).map (fun r => r.map fun x => x.1) = some (some 0) ∧
    pollTest 0 0 (stM.uni c0 (.u 5)) = true ∧ pollTest 1 0 (stM.uni c0 (.u 5)) = false ∧ stM.uniMark c0 (.u 5) false = false ∧
    (List.range 32).all (fun l => !(stM.lane c0 l).asleep) = true := by decide +kernel

theorem test_poll_time :
    (thread (after (.poll hd (pollB 0)) stM)).pc = 16 ∧ (thread (after (.poll hd (pollB 1)) stM)).st = .asleep (.poll 116 32) ∧
    kOf (after (.time hd (bA (.u 14) z)) { stM with clockNs := 77 }) 14 = 77 ∧
    (thread (after (.waitt hd (bA z (.u 4))) stM)).st = .asleep (.time 7) ∧ (thread (after (.waitt hd (bA z (.u 2))) stM)).pc = 16 := by decide +kernel

/-- Sleepers that are due, with their instruction's word on the code page. -/
def sleeper (w : DWord) (st : ThreadSt) : State :=
  let s := stE.modCore 0 fun k => { k with tlb := [page0, ⟨1, 0, false, 0x000000210000007f, 0⟩], cycle := 200 }
  let s := s.writePa 0 0 (33 * 65536) (leBytes 8 header.toNat ++ leBytes 8 w.toNat)
  { s.modWarp (.user 1 0) (fun x => { x with threads := List.replicate 32 ⟨8, some (0, header), none, [], st, 0, false, 0, 0⟩, running := 0 }) with
    clockNs := 50, accounts := [(5, ⟨some 1, 0, 0, 0, []⟩)] }

/-- The word of an instruction. -/
def wordOf (i : Instr) : DWord := match encode i with | some e => BitVec.ofNat 64 e.2 | none => 0

/-- WAITQ k13, k63 and POLL.eq k13, [a2], k5 with PRED p7. -/
def waitqWord : DWord := wordOf (.waitq hd (bA (.u 13) (.u 63)))
def pollCode (c : BitVec 8) : DWord := wordOf (.poll hd (pollB c))

theorem test_hyp_sleepers :
    decodeFarale waitqWord = some (.waitq hd (bA (.u 13) (.u 63))) ∧ decodeFarale (pollCode 0) = some (.poll hd (pollB 0)) ∧
    decodeFarale (pollCode 1) = some (.poll hd (pollB 1)) ∧
    ([sleeper waitqWord (.asleep (.account 5)), sleeper (pollCode 0) (.asleep (.poll 200 32)), sleeper (pollCode 1) (.asleep (.poll 200 32))].all fun s =>
      s.mayIssue (.user 1 0) && (s.standing (.user 1 0) ((s.warp (.user 1 0)).groupOf 0)).isSome &&
      (match s.fetch 0 1 (warpClass (.user 1 0)) 8 with | .ok _ => true | .error _ => false)) = true := by decide +kernel

theorem test_sleepers :
    (thread (after (.waitqWake (.user 1 0)) (sleeper waitqWord (.asleep (.account 5))))).pc = 16 ∧
    (thread (after (.pollRetry (.user 1 0)) (sleeper (pollCode 0) (.asleep (.poll 200 32))))).pc = 16 ∧
    (thread (after (.pollRetry (.user 1 0)) (sleeper (pollCode 1) (.asleep (.poll 200 32))))).st = .asleep (.poll 232 64) ∧
    (thread (after (.waittWake (.user 1 0)) (sleeper 0 (.asleep (.time 50))))).st = .ready := by decide +kernel

/-- Page tables of context 1: page 0 on frame 33, page 1 on frame 32, everything permitted; device launches on queue 3 of 16 entries,
whose ring is at 0x18000. -/
def walked (s : State) : State :=
  let s := s.writePa 0 0 (40 * 65536) (leBytes 8 (41 * 2 ^ 32 + 1))
  let s := s.writePa 0 0 (41 * 65536) (leBytes 8 (42 * 2 ^ 32 + 1))
  let s := s.writePa 0 0 (42 * 65536) (leBytes 8 0x000000210000007f ++ leBytes 8 0x000000200000007f)
  { s with
    ctxs := [(1, { CtxRegs.zero with root := 0x280001 })]
    lqs := [(3, { LQueue.zero with base := 0x18000, ctl := BitVec.ofNat 64 (1 + 2 ^ 15 + 4 * 2 ^ 16 + 2 ^ 21) })] }

/-- A record of one workgroup of one warp, with its status record at 0x400. -/
def goodRecord : BitVec 2048 :=
  launch0 ||| 0x400#2048 <<< 384 ||| 1#2048 <<< 512 ||| 32#2048 <<< 576 ||| 1#2048 <<< 586 ||| 1#2048 <<< 596 ||| 1#2048 <<< 612

/-- The record at a2. -/
def launching (r : BitVec 2048) : State := walked (st0.writePa 0 0 (32 * 65536) (leBytes 256 r.toNat))

def launchB : BodyA := bA (.u 13) (.sp 2) (.imm 3)

theorem test_hyp_launch :
    ([goodRecord, 0].all fun r =>
      let s := launching r
      let l := s.lq 3
      l.en && l.dev && l.ctx == 1 && okM (launchAddr s c0 2) == some 0x10000 && !s.isCopy c0.party && s.launchFree c0 && l.free == 16) = true ∧
    (match (launching goodRecord).checkRecord 1 0x10000 with | .ok _ => true | .error _ => false) = true ∧
    (match (launching 0).checkRecord 1 0x10000 with | .ok _ => none | .error x => some x.1) = some (75, 3) := by decide +kernel

theorem test_launch :
    kOf (after (.launch hd launchB) (launching goodRecord)) 13 = 0 ∧ ((after (.launch hd launchB) (launching goodRecord)).lq 3).tail = 1 ∧
    kOf (after (.launch hd launchB) (launching 0)) 13 = 0x4b03 ∧ ((after (.launch hd launchB) (launching 0)).lq 3).tail = 0 := by decide +kernel

/-! ### Matrix and bank engines -/

/-- `stE` with slots fs3 INT8, fs4 FP32, fs5 FP16, an operand block of strides 32 in k24 to k31, a stride of 256 in k11, and two warps
that c1 expects. -/
def matE (warps : Nat) : State :=
  let r : BitVec 2048 := launch0 ||| 4#2048 <<< 1216 ||| 1#2048 <<< 1344
  let warp := { (stE.warp c0.ref) with k := ((ksE.put 0 24 32).put 0 25 32).put 0 11 256 }
  let rounds : Tab Conv := [(1, { Conv.zero with mask := if warps = 1 then 1 else 3 })]
  { (stE.modWg 1 fun g => { g with warps := List.replicate warps warp, conv := rounds }) with grids := [(0, some { grid0 with launch := r })] }

def mmaB : BodyMma := ⟨1, 0, 2, 2, 3, 3, 0, 24, true⟩
def mmacB : BodyMma := ⟨1, 0, 2, 2, 5, 5, 0, 24, true⟩

/-- Warp 0 has signed; the round is open for two warps, closed for one. -/
def signed (warps : Nat) : State := again (after (.mma hf mmaB) (matE warps))

theorem test_hyp_mma :
    (matE 2).ctx? = some c0 ∧ c0.executes (matE 2) hf = true ∧ c0.guardMarks (matE 2) hf = 0 ∧ c0.active (matE 2) hf ≠ 0 ∧
    ([(mmaB, false), (mmacB, true)].all fun p =>
      match ((matE 2).wg? 1).bind fun g => okM (checkMma (matE 2) c0 ((matE 2).agentHere c0 1) g p.2 p.1) with
      | some x => !x.1.aA.mark && !x.1.aB.mark
      | none => false) = true ∧
    (∀ i < 8, ((matE 2).warp c0.ref).kMarked (24 + i) = false) ∧
    ([1, 2].all fun n => match ((matE n).wg? 1) with
      | some g => (g.conv_ 1).mask.has 0 && !(g.conv_ 1).isOpen &&
          ({ (g.conv_ 1) with signed := (g.conv_ 1).signed.upd 0 0 fun x => x ||| Mask.all }.full g == (n == 1))
      | none => false) = true ∧
    ((signed 2).wg? 1).map (fun g => ((g.conv_ 1).isOpen, (g.conv_ 1).word == c0.word, c0.active (signed 2) hf &&& (g.conv_ 1).signed.get 0 0 == c0.group)) =
      some (true, true, true) ∧ ((matE 1).wg? 1).map (fun g => (g.conv_ 2).isOpen) = some false := by decide +kernel

theorem test_mma :
    ((after (.mma hf mmaB) (matE 1)).core 0).mats.map (fun o => (o.kind, o.kk, o.z, o.flags)) = [(.mma, 16, true, [(0, 1)])] ∧
    ((after (.mmac hf mmacB) (matE 1)).core 0).mats.map (·.kind) = [.mmac] ∧
    ((after (.mma hf mmaB) (matE 2)).core 0).mats = [] ∧ (thread (after (.mma hf mmaB) (matE 2))).pc = 16 ∧
    (thread (after (.mma hf mmaB) (signed 2))).pc = 8 ∧
    ((after (.msign hd 2 (.u 12)) (matE 1)).wg? 1).map (fun g => (g.conv_ 2).mask) = some 1 ∧
    causeOf (after (.mma hf { mmaB with conv := 3 }) (matE 1)) = some 0x141 ∧
    causeOf (after (.mma hf { mmaB with acc := 1 }) (matE 1)) = some 0x044 := by decide +kernel

/-- MEPI of acc0 to a2 in FP32 rows of 256 bytes, unscaled. -/
def mepiB : BodyMepi := ⟨false, 0, 2, 4, 0, .imm 1, 2, true, 11⟩

theorem test_hyp_matrix_issue :
    let s := matE 1
    let a := s.agentHere c0 1
    s.engineFirst a = true ∧ s.fencePending 0 c0.party s.nextId = false ∧ s.barred 0 c0.party s.nextId = false ∧
    (s.wg? 1).map (fun g => g.tiles[0]?) = some (some 0) ∧
    ([[], [(⟨0x10000, rowsLen 64 32 256, false⟩ : Span)], [⟨0x10000, rowsLen 64 256 256, true⟩, ⟨0x10000, 256, false⟩]].all fun x =>
      ((s.engineGo a).takeLocks a s.nextId x).isSome) = true ∧
    ([(⟨0x10000, rowsLen 64 32 256, false⟩ : Span), ⟨0x10000, rowsLen 64 32 256, true⟩].all fun x => (okM (needSpan s 1 x)).isSome) = true ∧
    ((s.warp c0.ref).aGet 2).covers 0x10000 (rowsLen 64 256 256) = true ∧ (s.uni c0 (.u 4)).toNat < 128 ∧
    s.namesFree c0 Mask.all true [(1, 0)] ∧ s.namesFree c0 Mask.all false [(1, 0)] ∧ (s.slotOf c0 4).elem = 0 ∧
    (let op := { MatOp.new 0 .mepi a 0 0 (s.clockOf a.party) with
        aA := (s.warp c0.ref).aGet 2, aB := (s.warp c0.ref).aGet 2, fsA := s.slotOf c0 4, kk := 256, int := mepiB.int, act := mepiB.act.toNat,
        bv := true, scale := (mepiScale s c0 (.imm 1)).setWidth 64 }
     ([some s, (s.engineGo a).takeLocks a s.nextId [⟨0x10000, rowsLen 64 256 256, true⟩, ⟨0x10000, 256, false⟩]].all fun x =>
       match x with
       | some y => (match y.commitMepi ⟨a, 4, s.nextId, op.clk, 1⟩ op with | .ok _ => true | .error _ => false)
       | none => false) = true) :=
  ⟨by decide +kernel, by decide +kernel, by decide +kernel, by decide +kernel, by decide +kernel, by decide +kernel, by decide +kernel, by decide +kernel,
    namesFree_of_freeB (by decide +kernel), namesFree_of_freeB (by decide +kernel), by decide +kernel, by decide +kernel⟩

/-- What enters tile order. -/
def mats (s : State) : List MatOp := (s.core 0).mats

theorem test_matrix_issue :
    (mats (after (.mzero hd 0) (matE 1))).map (fun o => (o.kind, o.flags)) = [(.mzero, [])] ∧
    (mats (after (.accld hf ⟨0, 2, 20⟩) (matE 1))).map (fun o => (o.kind, o.kk)) = [(.accld, 32)] ∧
    (mats (after (.accst hf ⟨0, 2, 20⟩) (matE 1))).map (fun o => (o.kind, o.flags)) = [(.accst, [(0, 1)])] ∧
    (mats (after (.accmv hf ⟨.v 2, 0, .u 4, true⟩) (matE 1))).map (fun o => (o.kk, o.put, o.staged.word 5)) = [(7, true, 2)] ∧
    (mats (after (.mepi hf mepiB) (matE 1))).map (fun o => (o.kind, o.kk)) = [(.mepi, 256)] ∧
    kOf (after (.mrpq hd 13 0) (matE 1)) 13 = 0 ∧ kOf (after (.mrpq hd 13 0) (signed 1)) 13 = 0x20000000 := by decide +kernel

/-- An MZERO that starts, and an ACCMV.put with its slot. -/
def starting (i : Instr) : State := { after i (matE 1) with cur := .core 0 }
def startedE (i : Instr) : State := after .matrixOpStart (starting i)

/-- The operation in slot 0 can do its first block. -/
def blockOk (s : State) : Bool :=
  match (s.core 0).mats.find? fun m => m.slot == some 0 && !m.complete with
  | some op => !op.parked && s.moves op.inst && !(s.core 0).offline && decide ((s.core 0).stallTo.get 0 4 ≤ (s.core 0).cycle) &&
      s.blockReady (s.agentOf op.inst op.party) op && (op.kind != MatKind.mepi || op.pieces.length == 64 * (op.slotA.rowBytes op.cols / 16)) &&
      (match s.matBlock 0 (s.agentOf op.inst op.party) op with | .ok _ => true | .error _ => false)
  | none => false

/-- The operation that a state starts. -/
def lockedE : State := (starting (.mzero hd 0)).lockMats 0

theorem test_hyp_matrix_start :
    (lockedE.core 0).freeMatSlot = some 0 ∧
    (firstReady (fun m => !lockedE.barred 0 m.party m.id) [] ((lockedE.core 0).mats.filter fun m => lockedE.moves m.inst)).map (·.kind) = some .mzero ∧
    (mats (starting (.mzero hd 0))).map (fun m => (m.locked, m.complete, m.parked, m.slot, lockedE.moves m.inst, lockedE.barred 0 m.party m.id)) =
      [(true, false, false, none, true, false)] := by decide +kernel

theorem test_hyp_matrix_engine :
    ([Instr.mzero hd 0, .accmv hf ⟨.v 2, 0, .u 4, true⟩, .accmv hf ⟨.v 2, 0, .u 4, false⟩, .mma hf mmaB].all fun i => blockOk (startedE i)) = true := by decide +kernel

/-- The ACCST is of a screen copy, whose writes stay with it (R429). -/
theorem test_hyp_matrix_moves :
    blockOk (startedE (.accld hf ⟨0, 2, 20⟩)) = true ∧
    blockOk ((startedE (.accst hf ⟨0, 2, 20⟩)).modWg 1 fun g => { g with copyOf := some 5 }) = true := by decide +kernel

theorem test_hyp_matrix_store : blockOk (startedE (.mepi hf mepiB)) = true := by decide +kernel

/-- A row of 16 bytes at 0x10000, in distinct cells of this module. -/
theorem test_hyp_store_row :
    let s := matE 1
    let cells := (List.range 16).map fun i => cellOf 0 (32 * 65536 + i)
    s.isCopy (.warp 1 0) = false ∧ cells.Nodup ∧ cells.all (fun x => !s.isPeer x) = true := by decide +kernel

/-- MZERO clears a word that is not zero; the put writes words 256 + l·1; the operations end and the flag falls. -/
theorem test_matrix_engine :
    (mats (after (.matrixBlockComplete 0 0) (startedE (.mzero hd 0)))).map (fun o => (o.complete, o.slot)) = [(true, none)] ∧
    (((after (.matrixBlockComplete 0 0) (startedE (.accmv hf ⟨.v 2, 0, .u 4, true⟩))).tileOf 0 0 1).word 224 = 2) ∧
    (((after (.matrixBlockComplete 0 0) (startedE (.accmv hf ⟨.v 2, 0, .u 4, true⟩))).tileOf 0 0 1).word 223 = 0) ∧
    ((after (.matrixBlockComplete 0 0) (startedE (.accmv hf ⟨.v 2, 0, .u 4, true⟩))).warp (.user 1 0)).cf.get 0 0 = 0 := by decide +kernel

/-- One INT8 row of A, 1 to 16, by a row of B of twos, on an old word of 5; the same in FP16 with an FP32 sum. -/
theorem test_products :
    (let op := { MatOp.new 0 .mma ⟨.warp 1 0, 1, 0, 1, 0, 0, 0⟩ 0 0 [] with fsA := 4, fsB := 4, kk := 16 }
     let row := fun (f : Nat → Nat) => matRow op.slotA 16 ((List.range 16).map fun i => (BitVec.ofNat 8 (f i), false), [])
     outValue op [5] (row fun i => i + 1) (row fun _ => 2) = [277]) ∧
    (let op := { MatOp.new 0 .mma ⟨.warp 1 0, 1, 0, 1, 0, 0, 0⟩ 0 0 [] with fsA := 1, fsB := 1, kk := 16 }
     let row := matRow op.slotA 16 ((List.range 32).map fun i => (if i % 2 = 1 then 0x3c else 0, false), [])
     outValue op [0] row row = [0x41800000]) := by decide +kernel

/-- After the first block of the MMA. -/
def block1 : State := after (.matrixBlockComplete 0 0) (startedE (.mma hf mmaB))

theorem test_hyp_mma_block :
    (match (block1.core 0).mats.find? fun m => m.slot == some 0 with
      | some op => op.progress == 16 && op.bRows.length == 64 && decide (0 < op.cols) &&
          (match block1.readRows ⟨block1.agentOf 1 op.party, 4, op.id, op.clk, 2⟩ op.holds op.slotA op.kk op.aA.ptr.toNat 0 0 32 16 16 with
            | .ok _ => true
            | .error _ => false)
      | none => false) = true := by decide +kernel

/-- Bank commands in k32 to k39 (BRED) and k40 to k47 (BMV): one row of 16 INT8 weights at 0x20000, the vector at 0x30000, the result at
0x200 of the scratchpad, an entry with TAG 0x11. -/
def bankE : State :=
  let ks : List (Nat × Nat) :=
    [(32, 0x20000), (36, 0x200), (37, 0xffc00000), (38, 0x100001), (39, 0x8e30), (40, 0x20000), (42, 0x30000), (44, 0x200), (45, 0xffc00000),
      (46, 0x100001), (47, 0x8e30)]
  let s := (matE 1).modWarp (.user 1 0) fun w => { w with k := ks.foldl (fun t e => t.put 0 e.1 (BitVec.ofNat 32 e.2)) w.k }
  let s := s.modCore 0 fun k => { k with tlb := [page0, ⟨1, 0x20000, false, 0x000000220000017f, 0⟩, ⟨1, 0x30000, false, 0x000000230000057f, 0⟩] }
  s.writePa 1 0 (34 * 65536) [3, 4]

def bankOps (s : State) : Option (List (Nat × Nat × Bool)) := (s.wg? 1).map fun g => g.bankOps.map fun o => (o.id, o.progress, o.posting)

theorem test_hyp_bank :
    let s := bankE
    let a := s.agentHere c0 1
    s.ctx? = some c0 ∧ s.engineFirst a = true ∧ s.fencePending 0 c0.party s.nextId = false ∧ s.barred 0 c0.party s.nextId = false ∧ blockMark s c0 4 8 = false ∧
    ([(4, 2), (5, 0), (5, 1)].all fun p =>
      let cmd : BankCmd := ⟨(s.warp c0.ref).kBlock (8 * p.1), p.2⟩
      (s.checkBank 1 false cmd).isNone && ((s.engineGo a).takeLocks a s.nextId (cmd.spans (s.wgSlot 1 cmd.fs))).isSome) = true ∧
    (s.wg? 1).map (fun g => decide (g.bankOps.length < 63)) = some true := by decide +kernel

/-- A BRED that has reached the engines; its row done. -/
def bankAt : State := { leave (after (.bred hf 4) bankE) with cur := .wg 1 }
def bankRow : State := after .bankRowBlock bankAt

theorem test_hyp_bank_row :
    (bankAt.bankNext 1).map (fun o =>
      (bankAt.hasLocks (bankAt.agentOf 1 o.party).core o.id, match (bankAt.dropOp 0 o.id).bankBlock (bankAt.agentOf 1 o.party) o with
        | .ok r => r.1.progress
        | .error _ => 99)) = some (true, 1) ∧
    (bankRow.wg? 1).map (fun g => ((g.bankOps.find? fun o => o.posting).map fun o => o.cmd.post, decide (g.bankDone.length < 64))) =
      some (some true, true) := by decide +kernel

/-- The three instructions enter; BSTAT; the sum of the row, 7.0, is stored; the entry is posted and the flag falls. -/
theorem test_bank :
    bankOps (after (.bmv hf 5) bankE) = some [(0, 0, false)] ∧ bankOps (after (.bmva hf 5) bankE) = some [(0, 0, false)] ∧
    bankOps bankRow = some [(0, 1, true)] ∧ kOf (after (.bstat hd 14) (again bankAt)) 14 = 0x10011 ∧
    (bankRow.readAt (.scratch 1 0x202) 0 0).1 = 0xe0 ∧ (bankRow.readAt (.scratch 1 0x203) 0 0).1 = 0x40 ∧
    ((after .bankResultPost bankRow).wg? 1).map (fun g => (g.bankDone.map (·.data), g.bankOps)) = some ([[0x11, 1]], []) ∧
    ((after .bankResultPost bankRow).warp (.user 1 0)).cf.get 0 0 = 0 := by decide +kernel

/-- The same BRED in the workgroup's buffer, OPK 2. -/
def bankBuffered : State :=
  let e : QEntry := ⟨[0x20000, 0, 0, 0, 0x200, 0xffc00000, 0x100001, 0x10008e30], 0, .warp 1 0, [], 50, Mask.all⟩
  { (bankE.modWg 1 fun g => { g with bankBuf := { CmdBuf.zero with filled := [(e, 7)] } }) with cur := .wg 1 }

theorem test_hyp_bank_buffered :
    (bankBuffered.wg? 1).map (fun g => (g.bankBuf.filled.length, g.resting, decide (g.bankOps.length < 63))) = some (1, false, true) ∧
    bankBuffered.lockFull 0 3 = false ∧
    bankBuffered.checkBank 1 true ⟨entryBits [0x20000, 0, 0, 0, 0x200, 0xffc00000, 0x100001, 0x10008e30], 2⟩ = none ∧
    bankOps (after .bankCommandTake bankBuffered) = some [(7, 0, false)] := by decide +kernel

/-! ### The system instructions and the supervisor -/

def bS (dst sa : Opnd := z) (reg : BitVec 12 := 0) : BodyS := ⟨dst, sa, reg⟩

/-- The supervisor warp of core 0, with k8:k9 an address, k10 a page with bits 15:2 set, k12 kind 3, k14 whole. -/
def supWith (s : State) (k : Tab Word) : State :=
  { s.modCore 0 (fun c => { c with sup := { warp0 with map := [], a := [], awake := true, k := k } }) with cur := .warp (.sup 0) Mask.all 0 header 0 }

def supK : Tab Word := [(4, 7), (8, 0x10000), (10, 0x10004), (12, 3), (14, 2), (16, 0x00ff)]

/-- Core 0 with a user warp that has trapped at 8, in cycle 300, and tables for contexts 0 and 1. -/
def supT : State :=
  let s := walked (after (.trap hd 0x12) st0)
  let s := s.writePa 0 0 (42 * 65536 + 16) (leBytes 8 0x000000240000007f ++ leBytes 8 0x000000250000007f)
  supWith { s.modCore 0 (fun k => { k with cycle := 300 }) with ctxs := s.ctxs.put .zero 0 { CtxRegs.zero with root := 0x280001 } } supK

/-- The same before the record is 64 cycles old. -/
def supYoung : State := supT.modCore 0 fun k => { k with cycle := 110 }

/-- The k register `n` of the supervisor warp. -/
def supKOf (s : State) (n : Nat) : Word := (s.warp (.sup 0)).kGet n
def supPc (s : State) : DWord := ((s.warp (.sup 0)).thread 0).pc
def supCause (s : State) : Option Nat := ((s.warp (.sup 0)).trap.map fun r => (r.cause.extractLsb' 0 10).toNat)

theorem test_hyp_system :
    supT.ctx? = some cs ∧ supYoung.ctx? = some cs ∧ cs.executes supT hd = true ∧ cs.guardMarks supT hd = 0 ∧ supT.inCopy cs = false ∧
    st0.inCopy c0 = false ∧ (supT.selected 0).map (fun x => (x.1, x.2.settled 300)) = some (.warp 1 0, true) ∧
    (supYoung.selected 0).map (fun x => x.2.settled 110) = some false ∧
    ((supWith st0 supK).selected 0 = none) ∧ supT.eventHold = [] ∧ (supT.core 0).ops = [] ∧ (supT.core 0).supWait = none := by decide +kernel

/-- User warps trap; RDSR tpend, tcause, twice denied or unknown; WRSR of wgsel keeps four bits, and of a read-only register traps. -/
theorem test_registers :
    ([Instr.rdsr hd (bS (.u 8)), .wrsr hd (bS z (.u 8)), .eret hd (bS z (.imm 0)), .savewg hd (bS (.u 9) (.u 8)), .restwg hd (bS (.u 9) (.u 8)),
      .tlbi hd (bS z (.u 8)), .flushs hd (bS z (.u 8)), .halt hd (bS)].all fun i => causeOf (after i st0) == some 0x1e0) = true ∧
    supKOf (after (.rdsr hd (bS (.u 20) z 0x002)) supT) 20 = 1 ∧ supKOf (after (.rdsr hd (bS (.u 20) z 0x006)) supT) 20 = 8 ∧
    supKOf (after (.rdsr hd (bS (.u 20) z 0x007)) supT) 20 = 16 ∧ supPc (after (.rdsr hd (bS (.u 20) z 0x006)) supYoung) = 8 ∧
    supKOf (after (.rdsr hd (bS (.u 20) z 0x00a)) supT) 21 = 0x12 ∧
    supCause (after (.rdsr hd (bS (.u 20) z 0x0c0)) supT) = some 0x1e1 ∧ supCause (after (.rdsr hd (bS (.u 20) z 0x100)) supT) = some 0x000 ∧
    ((after (.wrsr hd (bS z (.u 16) 0x00e)) supT).core 0).wgsel = 15 ∧ supCause (after (.wrsr hd (bS z (.u 16) 0x041)) supT) = some 0x1e1 ∧
    ((after (.sysregWrite 0 0x001 0x40) st0).core 0).tvec = 0x40 := by decide +kernel

/-- Core 0's warp slot 0 holds workgroup 1; its tape is unbound. -/
theorem test_hyp_actions :
    supT.inSlot 0 0 = some 1 ∧ (supT.core 0).tape.owner = none ∧ ((supT.core 0).atsel.extractLsb' 16 3).toNat < 5 := by decide +kernel

theorem test_actions :
    ((after (.tapeownBind 0 0x8000000000000000) supT).core 0).tape.owner = some 1 ∧
    ((after (.tapeownUnbind 0 0) (after (.tapeownBind 0 0x8000000000000000) supT)).core 0).tape.owner = none ∧
    (after (.atvalWrite 0 0xffffffffffffff00) supT).accessEntry 0 0 = 0x0fffffffff00 ∧
    ((after (.lqtailWrite 3 5) (launching goodRecord)).lq 3).tail = 5 ∧ ((after (.lqtailWrite 3 17) (launching goodRecord)).lq 3).tail = 0 := by
  decide +kernel

/-- Core 0 with a trapped loader selected. -/
def supBeryl : State :=
  supWith (st0.modCore 0 fun k => { k with
    tsel := 64
    loader := { k.loader with st := 3, inst := 1, trap := some ⟨0, 4, 8, 0, 0, 0, 0, 0, 8, 0, none, false, 100, true, none⟩ } }) supK

theorem test_hyp_eret :
    (supT.selected 0).map (fun x => (x.1, (supT.warp? (.user 1 0)).map fun y => (y.trap == some x.2, x.2.parked.isNone, x.2.group == Mask.all,
      (List.range 32).all fun l => (y.thread l).pc == x.2.pc))) = some (.warp 1 0, some (true, true, true, true)) ∧
    (supBeryl.selected 0).map (fun x => (x.1, x.2.parked.isNone)) = some (.beryl 1 0, true) ∧ supBeryl.ctx? = some cs := by decide +kernel

theorem test_eret :
    (thread (after (.eret hd (bS z (.imm 0))) supT)).pc = 16 ∧ ((after (.eret hd (bS z (.imm 0))) supT).core 0).sup.awake = false ∧
    causeOf (after (.eret hd (bS z (.imm 0))) supT) = none ∧ (thread (after (.eret hd (bS z (.imm 1))) supT)).exited = true ∧
    ((after (.eret hd (bS z (.imm 0))) supBeryl).beryl 0 0).pc = 8 ∧ ((after (.eret hd (bS z (.imm 0))) supBeryl).beryl 0 0).st = 1 ∧
    ((after (.eret hd (bS z (.imm 1))) supBeryl).beryl 0 0).st = 2 := by decide +kernel

/-- A workgroup at rest that can be saved at 0x10000; with an empty slot selected; saved. -/
def restS : State := supT.modWg 1 fun g => { g with frozen := true, near := [] }
def emptySlot : State := supT.modCore 0 fun k => { k with wgsel := 5 }
def describe (s : State) : State :=
  match s.saved with
  | e :: _ => s.writePa 0 0 (32 * 65536 + 0x100) (leBytes 256 (e.2.descriptor (s.teamOf e.2).all.length (s.launchOf e.2.wg.grid).heat))
  | [] => s
def savedS : State :=
  let s := match restS.wg? 1 with | some g => { restS with saved := [(0x10000, restS.image 1 g)] }.freeResources 1 g | none => restS
  supWith (describe s) supK

theorem test_hyp_save :
    (restS.wg? 1).map (fun g => (restS.areaOk 0x10000 1 g, restS.areaOk 0x10004 1 g, g.saveTo, g.frozen)) = some (true, false, none, true) ∧
    (supT.wg? 1).map (fun g => (supT.areaOk 0x10000 1 g, g.frozen)) = some (true, false) ∧ emptySlot.inSlot 0 5 = none ∧
    assoc? supT.saved 0x10000 = none ∧ savedS.readable 0 0x10000 16384 = true ∧
    (savedS.savedIn 0x10000).map (fun x =>
      (x.1, savedS.teamElsewhere 0 x.2, savedS.fitsSaved 0 x.2, savedS.readable 0 0x10000 x.2.areaLen, decide (x.2.inst < supBase))) =
      some (0x10000, false, true, true, true) ∧
    (let s := { savedS with cores := savedS.cores.put .zero 0 { (savedS.core 0) with offline := true } }
     (s.savedIn 0x10000).map fun x => s.fitsSaved 0 x.2) = some false ∧
    (let s := { savedS with teams := savedS.teams.map fun e => (e.1, e.2.map fun (t : Team) => { t with members := [1, 2], all := [1, 2] }), wgs := savedS.wgs ++ [(2, some { wg0 with core := 40 })] }
     (describe s).savedIn 0x10000 |>.map fun x => (describe s).teamElsewhere 0 x.2) = some true := by decide +kernel

/-- The same with an image of no warps, rows and handles. -/
def savedTiny : State :=
  describe { savedS with saved := savedS.saved.map fun e => (e.1, { e.2 with wg := { e.2.wg with warps := [] }, rows := [], handles := [] }) }

theorem test_save :
    supKOf (after (.savewg hd (bS (.u 20) (.u 8))) emptySlot) 20 = 1 ∧ supKOf (after (.savewg hd (bS (.u 20) (.u 10))) supT) 20 = 2 ∧
    supPc (after (.savewg hd (bS (.u 20) (.u 8))) supT) = 8 ∧ savedS.wg? 1 = none ∧ supKOf (after (.restwg hd (bS (.u 20) (.u 8))) supT) 20 = 2 ∧
    ((after (.restwg hd (bS (.u 20) (.u 8))) savedTiny).wg? 1).map (·.core) = some 0 := by decide +kernel

/-- A page that a copy in flight holds, and an array byte that lags. -/
def heldS : State := { supT with arrays := [(33 * 65536, some ⟨0, 0, false, [], none⟩), (50 * 65536, some ⟨0, 0, false, [], none⟩)] }

/-- A FLUSHS of everything waits in cycle 300 for what was sent. -/
def flushing (s : State) : State := (s.flushs 2 fun _ => true).setWait 0 (some ⟨Mask.all, 3, 364⟩)

/-- Which of its bytes on their way to the stack a state has sent. -/
def sentOf (s : State) : List (Option Bool) := s.arrays.map fun e => e.2.map fun x => x.newest.isSome

theorem test_hyp_maintenance :
    (let f := covers 0 (supT.core 0).ctxsel 0x10000
     supT.holders f = 0 ∧ supT.inFlight supT.nextId = false) ∧ heldS.pageFrame 0 = some 33 ∧ heldS.ctx? = some cs ∧
    [supT, heldS].map (fun s => ((s.flushs 2 fun _ => true).onWay (fun _ => true) s.flushDue)) = [false, true] ∧
    [flushing supT, flushing heldS].map (fun s => (s.onWay (fun _ => true) 364, s.ctx? == some cs)) = [(false, true), (true, true)] := by
  decide +kernel

theorem test_maintenance :
    (((after (.tlbi hd (bS z (.u 8))) (supT.modCore 0 fun k => { k with ctxsel := 1 })).core 0).tlb.length = 0) ∧
    (((after (.tlbi hd (bS z (.u 12))) supT).core 0).tlb.length = 1) ∧
    [14, 2, 10].map (fun n => sentOf (after (.flushs hd (bS z (.u n))) heldS)) =
      [[some true, some true], [some true, some false], [some false, some false]] ∧
    [(14, heldS), (10, heldS), (14, flushing heldS), (14, flushing supT)].map (fun p => supPc (after (.flushs hd (bS z (.u p.1))) p.2)) = [8, 16, 8, 16] ∧
    ((after (.halt hd (bS)) supT).core 0).halted = true := by decide +kernel

/-- The supervisor of core 0 idle, halted, or with an old record selected. -/
def idleS : State := { supT.modCore 0 (fun k => { k with sup := { k.sup with awake := false }, tvec := 0x40 }) with cur := .core 0 }
def haltedS : State := { supT.modCore 0 (fun k => { k with halted := true }) with cur := .core 0 }
def agingS : State := { supT with cur := .core 0 }

/-- A matrix operation that has parked, named by the record of the trap on its flag. -/
def parkedS : State :=
  let s := startedE (.mma hf mmaB)
  let op := (mats s).map fun m => { m with parked := true }
  let rec_ : TrapRec := ⟨0, 8, 8, 0, 0, 0, 0, 0, 8, Mask.all, (op.map MatOp.parkedAs).head?, false, 100, false, none⟩
  { (s.modCore 0 fun k => { k with mats := op, cycle := 300 }).modWarp (.user 1 0) (fun w => { w with trap := some rec_ }) with cur := .core 0 }

theorem test_hyp_supervisor_events :
    ((idleS.tpend 0).getLsbD 0 = true ∧ (idleS.core 0).offline = false) ∧ (haltedS.core 0).halted = true ∧
    (agingS.selected 0).map (fun x => (x.2.aged, decide (x.2.cycle + 64 ≤ 300))) = some (false, true) ∧
    (parkedS.selected 0).map (fun x => (x.1, x.2.parked.map (·.id) == (mats parkedS).head?.map (·.id), (mats parkedS).map (·.parked))) =
      some (.warp 1 0, true, [true]) := by decide +kernel

theorem test_supervisor_events :
    ((after .supervisorWake idleS).core 0).sup.awake = true ∧ supPc (after .supervisorWake idleS) = 0x40 ∧
    ((after .coreRestart haltedS).core 0).halted = false ∧
    (((after .trapRecordAged agingS).warp (.user 1 0)).trap.map (·.aged)) = some true ∧
    (mats (after .ectlResume parkedS)).map (·.parked) = [false] ∧ (mats (after .ectlAbandon parkedS)).map (·.complete) = [true] := by decide +kernel

/-! ### Beryl cores -/

/-- The loader of workgroup 1 runs at 0x20: x10 = −7, x11 = 3, x12 = 0x10000, x13 = 0x10020, x14 port 0 or 0, x15 = 1, x16 = 0x10008; port 0
sends to queue 3, port 1 receives from it, port 2 copy completions; the data store holds a copy command at 0x10000 and 0x81 at
0x10020. -/
def berS (s : State) : State :=
  let cmd := (List.range 8).flatMap fun i => leBytes 4 (ksE.get 0 (16 + i)).toNat
  let data := (List.range 32).foldl (fun (t : Tab Byte) i => t.put 0 i (cmd.getD i 0)) []
  { s.modCore 0 (fun k => { k with
      loader := { Beryl.zero with
        st := 1
        inst := 1
        pc := 0x20
        x := [(10, 0xfffffffffffffff9), (11, 3), (12, 0x10000), (13, 0x10020), (15, 1), (16, 0x10008), (17, 0x80), (18, 128), (20, 0x110011)]
        ports := [(0, some ⟨0, false, 3⟩), (1, some ⟨0, true, 3⟩), (2, some ⟨2, true, 0⟩)]
        dstore := data.put 0 32 0x81
        reservation := some (0x10020, 4) } }) with cur := .beryl 0 0 }

def ber : State := berS (ported.modWg 1 fun g => { g with hents := [0, 1] })
def berDry : State := berS dry

/-- The loader after an instruction. -/
def berAfter (i : Instr) (s : State := ber) : Beryl := (after i s).beryl 0 0
def rv (i : Rv) : Instr := .berylInstruction i none

theorem test_hyp_beryl :
    (ber.bctx? 4).map (fun x => (x.core, x.which, x.b.inst, x.len)) = some (0, 0, 1, 4) ∧ (ber.bctx? 2).isSome = true ∧
    (ber.beryl 0 0).reservation = some (0x10020, 4) ∧ ber.copyWg 1 = false ∧ (ber.wg? 1).isSome = true := by decide +kernel

/-- Division, a word shift, JAL, a taken branch, a compressed add. -/
theorem test_beryl_arithmetic :
    (berAfter (rv (.mulDiv .div 5 10 11))).reg 5 = 0xfffffffffffffffe ∧ (berAfter (rv (.mulDiv .rem 5 10 11))).reg 5 = 0xffffffffffffffff ∧
    (berAfter (rv (.shImmW .srl 5 10 1))).reg 5 = 0x7ffffffc ∧ (berAfter (rv (.opImm .slt 5 10 0))).reg 5 = 1 ∧
    (berAfter (rv (.opImm .sltu 5 10 0))).reg 5 = 0 ∧ (berAfter (rv (.lui 5 0x80000))).reg 5 = 0xffffffff80000000 ∧
    (berAfter (rv (.jal 1 8))).pc = 0x30 ∧ (berAfter (rv (.jal 1 8))).reg 1 = 0x24 ∧ (berAfter (rv (.branch .lt 10 11 8))).pc = 0x30 ∧
    (berAfter (rv (.branch .ltu 10 11 8))).pc = 0x24 ∧ (berAfter (rv (.op .add 0 10 11))).reg 0 = 0 ∧
    (berAfter (.berylInstruction (.op .add 5 10 11) (some 0x92ae))).pc = 0x22 := by decide +kernel

/-- The cause, mcause and mtval of the loader's trap. -/
def berTrap (b : Beryl) : Option (Nat × Nat × DWord) := b.trap.map fun r => ((r.cause.extractLsb' 0 10).toNat, (r.info.extractLsb' 32 32).toNat, r.addr)

theorem test_beryl_store :
    (berAfter (rv (.load 0 false 5 13 0))).reg 5 = 0xffffffffffffff81 ∧ (berAfter (rv (.load 0 true 5 13 0))).reg 5 = 0x81 ∧
    (berAfter (rv (.store 1 13 10 4))).dstore.get 0 36 = 0xf9 ∧ (berAfter (rv (.store 1 13 10 4))).dstore.get 0 38 = 0 ∧
    (berAfter (rv (.sc false false false 5 13 11))).reg 5 = 0 ∧ (berAfter (rv (.sc false false false 5 13 11))).dstore.get 0 32 = 3 ∧
    (berAfter (rv (.sc false false false 5 12 11))).reg 5 = 1 ∧ (berAfter (rv (.lr false false false 5 13))).reservation = some (0x10020, 4) ∧
    (berAfter (rv (.amo .add false false false 5 13 11))).dstore.get 0 32 = 0x84 ∧
    berTrap (berAfter (rv (.load 3 false 5 11 0))) = some (0x120, 5, 3) ∧ berTrap (berAfter (rv .ecall)) = some (0x120, 8, 0) ∧
    berTrap (berAfter (rv (.store 0 10 11 0))) = some (0x120, 7, 0xfffffffffffffff9) ∧
    berTrap (berAfter (rv (.amo .add false false false 5 16 11))) = none := by decide +kernel

/-- fqbind 5 := kind 0, receive, queue 3; its value reads back; kind 8 bits and direction; 0x101. -/
theorem test_beryl_ports :
    (berAfter (.fqbindWrite .rwi 5 8 5)).ports.get none 5 = some ⟨0, true, 0⟩ ∧ (berAfter (.fqbindWrite .rs 5 0 1)).reg 5 = 0x80000038 ∧
    berTrap (berAfter (.fqbindWrite .rwi 0 2 5)) = some (0x101, 0, 0) ∧ (berAfter (.fqbindWrite .rwi 0 10 5)).ports.get none 5 = some ⟨2, true, 0⟩ := by
  decide +kernel

/-- FQ forms with rs1 the port in x0 or x15, rs2 the address 0x10020. -/
theorem test_beryl_queues :
    (opsOf (after (.fqSend ⟨5, 0, 13⟩) ber)).map (fun o => (o.eff, o.left)) = [(.entry ⟨0, false, 3⟩ 8 [0x81], false)] ∧
    (berAfter (.fqSend ⟨5, 0, 13⟩)).pc = 0x24 ∧ (berAfter (.fqRecv ⟨5, 15, 13⟩)).dstore.get 0 32 = 11 ∧
    (berAfter (.fqRecv ⟨5, 15, 13⟩) berDry).blocked = true ∧ (berAfter (.fqRecvTry ⟨5, 15, 13⟩) berDry).reg 5 = 1 ∧
    (berAfter (.fqRecvTry ⟨10, 15, 13⟩)).reg 10 = 0 ∧ (berAfter (.fqSendTry ⟨10, 0, 13⟩)).reg 10 = 0 ∧
    berTrap (berAfter (.fqSend ⟨5, 11, 13⟩)) = some (0x100, 0, 0) ∧ berTrap (berAfter (.fqRecv ⟨5, 10, 13⟩)) = some (0x100, 0, 0) := by
  decide +kernel

/-- The loader's stage 8 may send no more. -/
def berFull : State := ber.modWg 1 fun g => { g with queues := [(3, { Queue.zero with limit := [(8, 0)] })] }

theorem test_hyp_beryl_queues :
    (ber.bctx? 4).map (fun x => ((ber.wg? 1).map fun g => g.maySend x.agent ⟨0, false, 3⟩, (ber.popEntry x.agent ⟨0, true, 3⟩).map fun r => r.1,
      (x.b.ports.get none 0).isSome)) = some (some true, some [11], true) ∧
    (berDry.bctx? 4).map (fun x => (berDry.popEntry x.agent ⟨0, true, 3⟩).isNone) = some true ∧
    (berFull.bctx? 4).map (fun x => (berFull.wg? 1).map fun g => g.maySend x.agent ⟨0, false, 3⟩) = some (some false) ∧
    (berAfter (.fqSend ⟨5, 0, 13⟩) berFull).blocked = true ∧ (berAfter (.fqSendTry ⟨5, 0, 13⟩) berFull).reg 5 = 1 := by decide +kernel

/-- A loader whose workgroup holds handle 0; one without a Free handle. -/
def berHeld : State := berS (again (after (.hget hd (bA (.u 5) (.u 8) (.u 9))) stE))
def berNone : State := berS noHandle

theorem test_hyp_beryl_copies :
    (ber.handleAt 1 0).map (·.state) = some 0 ∧ (ber.wg? 1).map (fun g => g.ownRange 0x80 128) = some true ∧
    (berHeld.handle? 1 0).map (·.state) = some 1 ∧ (berNone.handleAt 1 1).map (·.state) = some 1 ∧
    (ber.bctx? 4).map (fun x =>
      let cmd : CopyCmd := ⟨entryBits (x.b.words 0x10000 8), none⟩
      cmd == cmdE && (ber.checkCopy 1 cmd).isNone && ber.engineFirst x.agent && !ber.barred 0 x.agent.party ber.nextId &&
        ((ber.engineGo x.agent).takeLocks x.agent ber.nextId cmd.spans).isSome && ((ber.wg? 1).map fun g => (g.copyCompletes 1).isNone) == some true &&
        !ber.tooLate 1 (CopyOp.new 0 0 x.agent ⟨cmd.raw, some 0x110011⟩ true false [] 0)) = some true := by decide +kernel

theorem test_beryl_copies :
    (berAfter (.fhGet ⟨5, 17, 18⟩)).reg 5 = 0 ∧ ((after (.fhGet ⟨5, 17, 18⟩) ber).handleAt 1 0).map (·.state) = some 1 ∧
    (berAfter (.fhGet ⟨5, 17, 18⟩) berNone).blocked = true ∧ (berAfter (.fhWait ⟨5, 0, 15⟩) berHeld).reg 5 = 1 ∧
    (berAfter (.fhWait ⟨5, 0, 11⟩) berHeld).blocked = true ∧ (berAfter (.fcpIssue ⟨5, 12, 0⟩)).reg 5 = 32 ∧
    (berAfter (.fcpIssueT ⟨5, 12, 20⟩)).reg 5 = 32 ∧ ((after (.fcpIssue ⟨5, 12, 0⟩) ber).wg? 1).map (fun g => (g.chan_ 1).ops.length) = some 1 ∧
    (berAfter (.fwpRead ⟨5, 15, 0⟩)).reg 5 = 0 ∧ (berAfter (.fwpReadWait ⟨5, 15, 0⟩)).pc = 0x24 ∧
    (berAfter (.fwpReadWait ⟨5, 15, 11⟩)).blocked = true := by decide +kernel

/-- FPOLL at 0x10000 of the global page, whose word is 0. -/
def berSleep : State := ber.modCore 0 fun k => { k with loader := { k.loader with sleep := some (.poll 90 64) } }

theorem test_hyp_beryl_poll :
    (ber.bctx? 4).map (fun x => (okM (pollWord ber x 0x10000)).map (·.1)) = some (some 0) ∧ (ber.beryl 0 0).sleep = none ∧
    (berSleep.beryl 0 0).sleep = some (.poll 90 64) ∧ 90 ≤ (berSleep.core 0).cycle ∧ ber.now.toNat < 3 := by decide +kernel

theorem test_beryl_time :
    (berAfter (.ftime ⟨5, 0, 0⟩) { ber with clockNs := 9 }).reg 5 = 9 ∧ (berAfter (.ftimeWait ⟨5, 0, 0⟩)).pc = 0x24 ∧
    (berAfter (.ftimeWait ⟨5, 11, 0⟩)).sleep = some (.time 3) ∧ (berAfter (.fpollEq ⟨5, 12, 0⟩)).pc = 0x24 ∧
    (berAfter (.fpollNe ⟨5, 12, 0⟩)).sleep = some (.poll 116 32) ∧ (berAfter (.fpollLt ⟨5, 12, 15⟩)).pc = 0x24 ∧
    (berAfter (.fpollGt ⟨5, 12, 15⟩)).blocked = true ∧ (berAfter (.fpollLe ⟨5, 12, 0⟩)).pc = 0x24 ∧ (berAfter (.fpollGe ⟨5, 12, 0⟩)).pc = 0x24 ∧
    (berAfter (.fpollNe ⟨5, 12, 0⟩) berSleep).sleep = some (.poll 164 128) := by decide +kernel

/-! ### Launch, admission, retirement -/

/-- The record in the ring of queue 3, and the same record submitted by a completed grid. -/
def ringed (r : BitVec 2048) : State :=
  ((launching r).writePa 0 0 (32 * 65536 + 0x8000) (leBytes 8 0x10000)).modLq 3 fun l => { l with tail := 1 }

def chained : State := (launching goodRecord).modLq 3 fun l => { l with chain := [(0x10000, 4)] }

/-- A flow record that goes on to 0x11000, in the ring and in a chain that is being followed; a ring entry that cannot be read. -/
def flowRecord : BitVec 2048 := (goodRecord &&& ~~~(0xffffffff#2048 <<< 512)) ||| 0x11000#2048 <<< 1536
def flowing : State := ringed flowRecord
def flowChained (n : Nat) : State := (launching flowRecord).modLq 3 fun l => { l with chain := [(0x10000, n)] }
def lostRing : State := (ringed goodRecord).modLq 3 fun l => { l with base := 0x7000000 }

theorem test_hyp_taking :
    ([ringed goodRecord, ringed 0].all fun s => (s.lq 3).en && (s.lq 3).head != (s.lq 3).tail && (s.lq 3).pre.isEmpty &&
      (match s.readCtx 1 ((s.lq 3).slotVa 0) 8 2 with | .ok bs => leNat bs == 0x10000 | .error _ => false)) = true ∧
    (match (ringed goodRecord).checkRecord 1 0x10000 with | .ok _ => true | .error _ => false) = true ∧
    (match (ringed 0).checkRecord 1 0x10000 with | .ok _ => false | .error _ => true) = true ∧
    ((chained.lq 3).chain, ((flowChained 7).lq 3).chain) = ([(0x10000, 4)], [(0x10000, 7)]) ∧
    ([(ringed goodRecord, false), (chained, false), (flowing, true), (flowChained 7, true)].all fun p =>
      (p.1.lq 3).en && match p.1.checkRecord 1 0x10000 with
        | .ok a => (LaunchRec.gridSize a.launch == 0) == p.2 && LaunchRec.cond a.launch == 0 && (LaunchRec.next a.launch != 0) == p.2
        | .error _ => false) = true ∧
    (lostRing.lq 3).en = true ∧ (lostRing.lq 3).chain = [] ∧ (lostRing.lq 3).pre = [] ∧
    (match lostRing.readCtx 1 ((lostRing.lq 3).slotVa (lostRing.lq 3).head) 8 2 with | .ok _ => false | .error _ => true) = true := by decide +kernel

/-- The grid taken from the ring has identity 0, as `nextId` was; it is queued. -/
def taken : State := after (.launchEntryTake 3) (ringed goodRecord)

theorem test_taking :
    (taken.grid? 0).map (fun g => (g.queue, g.ctx, g.st, g.started)) = some (3, 1, .queued, true) ∧ (taken.lq 3).head = 1 ∧
    (taken.lq 3).grids = [0] ∧ ((after (.launchEntryTake 3) chained).lq 3).grids = [0] ∧
    ((after (.launchEntryTake 3) (ringed 0)).lq 3).grids = [] ∧
    ((after (.launchEntryTake 3) flowing).lq 3).chain = [(0x11000, 1)] ∧ ((after (.launchEntryTake 3) (flowChained 7)).lq 3).chain = [(0x11000, 8)] ∧
    ((after (.launchEntryTake 3) (flowChained 65535)).lq 3).chain = [] ∧ ((after (.launchEntryTake 3) lostRing).lq 3).en = false ∧
    -- the status record of the refused launch says 4, STATUS 3, OFFSET 75, of a record whose STATUS is at 0
    (after (.launchEntryTake 3) (ringed 0)).readPa 0 0 (33 * 65536) 3 = [4, 3, 75] := by decide +kernel

/-- A grid that has not started, whose time has come. -/
def timedS : State := { taken with grids := taken.grids.map fun (e : Nat × Option Grid) => (e.1, e.2.map fun g => { g with started := false }) }

theorem test_hyp_started :
    (timedS.grid? 0).map (fun g => (g.started, decide (LaunchRec.start g.launch ≤ timedS.now.toNat))) = some (false, true) ∧
    ((after (.timedStartReached 0) timedS).grid? 0).map (·.started) = some true := by decide +kernel

/-- A head grid that has waited since 0, every cluster being reserved for grids of a queue of QPRIO 1. -/
def waitingS : State :=
  { taken with
    clockNs := 100000
    lqs := taken.lqs.put LQueue.zero 4 { LQueue.zero with ctl := 0x1000 }
    grids := (0, (taken.grid? 0).map fun g => { g with headSince := some 0 }) ::
      (List.range 32).map fun i => (i + 1, some { grid0 with queue := 4, reserved := some i }) }

/-- Some cluster is the closest to fitting. -/
theorem closest_isSome (s : State) (g : Grid) : (s.closest g).isSome = true := by
  have key : ∀ (l : List Nat) (b : Option (Nat × Nat)), (b.isSome = true ∨ l ≠ []) →
      (l.foldl (fun best c =>
        match best with
        | none => some (c, s.fitCount g c)
        | some (b, n) => if n < s.fitCount g c then some (c, s.fitCount g c) else some (b, n)) b).isSome = true := by
    intro l
    induction l with
    | nil => intro b h; simpa using h
    | cons x xs ih =>
      intro b _
      refine ih _ (.inl ?_)
      cases b with
      | none => rfl
      | some b => dsimp only; split <;> rfl
  have hs : s.scan ≠ [] := by
    intro h
    have : (s.scan).length = 32 := by simp [State.scan, clusterCount]
    simp [h] at this
  rw [State.closest, Option.isSome_map]
  exact key s.scan none (.inr hs)

theorem test_hyp_reserve :
    (waitingS.grid? 0).map (fun g => (g.headSince, g.reserved)) = some (some 0, none) ∧ 0 ∈ waitingS.heads ∧ waitingS.fitsNow 0 = false ∧
    ∃ g c, waitingS.grid? 0 = some g ∧ waitingS.closest g = some c := by
  refine ⟨by decide +kernel, by decide +kernel, by decide +kernel, ?_⟩
  have h : (waitingS.grid? 0).isSome = true := by decide +kernel
  obtain ⟨g, hg⟩ := Option.isSome_iff_exists.1 h
  obtain ⟨c, hc⟩ := Option.isSome_iff_exists.1 (closest_isSome waitingS g)
  exact ⟨g, c, hg, hc⟩

/-- Of cluster 0 only the cores below `n` are not offline. -/
def lit (n : Nat) (s : State) : State :=
  { s with cores := s.cores ++ (List.range (16 - n)).map fun i => (n + i, { Core.zero with offline := true }) }

/-- What is admitted where. -/
theorem test_hyp_admission :
    (lit 5 taken).nextAdmission.map (fun x => (x.1, x.2.2.length)) = some (0, 1) ∧ (lit 5 taken).newInstance.1 < supBase := by
  decide +kernel

/-- A team of two, and the grid of a work graph with a closed batch. -/
def teamRecord : BitVec 2048 :=
  launch0 ||| 0x400#2048 <<< 384 ||| 2#2048 <<< 512 ||| 32#2048 <<< 576 ||| 1#2048 <<< 586 ||| 1#2048 <<< 596 ||| 2#2048 <<< 612

def teamTaken : State := lit 6 (after (.launchEntryTake 3) (ringed teamRecord))

def nodeS : State :=
  let rec_ : BinRec := ⟨List.replicate 32 0, List.replicate 8 false, 7, 0, false, .warp 1 0, []⟩
  { (lit 5 taken) with grids := taken.grids.map fun (e : Nat × Option Grid) => (e.1, e.2.map fun g =>
      { g with
        nodes := [0x40#256 ||| 2#256 <<< 176 ||| 1#256 <<< 185]
        bins := [⟨0, 0, [[rec_]], []⟩] }) }

theorem test_hyp_teams :
    teamTaken.nextAdmission.map (fun x => (x.1, x.2.1, x.2.2.length)) = some (0, 0, 2) ∧
    (teamTaken.grid? 0).map (fun g => LaunchRec.team g.launch) = some 2 ∧
    ((nodeS.grid? 0).map fun g => ((g.nodes[0]?).isSome, (g.takeBatch 0 0).map (·.1.length), g.freeIndex, LaunchRec.warps g.launch)) =
      some (true, some 1, some 1, 1) ∧
    (nodeS.nodePlace 0 0).isSome = true ∧ nodeS.admitTurn = some (0, none) ∧ nodeS.newInstance.1 < supBase ∧ teamTaken.nextInst + 2 ≤ 2 ^ 32 := by
  decide +kernel

/-- An admitted workgroup stands at WIMG with no weight; a team has two members; a node workgroup has the weight of its batch. -/
theorem test_admission :
    ((after (.workgroupAdmit 0) (lit 5 taken)).wg? 2).map (fun w => (w.wgid, w.core, w.warps.length, w.pool.length)) = some (0, 4, 1, 16) ∧
    ((after (.workgroupAdmit 0) (lit 5 taken)).warp (.user 2 0)).kGet 62 = 0 ∧
    ((after (.teamAdmit 0) teamTaken).team? 1).map (fun m => m.members) = some [2, 3] ∧
    ((after (.nodeWorkgroupAdmit 0 0 0) nodeS).warp (.user 2 0)).kGet 62 = 7 ∧
    (((after (.nodeWorkgroupAdmit 0 0 0) nodeS).warp (.user 2 0)).thread 0).pc = 0x40 := by decide +kernel

/-- A workgroup whose warp has exited. -/
def retiring : State := { ((after (.exit hd) st0).modWg 1 fun g => { g with pool := [0, 1] }) with
  cur := .wg 1
  grids := [(0, some grid0)] }

theorem test_hyp_retire :
    (retiring.wg? 1).map (fun g => (g.copyOf, g.screened, retiring.mayRetire 1 g, retiring.abandonOrphans 1 g == retiring)) =
      some (none, false, true, true) ∧ (retiring.grid? 0).isSome = true := by decide +kernel

/-- A grid whose one workgroup has retired. -/
def doneS : State := { after .workgroupRetire { retiring with grids := [(0, some { grid0 with launch := goodRecord })] } with agenda := [] }

theorem test_hyp_done : (doneS.grid? 0).map (fun g => (doneS.gridDone g, LaunchRec.cond g.launch)) = some (true, 0) := by decide +kernel

/-- A workgroup that has been blocked since 0 under a limit of 1 µs. -/
def stuckS : State :=
  { (after (.barw hd (bA z (.sp 0x30) (.imm 0))) st0).modWg 1 (fun g => { g with stuckSince := some 0 }) with
    cur := .wg 1
    clockNs := 1001
    ctxs := [(1, { CtxRegs.zero with blklim := 1 })] }

theorem test_hyp_stuck : (stuckS.wg? 1).map (fun g => (g.stuckSince, g.candidate, stuckS.stuck g)) = some (some 0, false, true) := by decide +kernel

theorem test_retirement :
    (after .workgroupRetire retiring).wg? 1 = none ∧ ((after .workgroupRetire retiring).grid? 0).map (·.retired) = some 1 ∧
    (after (.gridComplete 0) doneS).grid? 0 = none ∧ ((after .blockedTimeLimit stuckS).core 0).pcand = 1 ∧
    ((after .blockedTimeLimit stuckS).wg? 1).map (·.candidate) = some true := by decide +kernel

/-- A screened workgroup's copy to admit on the other die, where one core is not offline; then ended with a signature of 0. -/
def screen0 : Screen := { grid := 0, inst := 1, wgid := 0, cluster := 0, copy := none, signature := 5 }

def screenS : State :=
  { taken with
    screens := [screen0]
    cores := taken.cores ++ (List.range 15).map fun i => (257 + i, { Core.zero with offline := true }) }

def copyDone : State :=
  { (retiring.modWg 1 fun g => { g with copyOf := some 9 }) with
    screens := [{ screen0 with inst := 9, copy := some 1 }] }

theorem test_hyp_copies :
    (screenS.grid? 0).map (fun g => (screenS.copyPlace 0 g.launch 0, screenS.admissionHeld g.ctx, decide (screenS.newInstance.1 < supBase))) = some (some 256, false, true) ∧
    (copyDone.wg? 1).map (fun g => (g.copyOf, copyDone.mayRetire 1 g)) = some (some 9, true) ∧
    (copyDone.screens.find? fun y => y.copy == some 1).isSome = true := by decide +kernel

theorem test_copies :
    (after (.screenCopyAdmit 0) screenS).screens.map (·.copy) = [some 2] ∧ ((after (.screenCopyAdmit 0) screenS).wg? 2).map (·.copyOf) = some (some 1) ∧
    (after .screenCopyEnd copyDone).reports = [(0, 0x186)] ∧ (after .screenCopyEnd copyDone).wg? 1 = none := by decide +kernel

/-- A workgroup that has been brought to rest. -/
def resting : State :=
  { (between fun _ => ⟨0, none, none, [], .ready, 0, false, 0, 0⟩).modWg 1 (fun g => { g with resting := true }) with cur := .wg 1 }

theorem test_hyp_rest :
    (resting.wg? 1).map (fun g => (resting.reachedRest 1 g, resting.mates 1 g.team, g.saveTo)) = some (true, [1], none) ∧
    ((resting.modWg 1 fun g => { g with saveTo := some 0x10000 }).wg? 1).map (·.saveTo) = some (some 0x10000) := by decide +kernel

theorem test_rest : ((after .workgroupAtRest resting).wg? 1).map (fun g => (g.frozen, g.resting)) = some (true, false) := by decide +kernel


/-! ### The gate unit, walks and shootdowns -/

/-- A bound layer of two experts of which one is chosen; token vectors at 0x10000, 256 bytes apart. -/
def gateS : State :=
  { st0 with gate := { Gate.zero with
      bound := true
      ctx := 1
      experts := [([0x3f800000, 0], 0x11), ([0, 0x3f800000], 0x22)]
      choose := 1
      addr1 := 0x10000
      stride1 := 0x100 } }

/-- The layer's vectors are where nothing is mapped. -/
def gateLost : State := { gateS with gate := { gateS.gate with addr1 := 0 } }

/-- The access table of target 4 gives context 1 no host (class 8), or no gate unit (class 7). -/
def gateDenied (cls : Nat) : State := { gateS with access := [(4 * 4096 + 1, some (BitVec.ofNat 64 (0xfffffffffff - 15 * 16 ^ cls)))] }

/-- Token 1 with the elements 1 and 2. -/
def gated : State := after (.gateTokenArrive 1 [0x3f800000, 0x40000000]) gateS

theorem test_hyp_gate :
    gateS.gate.bound = true ∧ gateS.gate.stopped = false ∧ gateS.up = true ∧ gateLost.mayAccess 4 1 8 2 = true ∧ gateLost.mayAccess 4 1 7 1 = true ∧
    [8, 7].map (fun n => ((gateDenied n).mayAccess 4 1 8 2, (gateDenied n).mayAccess 4 1 7 1)) = [(false, true), (true, false)] ∧
    gateS.mayAccess 4 1 8 2 = true ∧ gateS.mayAccess 4 1 7 1 = true ∧
    ([(gateS, true), (gateLost, false)].all fun p =>
      (match p.1.gateWrite p.1.gate (p.1.gate.addr 1) [0x3f800000, 0x40000000] with | .ok _ => true | .error _ => false) == p.2) = true ∧
    gated.gate.pending.length = 1 ∧ gated.gate.owner = none ∧
    (match gated.gate.pending with | es :: _ => (gated.core 0).tape.takes es && decide ((gated.core 0).tape.tail < 4096) | [] => false) = true := by
  decide +kernel

/-- Expert 1 scores 2 and is chosen with weight 1; its entry names token 1 at 0x10100, where 2.0 stands second. -/
theorem test_gate :
    gated.gate.pending = [[0x3f800000#32 ++ 0#16 ++ 1#16 ++ 0x10100#64 ++ 0x122#128]] ∧
    gated.readPa 0 0 (32 * 65536 + 0x104) 4 = [0, 0, 0, 0x40] ∧
    ((after .gateTapeEntryWrite gated).core 0).tape.tail = 1 ∧ (after .gateTapeEntryWrite gated).gate.pending = [] ∧
    (after (.gateTokenArrive 1 [0]) gateLost).gate.stopped = true ∧ (after (.gateTokenArrive 1 [0]) (gateDenied 7)).gate.stopped = true ∧
    (after (.gateTokenArrive 1 [0]) (gateDenied 8)).outbox.map (·.out) = [.host none] := by decide +kernel

/-- The page at 0x10000 as a pinned one. -/
def pinnedPage : TlbEntry := { page0 with entry := page0.entry ||| 0x800 }

/-- An MMA that has started and holds its pages, 200 µs after a TLBI of everything. -/
def shotS : State := { (startedE (.mma hf mmaB)).modCore 0 fun k => { k with mats := k.mats.map fun m => { m with holds := [pinnedPage] } } with
  shoots := [⟨0, 2, 0, 0, 0, 0, 0⟩]
  clockNs := 200000 }

/-- The same page in the cluster's TLB; its walk at the lowest table; a walk of a page that nothing maps. -/
def walk2 : State := { walked st0 with tlb2 := [(0, [⟨1, 0, false, 0x000000210000007f, 0⟩])] }
def midWalk : State := { walked st0 with walks := [⟨0, 1, 0, 1, 42, [0], none⟩] }
def joinedWalk : State := { walked st0 with walks := [⟨0, 1, 0, 1, 42, [3, 0], some 0x000000210000007f⟩] }
def badWalk : State := { walked st0 with walks := [⟨0, 1, 0x7000000, 1, 42, [0], none⟩] }

theorem test_hyp_walk :
    ([walked st0, walk2, midWalk, badWalk].all fun s => (tlbFind (s.core 0).tlb 1 0).isNone && (s.walkCache.get [] 0).isEmpty) = true ∧
    tlbFind (walk2.tlb2.get [] 0) 1 0 = some ⟨1, 0, false, 0x000000210000007f, 0⟩ ∧
    tlbFind ((walked st0).tlb2.get [] 0) 1 0 = none ∧ (walked st0).walkOf 0 1 0 = none ∧ midWalk.walkOf 0 1 0 = some ⟨0, 1, 0, 1, 42, [0], none⟩ ∧
    (match (walked st0).walk 1 .load 0 with | .ok x => some (x.1.toNat, x.2) | .error _ => none) = some (0x210000007f, false) ∧
    (match midWalk.walkFrom [] 1 .load 0 42 1 with | .ok x => some (x.1.toNat, x.2.1) | .error _ => none) = some (0x210000007f, false) ∧
    [walked st0, midWalk, joinedWalk].all (fun s => s.walks.all fun v => !v.isFor 0 1 0 || some v == s.walkOf 0 1 0) = true ∧
    (joinedWalk.walkOf 0 1 0).map (·.leaf) = some (some 0x210000007f) ∧
    (match joinedWalk.leafOf .load 0 0 0x210000007f with | .ok x => some (x.1.toNat, x.2) | .error _ => none) = some (0x210000007f, false) ∧
    ([walked st0, badWalk].all fun s => match s.walkFor 0 1 .load 0x7000000 with | .ok _ => false | .error _ => true) = true ∧
    ((shotS.core 0).mats.any fun m => !m.parked && !m.complete && m.holds.any (Shoot.pins ⟨0, 2, 0, 0, 0, 0, 0⟩)) = true := by decide +kernel

theorem test_walk :
    ([walked st0, walk2, midWalk, joinedWalk].all fun s => ((after (.pageWalkComplete 0 1 0) s).core 0).tlb.length == 2) = true ∧
    (after (.pageWalkComplete 0 1 0x7000000) badWalk).walks = [] ∧ (after (.pageWalkComplete 0 1 0) joinedWalk).walks.map (·.joined) = [[3]] ∧
    (mats (after .shootdownTimeout shotS)).map (fun m => (m.parked, m.holds.length)) = [(true, 0)] := by decide +kernel

/-! ### The gang -/

/-- Contexts 0 and 1 by tables; a switch record at 0x10000 of context 0. -/
def recorded (r : BitVec 512) : State :=
  let s := walked st0
  let s := s.writePa 0 0 (42 * 65536 + 16) (leBytes 8 0x000000240000007f ++ leBytes 8 0x000000250000007f)
  { s.writePa 0 0 (32 * 65536) (leBytes 64 r.toNat) with ctxs := s.ctxs.put .zero 0 { CtxRegs.zero with root := 0x280001 } }

/-- T, GEN, OUTCTX and INCTX of a record. -/
def sw (t gen out in_ : Nat) : BitVec 512 := BitVec.ofNat 512 (t + 2 ^ 64 * gen + 2 ^ 80 * out + 2 ^ 96 * in_)

def swOf (r : BitVec 512) : Switch := ⟨r, [], [], 0, [], false, false⟩

/-- The record that a write of swq reads. -/
def swqReads (s : State) : Bool :=
  match s.readCtx 0 0x10000 64 2 with
  | .ok bs => let r : SwitchRec := BitVec.ofNat 512 (leNat bs); s.tableOk r.outTab r.outN && s.tableOk r.inTab r.inN
  | .error _ => false

/-- Every clause of the queueing is met: by the records of STATUS 1 to 7 and of one that is queued. -/
def swqCases : List State :=
  let good := recorded (sw 10000 1 0 1)
  [recorded (sw 10000 1 0 1 ||| 1#512 <<< 92), recorded (sw 9999 1 0 1), { good with lastSwitch := some (0, 0, 0) },
   recorded (sw 10000 2 0 1), recorded (sw 10000 1 3 1), { good with gfaulted := [1] },
   { recorded (sw 60000 1 0 1) with switches := List.replicate 4 (swOf 0) }, good]

theorem test_hyp_gang_setup :
    State.reset.wgs = [] ∧ State.reset.saved = [] ∧ (0x103020007 : DWord).extractLsb' 16 8 ≤ (0x103020007 : DWord).extractLsb' 24 8 ∧
    st0.wgs ≠ [] ∧ (swqCases.all swqReads) = true := by decide +kernel

theorem test_gang_setup :
    (after (.gangcfgWrite 0x103020007) State.reset).member = 2 ∧ (after (.gangcfgWrite 0x103020007) st0).gangcfg = 0 ∧
    swqCases.map (fun s => (after (.swqWrite 0 0x10000) s).swStatus) = [1, 2, 3, 4, 5, 6, 7, 0] ∧
    (after (.swqWrite 0 0x10008) (recorded (sw 10000 1 0 1))).swStatus = 1 ∧
    (after (.swqWrite 0 0x10000) (recorded (sw 10000 1 0 1))).switches.length = 1 ∧
    (after (.gfaultClear 1) { st0 with gfaulted := [1, 2] }).gfaulted = [2] := by decide +kernel

/-- The switch from context 1 to context 2 at T = 100 µs and generation 1, at a time and in a phase. -/
def sw1 : BitVec 512 := sw 100000 1 1 2 ||| 0x10040#512 <<< 128 ||| 1#512 <<< 192

def switching (ns phase : Nat) : State :=
  { (recorded sw1).writePa 0 0 (32 * 65536 + 64) (leBytes 8 0x20000) with
    clockNs := ns
    switches := [{ swOf sw1 with phase := phase, outTab := if phase = 1 then [0x20000] else [] }] }

/-- The same once its workgroup is saved, in a state of the gang clock. -/
def gone (clock : Nat) (ready commit : List Nat) : State :=
  { switching 100000 2 with wgs := [], clockState := clock, readySet := ready, commitSet := commit }

theorem test_hyp_switches :
    (let s := switching 100000 1
     s.residentsOf 1 = [1] ∧ (s.wg? 1).map (fun g => (g.saveTo, g.frozen, s.areaOk 0x20000 1 g)) = some (none, false, true)) ∧
    ((gone 3 [] []).switches.map fun w => (w.short, (gone 3 [] []).outSaved w)) = [(false, true)] ∧
    (gone 2 [256] []).allMembers [256] 1 = true ∧ (switching 100000 3).restoreAll [] = ([], switching 100000 3) ∧
    ((switching 120000 1).switches.map fun w => (w.straggler, w.phase, (switching 120000 1).outSaved w)) = [(false, 1, false)] := by decide +kernel

theorem test_switches :
    (after .switchPrestage (switching 90000 0)).switches.map (fun w => (w.phase, w.outTab)) = [(1, [0x20000])] ∧
    (after .switchPrestage (switching 89999 0)).switches.map (·.phase) = [0] ∧
    ((after .switchSaveStart (switching 100000 1)).wg? 1).map (·.saveTo) = some (some 0x20000) ∧
    (after .switchAdvance (gone 3 [] [])).gen = 1 ∧ (after .switchAdvance (gone 2 [] [])).readySet = [256] ∧
    (after .switchAdvance (gone 2 [256] [])).commitSet = [256] ∧ (after .switchAdvance (gone 2 [256] [256])).gangCtx = 2 ∧
    (after .switchReleased (switching 100000 3)).lastSwitch = some (100000, 1, 2) ∧
    (after .gangStraggler (switching 120000 1)).outbox.map (·.out) = [.straggler 1 1] ∧
    (after .switchFaultTimeout (switching 600000 1)).gfaulted = [1, 2] ∧
    (after (.faultNoticeReceive 1 2 false) (switching 0 1)).gfaulted = [2] ∧
    (after (.handshakeReady 0 1) st0).readySet = [256] ∧ (after (.handshakeCommit 0 1) st0).commitSet = [256] := by decide +kernel

/-- Member 2 of gang 7, of four members, at 2 ms. -/
def gangS : State := { st0 with
  gangcfg := 0x103020007
  clockNs := 2000000 }

/-- A message of 9 grains of account 5 of member 2, to a workgroup of a member. -/
def msg (member inst : Nat) : Message := ⟨0, 0, 0x805, 9, BitVec.ofNat 64 (inst * 2 ^ 32 + member)⟩

def packet (gang gen stamp : Nat) : Packet := .message ⟨BitVec.ofNat 16 gang, BitVec.ofNat 16 gen, BitVec.ofNat 24 stamp⟩ (msg 2 1) 3 77

/-- What an arriving packet leaves: messages delivered, packets held, counts of drops, and notices. -/
def arrives (p : Packet) (x : Nat × Nat × Nat) (o : List Out) : Bool :=
  let t := after (.gangPacketArrive p) gangS
  x == (t.flights.length, t.held.length, t.gdrop.toNat) && t.outbox.map (·.out) == o

theorem test_packets :
    (arrives (packet 8 0 2000) (0, 0, 0) [.refusal 3 77] && arrives (packet 7 0 999) (0, 0, 1) [.dropped 3 77] &&
      arrives (packet 7 0 1000) (1, 0, 0) [] && arrives (packet 7 20 2000) (0, 1, 0) [] &&
      arrives (packet 7 21 2000) (0, 0, 0x100000000) [.dropped 3 77] && arrives (packet 7 65516 2000) (1, 0, 0) []) = true ∧
    ((after (.gangPacketArrive (packet 7 0 999)) gangS).account 5).lost = 9 := by decide +kernel

/-- A peer access that may be performed: 4 bytes at offset 8 of the aperture, whose page 0 exports frame 32. -/
def peerS (exported : Bool) : State :=
  let s := (gangS.writePa 0 0 (50 * 65536) (leBytes 8 0x000000200000001d)).writePa 0 0 (32 * 65536 + 8) [1, 2, 3, 4]
  { s with
    held := [⟨.access ⟨7, 0, 2000⟩ 3 8 4 (.read 0), 0, true⟩]
    paptbase := if exported then 50 * 65536 + 1 else 0 }

/-- The same word as the gate unit has written it, with nothing that orders the member after it. -/
def racyPeer : State :=
  (peerS true).addHist ⟨.gate, .gate, 1, false, 0⟩ true ({ (⟨(peerS true).placeOfPa (32 * 65536 + 8), 4, true, 0, 0⟩ : Piece) with tracked := true }).locs

theorem test_hyp_peer :
    ([true, false].all fun b => (peerS b).held.length == 1) = true ∧ gangS.holdRoom (packet 7 20 2000) = true ∧
    ({ gangS with held := [⟨.access ⟨7, 20, 2000⟩ 3 8 262144 (.read 0), 20, false⟩] }).holdRoom (packet 7 20 2000) = false ∧
    ((peerS true).held.map fun h => (h.access?).map fun x => (x.1, x.2.1, x.2.2.1)) = [some (3, 8, 4)] ∧
    [peerS true, racyPeer].map (fun s => s.peerRaces 3 ⟨s.placeOfPa (32 * 65536 + 8), 4, false, 0, 0⟩ (.read 0)) = [false, true] ∧
    (peerS true).aperture 8 .load = some (32 * 65536 + 8, 0) ∧ (peerS false).aperture 8 .load = none ∧ gangS.gen < 65536 ∧
    (7 : BitVec 16).toNat = gangS.gangId ∧ gangS.gloss < 2 ^ 32 - 1 := by decide +kernel

theorem test_peer :
    (after (.peerAccessArrive 0) (peerS true)).outbox.map (·.out) = [.reply 3 (some [1, 2, 3, 4])] ∧
    [peerS false, racyPeer].map (fun s => (after (.peerAccessArrive 0) s).outbox.map (·.out)) = [[.reply 3 none], [.reply 3 none]] ∧ (after (.lossNoticeReceive 7 []) gangS).gloss = 1 ∧
    (after (.lossNoticeReceive 8 []) gangS).gloss = 0 := by decide +kernel

/-- A message to member 3 in the buffer of workgroup 1, counted on flag 1. -/
def departing : State :=
  let e : QEntry := ⟨messageWords (msg 3 4), 0, .warp 1 0, [], 50, Mask.all⟩
  let s := (gangS.modWg 1 fun g => { g with fabBuf := { g.fabBuf with filled := [(e, 9)] } }).modWarp (.user 1 0) fun w => { w with cf := [(0, 1)] }
  { s with cur := .wg 1 }

/-- Messages under way to this member, and this member's own that has left. -/
def arriving (inst : Nat) : State := { gangS with
  flights := [⟨msg 2 inst, 3, none, 77, 2, false, []⟩]
  lostInst := [(6, 0)] }

def sentOff (refused : Bool) : State := { departing with flights := [⟨msg 3 4, 2, some (.warp 1 0, 1), 9, 3, refused, []⟩] }

theorem test_hyp_fabric :
    (departing.wg? 1).map (fun g => (g.fabBuf.filled.find? fun x => messageMember (messageOf x.1.data) != departing.member).map (·.2)) =
      some (some 9) ∧ departing.slowLinks.contains 3 = false ∧
    [1, 5, 6].map (fun i => (arriving i).arrival (msg 2 i)) = [.accept, .refuse, .lost] ∧
    ((arriving 1).flights.map fun f => (f.refused, f.toMember == (arriving 1).member, (arriving 1).firstOf 0 f)) = [(false, true, true)] ∧
    ((sentOff true).warp? (.user 1 0)).isSome = true ∧ ((sentOff false).sentFlight 9).map (·.1) = some 0 := by decide +kernel

/-- The flag of the sender and the causes recorded on it. -/
def flagOf (s : State) : Nat × List Nat :=
  ((s.warp (.user 1 0)).cf.get 0 0, ((s.warp (.user 1 0)).errq.get [] 0).map fun r => r.cause.code)

theorem test_fabric :
    (after .fabricSendDepart departing).flights.map (fun f => (f.msg, f.toMember, f.refused, f.sendId)) = [(msg 3 4, 3, false, 9)] ∧
    ((after (.fabricMessageDeliver 0) (arriving 1)).wg? 1).map (fun g => g.inbox.map fun e => e.data.take 3) = some [[2, 1, 9]] ∧
    (after (.fabricMessageDeliver 0) (arriving 5)).flights.map (·.refused) = [true] ∧
    ((after (.fabricMessageDeliver 0) (arriving 6)).account 5).lost = 9 ∧
    (after .fabricSendDepart { departing with slowLinks := [3] }).flights = [] ∧
    flagOf (after (.refusalReturn 0) (sentOff true)) = (0, [0x103]) ∧ ((after (.refusalReturn 0) (sentOff true)).account 5).returned = 9 ∧
    flagOf (after (.dropNoticeReceive 9) (sentOff false)) = (0, [0x1c8]) := by decide +kernel

/-- The gang clock in a state, 11 s after the last message. -/
def clockS (st n : Nat) : State := { st0 with
  clockState := st
  syncCount := n
  timeKnown := true
  clockNs := 11000000000 }

theorem test_hyp_clock :
    (clockS 0 0).gangLast = 0 ∧ (clockS 0 0).timeKnown = true ∧ st0.timeKnown = false ∧ ({ gangS with grandmaster := true }).grandmaster = true ∧ (clockS 0 0).lastSync + 1000000000 ≤ (clockS 0 0).clockNs ∧
    (clockS 1 0).holdoverAt + 10000000000 ≤ (clockS 1 0).clockNs := by decide +kernel

theorem test_clock :
    (after (.ptpSyncMessage (BitVec.ofInt 32 (-1001))) (clockS 0 0)).clockState = 1 ∧ (after (.ptpSyncMessage 1000) (clockS 0 0)).clockState = 0 ∧
    (after (.ptpSyncMessage 200) (clockS 3 15)).clockState = 0 ∧ (after (.ptpSyncMessage 201) (clockS 3 15)).clockState = 3 ∧
    (after (.ptpSyncMessage 200) (clockS 3 14)).clockState = 3 ∧ (after .ppsEdge { clockS 3 0 with clockNs := 999999900 }).gangOffset = -100 ∧
    (after .ppsEdge { clockS 3 15 with clockNs := 2000000000, timeKnown := false }).clockState = 3 ∧
    (after .syncLossTimeout (clockS 0 0)).clockState = 1 ∧ (after .holdoverTimeout (clockS 1 0)).clockState = 2 := by decide +kernel

/-! ### Reliability, power, the controller and the host -/

/-- Core 0 after some reports of its Beryl zone. -/
def struck (n : Nat) : State := { withCore (fun k => { k with reports := List.replicate n (.beryl, 50) }) with cur := .core 0 }

theorem test_hyp_errors :
    [0, 3].map (fun n => ((struck n).core 0).offline) = [false, false] ∧ (zoneKey .beryl).isSome = true ∧
    [0, 3].map (fun n => (((struck n).core 0).reports.filter fun r => r.1 == .beryl && decide (((struck n).core 0).cycle < r.2 + 256)).length) =
      [0, 3] := by decide +kernel

theorem test_errors :
    ((after (.strikeReport 0 .beryl) (struck 3)).core 0).relcnt = 1 ∧ ((after (.timingNearMiss 0 .beryl) (struck 3)).core 0).relcnt = 0x100000000 ∧
    ((after (.strikeReport 0 .beryl) (struck 3)).core 0).offline = true ∧
    (after (.timingNearMiss 0 (.slice 17)) { struck 0 with sliceReports := List.replicate 3 (17, 0) }).reports = [(256, 0x182)] ∧
    ((after .machineError (struck 0)).core 0).offline = true ∧ (after .machineError (struck 0)).wg? 1 = none ∧
    (after .machineError (struck 0)).outbox.map (·.out) = [.loss 0 0 0 [⟨1, 1, 0⟩]] := by decide +kernel

/-- A tripped module, and bring-up with four good images, or with firmware below the floor. -/
def image (kind svn : Nat) : Image := ⟨BitVec.ofNat 256 (0x5f3a + kind * 2 ^ 16 + svn * 2 ^ 32), true⟩

def boot (svn : Nat) : BootIn := ⟨image 1 svn, image 2 4, image 3 4, image 4 4, 3, 4, true, some 5000, 1000, List.replicate 6 0, 600⟩

def tripped : State := after (.thermalTrip 7 2 0x2d8) { st0 with clockNs := 0x1234 }

theorem test_hyp_power :
    st0.up = true ∧ st0.trip.getLsbD 127 = false ∧ ({ st0 with trip := 1#128 <<< 127 }).trip.getLsbD 127 = true ∧
    Power.legal ⟨110, 116, true, 116, 4, 2, 0⟩ = true ∧ [3, 2].map (fun n => bootOk (boot n)) = [true, false] ∧
    tripped.railsOff = true ∧ st0.railsOff = false ∧ (boot 3).hottest.toNat < 0x290 := by decide +kernel

theorem test_power :
    tripped.up = false ∧ tripped.wgs = [] ∧ tripped.trip = (1#1 ++ 0#41 ++ 0x2d8#10 ++ 2#2 ++ 7#5 ++ 0#5 ++ 0x1234#64) ∧
    (after (.thermalTrip 7 2 0x2d7) st0).up = true ∧ (after (.bringUp (boot 3)) tripped).up = true ∧
    (after (.bringUp { boot 3 with hottest := 0x290 }) tripped).up = false ∧
    (after (.bringUp (boot 3)) tripped).clockNs = 5000 ∧ (after (.bringUp (boot 2)) tripped).reports = [(0, 0x188), (0, 0x18a)] ∧
    ((after (.powerInterval 3 ⟨110, 116, true, 116, 4, 2, 0⟩) st0).cluster 3).freq = 110 ∧
    ((after (.powerInterval 3 ⟨110, 116, true, 116, 4, 2, 0⟩) st0).cluster 3).grant = 2 ∧
    ((after (.powerInterval 0 ⟨110, 116, true, 116, 4, 2, 0⟩) (withCore fun k => { k with rail := [(1, some 3)] })).core 0).rail.get none 1 = none ∧
    ((after (.railDroop 0 1 0) st0).core 0).rail.get none 1 = some 1 ∧ ((after (.railDroop 0 1 4) st0).core 0).rail.get none 1 = none := by
  decide +kernel

/-- The mailbox is busy with a command. -/
def busy (op : Nat) : State := { walked st0 with
  mbxstat := 1
  mbxCmd := BitVec.ofNat 512 op
  keys := [(0, some 0), (7, some 1)]
  bar2base := 0x10000
  bar2ctx := 1
  ctxs := (walked st0).ctxs.put .zero 0 { CtxRegs.zero with root := 0x280001 } }

/-- A byte written under key 7 has not reached its stack. -/
def dirtyKey : State := { busy 2 with sectorKey := [(33 * 2048, 7)], arrays := [(33 * 65536, some ⟨0, 0, false, [], none⟩)] }

theorem test_hyp_controller :
    ([1, 2, 3, 4].all fun n => (busy n).mbxBusy n) = true ∧ (busy 1).keys.get none 6 = none ∧ (busy 1).keys.get none 7 ≠ none ∧
    (busy 1).up = true ∧ tripped.up = false ∧
    (busy 2).keyDirty ((busy 2).keyTag 7) = false ∧ dirtyKey.mbxBusy 2 = true ∧
    (((dirtyKey.sendDirty fun c => dirtyKey.sectorKey.get 0 (c / 32) == 7).evict fun l => l.tag == 7).keyDirty 7) = true ∧
    ([(AccKind.load, false), (.store, true)].all fun p =>
      match (busy 1).hostPieces p.1 (pageParts 0x10000 8) with
        | .ok (ps, s) => (s.hostRaces 0x10000 ps p.2).isNone && ((s.addHist ⟨.gate, .gate, 1, false, 0⟩ true
            (ps.flatMap fun p => { p with tracked := true }.locs)).hostRaces 0x10000 (ps.map fun p => { p with tracked := true }) p.2).isSome
        | .error _ => false) = true ∧
    ([(AccKind.load, 0, true), (.store, 0, true), (.load, 0x70000, false)].all fun p =>
      (match (busy 1).hostPieces p.1 (pageParts ((busy 1).bar2base + BitVec.ofNat 64 p.2.1).toNat 8) with
        | .ok x => x.1.length == 1 && x.1.all fun y => match y.place with | .pa a => !x.2.isPeer a && !x.2.isPeer (a + 7) | _ => false
        | .error _ => false) == p.2.2) = true := by decide +kernel

theorem test_controller :
    (after (.keygen 6 3) (busy 1)).keys.get none 6 = some 3 ∧ (after (.keygen 7 3) (busy 1)).mbxstat = 3 ∧
    (after (.keygen 0 3) (busy 1)).mbxstat = 3 ∧ (after (.keyclr 7) (busy 2)).keys.get none 7 = none ∧
    (after (.keyclr 7) dirtyKey).mbxstat = 1 ∧ (after (.keyclr 7) dirtyKey).keys.get none 7 = some 1 ∧
    (after (.triprd 0x10000) (busy 3)).mbxstat = 2 ∧ (after (.triprd 0x50000) (busy 3)).mbxstat = 3 ∧
    (after (.hostInboundAccess (.bar0Write 0x3000 0x12fff)) (busy 1)).outbox = [] ∧
    ((after (.hostInboundAccess (.bar0Write 0x3000 0x12fff)) (busy 1)).lq 3).base = 0x12000 ∧
    (after (.hostInboundAccess (.bar0Read 0x3000)) (busy 1)).outbox.map (·.out) = [.host (some [0, 0x80, 1, 0, 0, 0, 0, 0])] := by decide +kernel

/-! ### Further conditions of the statements -/

theorem test_hyp_zones :
    ([atBoundary, atMeeting, atFlags].all fun s => !s.zoneStalls (.user 1 0) && (s.warp (.user 1 0)).deferred.isEmpty) = true ∧
    ([sleeper waitqWord (.asleep (.account 5)), sleeper (pollCode 0) (.asleep (.poll 200 32))].all fun s => !s.zoneStalls (.user 1 0)) = true ∧
    given.getsRow 0 (.warp 1 0) 0 = false ∧ (List.range 32).all (fun l => match (st0.lane c0 l).st with | .blocked _ => false | _ => true) = true := by
  decide +kernel

/-- The warp of `s` holds 9 grains of an account. -/
def weighs (s : State) (acct : Word) : State := s.modWarp (.user 1 0) fun w => { w with k := (w.k.put 0 62 9).put 0 63 acct }

/-- Account 5 is of this member's context 1, or of member 3; account 6 is no one's. -/
theorem test_hyp_exit_weight :
    (weighs quietE 5).acctValid 5 1 = true ∧ acctMember 5 = quietE.member ∧ (weighs quietE 6).acctValid 6 1 = false ∧
    (weighs gangS 0xc05).acctValid 0xc05 1 = true ∧ acctMember 0xc05 ≠ gangS.member ∧ ((weighs gangS 0xc05).warp (.user 1 0)).deferred = [] := by
  decide +kernel

theorem test_exit_weight :
    ((after (.exit hd) (weighs quietE 5)).account 5).lost = 9 ∧ (after (.exit hd) (weighs gangS 0xc05)).outbox.map (·.out) = [.account 0xc05 .lost 9] ∧
    (after (.exit hd) (weighs { quietE with evbase := 1 } 6)).evhead = 1 := by decide +kernel

/-- A spill and a fill that no thread executes are inside their limits. -/
theorem test_hyp_idle_spill :
    ([AccKind.store, .load].all fun k => (okM (checkAReg ((stM.warp c0.ref).aGet 2) ⟨k, 2, 1, 0, 4⟩ (fun _ => none) [])).isSome) = true ∧
    c0.executes stM ⟨false, 2, 0, 0⟩ = false ∧ c0.guardMarks stM ⟨false, 2, 0, 0⟩ = 0 := by decide +kernel

theorem test_idle_spill : ([Instr.stSpill ⟨false, 2, 0, 0⟩ (bM (.v 3) 2 2 1 1), .ldFill ⟨false, 2, 0, 0⟩ (bM (.v 3) 2 2 1 1)].map fun i =>
    ((after i stM).warp c0.ref).aGet 2).map (fun a => a.ptr) = [0x10004, 0x10004] := by decide +kernel

/-- Behind a fence an AINIT is held, and a copy joins without its locks. -/
def fencedE : State := again (after (.fence hd 3) { after (.st hf (bM (.v 4))) stE with cur := st0.cur })

theorem test_hyp_held :
    [stM, fencedE].map (fun s => s.fencePending 0 c0.party s.nextId) = [false, true] ∧ fencedE.ctx? = some c0 ∧ c0.executes fencedE hd = true ∧
    [stE, matE 1].map (fun s => s.unlocked 0 c0.party s.nextId) = [false, false] := by decide +kernel

theorem test_held :
    (opsOf (after (.ainit hd (bA (.sp 9) (.u 4) (.imm 0x20) (.imm 3))) fencedE)).map (fun o => o.eff.isHeld) = [false, false, true] ∧
    ((after (.ainit hd (bA (.sp 9) (.u 4) (.imm 0x20) (.imm 3))) fencedE).warp c0.ref).aGet 9 = AReg.zero ∧
    ((after (.cpy hf 2) fencedE).wg? 1).map (fun g => (g.chan_ 1).ops.length) = some 1 ∧ ((after (.cpy hf 2) fencedE).core 0).locks = [] := by
  decide +kernel

/-- Launched accesses leave no ghost lane. -/
theorem test_hyp_ghost : ([stored, loading, spilled].all fun s => (opsOf s).all fun o => o.lanes.all fun l => !l.ghost) = true := by decide +kernel

/-- A screen copy and a clause that is no control clause. -/
theorem test_hyp_system_instruction :
    (withWg fun g => { g with copyOf := some 5 }).inCopy c0 = true ∧ st0.inCopy c0 = false ∧
    Next.legal ⟨0, 0x40000000000000a5, 0, none⟩ 8 (.halt hd (bS)) = true := by decide +kernel

/-- R116: where no value of a word is on its way, the line leaves its slice, and what waits in it goes to the stack (log 80). -/
theorem test_writeBack_line : sentOf (heldS.drainCell (33 * 65536)) = [some true, some false] := by decide +kernel
end Sys2Proof.Tests
end

section
/-! The rename map: what MAPQ reads (R70). -/

namespace Sys2Proof.Machine

/-! ### The word of MAPQ -/

theorem State.mapWord_of_unmapped {s : State} {c : Ctx} {n : Nat} (hn : (s.warp c.ref).nameRow n = none) :
    s.mapWord c n = 0 := by
  simp only [State.mapWord, hn]

theorem State.mapWord_of_mapped {s : State} {c : Ctx} {n r : Nat} (hn : (s.warp c.ref).nameRow n = some r) :
    s.mapWord c n =
      BitVec.ofNat 32 (2 ^ 31 + (if 3072 ≤ r then 2 ^ 30 else 0) + (if s.shared c.ref r then 2 ^ 29 else 0) +
        (s.getRow (s.rowId c.ref r)).ref % 16 * 2 ^ 24 + r % 2 ^ 14) := by
  simp only [State.mapWord, hn]

/-! ### MAPQ as an instruction of the uniform datapath -/

/-- A uniform destination with no sources covers no name: nothing can be unmapped, and nothing can race. -/
theorem State.aluReady_uniform (s : State) (c : Ctx) (h : Head) (d : BitVec 8) (wide : Bool) :
    s.aluReady c h (.u d) wide [] := by
  constructor <;> simp [State.namesFree, namesOf]

/-- On a uniform destination with no sources and a fixed value, `alu` only writes the register, or keeps it. -/
theorem alu_uniform_const (s : State) (c : Ctx) (h : Head) (d : BitVec 8) (x : DWord) :
    alu s c h (.u d) false [] (fun _ _ => (x, false)) =
      if c.executes s h then .ok (s.writeU c d.toNat false x (c.guardMarks s h != 0))
      else .ok (s.keepU c d.toNat false (c.guardMarks s h != 0)) := by
  simp only [alu, namesOf, List.flatMap_nil, List.append_nil, checkNames, State.rowAccess, bind, Except.bind, Bool.false_or]

theorem exec_mapq (h : Head) (b : BodyA) (s : State) : exec (.mapq h b) s = execMapq h b s := rfl

/-- MAPQ into a uniform register writes the word of its source's entry, whatever the entry holds. -/
theorem exec_mapq_writes {s : State} {c : Ctx} {h : Head} {b : BodyA} {d : BitVec 8} (hc : s.ctx? = some c)
    (hd : b.dst = .u d) :
    s.writes c h (.mapq h b) b.dst false fun _ => ((s.mapWord c b.sa.idx).setWidth 64, false) := by
  unfold State.writes
  rw [exec_mapq, hd]
  refine runOp_alu (f := fun _ _ => ((s.mapWord c b.sa.idx).setWidth 64, false)) hc ?_
    (s.aluReady_uniform c h d false) (fun _ _ => rfl)
  rw [alu_uniform_const, hd]
  rfl

/-- Settles O11: MAPQ writes the word of the entry, in the two cases of R70, an unmapped and a mapped name. -/
theorem mapQuery : Obligations.MapQuery := by
  intro s c h b d hc hd
  have hw := exec_mapq_writes (h := h) hc hd
  cases hn : (s.warp c.ref).nameRow b.sa.idx with
  | none => rwa [State.mapWord_of_unmapped hn] at hw
  | some r => rwa [State.mapWord_of_mapped hn] at hw

end Sys2Proof.Machine
end

section
/-! What a trap of an instruction leaves in the state (R182, R341), and how a screen copy ends instead (R429). -/

namespace Sys2Proof.Machine

/-! ### The states and warps that a trap goes through -/

theorem Warp.thread_modThreads (x : Warp) (m : Mask) (f : Nat → Thread → Thread) {l : Nat} (hl : l < 32) :
    (x.modThreads m f).thread l = if m.has l then f l (x.thread l) else x.thread l := by
  rw [Warp.thread, Warp.modThreads, Lanes.getD_build _ _ hl]

theorem State.modWg_cores (s : State) (i : Nat) (f : Wg → Wg) : (s.modWg i f).cores = s.cores := by
  unfold State.modWg; split <;> rfl

/-- A workgroup's warp stands in a workgroup that is no supervisor's. -/
theorem State.wg?_of_warp? {s : State} {i j : Nat} {x : Warp} (h : s.warp? (.user i j) = some x) :
    i < supBase ∧ ∃ g, s.wg? i = some g := by
  simp only [State.warp?, Option.ite_none_right_eq_some, Option.bind_eq_some_iff] at h
  obtain ⟨hi, g, hg, -⟩ := h
  exact ⟨hi, g, hg⟩

theorem State.near.copyWg {s t : State} {w : WRef} (h : s.near t w) (i : Nat) : t.copyWg i = s.copyWg i := by
  have hg := h.wg i (fun g => g.copyOf.isSome) false fun _ => rfl
  simp only [State.copyWg]
  cases ht : t.wg? i <;> cases hs : s.wg? i <;> simp_all

theorem State.warp_supStops (s : State) (n : Nat) : (s.supStops n).warp (.sup n) = s.warp (.sup n) := by
  show ((s.modCore n fun k => { k with halted := true }).core n).sup = (s.core n).sup
  rw [State.core_modCore_same]

theorem State.moved.only {s t : State} {c : Ctx} (h : s.moved t c.ref) : s.only t c where
  outside := h.toNear.outside
  rows i _ := .inl (h.rows i)
  warp := h.still

theorem State.ctxOf_of_ctx? {s : State} {c : Ctx} (h : s.ctx? = some c) : c.ctx = s.ctxOf c.ref := by
  unfold State.ctx? at h
  split at h
  · split at h
    · cases h
    · cases h; rfl
  · cases h

/-! ### A trap outside a screen copy -/

/-- The warp with the record `e` of a trap: the threads of the trapping group stand at the logged PC. -/
def Warp.stopAt (x : Warp) (r : TrapReq) (e : TrapRec) (cl : Option (DWord × DWord)) : Warp :=
  { x.modThreads r.group fun _ t => { t with pc := r.pc, clause := cl } with trap := some e }

theorem Warp.thread_stopAt (x : Warp) (r : TrapReq) (e : TrapRec) (cl : Option (DWord × DWord)) {l : Nat} (hl : l < 32) :
    (x.stopAt r e cl).thread l = if r.group.has l then { x.thread l with pc := r.pc, clause := cl } else x.thread l :=
  x.thread_modThreads r.group (fun _ t => { t with pc := r.pc, clause := cl }) hl

theorem State.warp_takeTrap {s : State} {c : Ctx} {y : Warp} (hy : s.warp? c.ref = some y) (hcopy : s.inCopy c = false)
    (r : TrapReq) (cl : Option (DWord × DWord)) :
    (s.takeTrap c.ref r cl).warp c.ref =
      (s.warp c.ref).stopAt r (r.record (s.ctxOf c.ref) (s.slotOfCtx c) c.ref.index (s.core (s.coreOf c.ref)).cycle) cl := by
  have hset := fun x => State.warp_eq (State.warp?_setWarp_same x hy)
  obtain ⟨w, _, _, _, _, _, _, _⟩ := c
  cases w with
  | user i j =>
    have hout : ∀ x, (s.setWarp (.user i j) x).copyWg i = false := fun x => ((s.near_setWarp _ x).copyWg i).trans hcopy
    simp only [State.takeTrap, hout, Bool.false_eq_true, if_false]
    exact hset _
  | sup n => exact (State.warp_supStops _ n).trans (hset _)

/-- A trap of the instruction that runs is precise (R182, R341), unless its workgroup is a screen copy. -/
theorem State.trapAt_precise {s : State} {c : Ctx} (hc : s.ctx? = some c) (hcopy : s.inCopy c = false) (h : Head)
    (d : Detail) : s.trapsPrecisely (s.trapAt c h d) c h d := by
  obtain ⟨y, hy⟩ := State.warp?_of_ctx? hc
  have hwarp := fun r cl => State.warp_takeTrap hy hcopy r cl
  rw [← State.ctxOf_of_ctx? hc] at hwarp
  refine ⟨⟨_, congrArg Warp.trap (hwarp _ _), rfl, rfl, rfl, rfl, rfl, rfl, rfl, rfl⟩, (State.takeTrap_moved hy _ _).only, ?_, ?_⟩
  · intro l hl hin
    rw [State.lane, State.trapAt, hwarp, Warp.thread_stopAt _ _ _ _ hl, if_pos hin]
  · intro l hl hout
    rw [State.lane, State.trapAt, hwarp, Warp.thread_stopAt _ _ _ _ hl, hout]; rfl

/-! ### A trap in a screen copy -/

/-- The record of a trap in a screen copy is dropped, and the copy ends (R429). -/
theorem State.takeTrap_of_copy {s : State} {i j : Nat} (hcopy : s.copyWg i = true) (r : TrapReq)
    (cl : Option (DWord × DWord)) :
    ∃ x, s.takeTrap (.user i j) r cl =
      ((s.setWarp (.user i j) x).modWarp (.user i j) fun x => { x with trap := none }).copyFails i :=
  ⟨_, if_pos (((s.near_setWarp _ _).copyWg i).trans hcopy)⟩

theorem State.wg?_copyFails {s : State} {i : Nat} {g : Wg} (hi : i < supBase) (hg : s.wg? i = some g) :
    (s.copyFails i).wg? i = some { g with copyFault := true, frozen := true } := by
  rw [State.copyFails, State.wg?_modWg_same _ _ hi, hg]; rfl

/-- In a screen copy a trap marks the copy as failed and touches neither memory nor a core (R429). -/
theorem State.takeTrap_copy {s : State} {i j : Nat} {y : Warp} (hy : s.warp? (.user i j) = some y)
    (hcopy : s.copyWg i = true) (r : TrapReq) (cl : Option (DWord × DWord)) :
    ∃ g, (s.takeTrap (.user i j) r cl).wg? i = some g ∧ g.copyFault = true ∧
      (s.takeTrap (.user i j) r cl).mem = s.mem ∧ (s.takeTrap (.user i j) r cl).cores = s.cores := by
  obtain ⟨x, hx⟩ := State.takeTrap_of_copy (j := j) hcopy r cl
  have hwarp := State.warp?_modWarp_same (fun x => { x with trap := none }) (State.warp?_setWarp_same x hy)
  obtain ⟨hi, g, hg⟩ := State.wg?_of_warp? hwarp
  rw [hx]
  refine ⟨_, State.wg?_copyFails hi hg, rfl, ?_, ?_⟩
  · exact (State.sameRest_trans (State.sameRest_trans (s.setWarp_rest _ x) (State.modWarp_rest _ _ _))
      (State.modWg_rest _ _ _)).mem
  · simp only [State.copyFails, State.modWarp, State.setWarp, State.modWg_cores]

end Sys2Proof.Machine
end

section
/-! The system instructions (R335 to R337): where they stand, who encodes them, and what they do in a user warp. -/

namespace Sys2Proof

/-! ### No Beryl word decodes to an instruction of a clause -/

theorem rawXfar_admitted {f3 f7 : Nat} {b : BodyX} {i : Instr} (h : rawXfar f3 f7 b = some i) : i.admitted = [] := by
  unfold rawXfar at h
  split at h <;> cases h <;> rfl

theorem rawSystem_admitted {w : BitVec 32} {f3 : Nat} {rd rs1 : BitVec 5} {i : Instr} (h : rawSystem w f3 rd rs1 = some i) :
    i.admitted = [] := by
  unfold rawSystem at h
  simp only at h
  split at h
  · split at h
    · split at h
      · cases h; rfl
      · split at h <;> cases h; rfl
    · cases h
  · obtain ⟨f, -, rfl⟩ := Option.map_eq_some_iff.1 h
    split <;> rfl

theorem rawBeryl_admitted {w : BitVec 32} {i : Instr} (h : rawBeryl w = some i) : i.admitted = [] := by
  unfold rawBeryl at h
  simp only at h
  split at h
  · exact rawXfar_admitted h
  · exact rawSystem_admitted h
  · obtain ⟨r, -, rfl⟩ := Option.map_eq_some_iff.1 h; rfl

/-- No clause class admits what a 32-bit Beryl word says. -/
theorem decodeBeryl_admitted {w : BitVec 32} {i : Instr} (h : decodeBeryl w = some i) : i.admitted = [] := by
  unfold decodeBeryl at h
  split at h
  · next j hj => split at h <;> cases h; exact rawBeryl_admitted hj
  · cases h

/-- No clause class admits what a compressed Beryl halfword says. -/
theorem decodeCompressed_admitted {w : BitVec 16} {i : Instr} (h : decodeCompressed w = some i) : i.admitted = [] := by
  unfold decodeCompressed at h
  split at h
  · split at h <;> cases h; rfl
  · cases h

end Sys2Proof

namespace Sys2Proof.Machine

/-- A word is legal only in a clause whose class admits its instruction (R161). -/
theorem Next.legal_admitted {n : Next} {pc : DWord} {i : Instr} (h : n.legal pc i = true) :
    ∃ k ∈ i.admitted, ClauseClass.of (hdrClass n.hdr) = some k := by
  obtain ⟨hadm, -⟩ := Bool.and_eq_true_iff.1 h
  split at hadm
  · next k hk => exact ⟨k, List.contains_iff_mem.1 hadm, hk⟩
  · cases hadm

/-! ### The forms of the system instructions -/

/-- The instructions of opcodes 0x170 to 0x177 (R337). -/
def systemForms : List (Head → BodyS → Instr) := [.rdsr, .wrsr, .eret, .savewg, .restwg, .tlbi, .flushs, .halt]

theorem admitted_of_systemForms {p : Head → BodyS → Instr} (hp : p ∈ systemForms) (h : Head) (b : BodyS) :
    (p h b).admitted = [.ctl] := by
  simp only [systemForms, List.mem_cons, List.not_mem_nil, or_false] at hp
  rcases hp with rfl | rfl | rfl | rfl | rfl | rfl | rfl | rfl <;> rfl

/-! ### In a user warp -/

theorem runNav_trap {s : State} {h : Head} {c : Ctx} {d : Detail} {body : Ctx → M State} (hc : s.ctx? = some c)
    (hb : body c = .error (.trap d)) : runNav s h body = .next (s.trapAt c h d) := by
  unfold runNav; simp [hc, hb]

/-- A user warp does not reach the meaning of a system instruction. -/
theorem system_user {s : State} {c : Ctx} {i w : Nat} (hr : c.ref = .user i w) (h : Head) (dst : Option (Nat × Bool))
    (body : Nat → Bool → M State) : system s c h dst body = .error (.trap (.code_ 0x1e0)) := by
  simp only [system, hr]; rfl

/-- ERET, which places its threads itself, has a check of its own. -/
theorem execEret_user {s : State} {c : Ctx} {i w : Nat} (hc : s.ctx? = some c) (hr : c.ref = .user i w) (h : Head)
    (b : BodyS) : execEret h b s = .next (s.trapAt c h (.code_ 0x1e0)) :=
  runNav_trap hc (by simp only [hr]; rfl)

theorem exec_systemForms_user {p : Head → BodyS → Instr} (hp : p ∈ systemForms) {s : State} {c : Ctx} {i w : Nat}
    (hc : s.ctx? = some c) (hr : c.ref = .user i w) (h : Head) (b : BodyS) :
    exec (p h b) s = .next (s.trapAt c h (.code_ 0x1e0)) := by
  simp only [systemForms, List.mem_cons, List.not_mem_nil, or_false] at hp
  rcases hp with rfl | rfl | rfl | rfl | rfl | rfl | rfl | rfl
  case inr.inr.inl => exact execEret_user hc hr h b -- ERET, the third form
  all_goals exact runOp_trap hc (system_user hr h _ _)

/-- Settles O37: the classes that admit an instruction keep it out of other clauses and out of Beryl words; in a user warp it only traps,
precisely, or ends the screen copy. -/
theorem systemTrapsInUserWarps : Obligations.SystemTrapsInUserWarps := by
  intro p hp h b
  have hadm : (p h b).admitted = [.ctl] := admitted_of_systemForms hp h b
  have hne : (p h b).admitted ≠ [] := by simp [hadm]
  refine ⟨hadm, fun w hw => hne (decodeBeryl_admitted hw), fun w hw => hne (decodeCompressed_admitted hw), ?_, ?_⟩
  · intro n pc hlegal
    obtain ⟨k, hk, hclass⟩ := Next.legal_admitted hlegal
    rw [hadm, List.mem_singleton] at hk
    rw [hclass, hk]
  · intro s c i w hc hr
    have hexec := exec_systemForms_user hp hc hr h b
    refine ⟨fun hcopy => ⟨_, hexec, State.trapAt_precise hc hcopy h _⟩, fun hcopy => ?_⟩
    obtain ⟨y, hy⟩ := State.warp?_of_ctx? hc
    rw [hr] at hy
    simp only [State.inCopy, hr] at hcopy
    simp only [State.trapAt, hr] at hexec
    obtain ⟨g, hg, hfault, hmem, hcores⟩ := State.takeTrap_copy hy hcopy _ _
    exact ⟨_, g, hexec, hg, hfault, hmem, hcores⟩

end Sys2Proof.Machine
end
